-- ==== Sys2Proof/Word.lean ====
section
/-!
DEFINITION. The word types of the Titan (spec/00_scope.md R6, R8) and the plainest names for them.
-/
namespace Sys2Proof

/-- A 32-bit word: the only unit a processor instruction moves (R80). Bit 31 is the most significant (R8). -/
abbrev Word := BitVec 32

/-- A byte, the unit memory is listed in. -/
abbrev Byte := BitVec 8

/-- A 64-bit quantity: the accumulator fraction, the time of day, an operand pair `ra : rb`. -/
abbrev Dword := BitVec 64

/-- A 6-bit register field of an instruction, 0 to 63 (R20). -/
abbrev RegField := BitVec 6

/-- A real line address: a real word address without its two low bits (R80, R90). -/
abbrev LineAddr := BitVec 30

/-- The number of one of the 4 x 64 general registers: bank, then register field (R20, R21). -/
abbrev RegIndex := BitVec 8

end Sys2Proof
end

