-- ==== Sys2Proof/Machine/Codec.lean ====
section
/-!
DEFINITION. The parameters that spec/30_encoding.md R131 and spec/00_scope.md R7 ask a model to take where a figure is
lost: where the bits of a word stand, and which number stands for which code. Each has the default of the spec as
`standard`, and any other choice as plain data.
-/
namespace Sys2Proof

/-- Where the bits of an n-bit image stand: as the default has them, or bit `i` of the default at place `p[i]`. -/
inductive Places (n : Nat) where
  | standard
  | placed (p : Vector (Fin n) n)
deriving DecidableEq, Repr

/-- No two bits stand at one place. -/
def Places.valid {n : Nat} (c : Places n) : Bool :=
  match c with
  | .standard => true
  | .placed p => decide p.toList.Nodup

/-- The default image of a stored word. -/
def Places.get {n : Nat} (c : Places n) (w : BitVec n) : BitVec n :=
  match c with
  | .standard => w
  | .placed p => BitVec.ofFnLE (fun i => w.getLsbD (p[i]).val)

/-- The stored word of a default image. -/
def Places.put {n : Nat} (c : Places n) (v : BitVec n) : BitVec n :=
  match c with
  | .standard => v
  | .placed p => BitVec.ofFnLE (fun j => (List.finRange n).any (fun i => p[i] == j && v.getLsbD i.val))

/-- The default image of a stored word of which only the low `k` bits have lost their places. -/
def Places.getBelow {n k : Nat} (c : Places k) (w : BitVec (n + k)) : BitVec (n + k) :=
  w.extractLsb' k n ++ c.get (w.extractLsb' 0 k)

/-- The stored word of such a default image. -/
def Places.putBelow {n k : Nat} (c : Places k) (v : BitVec (n + k)) : BitVec (n + k) :=
  v.extractLsb' k n ++ c.put (v.extractLsb' 0 k)

/-- Which number stands for a code of `k` bits: the default's own, or entry `v` of a table for code `v`. -/
inductive Codes (k : Nat) where
  | standard
  | coded (t : Vector (BitVec k) (2 ^ k))
deriving DecidableEq, Repr

/-- No two codes have one number. -/
def Codes.valid {k : Nat} (c : Codes k) : Bool :=
  match c with
  | .standard => true
  | .coded t => decide t.toList.Nodup

/-- The default code that a stored number stands for. -/
def Codes.get {k : Nat} (c : Codes k) (w : BitVec k) : BitVec k :=
  match c with
  | .standard => w
  | .coded t => BitVec.ofNat k (t.toList.idxOf w)

/-- The stored number of a default code. -/
def Codes.put {k : Nat} (c : Codes k) (v : BitVec k) : BitVec k :=
  match c with
  | .standard => v
  | .coded t => t[v.toNat]'(v.isLt)

/-- `CJUMP_LOWBITS` (spec/93_implementation_defined.md U9): which relation a conditional jump tests where the low bits
of its condition are not zero. -/
inductive CjumpLowBits where
  /-- The default: bits 5..3 alone say it. -/
  | ignored
  /-- Entry `c` of a table for condition code `c`. -/
  | related (t : Vector (BitVec 3) 64)
deriving DecidableEq, Repr

/-- The eight listed codes, multiples of 8, keep their relation (R143). -/
def CjumpLowBits.valid (c : CjumpLowBits) : Bool :=
  match c with
  | .ignored => true
  | .related t => decide (∀ k : Fin 8, t[8 * k.val] = BitVec.ofNat 3 k.val)

/-- A condition with its relation in bits 5..3. -/
def CjumpLowBits.settle (c : CjumpLowBits) (cond : BitVec 6) : BitVec 6 :=
  match c with
  | .ignored => cond
  | .related t => t[cond.toNat]'(cond.isLt) ++ cond.extractLsb' 0 3

/-- What an ALU word with sh = 0 and sb = 1 does (U24). -/
inductive SbAlone where
  /-- The default: sb is ignored. -/
  | ignored
  /-- It writes any value. -/
  | anyValue
deriving DecidableEq, Repr

/-- The encoding parameters of R131, and what spec/93_implementation_defined.md section 2 makes a parameter beside
them. -/
structure Encoding where
  /-- `OPC`: the number of each of the sixteen operations (R134). -/
  opc : Codes 4
  /-- `FMT_R_RC`, `FMT_R_MISC`: rc and the miscellaneous field in the low half of a word of format R (R133). -/
  formatR : Places 16
  /-- `ALU_BITS`: literal, sh, sb and function in the miscellaneous field (R140). -/
  aluBits : Places 10
  /-- `ALU_LE_CODES`: the number of each function code where sh = 0, so that `<=` and `<=u` can have the 34 and 35 that
  Figure 4-39 prints (R140, R273, spec/90_conflicts.md C1). -/
  aluFunctions : Codes 7
  /-- `EXTRACT_CODEC`: the code of shift and mask (R139). -/
  extractCodec : Codes 10
  /-- `VEXT_CODEC`: the code of size and inv (R141). -/
  vextCodec : Codes 7
  /-- `COP_BITS`: result, op and func in the miscellaneous field (R142). -/
  copBits : Places 10
  /-- `TRAP_LIT`: the literal in the 28 bits after a trap's opcode (R138). -/
  trapLit : Places 28
  /-- `SPECIAL_MISC`: the miscellaneous code of a cache read (R137). -/
  specialMisc : Codes 6
  /-- `CJUMP_LOWBITS` (U9). -/
  cjumpLow : CjumpLowBits
  /-- sb without sh (U24). -/
  sbAlone : SbAlone
deriving DecidableEq, Repr

/-- The encoding with every default of R131, U9 and U24. -/
def Encoding.standard : Encoding :=
  { opc := .standard, formatR := .standard, aluBits := .standard, aluFunctions := .standard,
    extractCodec := .standard, vextCodec := .standard, copBits := .standard, trapLit := .standard,
    specialMisc := .standard, cjumpLow := .ignored, sbAlone := .ignored }

/-- Each parameter is one to one, and special has the number 1 that the source gives it (R134). -/
def Encoding.valid (e : Encoding) : Bool :=
  e.opc.valid && e.formatR.valid && e.aluBits.valid && e.aluFunctions.valid && e.extractCodec.valid &&
  e.vextCodec.valid && e.copBits.valid && e.trapLit.valid && e.specialMisc.valid && e.cjumpLow.valid &&
  decide (e.opc.put 1#4 = 1#4)

/-- `TFR_FORMAT`: the page number as a byte address (R185, D13), or its 22 bits at given places. -/
inductive TfrFormat where
  | byteAddress
  | pagePlaced (p : Places 32)
deriving DecidableEq, Repr

/-- `FP_OP` (spec/47_coprocessor.md R312): which of its two neighbours a floating result takes that the precision does
not represent. -/
inductive Rounding where
  /-- The default of D29: the nearest one, and of two equally near the larger in magnitude. -/
  | nearestAway
  /-- Another function of the operation and its operands, which stays unknown. -/
  | other
deriving DecidableEq, Repr

/-- The register and operand layouts that R7 names (D11 to D14, D34), those of the TNA (R446) and of the clock/scan
module (R439), and the floating point function `FP_OP` (R312). -/
structure Layout where
  /-- `PSW_LAYOUT`: the trap bits and the literal in bits 12..0; R33 fixes the places of the fields above (D11). -/
  psw : Places 13
  /-- `IOSTATUS_LAYOUT` (R57). -/
  ioStatus : Places 32
  /-- `EVENT_IOINT`: ioInt in bits 31..4 of Event (R58). -/
  eventIoInt : Places 28
  /-- `TFR_FORMAT` (R185). -/
  tfr : TfrFormat
  /-- `COP_STATUS_LAYOUT`: bits 30..0 of the coprocessor status word; R293 fixes neg in bit 31. -/
  copStatus : Places 31
  /-- `FP_LAYOUT` of an F word (R297). -/
  fWord : Places 32
  /-- `FP_LAYOUT` of a G pair (R297). -/
  gPair : Places 64
  /-- The TNA's status and control register (R446). -/
  tnaStatus : Places 32
  /-- The clock/scan module's ModeA register (R439, log 68). -/
  csmModeA : Places 8
  /-- Its ModeB register (R439, log 68). -/
  csmModeB : Places 8
  /-- `FP_OP` (R312, D29, log 44). -/
  fpOp : Rounding
deriving DecidableEq, Repr

/-- The layouts and `FP_OP` with every default. -/
def Layout.standard : Layout :=
  { psw := .standard, ioStatus := .standard, eventIoInt := .standard, tfr := .byteAddress, copStatus := .standard,
    fWord := .standard, gPair := .standard, tnaStatus := .standard, csmModeA := .standard, csmModeB := .standard,
    fpOp := .nearestAway }

/-- The format of the fault registers is one to one. -/
def TfrFormat.valid (f : TfrFormat) : Bool :=
  match f with
  | .byteAddress => true
  | .pagePlaced p => p.valid

/-- Each layout is one to one. -/
def Layout.valid (l : Layout) : Bool :=
  l.psw.valid && l.ioStatus.valid && l.eventIoInt.valid && l.tfr.valid && l.copStatus.valid && l.fWord.valid &&
  l.gPair.valid && l.tnaStatus.valid && l.csmModeA.valid && l.csmModeB.valid

/-- A fault register's image (R185). -/
def TfrFormat.image (f : TfrFormat) (page : BitVec 22) : Word :=
  match f with
  | .byteAddress => page.setWidth 32 <<< 12
  | .pagePlaced p => p.put (page.setWidth 32)

end Sys2Proof
end

