-- ==== Sys2Proof/Syntax.lean ====
section
/-!
DEFINITION. The instructions, one constructor for each row of spec/opcode_table.json, on decoded fields. A register
field is 6 bits (R20); a displacement 16 bits, in words (R150); `lit` is the ALU literal bit (R151), with which `ra`
is a value and not a register. Field values are the instruction's; what they mean is in Machine/.
-/
namespace Sys2Proof

/-- The result selector of a coprocessor instruction, in code order 0 to 7 (R292). -/
inductive CopResult where
  | sign
  | exp
  | inth
  | intl
  | dph
  | dpl
  | sp
  | null
deriving DecidableEq, Repr, Inhabited

/-- An instruction of the Titan. -/
inductive Instr where
  /-- abort: `abort [ra, rb];` (R170). -/
  | abort (ra rb : RegField) (disp : BitVec 16)
  /-- ReadStatus: `ra := special ReadStatus[r0];` (R181). -/
  | readStatus (ra rb : RegField)
  /-- ReadPcQ: `ra := special ReadPcQ[r0];` (R182). -/
  | readPcQ (ra rb : RegField)
  /-- WriteStatus: `ra := special WriteStatus[r0];` (R184). -/
  | writeStatus (ra rb : RegField)
  /-- ReadInstTFR: `ra := special ReadInstTFR[r0];` (R186). -/
  | readInstTFR (ra rb : RegField)
  /-- ReadDataTFR: `ra := special ReadDataTFR[r0];` (R187). -/
  | readDataTFR (ra rb : RegField)
  /-- ReadInstTlbTag0: `ra := special ReadInstTlbTag0[rb];` (R188). -/
  | readInstTlbTag0 (ra rb : RegField)
  /-- ReadInstTlbTag1: `ra := special ReadInstTlbTag1[rb];` (R188). -/
  | readInstTlbTag1 (ra rb : RegField)
  /-- ReadDataTlbTag0: `ra := special ReadDataTlbTag0[rb];` (R189). -/
  | readDataTlbTag0 (ra rb : RegField)
  /-- ReadDataTlbTag1: `ra := special ReadDataTlbTag1[rb];` (R189). -/
  | readDataTlbTag1 (ra rb : RegField)
  /-- ReadInstTlbData0: `ra := special ReadInstTlbData0[rb];` (R190). -/
  | readInstTlbData0 (ra rb : RegField)
  /-- ReadInstTlbData1: `ra := special ReadInstTlbData1[rb];` (R190). -/
  | readInstTlbData1 (ra rb : RegField)
  /-- ReadDataTlbData0: `ra := special ReadDataTlbData0[rb];` (R191). -/
  | readDataTlbData0 (ra rb : RegField)
  /-- ReadDataTlbData1: `ra := special ReadDataTlbData1[rb];` (R191). -/
  | readDataTlbData1 (ra rb : RegField)
  /-- WriteInstTlbTag0: `r0 := special WriteInstTlbTag0[rb];` (R194). -/
  | writeInstTlbTag0 (ra rb : RegField)
  /-- WriteInstTlbTag1: `r0 := special WriteInstTlbTag1[rb];` (R194). -/
  | writeInstTlbTag1 (ra rb : RegField)
  /-- WriteDataTlbTag0: `r0 := special WriteDataTlbTag0[rb];` (R195). -/
  | writeDataTlbTag0 (ra rb : RegField)
  /-- WriteDataTlbTag1: `r0 := special WriteDataTlbTag1[rb];` (R195). -/
  | writeDataTlbTag1 (ra rb : RegField)
  /-- WriteInstTlbData0: `r0 := special WriteInstTlbData0[rb];` (R197). -/
  | writeInstTlbData0 (ra rb : RegField)
  /-- WriteInstTlbData1: `r0 := special WriteInstTlbData1[rb];` (R197). -/
  | writeInstTlbData1 (ra rb : RegField)
  /-- WriteDataTlbData0: `r0 := special WriteDataTlbData0[rb];` (R198). -/
  | writeDataTlbData0 (ra rb : RegField)
  /-- WriteDataTlbData1: `r0 := special WriteDataTlbData1[rb];` (R198). -/
  | writeDataTlbData1 (ra rb : RegField)
  /-- GetCtl: `ra := special GetCtl[ioReg];` (R211). -/
  | getCtl (ra rb : RegField)
  /-- SetCtl: `r0 := special SetCtl[ioReg];` (R212). -/
  | setCtl (ra rb : RegField)
  /-- IoRead: `r0 := special IoRead[ioReg];` (R213). -/
  | ioRead (ra rb : RegField)
  /-- IoWrite: `r0 := special IoWrite[ioReg];` (R214). -/
  | ioWrite (ra rb : RegField)
  /-- kernelExit: `r0 := kernelExit disp[r0];` (R225). -/
  | kernelExit (ra rb : RegField) (disp : BitVec 16)
  /-- pseudoCall: `r0 := pseudoCall disp[rb];` (R229). -/
  | pseudoCall (ra rb : RegField) (disp : BitVec 16)
  /-- flush: `flush disp[rb];` (R233). -/
  | flush (ra rb : RegField) (disp : BitVec 16)
  /-- load: `ra := (disp[rb]);` (R241). -/
  | load (ra rb : RegField) (disp : BitVec 16)
  /-- store: `(disp[rb]) := ra;` (R242). -/
  | store (ra rb : RegField) (disp : BitVec 16)
  /-- goto: `ra := goto disp[rb];` (R250). -/
  | goto (ra rb : RegField) (disp : BitVec 16)
  /-- cjump.eq: `if ra = 0 goto disp[pc];` (R255). -/
  | cjumpEq (ra : RegField) (disp : BitVec 16)
  /-- cjump.ne: `if ra <> 0 goto disp[pc];` (R255). -/
  | cjumpNe (ra : RegField) (disp : BitVec 16)
  /-- cjump.lt: `if ra < 0 goto disp[pc];` (R255). -/
  | cjumpLt (ra : RegField) (disp : BitVec 16)
  /-- cjump.ge: `if ra >= 0 goto disp[pc];` (R255). -/
  | cjumpGe (ra : RegField) (disp : BitVec 16)
  /-- cjump.gt: `if ra > 0 goto disp[pc];` (R255). -/
  | cjumpGt (ra : RegField) (disp : BitVec 16)
  /-- cjump.le: `if ra <= 0 goto disp[pc];` (R255). -/
  | cjumpLe (ra : RegField) (disp : BitVec 16)
  /-- cjump.odd: `if ra odd goto disp[pc];` (R255). -/
  | cjumpOdd (ra : RegField) (disp : BitVec 16)
  /-- cjump.even: `if ra even goto disp[pc];` (R255). -/
  | cjumpEven (ra : RegField) (disp : BitVec 16)
  /-- extract: `rc := ra,rb.[shift:mask];` (R260). -/
  | extract (ra rb rc : RegField) (shift mask : Nat)
  /-- alu.add: `rc := ra + rb;` (R268). -/
  | aluAdd (lit : Bool) (ra rb rc : RegField)
  /-- alu.add1: `rc := ra + rb + 1` (R268). -/
  | aluAdd1 (lit : Bool) (ra rb rc : RegField)
  /-- alu.rsub: `rc := rb - ra` (R268). -/
  | aluRsub (lit : Bool) (ra rb rc : RegField)
  /-- alu.rsub1: `rc := rb - ra - 1` (R268). -/
  | aluRsub1 (lit : Bool) (ra rb rc : RegField)
  /-- alu.sub: `rc := ra - rb;` (R268). -/
  | aluSub (lit : Bool) (ra rb rc : RegField)
  /-- alu.sub1: `rc := ra - rb - 1` (R268). -/
  | aluSub1 (lit : Bool) (ra rb rc : RegField)
  /-- alu.neg: `rc := -ra;` (R268). -/
  | aluNeg (lit : Bool) (ra rb rc : RegField)
  /-- alu.negm1: `rc := -ra - 1` (R268). -/
  | aluNegm1 (lit : Bool) (ra rb rc : RegField)
  /-- alu.gt: `rc := ra > rb;` (R272). -/
  | aluGt (lit : Bool) (ra rb rc : RegField)
  /-- alu.gtu: `rc := ra >u rb;` (R272). -/
  | aluGtu (lit : Bool) (ra rb rc : RegField)
  /-- alu.ge: `rc := ra >= rb;` (R272). -/
  | aluGe (lit : Bool) (ra rb rc : RegField)
  /-- alu.geu: `rc := ra >=u rb;` (R272). -/
  | aluGeu (lit : Bool) (ra rb rc : RegField)
  /-- alu.lt: `rc := ra < rb;` (R272). -/
  | aluLt (lit : Bool) (ra rb rc : RegField)
  /-- alu.ltu: `rc := ra <u rb;` (R272). -/
  | aluLtu (lit : Bool) (ra rb rc : RegField)
  /-- alu.le: `rc := ra <= rb;` (R272). -/
  | aluLe (lit : Bool) (ra rb rc : RegField)
  /-- alu.leu: `rc := ra <=u rb;` (R272). -/
  | aluLeu (lit : Bool) (ra rb rc : RegField)
  /-- alu.eqv: `rc := ra eqv rb;` (R269). -/
  | aluEqv (lit : Bool) (ra rb rc : RegField)
  /-- alu.xor: `rc := ra xor rb;` (R269). -/
  | aluXor (lit : Bool) (ra rb rc : RegField)
  /-- alu.or: `rc := ra or rb;` (R269). -/
  | aluOr (lit : Bool) (ra rb rc : RegField)
  /-- alu.movb: `rc := rb;` (R270). -/
  | aluMovb (lit : Bool) (ra rb rc : RegField)
  /-- alu.not: `rc := not ra;` (R269). -/
  | aluNot (lit : Bool) (ra rb rc : RegField)
  /-- alu.mova: `rc := ra;` (R270). -/
  | aluMova (lit : Bool) (ra rb rc : RegField)
  /-- alu.and: `rc := ra and rb;` (R269). -/
  | aluAnd (lit : Bool) (ra rb rc : RegField)
  /-- alu.zero: `(select F) rc := 0` (R269). -/
  | aluZero (lit : Bool) (ra rb rc : RegField)
  /-- alu.vext: `rc := ra,rb.(size:b);` (R276). -/
  | aluVext (lit : Bool) (ra rb rc : RegField) (size : Nat)
  /-- alu.bext: `rc := ra,rb.(size:o);` (R278). -/
  | aluBext (lit : Bool) (ra rb rc : RegField) (inv : Bool) (size : Nat)
  /-- cop.load.i: `rc := ra,rb(result,load,i);` (R301). -/
  | copLoadI (result : CopResult) (ra rb rc : RegField)
  /-- cop.load.f: `rc := ra,rb(result,load,f);` (R299). -/
  | copLoadF (result : CopResult) (ra rb rc : RegField)
  /-- cop.load.gf: `rc := ra,rb(result,load,gf);` (R299). -/
  | copLoadGf (result : CopResult) (ra rb rc : RegField)
  /-- cop.load.g: `rc := ra,rb(result,load,g);` (R299). -/
  | copLoadG (result : CopResult) (ra rb rc : RegField)
  /-- cop.add.i: `rc := ra,rb(result,add,i);` (R302). -/
  | copAddI (result : CopResult) (ra rb rc : RegField)
  /-- cop.add.f: `rc := ra,rb(result,add,f);` (R310). -/
  | copAddF (result : CopResult) (ra rb rc : RegField)
  /-- cop.add.fg: `rc := ra,rb(result,add,fg);` (R310). -/
  | copAddFg (result : CopResult) (ra rb rc : RegField)
  /-- cop.add.gf: `rc := ra,rb(result,add,gf);` (R310). -/
  | copAddGf (result : CopResult) (ra rb rc : RegField)
  /-- cop.add.g: `rc := ra,rb(result,add,g);` (R310). -/
  | copAddG (result : CopResult) (ra rb rc : RegField)
  /-- cop.subtract.i: `rc := ra,rb(result,subtract,i);` (R302). -/
  | copSubtractI (result : CopResult) (ra rb rc : RegField)
  /-- cop.subtract.f: `rc := ra,rb(result,subtract,f);` (R310). -/
  | copSubtractF (result : CopResult) (ra rb rc : RegField)
  /-- cop.subtract.fg: `rc := ra,rb(result,subtract,fg);` (R310). -/
  | copSubtractFg (result : CopResult) (ra rb rc : RegField)
  /-- cop.subtract.gf: `rc := ra,rb(result,subtract,gf);` (R310). -/
  | copSubtractGf (result : CopResult) (ra rb rc : RegField)
  /-- cop.subtract.g: `rc := ra,rb(result,subtract,g);` (R310). -/
  | copSubtractG (result : CopResult) (ra rb rc : RegField)
  /-- cop.rsubtract.i: `rc := ra,rb(result,rsubtract,i);` (R302). -/
  | copRsubtractI (result : CopResult) (ra rb rc : RegField)
  /-- cop.rsubtract.f: `rc := ra,rb(result,rsubtract,f);` (R310). -/
  | copRsubtractF (result : CopResult) (ra rb rc : RegField)
  /-- cop.rsubtract.fg: `rc := ra,rb(result,rsubtract,fg);` (R310). -/
  | copRsubtractFg (result : CopResult) (ra rb rc : RegField)
  /-- cop.rsubtract.gf: `rc := ra,rb(result,rsubtract,gf);` (R310). -/
  | copRsubtractGf (result : CopResult) (ra rb rc : RegField)
  /-- cop.rsubtract.g: `rc := ra,rb(result,rsubtract,g);` (R310). -/
  | copRsubtractG (result : CopResult) (ra rb rc : RegField)
  /-- cop.multiply.i: `rc := ra,rb(result,multiply,i);` (R303). -/
  | copMultiplyI (result : CopResult) (ra rb rc : RegField)
  /-- cop.multiply.f: `rc := ra,rb(result,multiply,f);` (R310). -/
  | copMultiplyF (result : CopResult) (ra rb rc : RegField)
  /-- cop.multiply.fg: `rc := ra,rb(result,multiply,fg);` (R310). -/
  | copMultiplyFg (result : CopResult) (ra rb rc : RegField)
  /-- cop.multiply.gf: `rc := ra,rb(result,multiply,gf);` (R310). -/
  | copMultiplyGf (result : CopResult) (ra rb rc : RegField)
  /-- cop.multiply.g: `rc := ra,rb(result,multiply,g);` (R310). -/
  | copMultiplyG (result : CopResult) (ra rb rc : RegField)
  /-- cop.divide.i: `rc := ra,rb(result,divide,i);` (R304). -/
  | copDivideI (result : CopResult) (ra rb rc : RegField)
  /-- cop.divide.f: `rc := ra,rb(result,divide,f);` (R310). -/
  | copDivideF (result : CopResult) (ra rb rc : RegField)
  /-- cop.divide.fg: `rc := ra,rb(result,divide,fg);` (R310). -/
  | copDivideFg (result : CopResult) (ra rb rc : RegField)
  /-- cop.divide.gf: `rc := ra,rb(result,divide,gf);` (R310). -/
  | copDivideGf (result : CopResult) (ra rb rc : RegField)
  /-- cop.divide.g: `rc := ra,rb(result,divide,g);` (R310). -/
  | copDivideG (result : CopResult) (ra rb rc : RegField)
  /-- cop.rdivide.i: `rc := ra,rb(result,rdivide,i);` (R304). -/
  | copRdivideI (result : CopResult) (ra rb rc : RegField)
  /-- cop.rdivide.f: `rc := ra,rb(result,rdivide,f);` (R310). -/
  | copRdivideF (result : CopResult) (ra rb rc : RegField)
  /-- cop.rdivide.fg: `rc := ra,rb(result,rdivide,fg);` (R310). -/
  | copRdivideFg (result : CopResult) (ra rb rc : RegField)
  /-- cop.rdivide.gf: `rc := ra,rb(result,rdivide,gf);` (R310). -/
  | copRdivideGf (result : CopResult) (ra rb rc : RegField)
  /-- cop.rdivide.g: `rc := ra,rb(result,rdivide,g);` (R310). -/
  | copRdivideG (result : CopResult) (ra rb rc : RegField)
  /-- cop.fix: `rc := ra,rb(result,fix);` (R313). -/
  | copFix (result : CopResult) (ra rb rc : RegField)
  /-- cop.floatf: `rc := ra,rb(result,floatf);` (R314). -/
  | copFloatf (result : CopResult) (ra rb rc : RegField)
  /-- cop.floatg: `rc := ra,rb(result,floatg);` (R314). -/
  | copFloatg (result : CopResult) (ra rb rc : RegField)
  /-- cop.scale: `rc := ra,rb(result,scale);` (R315). -/
  | copScale (result : CopResult) (ra rb rc : RegField)
  /-- cop.ldExp: `rc := ra,rb(result,ldExp);` (R316). -/
  | copLdExp (result : CopResult) (ra rb rc : RegField)
  /-- cop.wrSign: `rc := ra,rb(result,wrSign);` (R322). -/
  | copWrSign (result : CopResult) (ra rb rc : RegField)
  /-- cop.rdTod: `rc := ra,rb(result,rdTod);` (R323). -/
  | copRdTod (result : CopResult) (ra rb rc : RegField)
  /-- cop.wrInt: `rc := ra,rb(result,wrInt);` (R324). -/
  | copWrInt (result : CopResult) (ra rb rc : RegField)
  /-- cop.wrTod: `rc := ra,rb(result,wrTod);` (R326). -/
  | copWrTod (result : CopResult) (ra rb rc : RegField)
  /-- cop.nop: `rc := ra,rb(result,nop);` (R317). -/
  | copNop (result : CopResult) (ra rb rc : RegField)
  /-- trap: `trap literal;` (R171). -/
  | trap (ra rb : RegField) (literal : BitVec 6)
  /-- loadAddress: `ra := disp[rb];` (R243). -/
  | loadAddress (ra rb : RegField) (disp : BitVec 16)
  /-- undef1: `undef1 [ra, rb];` (R172). -/
  | undef1 (ra rb : RegField) (disp : BitVec 16)
  /-- undef2: `undef2 [ra, rb];` (R173). -/
  | undef2 (ra rb : RegField) (disp : BitVec 16)
deriving DecidableEq, Repr

/-- A word that is no row of the opcode table (R157): it has no assembler form, and the manual says at most what it
may write. -/
inductive Undescribed where
  /-- A special whose function field is not one of R135 to R137 (U10, U11). -/
  | special (ra rb : RegField) (fn : BitVec 16)
  /-- An ALU function the manual does not define: unsupported selects, cmp with another select, undefined extract bits
  (U23, R274). -/
  | alu (lit : Bool) (ra rb rc : RegField)
  /-- A coprocessor code the figures do not list (U26). -/
  | cop (ra rb rc : RegField)
deriving DecidableEq, Repr

/-- What a word is. -/
inductive Decoded where
  | instr (i : Instr)
  | undescribed (u : Undescribed)
deriving DecidableEq, Repr

/-- Why the decoder rejects some bytes. -/
inductive DecodeError where
  /-- The word is no row of the opcode table. -/
  | undescribed (u : Undescribed)
  /-- There are fewer than four bytes. -/
  | truncated
deriving DecidableEq, Repr

end Sys2Proof
end

