-- ==== Sys2Proof/WellFormed.lean ====
section
/-!
DEFINITION. Which instructions the encoding admits: the ranges of the counts that Syntax.lean writes as numbers.
-/
namespace Sys2Proof

/-- A shift count is 0 to 31 (R260). -/
def shiftOk (shift : Nat) : Bool := decide (shift ≤ 31)

/-- A mask or field size is 1 to 32 (R260, R276). -/
def sizeOk (size : Nat) : Bool := decide (1 ≤ size) && decide (size ≤ 32)

/-- An instruction that the encoding admits: every field of bits is in range by its type; the counts are checked. -/
def Instr.wellFormed (i : Instr) : Bool :=
  match i with
  | .extract _ _ _ shift mask => shiftOk shift && sizeOk mask
  | .aluVext _ _ _ _ size => sizeOk size
  | .aluBext _ _ _ _ _ size => sizeOk size
  | .abort _ _ _ => true
  | .readStatus _ _ => true
  | .readPcQ _ _ => true
  | .writeStatus _ _ => true
  | .readInstTFR _ _ => true
  | .readDataTFR _ _ => true
  | .readInstTlbTag0 _ _ => true
  | .readInstTlbTag1 _ _ => true
  | .readDataTlbTag0 _ _ => true
  | .readDataTlbTag1 _ _ => true
  | .readInstTlbData0 _ _ => true
  | .readInstTlbData1 _ _ => true
  | .readDataTlbData0 _ _ => true
  | .readDataTlbData1 _ _ => true
  | .writeInstTlbTag0 _ _ => true
  | .writeInstTlbTag1 _ _ => true
  | .writeDataTlbTag0 _ _ => true
  | .writeDataTlbTag1 _ _ => true
  | .writeInstTlbData0 _ _ => true
  | .writeInstTlbData1 _ _ => true
  | .writeDataTlbData0 _ _ => true
  | .writeDataTlbData1 _ _ => true
  | .getCtl _ _ => true
  | .setCtl _ _ => true
  | .ioRead _ _ => true
  | .ioWrite _ _ => true
  | .kernelExit _ _ _ => true
  | .pseudoCall _ _ _ => true
  | .flush _ _ _ => true
  | .load _ _ _ => true
  | .store _ _ _ => true
  | .goto _ _ _ => true
  | .cjumpEq _ _ => true
  | .cjumpNe _ _ => true
  | .cjumpLt _ _ => true
  | .cjumpGe _ _ => true
  | .cjumpGt _ _ => true
  | .cjumpLe _ _ => true
  | .cjumpOdd _ _ => true
  | .cjumpEven _ _ => true
  | .aluAdd _ _ _ _ => true
  | .aluAdd1 _ _ _ _ => true
  | .aluRsub _ _ _ _ => true
  | .aluRsub1 _ _ _ _ => true
  | .aluSub _ _ _ _ => true
  | .aluSub1 _ _ _ _ => true
  | .aluNeg _ _ _ _ => true
  | .aluNegm1 _ _ _ _ => true
  | .aluGt _ _ _ _ => true
  | .aluGtu _ _ _ _ => true
  | .aluGe _ _ _ _ => true
  | .aluGeu _ _ _ _ => true
  | .aluLt _ _ _ _ => true
  | .aluLtu _ _ _ _ => true
  | .aluLe _ _ _ _ => true
  | .aluLeu _ _ _ _ => true
  | .aluEqv _ _ _ _ => true
  | .aluXor _ _ _ _ => true
  | .aluOr _ _ _ _ => true
  | .aluMovb _ _ _ _ => true
  | .aluNot _ _ _ _ => true
  | .aluMova _ _ _ _ => true
  | .aluAnd _ _ _ _ => true
  | .aluZero _ _ _ _ => true
  | .copLoadI _ _ _ _ => true
  | .copLoadF _ _ _ _ => true
  | .copLoadGf _ _ _ _ => true
  | .copLoadG _ _ _ _ => true
  | .copAddI _ _ _ _ => true
  | .copAddF _ _ _ _ => true
  | .copAddFg _ _ _ _ => true
  | .copAddGf _ _ _ _ => true
  | .copAddG _ _ _ _ => true
  | .copSubtractI _ _ _ _ => true
  | .copSubtractF _ _ _ _ => true
  | .copSubtractFg _ _ _ _ => true
  | .copSubtractGf _ _ _ _ => true
  | .copSubtractG _ _ _ _ => true
  | .copRsubtractI _ _ _ _ => true
  | .copRsubtractF _ _ _ _ => true
  | .copRsubtractFg _ _ _ _ => true
  | .copRsubtractGf _ _ _ _ => true
  | .copRsubtractG _ _ _ _ => true
  | .copMultiplyI _ _ _ _ => true
  | .copMultiplyF _ _ _ _ => true
  | .copMultiplyFg _ _ _ _ => true
  | .copMultiplyGf _ _ _ _ => true
  | .copMultiplyG _ _ _ _ => true
  | .copDivideI _ _ _ _ => true
  | .copDivideF _ _ _ _ => true
  | .copDivideFg _ _ _ _ => true
  | .copDivideGf _ _ _ _ => true
  | .copDivideG _ _ _ _ => true
  | .copRdivideI _ _ _ _ => true
  | .copRdivideF _ _ _ _ => true
  | .copRdivideFg _ _ _ _ => true
  | .copRdivideGf _ _ _ _ => true
  | .copRdivideG _ _ _ _ => true
  | .copFix _ _ _ _ => true
  | .copFloatf _ _ _ _ => true
  | .copFloatg _ _ _ _ => true
  | .copScale _ _ _ _ => true
  | .copLdExp _ _ _ _ => true
  | .copWrSign _ _ _ _ => true
  | .copRdTod _ _ _ _ => true
  | .copWrInt _ _ _ _ => true
  | .copWrTod _ _ _ _ => true
  | .copNop _ _ _ _ => true
  | .trap _ _ _ => true
  | .loadAddress _ _ _ => true
  | .undef1 _ _ _ => true
  | .undef2 _ _ _ => true

end Sys2Proof
end

