-- ==== Sys2Proof/Decode.lean ====
section
/-!
DEFINITION. The decoder, total on any bytes, and after it the encoder; both written from spec/30_encoding.md. The
decoder takes the encoding parameters of R131 as an argument: a word is first brought into the default arrangement
(`Encoding.read`), which `decodeWord` reads (log 1). Format M: opcode 31..28, ra 27..22, rb 21..16, displacement or
function 15..0 (R132). Format R: opcode, ra, rb, rc 15..10, misc 9..0 (R133).
-/
namespace Sys2Proof

/-! ## Fields -/

/-- The 4-bit major opcode (R130). -/
def opField (w : Word) : BitVec 4 := w.extractLsb' 28 4
/-- The field ra (R132). -/
def raField (w : Word) : RegField := w.extractLsb' 22 6
/-- The field rb, which also holds a condition or an I/O control address (R132, R143). -/
def rbField (w : Word) : RegField := w.extractLsb' 16 6
/-- The field rc of format R (R133). -/
def rcField (w : Word) : RegField := w.extractLsb' 10 6
/-- The 16-bit displacement, or the function field of a special (R132, R135). -/
def dispField (w : Word) : BitVec 16 := w.extractLsb' 0 16
/-- The 10-bit miscellaneous field of format R (R133). -/
def miscField (w : Word) : BitVec 10 := w.extractLsb' 0 10
/-- The literal of a trap (R138). -/
def literalField (w : Word) : BitVec 6 := w.extractLsb' 0 6

/-- A word of format M (R132). -/
def packM (op : BitVec 4) (ra rb : RegField) (disp : BitVec 16) : Word := op ++ ra ++ rb ++ disp

/-- A word of format R (R133). -/
def packR (op : BitVec 4) (ra rb rc : RegField) (misc : BitVec 10) : Word := op ++ ra ++ rb ++ (rc ++ misc)

/-- The count that a 5-bit field with 0 for 32 stands for (R139, R141). -/
def countOf (f : BitVec 5) : Nat := if f = 0#5 then 32 else f.toNat

/-- The result selector with a given code (R292). -/
def copResultOf (c : BitVec 3) : CopResult :=
  match c.toNat with
  | 0 => .sign
  | 1 => .exp
  | 2 => .inth
  | 3 => .intl
  | 4 => .dph
  | 5 => .dpl
  | 6 => .sp
  | _ => .null

/-! ## Decoding, by major opcode -/

/-- A special by its function field (R135 to R137). -/
def decodeSpecial (ra rb : RegField) (fn : BitVec 16) : Decoded :=
  match fn.toNat with
  | 0x000 => .instr (.readStatus ra rb)
  | 0x040 => .instr (.readPcQ ra rb)
  | 0x280 => .instr (.writeStatus ra rb)
  | 0x0C3 => .instr (.readInstTFR ra rb)
  | 0x103 => .instr (.readDataTFR ra rb)
  | 0x0C1 => .instr (.readInstTlbTag0 ra rb)
  | 0x0D5 => .instr (.readInstTlbTag1 ra rb)
  | 0x101 => .instr (.readDataTlbTag0 ra rb)
  | 0x115 => .instr (.readDataTlbTag1 ra rb)
  | 0x0C0 => .instr (.readInstTlbData0 ra rb)
  | 0x0D4 => .instr (.readInstTlbData1 ra rb)
  | 0x100 => .instr (.readDataTlbData0 ra rb)
  | 0x114 => .instr (.readDataTlbData1 ra rb)
  | 0x207 => .instr (.writeInstTlbTag0 ra rb)
  | 0x20D => .instr (.writeInstTlbTag1 ra rb)
  | 0x247 => .instr (.writeDataTlbTag0 ra rb)
  | 0x24D => .instr (.writeDataTlbTag1 ra rb)
  | 0x20B => .instr (.writeInstTlbData0 ra rb)
  | 0x20E => .instr (.writeInstTlbData1 ra rb)
  | 0x24B => .instr (.writeDataTlbData0 ra rb)
  | 0x24E => .instr (.writeDataTlbData1 ra rb)
  | 0x080 => .instr (.getCtl ra rb)
  | 0x2C0 => .instr (.setCtl ra rb)
  | 0x300 => .instr (.ioRead ra rb)
  | 0x340 => .instr (.ioWrite ra rb)
  | _ => .undescribed (.special ra rb fn)

/-- A conditional jump by bits 5..3 of its condition (R143); what bits 2..0 do is CJUMP_LOWBITS, which `Encoding.read`
has settled (U9). -/
def decodeCjump (ra : RegField) (cond : BitVec 6) (disp : BitVec 16) : Decoded :=
  match (cond.extractLsb' 3 3).toNat with
  | 0 => .instr (.cjumpEq ra disp)
  | 1 => .instr (.cjumpNe ra disp)
  | 2 => .instr (.cjumpLt ra disp)
  | 3 => .instr (.cjumpGe ra disp)
  | 4 => .instr (.cjumpGt ra disp)
  | 5 => .instr (.cjumpLe ra disp)
  | 6 => .instr (.cjumpOdd ra disp)
  | _ => .instr (.cjumpEven ra disp)

/-- The extract instruction: misc 9..5 is 31 - shift, misc 4..0 is the mask with 0 for 32 (R139). -/
def decodeExtract (ra rb rc : RegField) (misc : BitVec 10) : Decoded :=
  .instr (.extract ra rb rc (31 - (misc.extractLsb' 5 5).toNat) (countOf (misc.extractLsb' 0 5)))

/-- An ALU function with sh = 0: select 6..3, inverted carry-in 2, cmp 1, uns 0 (R140, R266). uns does not matter
without cmp, nor the carry bit to a logical select (D3). `<=` and `<=u` have the codes 36 and 37, the default of
ALU_LE_CODES (R273, C1, log 1). -/
def decodeAluFunction (lit : Bool) (ra rb rc : RegField) (fn : BitVec 7) : Decoded :=
  match fn.getLsbD 1 with
  | false =>
    match (fn.extractLsb' 3 4).toNat, fn.getLsbD 2 with
    | 4, true => .instr (.aluAdd lit ra rb rc)
    | 4, false => .instr (.aluAdd1 lit ra rb rc)
    | 5, false => .instr (.aluRsub lit ra rb rc)
    | 5, true => .instr (.aluRsub1 lit ra rb rc)
    | 6, false => .instr (.aluSub lit ra rb rc)
    | 6, true => .instr (.aluSub1 lit ra rb rc)
    | 7, false => .instr (.aluNeg lit ra rb rc)
    | 7, true => .instr (.aluNegm1 lit ra rb rc)
    | 8, _ => .instr (.aluEqv lit ra rb rc)
    | 9, _ => .instr (.aluXor lit ra rb rc)
    | 10, _ => .instr (.aluOr lit ra rb rc)
    | 11, _ => .instr (.aluMovb lit ra rb rc)
    | 12, _ => .instr (.aluNot lit ra rb rc)
    | 13, _ => .instr (.aluMova lit ra rb rc)
    | 14, _ => .instr (.aluAnd lit ra rb rc)
    | 15, _ => .instr (.aluZero lit ra rb rc)
    | _, _ => .undescribed (.alu lit ra rb rc)
  | true =>
    match (fn.extractLsb' 3 4).toNat, fn.getLsbD 2, fn.getLsbD 0 with
    | 5, false, false => .instr (.aluGt lit ra rb rc)
    | 5, false, true => .instr (.aluGtu lit ra rb rc)
    | 5, true, false => .instr (.aluGe lit ra rb rc)
    | 5, true, true => .instr (.aluGeu lit ra rb rc)
    | 6, false, false => .instr (.aluLt lit ra rb rc)
    | 6, false, true => .instr (.aluLtu lit ra rb rc)
    | 6, true, false => .instr (.aluLe lit ra rb rc)
    | 6, true, true => .instr (.aluLeu lit ra rb rc)
    | _, _, _ => .undescribed (.alu lit ra rb rc)

/-- The ALU instruction: literal 9, sh 8, sb 7, function 6..0 (R140); with sh the size is function 4..0 and inv
function 5 (R141). What sb does without sh `Encoding.read` has settled (U24). -/
def decodeAlu (ra rb rc : RegField) (misc : BitVec 10) : Decoded :=
  let lit := misc.getLsbD 9
  let fn := misc.extractLsb' 0 7
  match misc.getLsbD 8, misc.getLsbD 7 with
  | false, _ => decodeAluFunction lit ra rb rc fn
  | true, false =>
    match fn.getLsbD 6, fn.getLsbD 5 with
    | false, false => .instr (.aluVext lit ra rb rc (countOf (fn.extractLsb' 0 5)))
    | _, _ => .undescribed (.alu lit ra rb rc)
  | true, true =>
    match fn.getLsbD 6 with
    | false => .instr (.aluBext lit ra rb rc (fn.getLsbD 5) (countOf (fn.extractLsb' 0 5)))
    | true => .undescribed (.alu lit ra rb rc)

/-- The coprocessor instruction: result 9..7, op 6..4, func 3..1, 0 (R142, R296). -/
def decodeCop (ra rb rc : RegField) (misc : BitVec 10) : Decoded :=
  let result := copResultOf (misc.extractLsb' 7 3)
  match (misc.extractLsb' 0 7).toNat with
  | 0x00 => .instr (.copLoadI result ra rb rc)
  | 0x40 => .instr (.copLoadF result ra rb rc)
  | 0x60 => .instr (.copLoadGf result ra rb rc)
  | 0x70 => .instr (.copLoadG result ra rb rc)
  | 0x02 => .instr (.copAddI result ra rb rc)
  | 0x42 => .instr (.copAddF result ra rb rc)
  | 0x52 => .instr (.copAddFg result ra rb rc)
  | 0x62 => .instr (.copAddGf result ra rb rc)
  | 0x72 => .instr (.copAddG result ra rb rc)
  | 0x04 => .instr (.copSubtractI result ra rb rc)
  | 0x44 => .instr (.copSubtractF result ra rb rc)
  | 0x54 => .instr (.copSubtractFg result ra rb rc)
  | 0x64 => .instr (.copSubtractGf result ra rb rc)
  | 0x74 => .instr (.copSubtractG result ra rb rc)
  | 0x06 => .instr (.copRsubtractI result ra rb rc)
  | 0x46 => .instr (.copRsubtractF result ra rb rc)
  | 0x56 => .instr (.copRsubtractFg result ra rb rc)
  | 0x66 => .instr (.copRsubtractGf result ra rb rc)
  | 0x76 => .instr (.copRsubtractG result ra rb rc)
  | 0x0A => .instr (.copMultiplyI result ra rb rc)
  | 0x4A => .instr (.copMultiplyF result ra rb rc)
  | 0x5A => .instr (.copMultiplyFg result ra rb rc)
  | 0x6A => .instr (.copMultiplyGf result ra rb rc)
  | 0x7A => .instr (.copMultiplyG result ra rb rc)
  | 0x0C => .instr (.copDivideI result ra rb rc)
  | 0x4C => .instr (.copDivideF result ra rb rc)
  | 0x5C => .instr (.copDivideFg result ra rb rc)
  | 0x6C => .instr (.copDivideGf result ra rb rc)
  | 0x7C => .instr (.copDivideG result ra rb rc)
  | 0x0E => .instr (.copRdivideI result ra rb rc)
  | 0x4E => .instr (.copRdivideF result ra rb rc)
  | 0x5E => .instr (.copRdivideFg result ra rb rc)
  | 0x6E => .instr (.copRdivideGf result ra rb rc)
  | 0x7E => .instr (.copRdivideG result ra rb rc)
  | 0x50 => .instr (.copFix result ra rb rc)
  | 0x48 => .instr (.copFloatf result ra rb rc)
  | 0x58 => .instr (.copFloatg result ra rb rc)
  | 0x68 => .instr (.copScale result ra rb rc)
  | 0x78 => .instr (.copLdExp result ra rb rc)
  | 0x08 => .instr (.copWrSign result ra rb rc)
  | 0x18 => .instr (.copRdTod result ra rb rc)
  | 0x30 => .instr (.copWrInt result ra rb rc)
  | 0x38 => .instr (.copWrTod result ra rb rc)
  | 0x28 => .instr (.copNop result ra rb rc)
  | _ => .undescribed (.cop ra rb rc)

/-- The instruction that a word in the default arrangement holds (R134). A trap's bits 15..6 are not looked at, nor
those that R144 says an instruction does not use (log 55). -/
def decodeWord (w : Word) : Decoded :=
  match (opField w).toNat with
  | 0x0 => .instr (.abort (raField w) (rbField w) (dispField w))
  | 0x1 => decodeSpecial (raField w) (rbField w) (dispField w)
  | 0x2 => .instr (.kernelExit (raField w) (rbField w) (dispField w))
  | 0x3 => .instr (.pseudoCall (raField w) (rbField w) (dispField w))
  | 0x4 => .instr (.flush (raField w) (rbField w) (dispField w))
  | 0x5 => .instr (.load (raField w) (rbField w) (dispField w))
  | 0x6 => .instr (.store (raField w) (rbField w) (dispField w))
  | 0x7 => .instr (.goto (raField w) (rbField w) (dispField w))
  | 0x8 => decodeCjump (raField w) (rbField w) (dispField w)
  | 0x9 => decodeExtract (raField w) (rbField w) (rcField w) (miscField w)
  | 0xA => decodeAlu (raField w) (rbField w) (rcField w) (miscField w)
  | 0xB => decodeCop (raField w) (rbField w) (rcField w) (miscField w)
  | 0xC => .instr (.trap (raField w) (rbField w) (literalField w))
  | 0xD => .instr (.loadAddress (raField w) (rbField w) (dispField w))
  | 0xE => .instr (.undef1 (raField w) (rbField w) (dispField w))
  | _ => .instr (.undef2 (raField w) (rbField w) (dispField w))

/-! ## The encoding parameters (R131) -/

/-- Whether a function field is a cache read's (R135, R137): operation 3 or 4, wrt clear. -/
def cacheReadFunction (fn : BitVec 16) : Bool := fn.extractLsb' 6 10 == 3#10 || fn.extractLsb' 6 10 == 4#10

/-- The function field of a special with its miscellaneous code changed, if it is a cache read's (R137). -/
def mapSpecialMisc (f : BitVec 6 → BitVec 6) (fn : BitVec 16) : BitVec 16 :=
  if cacheReadFunction fn then fn.extractLsb' 6 10 ++ f (fn.extractLsb' 0 6) else fn

/-- The low half of a word of format R with its miscellaneous field changed. -/
def mapMisc (f : BitVec 10 → BitVec 10) (x : BitVec 16) : BitVec 16 := x.extractLsb' 10 6 ++ f (x.extractLsb' 0 10)

/-- The function field of an ALU instruction changed: by `f` where its sh bit makes it a size (R141), else by `g`
(R140). -/
def mapFunction (f g : BitVec 7 → BitVec 7) (m : BitVec 10) : BitVec 10 :=
  m.extractLsb' 7 3 ++ (if m.getLsbD 8 then f (m.extractLsb' 0 7) else g (m.extractLsb' 0 7))

/-- The low half of a stored word of operation `op` in the default arrangement. -/
def Encoding.lowGet (e : Encoding) (op : BitVec 4) (x : BitVec 16) : BitVec 16 :=
  match op.toNat with
  | 0x1 => mapSpecialMisc e.specialMisc.get x
  | 0x9 => mapMisc e.extractCodec.get (e.formatR.get x)
  | 0xA => mapMisc (fun m => mapFunction e.vextCodec.get e.aluFunctions.get (e.aluBits.get m)) (e.formatR.get x)
  | 0xB => mapMisc e.copBits.get (e.formatR.get x)
  | _ => x

/-- The low half of a word of operation `op` as it is stored. -/
def Encoding.lowPut (e : Encoding) (op : BitVec 4) (x : BitVec 16) : BitVec 16 :=
  match op.toNat with
  | 0x1 => mapSpecialMisc e.specialMisc.put x
  | 0x9 => e.formatR.put (mapMisc e.extractCodec.put x)
  | 0xA => e.formatR.put (mapMisc (fun m => e.aluBits.put (mapFunction e.vextCodec.put e.aluFunctions.put m)) x)
  | 0xB => e.formatR.put (mapMisc e.copBits.put x)
  | _ => x

/-- A stored instruction word in the default arrangement: its operation renumbered, its fields moved. -/
def Encoding.canonical (e : Encoding) (w : Word) : Word :=
  let op := e.opc.get (opField w)
  if op = 0xC#4 then op ++ e.trapLit.get (w.extractLsb' 0 28)
  else op ++ (w.extractLsb' 16 12 ++ e.lowGet op (dispField w))

/-- A word of the default arrangement as it is stored. -/
def Encoding.stored (e : Encoding) (v : Word) : Word :=
  let op := opField v
  if op = 0xC#4 then e.opc.put op ++ e.trapLit.put (v.extractLsb' 0 28)
  else e.opc.put op ++ (v.extractLsb' 16 12 ++ e.lowPut op (dispField v))

/-- A word of the default arrangement with what the spec leaves to a parameter settled: the relation of a conditional
jump's code (U9), and sb without sh in an ALU word, which writes any value as an unsupported function does (U23, U24).
-/
def Encoding.settle (e : Encoding) (v : Word) : Word :=
  if opField v = 0x8#4 then packM 0x8#4 (raField v) (e.cjumpLow.settle (rbField v)) (dispField v)
  else if opField v = 0xA#4 ∧ e.sbAlone = .anyValue ∧ (miscField v).extractLsb' 7 2 = 0b01#2 then
    packR 0xA#4 (raField v) (rbField v) (rcField v) ((miscField v).extractLsb' 7 3 ++ 0#7)
  else v

/-- A stored instruction word as the decoder reads it (R131). -/
def Encoding.read (e : Encoding) (w : Word) : Word := e.settle (e.canonical w)

/-! ## Bytes -/

/-- The word of four bytes, the byte at the lowest address first: big-endian (R81). -/
def wordOfBytes (b0 b1 b2 b3 : Byte) : Word := b0 ++ b1 ++ b2 ++ b3

/-- The four bytes of a word, the one at the lowest address first (R81). -/
def bytesOfWord (w : Word) : List Byte :=
  [w.extractLsb' 24 8, w.extractLsb' 16 8, w.extractLsb' 8 8, w.extractLsb' 0 8]

/-- The decoder on bytes as memory holds them: the first four are one instruction (R130). -/
def decodeWith (e : Encoding) (bytes : List Byte) : Except DecodeError Instr :=
  match bytes with
  | b0 :: b1 :: b2 :: b3 :: _ =>
    match decodeWord (e.read (wordOfBytes b0 b1 b2 b3)) with
    | .instr i => .ok i
    | .undescribed u => .error (.undescribed u)
  | _ => .error .truncated

/-- The decoder under the defaults of R131. -/
def decode (bytes : List Byte) : Except DecodeError Instr := decodeWith Encoding.standard bytes

/-- What the decoder reads from an instruction numbered as spec/opcode_table.json numbers its bits. -/
def decodeTableWord (nbits w : Nat) : Option Instr :=
  match decode (bytesOfWord (BitVec.ofNat 32 (w % 2 ^ nbits))) with
  | .ok i => some i
  | .error _ => none

/-! ## Encoding -/

/-- The code of a result selector (R292). -/
def copResultCode (r : CopResult) : BitVec 3 :=
  match r with
  | .sign => 0#3
  | .exp => 1#3
  | .inth => 2#3
  | .intl => 3#3
  | .dph => 4#3
  | .dpl => 5#3
  | .sp => 6#3
  | .null => 7#3

/-- A special with its function field (R135). -/
def encodeSpecial (ra rb : RegField) (fn : BitVec 16) : Word := packM 0x1#4 ra rb fn

/-- A conditional jump with its condition code (R143). -/
def encodeCjump (ra : RegField) (cond : BitVec 6) (disp : BitVec 16) : Word := packM 0x8#4 ra cond disp

/-- An ALU instruction with sh = sb = 0 (R140). -/
def encodeAlu (lit : Bool) (ra rb rc : RegField) (fn : BitVec 7) : Word :=
  packR 0xA#4 ra rb rc (BitVec.ofBool lit ++ (0#2 ++ fn))

/-- A coprocessor instruction with its seven-bit code (R142). -/
def encodeCop (result : CopResult) (ra rb rc : RegField) (code : BitVec 7) : Word :=
  packR 0xB#4 ra rb rc (copResultCode result ++ code)

/-- The word of an instruction in the default arrangement. Bits that an instruction does not use are 0. -/
def encode (i : Instr) : Word :=
  match i with
  | .abort ra rb disp => packM 0x0#4 ra rb disp
  | .readStatus ra rb => encodeSpecial ra rb 0x000#16
  | .readPcQ ra rb => encodeSpecial ra rb 0x040#16
  | .writeStatus ra rb => encodeSpecial ra rb 0x280#16
  | .readInstTFR ra rb => encodeSpecial ra rb 0x0C3#16
  | .readDataTFR ra rb => encodeSpecial ra rb 0x103#16
  | .readInstTlbTag0 ra rb => encodeSpecial ra rb 0x0C1#16
  | .readInstTlbTag1 ra rb => encodeSpecial ra rb 0x0D5#16
  | .readDataTlbTag0 ra rb => encodeSpecial ra rb 0x101#16
  | .readDataTlbTag1 ra rb => encodeSpecial ra rb 0x115#16
  | .readInstTlbData0 ra rb => encodeSpecial ra rb 0x0C0#16
  | .readInstTlbData1 ra rb => encodeSpecial ra rb 0x0D4#16
  | .readDataTlbData0 ra rb => encodeSpecial ra rb 0x100#16
  | .readDataTlbData1 ra rb => encodeSpecial ra rb 0x114#16
  | .writeInstTlbTag0 ra rb => encodeSpecial ra rb 0x207#16
  | .writeInstTlbTag1 ra rb => encodeSpecial ra rb 0x20D#16
  | .writeDataTlbTag0 ra rb => encodeSpecial ra rb 0x247#16
  | .writeDataTlbTag1 ra rb => encodeSpecial ra rb 0x24D#16
  | .writeInstTlbData0 ra rb => encodeSpecial ra rb 0x20B#16
  | .writeInstTlbData1 ra rb => encodeSpecial ra rb 0x20E#16
  | .writeDataTlbData0 ra rb => encodeSpecial ra rb 0x24B#16
  | .writeDataTlbData1 ra rb => encodeSpecial ra rb 0x24E#16
  | .getCtl ra rb => encodeSpecial ra rb 0x080#16
  | .setCtl ra rb => encodeSpecial ra rb 0x2C0#16
  | .ioRead ra rb => encodeSpecial ra rb 0x300#16
  | .ioWrite ra rb => encodeSpecial ra rb 0x340#16
  | .kernelExit ra rb disp => packM 0x2#4 ra rb disp
  | .pseudoCall ra rb disp => packM 0x3#4 ra rb disp
  | .flush ra rb disp => packM 0x4#4 ra rb disp
  | .load ra rb disp => packM 0x5#4 ra rb disp
  | .store ra rb disp => packM 0x6#4 ra rb disp
  | .goto ra rb disp => packM 0x7#4 ra rb disp
  | .cjumpEq ra disp => encodeCjump ra 0x00#6 disp
  | .cjumpNe ra disp => encodeCjump ra 0x08#6 disp
  | .cjumpLt ra disp => encodeCjump ra 0x10#6 disp
  | .cjumpGe ra disp => encodeCjump ra 0x18#6 disp
  | .cjumpGt ra disp => encodeCjump ra 0x20#6 disp
  | .cjumpLe ra disp => encodeCjump ra 0x28#6 disp
  | .cjumpOdd ra disp => encodeCjump ra 0x30#6 disp
  | .cjumpEven ra disp => encodeCjump ra 0x38#6 disp
  | .extract ra rb rc shift mask => packR 0x9#4 ra rb rc (BitVec.ofNat 5 (31 - shift) ++ BitVec.ofNat 5 mask)
  | .aluAdd lit ra rb rc => encodeAlu lit ra rb rc 0x24#7
  | .aluAdd1 lit ra rb rc => encodeAlu lit ra rb rc 0x20#7
  | .aluRsub lit ra rb rc => encodeAlu lit ra rb rc 0x28#7
  | .aluRsub1 lit ra rb rc => encodeAlu lit ra rb rc 0x2C#7
  | .aluSub lit ra rb rc => encodeAlu lit ra rb rc 0x30#7
  | .aluSub1 lit ra rb rc => encodeAlu lit ra rb rc 0x34#7
  | .aluNeg lit ra rb rc => encodeAlu lit ra rb rc 0x38#7
  | .aluNegm1 lit ra rb rc => encodeAlu lit ra rb rc 0x3C#7
  | .aluGt lit ra rb rc => encodeAlu lit ra rb rc 0x2A#7
  | .aluGtu lit ra rb rc => encodeAlu lit ra rb rc 0x2B#7
  | .aluGe lit ra rb rc => encodeAlu lit ra rb rc 0x2E#7
  | .aluGeu lit ra rb rc => encodeAlu lit ra rb rc 0x2F#7
  | .aluLt lit ra rb rc => encodeAlu lit ra rb rc 0x32#7
  | .aluLtu lit ra rb rc => encodeAlu lit ra rb rc 0x33#7
  | .aluLe lit ra rb rc => encodeAlu lit ra rb rc 0x36#7
  | .aluLeu lit ra rb rc => encodeAlu lit ra rb rc 0x37#7
  | .aluEqv lit ra rb rc => encodeAlu lit ra rb rc 0x40#7
  | .aluXor lit ra rb rc => encodeAlu lit ra rb rc 0x48#7
  | .aluOr lit ra rb rc => encodeAlu lit ra rb rc 0x50#7
  | .aluMovb lit ra rb rc => encodeAlu lit ra rb rc 0x58#7
  | .aluNot lit ra rb rc => encodeAlu lit ra rb rc 0x60#7
  | .aluMova lit ra rb rc => encodeAlu lit ra rb rc 0x68#7
  | .aluAnd lit ra rb rc => encodeAlu lit ra rb rc 0x70#7
  | .aluZero lit ra rb rc => encodeAlu lit ra rb rc 0x78#7
  | .aluVext lit ra rb rc size => packR 0xA#4 ra rb rc (BitVec.ofBool lit ++ (0b1000#4 ++ BitVec.ofNat 5 size))
  | .aluBext lit ra rb rc inv size =>
    packR 0xA#4 ra rb rc (BitVec.ofBool lit ++ (0b110#3 ++ (BitVec.ofBool inv ++ BitVec.ofNat 5 size)))
  | .copLoadI result ra rb rc => encodeCop result ra rb rc 0x00#7
  | .copLoadF result ra rb rc => encodeCop result ra rb rc 0x40#7
  | .copLoadGf result ra rb rc => encodeCop result ra rb rc 0x60#7
  | .copLoadG result ra rb rc => encodeCop result ra rb rc 0x70#7
  | .copAddI result ra rb rc => encodeCop result ra rb rc 0x02#7
  | .copAddF result ra rb rc => encodeCop result ra rb rc 0x42#7
  | .copAddFg result ra rb rc => encodeCop result ra rb rc 0x52#7
  | .copAddGf result ra rb rc => encodeCop result ra rb rc 0x62#7
  | .copAddG result ra rb rc => encodeCop result ra rb rc 0x72#7
  | .copSubtractI result ra rb rc => encodeCop result ra rb rc 0x04#7
  | .copSubtractF result ra rb rc => encodeCop result ra rb rc 0x44#7
  | .copSubtractFg result ra rb rc => encodeCop result ra rb rc 0x54#7
  | .copSubtractGf result ra rb rc => encodeCop result ra rb rc 0x64#7
  | .copSubtractG result ra rb rc => encodeCop result ra rb rc 0x74#7
  | .copRsubtractI result ra rb rc => encodeCop result ra rb rc 0x06#7
  | .copRsubtractF result ra rb rc => encodeCop result ra rb rc 0x46#7
  | .copRsubtractFg result ra rb rc => encodeCop result ra rb rc 0x56#7
  | .copRsubtractGf result ra rb rc => encodeCop result ra rb rc 0x66#7
  | .copRsubtractG result ra rb rc => encodeCop result ra rb rc 0x76#7
  | .copMultiplyI result ra rb rc => encodeCop result ra rb rc 0x0A#7
  | .copMultiplyF result ra rb rc => encodeCop result ra rb rc 0x4A#7
  | .copMultiplyFg result ra rb rc => encodeCop result ra rb rc 0x5A#7
  | .copMultiplyGf result ra rb rc => encodeCop result ra rb rc 0x6A#7
  | .copMultiplyG result ra rb rc => encodeCop result ra rb rc 0x7A#7
  | .copDivideI result ra rb rc => encodeCop result ra rb rc 0x0C#7
  | .copDivideF result ra rb rc => encodeCop result ra rb rc 0x4C#7
  | .copDivideFg result ra rb rc => encodeCop result ra rb rc 0x5C#7
  | .copDivideGf result ra rb rc => encodeCop result ra rb rc 0x6C#7
  | .copDivideG result ra rb rc => encodeCop result ra rb rc 0x7C#7
  | .copRdivideI result ra rb rc => encodeCop result ra rb rc 0x0E#7
  | .copRdivideF result ra rb rc => encodeCop result ra rb rc 0x4E#7
  | .copRdivideFg result ra rb rc => encodeCop result ra rb rc 0x5E#7
  | .copRdivideGf result ra rb rc => encodeCop result ra rb rc 0x6E#7
  | .copRdivideG result ra rb rc => encodeCop result ra rb rc 0x7E#7
  | .copFix result ra rb rc => encodeCop result ra rb rc 0x50#7
  | .copFloatf result ra rb rc => encodeCop result ra rb rc 0x48#7
  | .copFloatg result ra rb rc => encodeCop result ra rb rc 0x58#7
  | .copScale result ra rb rc => encodeCop result ra rb rc 0x68#7
  | .copLdExp result ra rb rc => encodeCop result ra rb rc 0x78#7
  | .copWrSign result ra rb rc => encodeCop result ra rb rc 0x08#7
  | .copRdTod result ra rb rc => encodeCop result ra rb rc 0x18#7
  | .copWrInt result ra rb rc => encodeCop result ra rb rc 0x30#7
  | .copWrTod result ra rb rc => encodeCop result ra rb rc 0x38#7
  | .copNop result ra rb rc => encodeCop result ra rb rc 0x28#7
  | .trap ra rb literal => packM 0xC#4 ra rb (0#10 ++ literal)
  | .loadAddress ra rb disp => packM 0xD#4 ra rb disp
  | .undef1 ra rb disp => packM 0xE#4 ra rb disp
  | .undef2 ra rb disp => packM 0xF#4 ra rb disp

/-- The stored word of an instruction under given parameters (R131). -/
def encodeWith (e : Encoding) (i : Instr) : Word := e.stored (encode i)

end Sys2Proof
end

