-- ==== Sys2Proof/Hardware.lean ====
section
/-!
DEFINITION. The plain data types that the machine's state and the configuration are made of: the PSW, a translation
buffer entry, the coprocessor, the memory controller, the adaptors, the halt record, the model's own hazard record and
the environment's inputs. No behaviour stands here.
-/
namespace Sys2Proof.Machine

/-- The program status word, field by field (spec/10_state.md R33 to R43). The layout of the 32-bit image is
`Psw.toWord` in Machine/Psw.lean. -/
structure Psw where
  /-- Boot-Prom mapped (R34). -/
  rom : Bool
  /-- Pre-kernel bit (R35). -/
  pre : Bool
  /-- Kernel mode (R36). -/
  krn : Bool
  /-- Privileged instructions enabled in user mode (R37). -/
  prv : Bool
  /-- Parity checking off (R38). -/
  par : Bool
  /-- Process id (R39). -/
  pid : BitVec 8
  /-- Bank of the fields ra and rc (R40). -/
  ra : BitVec 2
  /-- Bank of the field rb (R40). -/
  rb : BitVec 2
  /-- Instruction mapping off (R41). -/
  imp : Bool
  /-- Data mapping off (R41). -/
  dmp : Bool
  /-- External interrupt pending (R42). -/
  ext : Bool
  /-- Illegal instruction (R42). -/
  ill : Bool
  /-- Instruction translation fault (R42). -/
  itf : Bool
  /-- Data translation fault (R42). -/
  dtf : Bool
  /-- Write protection violation (R42). -/
  wpv : Bool
  /-- Coprocessor trap or interval interrupt (R42). -/
  cop : Bool
  /-- User trap (R42). -/
  usr : Bool
  /-- Literal of the user trap (R43). -/
  literal : BitVec 6
deriving DecidableEq, Repr, Inhabited

/-- The stored parity of a register or of a part of a translation buffer entry (spec/10_state.md R24, R47, D24). -/
inductive Parity where
  /-- Written since reset, with the parity of its contents. -/
  | good
  /-- Parity that does not fit the contents (spec/20_memory.md R120). -/
  | bad
  /-- Never written since reset: the parity may or may not fit. -/
  | unwritten
  /-- Written in a way after which parity checking does not work correctly (spec/41_special.md R194): the parity may or
  may not fit. -/
  | unsure
deriving DecidableEq, Repr, Inhabited

/-- One translation buffer entry: tag part and data part, each with its parity (spec/10_state.md R47). -/
structure TlbEntry where
  pid : BitVec 8
  tag : BitVec 13
  invalid : Bool
  writable : Bool
  rpn : BitVec 22
  tagParity : Parity
  dataParity : Parity
deriving DecidableEq, Repr, Inhabited

/-- One translation buffer: 2 columns of 512 rows (R47). -/
structure Tlb where
  col0 : Vector TlbEntry 512
  col1 : Vector TlbEntry 512
deriving DecidableEq, Repr, Inhabited

/-- The four words of a memory line, word 0 first (R80). -/
structure Line where
  w0 : Word
  w1 : Word
  w2 : Word
  w3 : Word
deriving DecidableEq, Repr, Inhabited

/-- An instruction cache line: its words, bit k set where word k has bad parity, and whether its tag has
(spec/20_memory.md R111, R120). -/
structure InstLine where
  line : Line
  bad : BitVec 4
  tagBad : Bool
deriving DecidableEq, Repr, Inhabited

/-- A data cache line: its words, whether it is dirty, bit k set where word k has bad parity, and whether its tag has
(spec/20_memory.md R111, R120). -/
structure DataLine where
  line : Line
  dirty : Bool
  bad : BitVec 4
  tagBad : Bool
deriving DecidableEq, Repr, Inhabited

/-- The coprocessor accumulator (spec/10_state.md R49). -/
structure Accumulator where
  sign : Bool
  exp : BitVec 16
  frac : Dword
deriving DecidableEq, Repr, Inhabited

/-- What the interval timer is doing (spec/47_coprocessor.md R324 to R326, U25). -/
inductive TimerPhase where
  /-- Nothing is due. -/
  | off
  /-- An interrupt is due when the time of day reaches `itime`. -/
  | armed
  /-- Loaded outside 1 to 2^19 - 1 cycles ahead: whether and when the request rises is not described (U25). -/
  | unspecified
deriving DecidableEq, Repr, Inhabited

/-- The coprocessor: accumulator, stored status bits, clock and interval timer (R49 to R52). -/
structure Coprocessor where
  ac : Accumulator
  abort : Bool
  rsvOp : Bool
  noDiv : Bool
  tod : Dword
  itime : Dword
  timer : TimerPhase
  intPending : Bool
  /-- Cycles since the interval request rose, for the 2^19-cycle service rule (R325). -/
  intAge : Nat
deriving DecidableEq, Repr, Inhabited

/-- Who holds the I/O lock (spec/10_state.md R63). -/
inductive LockHolder where
  | none
  | cpu
  | slot (n : BitVec 3)
deriving DecidableEq, Repr, Inhabited

/-- The memory controller's registers and flags (spec/10_state.md R53 to R63, R67). -/
structure MemCtl where
  ioSel : BitVec 6
  ioAddress : Word
  ioReadData : Word
  ioWriteData : Word
  slot : BitVec 3
  ack : Bool
  hErrs : BitVec 4
  enable : Word
  synHi : Byte
  synLo : Byte
  errCnt : Nat
  errLine : LineAddr
  errW : Bool
  halted : Bool
  lock : LockHolder
deriving DecidableEq, Repr, Inhabited

/-- Where the TDA's rings and pointers lie among its 512 16-bit words (spec/61_io_devices.md R424, R425; Figure 8-1 is
lost). -/
structure TdaLayout where
  commandPut : BitVec 9
  commandGet : BitVec 9
  responsePut : BitVec 9
  responseGet : BitVec 9
  commandBase : BitVec 9
  commandSize : Nat
  responseBase : BitVec 9
  responseSize : Nat
  /-- The first 16-bit word of a register is its high half. -/
  highFirst : Bool
deriving DecidableEq, Repr, Inhabited

/-- The Titan Disk Adaptor: its 256 words, the rings and their pointers among them, and its interrupt
(spec/61_io_devices.md R424, R426). -/
structure Tda where
  words : Vector Word 256
  int : Bool
deriving DecidableEq, Repr

/-- One line transaction that a TMA request asks for (spec/61_io_devices.md R421). -/
inductive TmaOp where
  | read (addr : Word)
  | write (addr : Word) (line : Line)
deriving DecidableEq, Repr, Inhabited

/-- A TMA reply packet, its words as far as they have been read (spec/61_io_devices.md R421). -/
structure TmaReply where
  dest : BitVec 48
  src : BitVec 48
  type : BitVec 16
  header : List Byte
  words : List Word
deriving DecidableEq, Repr, Inhabited

/-- A request that a TMA works on: line transactions still to do, first first, and the reply so far. -/
structure TmaJob where
  ops : List TmaOp
  reply : TmaReply
deriving DecidableEq, Repr, Inhabited

/-- The Titan Memory Adaptor (spec/61_io_devices.md R420 to R422). -/
structure Tma where
  int : Bool
  /-- Where the write data of the next packet go, if the last request's Write bit was set. -/
  writeTo : Option Word
  /-- Requests under way, first first. -/
  jobs : List TmaJob
  /-- The last reply that went out. -/
  reply : Option TmaReply
  /-- How many replies have gone out. -/
  sent : Nat
deriving DecidableEq, Repr, Inhabited

/-- A TMA request packet (spec/61_io_devices.md R421). -/
structure TmaRequest where
  dest : BitVec 48
  src : BitVec 48
  type : BitVec 16
  header : List Byte
  interrupt : Bool
  write : Bool
  address : Word
  data : List Word
deriving DecidableEq, Repr, Inhabited

/-- Where a TFA's receiver stands (spec/61_io_devices.md R431, R433). -/
inductive TfaRxPhase where
  /-- No packet is being taken; what arrives is ignored. -/
  | idle
  /-- A packet is being taken. -/
  | taking
  /-- A packet overflowed the FIFO; the rest of it is lost. -/
  | overflown
  /-- The packet has ended; whole lines of it still wait to be stored. -/
  | draining (crcError : Bool)
deriving DecidableEq, Repr, Inhabited

/-- The Titan Fiber Adaptor (spec/61_io_devices.md R428 to R432). -/
structure Tfa where
  txAddress : Word
  txLength : BitVec 20
  txFifo : List Word
  rxAddress : Word
  rxLength : BitVec 20
  rxFifo : List Word
  txEn : Bool
  txPX : Bool
  txFE : Bool
  /-- The FIFO has been filled and words go out on the fiber (R428). -/
  txSending : Bool
  rxEn : Bool
  rxPX : Bool
  rxFE : Bool
  rxCRC : Bool
  rxPhase : TfaRxPhase
  bpe : Bool
  loop : Bool
deriving DecidableEq, Repr, Inhabited

/-- The fields of the TFA status register, in the order listed (spec/61_io_devices.md R431). -/
structure TfaStatus where
  txEn : Bool
  txPX : Bool
  txFE : Bool
  txCnt : BitVec 8
  rxEn : Bool
  rxPX : Bool
  rxFE : Bool
  rxCnt : BitVec 8
  rxCRC : Bool
  bpe : Bool
deriving DecidableEq, Repr, Inhabited

/-- The commands a TFA control write carries (spec/61_io_devices.md R432). -/
structure TfaControl where
  loop : Bool
  rxStart : Bool
  rxReset : Bool
  txStart : Bool
  txReset : Bool
deriving DecidableEq, Repr, Inhabited

/-- The four TNA control bits (spec/61_io_devices.md R447). -/
structure TnaControl where
  byteOrder : Bool
  xcvrEnbl : Bool
  txEnbl : Bool
  rxEnbl : Bool
deriving DecidableEq, Repr, Inhabited

/-- The four TNA interrupt bits (spec/61_io_devices.md R448). -/
structure TnaInts where
  tx : Bool
  rx : Bool
  parity : Bool
  octart : Bool
deriving DecidableEq, Repr, Inhabited

/-- A receiver buffer descriptor: address bits 31..2 and length bits 15..4 (spec/61_io_devices.md R453). -/
structure TnaDescriptor where
  address : LineAddr
  length : BitVec 12
deriving DecidableEq, Repr, Inhabited

/-- Where a TNA's transmitter stands (spec/61_io_devices.md R447, R455). -/
inductive TnaTxPhase where
  | idle
  | sending
  /-- The packet is over; the transmitter waits for TxEnbl to drop. -/
  | waiting
deriving DecidableEq, Repr, Inhabited

/-- A packet that a TNA's receiver is copying into its buffer (spec/61_io_devices.md R456, R458). -/
structure TnaRxJob where
  /-- Quadwords still to be written. -/
  lines : List Line
  /-- The Seeq receiver status of the packet. -/
  status : Byte
  /-- Its length in bytes. -/
  length : Nat
  /-- It does not fit the buffer. -/
  overflow : Bool
deriving DecidableEq, Repr, Inhabited

/-- The Titan Network Adaptor (spec/61_io_devices.md R443 to R459). -/
structure Tna where
  ctrl : TnaControl
  ints : TnaInts
  /-- The Octart asserts its interrupt pin (R448). -/
  octartPin : Bool
  /-- The external copies that the status register shows (R446). -/
  txStatus : Byte
  rxStatus : Byte
  /-- The Seeq chip's own status registers (R451, R452). -/
  seeqTxStatus : Byte
  seeqRxStatus : Byte
  /-- The Seeq command registers (R451, R452). -/
  txCommand : Byte
  rxCommand : Byte
  etherAdr : Vector Byte 6
  /-- Bytes 0 to 7 of the Ethernet address rom: address and checksum (R445). -/
  station : Vector Byte 8
  txAddress : LineAddr
  txLength : BitVec 16
  /-- The running DMA counters; the addresses are read back for diagnosis (R453). -/
  txCounter : LineAddr
  txCount : BitVec 16
  txPhase : TnaTxPhase
  /-- The bytes of the packet that the transmitter has fetched. -/
  txBytes : List Byte
  rxCounter : LineAddr
  rxCount : BitVec 12
  rxJob : Option TnaRxJob
  descriptors : Vector TnaDescriptor 16
  rxRead : BitVec 4
  rxWrite : BitVec 4
  dtr : Byte
  /-- The Octart's 64 registers (R449). -/
  octart : Vector Byte 64
  /-- The machine cycle of the last Octart reference (R449). -/
  octartLast : Option Nat
deriving DecidableEq, Repr

/-- What a slot holds (spec/00_scope.md R7, spec/61_io_devices.md R407). -/
inductive Adaptor where
  | empty
  | tma (d : Tma)
  | tda (d : Tda)
  | tfa (d : Tfa)
  | tna (d : Tna)
  /-- An adaptor the spec does not describe, with its interrupt line. -/
  | other (int : Bool)
deriving DecidableEq, Repr

/-- One of the seven I/O slots: an adaptor that may momentarily be unable to answer (R396), and the four words that its
bus interface latched from the last DMA output, in transfer order (R405). -/
structure Slot where
  busy : Bool
  latch : Line
  adaptor : Adaptor
deriving DecidableEq, Repr

/-- A packet that the clock/scan module receives or sends: one format for both (spec/61_io_devices.md R437). -/
structure CsmPacket where
  dest : BitVec 48
  src : BitVec 48
  type : BitVec 16
  seqNumber : Word
  header : List Byte
  version : Byte
  scanInModeA : Byte
  scanInBytes : Byte
  scanInBits : Byte
  go : Word
  scanOutModeA : Byte
  scanOutBytes : Byte
  scanOutBits : Byte
  endModeB : Byte
  endModeA : Byte
  systemStatus : Byte
  scanData : Vector Byte 80
deriving DecidableEq, Repr, Inhabited

/-- The module that the select field determines for scan operations (spec/61_io_devices.md R439, Figure 6-3). -/
inductive ScanModule where
  | dataPath
  | instCache
  | dataCache
  | coprocessor
  | memoryController
  | nonStopMemoryController
  | slot (n : BitVec 3)
  | reserved
  | null
deriving DecidableEq, Repr, Inhabited

/-- What the ModeA register says (spec/61_io_devices.md R439). -/
structure CsmModeA where
  select : ScanModule
  /-- The four stop bits, active low: set lets the modules run. -/
  runCpu : Bool
  runMc : Bool
  runNs : Bool
  runIo : Bool
deriving DecidableEq, Repr, Inhabited

/-- What the ModeB register says (spec/61_io_devices.md R439). -/
structure CsmModeB where
  scanMode : Bool
  boot : Bool
  /-- The cycles for which diagScan goes to the selected module. -/
  scanCycles : Nat
deriving DecidableEq, Repr, Inhabited

/-- The clock/scan module (spec/61_io_devices.md R436 to R440). -/
structure Csm where
  modeA : Byte
  modeB : Byte
  /-- The clock single-step register. -/
  go : Word
  /-- The diagnostic stop signals to the CPU modules, to the memory controller and to the I/O modules are asserted. -/
  cpuStopped : Bool
  mcStopped : Bool
  ioStopped : Bool
  /-- The machine cycle since which the one to the non-stop memory controller is asserted. -/
  nsStopped : Option Nat
  /-- Source address and sequence number of the last request. -/
  last : Option (BitVec 48 × Word)
  /-- The last reply. -/
  reply : Option CsmPacket
  /-- How many replies have gone out. -/
  sent : Nat
deriving DecidableEq, Repr, Inhabited

/-- Why the processor halted (spec/60_exceptions.md R365, R367). -/
inductive HaltCause where
  | abort
  | trap
  | undef
  /-- Instruction translation fault in kernel mode. -/
  | itf
  /-- Data translation fault in kernel mode. -/
  | dtf
  /-- Write protection violation in kernel mode. -/
  | wpv
  /-- Processor parity error with PSW.par clear. -/
  | parity
deriving DecidableEq, Repr, Inhabited

/-- The halt record (R365, D32): `pc` is the halting instruction, `npc` its successor in execution sequence (what the
scan chain shows as PC), `ar` and `br` the operand registers. -/
structure HaltRecord where
  cause : HaltCause
  pc : Word
  npc : Word
  ar : Word
  br : Word
deriving DecidableEq, Repr, Inhabited

/-- What one executed instruction did, as far as the sequence restrictions of spec/70_reset_and_hazards.md ask. -/
structure Did where
  /-- It was a special instruction (R474). -/
  special : Bool
  /-- It was a special executed in user mode (R481). -/
  userSpecial : Bool
  /-- It was one of the four I/O specials (R478). -/
  io : Bool
  /-- It was a load or a store (R478). -/
  memory : Bool
  /-- It was a store (R476). -/
  store : Bool
  /-- It was a special that takes RR and loads none: RR itself stays (R30, R196, R213, R214). -/
  tookResult : Bool
  /-- The general register it wrote (R472, R476). -/
  wrote : Option RegIndex
  /-- The control register a SetCtl wrote (R478). -/
  setCtl : Option (BitVec 6)
  /-- It started a coprocessor operation of several cycles (R489). -/
  copBusy : Bool
deriving DecidableEq, Repr, Inhabited

/-- The model's record of the last two instructions. -/
structure History where
  last : Did
  /-- The instruction before the last was a special (R474). -/
  special2 : Bool
  /-- It was one executed in user mode (R481). -/
  userSpecial2 : Bool
  /-- The control register that the instruction before the last wrote (R478). -/
  setCtl2 : Option (BitVec 6)
deriving DecidableEq, Repr, Inhabited

/-- Where the ICAR idiom stands (spec/41_special.md R183): after an ICAR-disturbing instruction at `s` the next must be
`goto 1[r0]` at `s + 4`, and the one after it a null. -/
inductive IcarPhase where
  | idle
  | gotoNext
  | nullNext
  /-- The next instruction is not the one at `s + 4`. -/
  | broken
deriving DecidableEq, Repr, Inhabited

/-- An ECC error in a half line (spec/20_memory.md R121, spec/10_state.md R64). -/
inductive HalfError where
  /-- Data bit `bit` of the half's first word, or of its second (`second`). -/
  | data (second : Bool) (bit : BitVec 5)
  /-- A check bit; check bit 7 stands for an address error too, in which the data are right (R91). -/
  | check (c : BitVec 3)
  /-- A double-bit error, with its syndrome. -/
  | double (syndrome : Byte)
deriving DecidableEq, Repr, Inhabited

/-- The ECC errors that a coming main-memory line read meets, half line by half line (R121). The word of a half line is
address bit 1 (R64), so the half line is address bit 0. -/
structure EccError where
  /-- In words 0 and 2. -/
  even : Option HalfError
  /-- In words 1 and 3. -/
  odd : Option HalfError
deriving DecidableEq, Repr, Inhabited

/-- A parity error in a transfer over the bus from the memory controller to the data path (spec/20_memory.md R120): the
word of a line that it spoils, and the value that comes instead. -/
structure BusError where
  k : BitVec 2
  v : Word
deriving DecidableEq, Repr, Inhabited

/-- What a processor parity error spoils (spec/20_memory.md R120): the value that is read from then on. -/
inductive Spoil where
  | register (i : RegIndex) (v : Word)
  /-- The tag part of an entry of the instruction side (`inst`) or data side, column 1 (`col`) or 0. -/
  | tlbTag (inst col : Bool) (row : Fin 512) (pid : BitVec 8) (tag : BitVec 13) (invalid writable : Bool)
  | tlbData (inst col : Bool) (row : Fin 512) (rpn : BitVec 22)
  /-- A word that a cache holds. -/
  | instWord (l : LineAddr) (k : BitVec 2) (v : Word)
  | dataWord (l : LineAddr) (k : BitVec 2) (v : Word)
  /-- The cache tag of line `l` now reads as `tag`; its row stays (R110). -/
  | instTag (l : LineAddr) (tag : BitVec 22)
  | dataTag (l : LineAddr) (tag : BitVec 22)
deriving DecidableEq, Repr, Inhabited

/-- What a TDA does on its own (spec/61_io_devices.md R425, R426). -/
inductive TdaEvent where
  /-- It puts one segment of a response into the response ring. -/
  | respond (segment : Vector (BitVec 16) 16)
  /-- It takes one packet from the command ring. -/
  | take
  /-- It writes one of the words that belong to no ring and no pointer. -/
  | setWord (index : BitVec 8) (w : Word)
deriving DecidableEq, Repr

/-- What a TFA does on its own, but for its DMA (spec/61_io_devices.md R431, R433). -/
inductive TfaEvent where
  /-- The transmitter's next move on the fiber: it starts, sends a word, or ends. -/
  | txWord
  /-- A packet begins to arrive from the fiber. -/
  | rxBegin
  /-- A word arrives from the fiber. -/
  | rxWord (w : Word)
  /-- The packet ends; whether its CRC is wrong. -/
  | rxEnd (crcError : Bool)
  /-- A bus parity error. -/
  | busParity
deriving DecidableEq, Repr, Inhabited

/-- What a TNA does on its own, but for its DMA (spec/61_io_devices.md R446 to R457). -/
inductive TnaEvent where
  /-- A transmission attempt ends with this status (R451). -/
  | txEnd (status : Byte)
  /-- A packet arrives from the Ethernet with this status (R452). -/
  | rxPacket (bytes : List Byte) (status : Byte)
  | parity
  | octartPin (asserted : Bool)
  /-- The Octart changes one of its registers (R449). -/
  | octartRegister (i : BitVec 6) (b : Byte)
deriving DecidableEq, Repr, Inhabited

/-- A line transaction that an adaptor asks for (spec/61_io_devices.md R391, R407). -/
inductive DmaRequest where
  /-- A DMA output, by an adaptor whose choice of addresses the spec leaves open. -/
  | read (addr : Word)
  /-- A DMA input by such an adaptor: four words in transfer order. -/
  | write (addr : Word) (words : Line)
  /-- The next line that a TMA request asks for (R421). -/
  | tma
  /-- The next line of a packet that a TFA or TNA sends (R428, R455). -/
  | transmit
  /-- The next line of a packet that a TFA or TNA has received (R428, R456). -/
  | receive
deriving DecidableEq, Repr, Inhabited

/-- One thing the environment does between two instructions (D28, D30). -/
inductive Event where
  /-- The data cache evicts a line, writing it back if dirty (R111). -/
  | evictData (l : LineAddr)
  /-- The instruction cache drops a line (R111). -/
  | evictInst (l : LineAddr)
  /-- One arbitration of the bus: the requests pending in slots 1 to 7 (R392). -/
  | dma (requests : Vector (Option DmaRequest) 7)
  /-- ECC errors that coming main-memory line reads meet, one entry a read (R121). -/
  | ecc (errors : List (Option EccError))
  /-- The memory controller sees a parity error on the I/O bus (R400). -/
  | ioBusParity
  /-- The memory controller sees a parity error on the bus from the data path (R120). -/
  | cpuBusParity
  /-- A processor parity error in a RAM (R120, R367). -/
  | spoil (x : Spoil)
  /-- A parity error in what comes over the bus from the memory controller in this step: the line of a fetch, and the
  line of a load or store or the word of a GetCtl (R120). -/
  | busInst (e : BusError)
  | busData (e : BusError)
  /-- An adaptor becomes unable, or able again, to answer (R396). -/
  | busy (slot : BitVec 3) (b : Bool)
  /-- An adaptor takes the lock if it is free (R397). -/
  | takeLock (slot : BitVec 3)
  /-- An adaptor drops the lock it holds (R397). -/
  | dropLock (slot : BitVec 3)
  /-- A request packet reaches a TMA (R421). -/
  | tma (slot : BitVec 3) (r : TmaRequest)
  | tda (slot : BitVec 3) (e : TdaEvent)
  | tfa (slot : BitVec 3) (e : TfaEvent)
  | tna (slot : BitVec 3) (e : TnaEvent)
  /-- An undescribed adaptor drives its interrupt line. -/
  | otherInterrupt (slot : BitVec 3) (b : Bool)
  /-- A packet reaches the clock/scan module (R437). -/
  | csm (p : CsmPacket)
  /-- A panel switch resets the processor (R440, R460). -/
  | reset
deriving DecidableEq, Repr

/-- The environment's share of one step: machine cycles beyond the first (D31), then events in order. -/
structure Input where
  extraCycles : Nat
  events : List Event
deriving DecidableEq, Repr

/-- Everything a processor reset leaves unspecified (spec/10_state.md R69), as one bundle of values. -/
structure Unspecified where
  regs : Vector Word 256
  pid : BitVec 8
  raBank : BitVec 2
  rbBank : BitVec 2
  trapBits : BitVec 7
  literal : BitVec 6
  pc1 : BitVec 30
  pc2 : BitVec 30
  itfr : BitVec 22
  dtfr : BitVec 22
  itlb : Tlb
  dtlb : Tlb
  cp : Coprocessor
  ioSel : BitVec 6
  ioAddress : Word
  ioReadData : Word
  ioWriteData : Word
  ioSlot : BitVec 3
  ioAck : Bool
  synHi : Byte
  synLo : Byte
  errCnt : Nat
  errLine : LineAddr
  errW : Bool
deriving DecidableEq, Repr, Inhabited

end Sys2Proof.Machine
end

