-- ==== Sys2Proof/Config.lean ====
section
/-!
DEFINITION. What the spec leaves open: free values and lost layouts. Every constant here is OPAQUE, with no body, so
no proof can see what it is. A free value of an instruction is applied to State.fresh, the model's own counter, which
the step advances; a layout or a datapath choice that is fixed for one machine is a function of the operands. Each is
named in a log entry of notes/assumptions.
-/
namespace Sys2Proof.Config
open Sys2Proof.Machine

/-! ## Processor free values (applied to State.fresh) -/

/-- What r0 reads as in the second instruction after a special: "it to be invalid" (R474). Log 18. -/
opaque invalidPc : Nat → Word
/-- What a conditional jump tests when the special before it wrote the register (R472). Log 19. -/
opaque bypassedTest : Nat → Word
/-- The base register's value where the interlock is missing (R476). Log 20. -/
opaque uninterlockedBase : Nat → Word
/-- What RR holds for a special write when the instruction before loaded none (U14). Log 17. -/
opaque unloadedResult : Nat → Word
/-- The word address that enters the pc-queue on a ReadPcQ: "undefined" (R182, U7). Log 16. -/
opaque pcQueueEntry : Nat → BitVec 30
/-- The pc-queue as user mode sees it: it tracks the pipeline (R29). Log 16. -/
opaque userPcQueue : Nat → BitVec 30
/-- The pc-queue entry behind it, when kernel mode is entered by a PSW write (R29). Log 16. -/
opaque userPcQueueNext : Nat → BitVec 30
/-- The pc-queue, PC2 first, after a pseudoCall whose fetch two words ahead may miss (R229, R477). Log 14. -/
opaque miswrittenPcQueue : Nat → BitVec 30 × BitVec 30
/-- The word a data translation buffer entry takes from a write whose fetch two words ahead may miss (R195, R198, R477).
Log 14. -/
opaque miswrittenEntry : Nat → Word
/-- PSW bits 11..8 and 6 in user mode (R45, U6), as ill, itf, dtf, wpv, usr. Log 15. -/
opaque userTrapBits : Nat → BitVec 5
/-- PSW.ext and PSW.cop when kernel mode is entered by a PSW write (R45). Log 15. -/
opaque userRequestBits : Nat → BitVec 2
/-- PSW.literal where it is undefined (R43, U6). Log 15. -/
opaque undefinedLiteral : Nat → BitVec 6
/-- ITFR outside the interval in which it is valid (R46). Log 25. -/
opaque invalidItfr : Nat → BitVec 22
/-- DTFR outside the interval in which it is valid (R46). Log 25. -/
opaque invalidDtfr : Nat → BitVec 22
/-- Whether a WriteStatus that is not at word 0 of a line is written (R184, U17). Log 14. -/
opaque statusWritten : Nat → Bool
/-- Bits 30..0 of a comparison result (R272, U22). Log 55. -/
opaque compareLow : Nat → BitVec 31
/-- The result of an undescribed ALU function (R274, U23). Log 55. -/
opaque aluUndefined : Nat → Word
/-- AR of a halt record where the source gives none (R365). Log 51. -/
opaque haltAr : Nat → Word
/-- BR of a halt record where the source gives none (R365). Log 51. -/
opaque haltBr : Nat → Word

/-- Whether a read of something never written since reset, or written so that parity checking does not work correctly,
finds bad parity (R24, R194, D24, U4). Log 12, log 28. -/
opaque unwrittenParity : Nat → Bool

/-! ## Translation buffer reads (layouts of one machine) -/

/-- Bits 8..0 of a tag read, from the parity bit and the match field m (R193, TLBTAG_READ_LOW). Log 26. -/
opaque tlbTagReadLow : Bool → BitVec 2 → BitVec 9
/-- Bits 9..0 of a data read, from the parity bit (R193, TLBDATA_READ_LOW). Log 26. -/
opaque tlbDataReadLow : Bool → BitVec 10
/-- The stored parity bit of a tag part (true) or data part that nothing has written since reset, or that took nonzero
low bits (R47, R194). Log 12, log 28. -/
opaque unwrittenParityBit : Bool → TlbEntry → Bool
/-- Whether the invalid bit takes part in the match that m reports (R193, N8). Log 26. -/
opaque tlbMatchNeedsValid : Bool

/-! ## Memory controller -/

/-- What a control register address other than the eight reads as (R211, U20). Log 36. -/
opaque undocumentedControl : Nat → Word
/-- What a GetCtl returns when a restriction of R217 is broken. Log 37. -/
opaque hazardControlRead : Nat → Word
/-- The data a SetCtl writes, or the address an I/O transaction uses, when it is adjacent to an I/O special (R217).
Log 37. -/
opaque hazardControlData : Nat → Word
/-- IoReadData after an IoWrite: "destroyed" (R55). Log 38. -/
opaque destroyedReadData : Nat → Word
/-- IoReadData bits 31..1 after a slot 0 read (R215). Log 38. -/
opaque lockReadHigh : Nat → BitVec 31
/-- IoStatus.a after a slot 0 read (R215). Log 38. -/
opaque lockReadAck : Nat → Bool
/-- The bits of IoStatus that are neither slot nor a (R57). Log 35. -/
opaque ioStatusHigh : Nat → BitVec 28
/-- The ErrorLog image: complemented syndromes and count (R60, ERRORLOG_LAYOUT). Log 35. -/
opaque errorLogLayout : Byte → Byte → Nat → Word
/-- The ErrorAddress image (R61, ERRORADDR_LAYOUT). Log 35. -/
opaque errorAddressLayout : LineAddr → Bool → Word
/-- The words a half line delivers on a double-bit error (U3): whether it is the odd half, and the second word of it.
Log 34. -/
opaque doubleBitData : Nat → LineAddr → Bool → Bool → Word
/-- The syndrome bytes a vacant module's read records (R92): even half, then odd half. Log 33. -/
opaque vacantSyndrome : Nat → Byte × Byte

/-! ## Adaptors -/

/-- The data of a read that is not acknowledged, or that the adaptor's chapter calls undefined (U8, U30). Log 38. -/
opaque adaptorData : Nat → Word
/-- Whether an unacknowledged read shows bad parity (R396, R400). Log 38. -/
opaque adaptorParity : Nat → Bool
/-- Whether an access the spec does not describe is acknowledged (R443, U30). Log 59. -/
opaque adaptorAck : Nat → Bool
/-- Which of the TDA's 256 words an address names (R424, Figure 8-1 lost). Log 57. -/
opaque tdaIndex : Word → BitVec 8
/-- Where the TDA's rings and pointers lie (R424, R425, Figure 8-1 lost). Log 57. -/
opaque tdaLayout : TdaLayout
/-- What fills up the last line of a TMA write (R421). Log 56. -/
opaque tmaPadding : Nat → Nat → Word
/-- The TFA status image (R431, Figure 10-4 lost). Log 58. -/
opaque tfaStatusLayout : TfaStatus → Word
/-- The commands in a TFA control word (R432, Figure 10-5 lost). Log 58. -/
opaque tfaControlDecode : Word → TfaControl
/-- What a FIFO pop gives when the FIFO is empty (R430). Log 58. -/
opaque tfaEmptyPop : Nat → Word
/-- A full FIFO's contents after one more push by software (R430). Log 58. -/
opaque tfaOverflow : Nat → Vector Word 255
/-- Bits 7 and 6 of the Seeq receiver status: "undefined" (R452). Log 59. -/
opaque seeqRxHigh : Nat → BitVec 2
/-- The bytes of a receiver buffer that a packet skips or leaves over (R456). Log 59. -/
opaque tnaGap : Nat → Nat → Byte
/-- Bits 31..16 of a receiver ending status, from RxStatus and RxRead (R458, Figure 9-1 lost). Log 59. -/
opaque tnaEndingHigh : Byte → BitVec 4 → BitVec 16
/-- What an undescribed adaptor answers: data, ack, bad parity. Log 10. -/
opaque otherAnswer : Nat → Word × Bool × Bool

/-! ## Clock/scan module -/

/-- The fields of a reply that R438 does not say: the packet's scan fields, Go, EndMode and ScanData. Log 68. -/
opaque csmReplyRest : Nat → CsmPacket
/-- For how many machine cycles memory lives without refresh: "a few milliseconds" (R439). Log 64. -/
opaque refreshLimit : Nat
/-- What main memory holds after that. Log 64. -/
opaque lostMemory : Nat → List (Nat × Byte)
/-- The SystemStatus field, from the halt signals of processor and memory controller (R440, Figure 6-7 lost). Log 68. -/
opaque csmSystemStatus : Bool → Bool → Byte

/-! ## Coprocessor -/

/-- The accumulator that a coprocessor instruction right after a multi-cycle one meets (R489). Log 41. -/
opaque adjacentAccumulator : Nat → Accumulator
/-- The accumulator that such an instruction leaves (R489). Log 41. -/
opaque adjacentOutcome : Nat → Accumulator
/-- The result that such an instruction delivers (R489). Log 41. -/
opaque adjacentResult : Nat → Word
/-- The accumulator after an undescribed operation (U26). Log 55. -/
opaque undefinedAccumulator : Nat → Accumulator
/-- The result an undescribed operation delivers (U26). Log 55. -/
opaque undefinedCopResult : Nat → Word
/-- FP_OP where it is not the default (R312, D29): whether an inexact magnitude goes to the larger of its two
neighbours, from the code of the operation, the accumulator and the operand. Log 44. -/
opaque roundsUp : BitVec 7 → Accumulator → Dword → Bool
/-- AC.exp after a floating operation whose exponent does not fit 16 bits (N32). Log 62. -/
opaque wideExponent : BitVec 7 → Accumulator → Dword → BitVec 16
/-- DIV_EVEN_ZERO_REM (R304): whether an even quotient with remainder 0 leaves 2^32 - d, else 0. Log 45. -/
opaque divEvenZeroRem : Dword → Word → Bool
/-- AC.frac after a divide whose precondition fails (U27). Log 45. -/
opaque divideUnspecified : Dword → Dword → Dword
/-- AC.frac after a fix with an exponent above 63 (U28). Log 45. -/
opaque fixUnspecified : Accumulator → Dword
/-- ITIME after a wrTod: "lost" (R326). Log 48. -/
opaque lostInterval : Nat → Dword
/-- Whether the interval request rises, the timer having been loaded outside its range (U25). Log 48. -/
opaque timerRises : Nat → Bool
/-- The time of day once a request has waited 2^19 cycles (R325). Log 48. -/
opaque unservicedTod : Nat → Dword

/-! ## Reset -/

/-- What a processor reset leaves unspecified (R69). Log 52. -/
opaque unspecifiedAfterReset : Nat → Unspecified

end Sys2Proof.Config
end

