-- ==== Sys2Proof/Machine/AdaptorReset.lean ====
section
/-!
DEFINITION. The adaptors as they stand at power-on and what the I/O bus reset does to each (spec/61_io_devices.md
R408, R423, R427, R433, R459), with the words of a TDA that this needs.
-/
namespace Sys2Proof.Machine

/-! ## The 512 16-bit words of a TDA (R425) -/

/-- Word `i` of a TDA (R424). -/
def tdaWord (d : Tda) (i : BitVec 8) : Word := d.words[i.toNat]'(i.isLt)

/-- A TDA with word `i` written. -/
def tdaSetWord (d : Tda) (i : BitVec 8) (v : Word) : Tda := { d with words := d.words.set i.toNat v i.isLt }

/-- The register that holds 16-bit word `h`. -/
def tdaHalfIndex (h : BitVec 9) : BitVec 8 := h.extractLsb' 1 8

/-- Whether 16-bit word `h` is the high half of its register. -/
def tdaHalfIsHigh (l : TdaLayout) (h : BitVec 9) : Bool := l.highFirst != h.getLsbD 0

/-- The 16-bit word at an address. -/
def tdaHalf (l : TdaLayout) (d : Tda) (h : BitVec 9) : BitVec 16 :=
  if tdaHalfIsHigh l h then (tdaWord d (tdaHalfIndex h)).extractLsb' 16 16
  else (tdaWord d (tdaHalfIndex h)).extractLsb' 0 16

/-- A TDA with the 16-bit word at an address written. -/
def tdaSetHalf (l : TdaLayout) (d : Tda) (h : BitVec 9) (v : BitVec 16) : Tda :=
  let w := tdaWord d (tdaHalfIndex h)
  tdaSetWord d (tdaHalfIndex h) (if tdaHalfIsHigh l h then v ++ w.extractLsb' 0 16 else w.extractLsb' 16 16 ++ v)

/-- A ring empty: its Get pointer keeps its address with bit 15 clear, and its Put pointer is equal to it (R425, R427,
D38, log 11). -/
def tdaEmptyRing (l : TdaLayout) (put get : BitVec 9) (d : Tda) : Tda :=
  let p := tdaHalf l d get &&& 0x7FFF#16
  tdaSetHalf l (tdaSetHalf l d get p) put p

/-- Both rings empty (R427, D38). -/
def tdaEmptyRings (l : TdaLayout) (d : Tda) : Tda :=
  tdaEmptyRing l l.responsePut l.responseGet (tdaEmptyRing l l.commandPut l.commandGet d)

/-! ## Power-on -/

/-- A TDA after reset: rings empty, interrupt deasserted (R427, D38). Its words are the model's zeros (log 11). -/
def tdaInitial : Tda := { words := Vector.replicate 256 0#32, int := false }

/-- A TMA after reset: interrupt deasserted (R423, D38), no request under way. -/
def tmaInitial : Tma := { int := false, writeTo := none, jobs := [], reply := none, sent := 0 }

/-- A TFA after reset: as after TxReset and RxReset with BPE and Loop clear (R433, D38). Addresses and lengths are the
model's zeros (log 11). -/
def tfaInitial : Tfa :=
  { txAddress := 0#32, txLength := 0#20, txFifo := [], rxAddress := 0#32, rxLength := 0#20, rxFifo := [],
    txEn := false, txPX := false, txFE := false, txSending := false, rxEn := false, rxPX := false, rxFE := false,
    rxCRC := false, rxPhase := .idle, bpe := false, loop := false }

/-- The four TNA control bits cleared (R447). -/
def tnaControlClear : TnaControl := { byteOrder := false, xcvrEnbl := false, txEnbl := false, rxEnbl := false }

/-- The four TNA interrupt bits cleared (R448). -/
def tnaIntsClear : TnaInts := { tx := false, rx := false, parity := false, octart := false }

/-- A TNA after reset (R459); what R459 does not state is the model's zeros, and the Octart has not been referenced
(log 11). -/
def tnaInitial : Tna :=
  { ctrl := tnaControlClear, ints := tnaIntsClear, octartPin := false, txStatus := 0#8, rxStatus := 0#8,
    seeqTxStatus := 0#8, seeqRxStatus := 0#8, txCommand := 0#8, rxCommand := 0#8,
    etherAdr := Vector.replicate 6 0#8, station := Vector.replicate 8 0#8, txAddress := 0#30, txLength := 0#16,
    txCounter := 0#30, txCount := 0#16, txPhase := .idle, txBytes := [], rxCounter := 0#30, rxCount := 0#12,
    rxJob := none, descriptors := Vector.replicate 16 { address := 0#30, length := 0#12 }, rxRead := 0#4,
    rxWrite := 0#4, dtr := 0#8, octart := Vector.replicate 64 0#8, octartLast := none }

/-! ## The I/O bus reset -/

/-- The I/O bus reset at a TFA: transmitter and receiver reset, BPE and Loop clear (R433, D38). -/
def resetTfa (d : Tfa) : Tfa :=
  { d with txFifo := [], rxFifo := [], txEn := false, txPX := false, txFE := false, txSending := false, rxEn := false,
           rxPX := false, rxFE := false, rxCRC := false, rxPhase := .idle, bpe := false, loop := false }

/-- The I/O bus reset at a TNA: what R459 names is cleared, and with the enables the packets under way end; the rest is
left (log 11). OctartInt is cleared also while the Octart asserts its pin (R448, log 59). -/
def resetTna (d : Tna) : Tna :=
  { d with ctrl := tnaControlClear, ints := tnaIntsClear, txPhase := .idle, rxJob := none, rxRead := 0#4,
           rxWrite := 0#4, txCommand := 0#8, rxCommand := 0#8 }

/-- The I/O bus reset at a TMA: interrupt deasserted (R423, D38), the requests under way dropped (log 11). -/
def resetTma (d : Tma) : Tma := { d with int := false, writeTo := none, jobs := [] }

/-- The I/O bus reset at an adaptor (R408). -/
def resetAdaptor (a : Adaptor) : Adaptor :=
  match a with
  | .empty => .empty
  | .tma d => .tma (resetTma d)
  | .tda d => .tda { tdaEmptyRings Config.tdaLayout d with int := false }
  | .tfa d => .tfa (resetTfa d)
  | .tna d => .tna (resetTna d)
  | .other _ => .other false

/-- The I/O bus reset at a slot: the adaptor is reset and able to answer. -/
def resetSlot (s : Slot) : Slot := { s with busy := false, adaptor := resetAdaptor s.adaptor }

end Sys2Proof.Machine
end

