-- ==== Sys2Proof/Machine/State.lean ====
section
/-!
DEFINITION. The machine's state as plain data, the reasons a step can stop, and the state right after reset.
INVENTORY.md lists each field with the rule that names it.
-/
namespace Sys2Proof.Machine

/-- Memory: bytes by physical byte address, in the canonical form `Memory.wf` (Machine/Memory.lean): addresses strictly
rising, no byte equal to what an unlisted address reads as. -/
abbrev Memory := List Host.Cell

/-- The instruction cache: the lines it holds, by real line address, addresses strictly rising (R111). -/
abbrev InstCache := List (Nat × InstLine)

/-- The data cache: the lines it holds, by real line address, addresses strictly rising (R111). -/
abbrev DataCache := List (Nat × DataLine)

/-- The state of the machine. -/
structure State where
  /-- General registers, by bank and field (R20). -/
  regs : Vector Word 256
  /-- The stored parity of each general register (R24). -/
  marks : Vector Parity 256
  /-- Byte address of the instruction being executed (R26). -/
  pc : Word
  /-- Byte address of the instruction that executes next (R26). -/
  npc : Word
  /-- The pc-queue (R29). -/
  pc1 : Word
  pc2 : Word
  /-- The result register, `none` where nothing loaded it (R30). -/
  rr : Option Word
  /-- The program status word in effect, but for a write that reaches its third instruction (`pend3`). -/
  psw : Psw
  /-- The word written by the WriteStatus executed one, two, three instructions ago (R66, R184). -/
  pend1 : Option Word
  pend2 : Option Word
  pend3 : Option Word
  /-- Translation fault registers: 22-bit page numbers (R46). -/
  itfr : BitVec 22
  dtfr : BitVec 22
  /-- Translation buffers (R47). -/
  itlb : Tlb
  dtlb : Tlb
  /-- Caches (R48, R111). -/
  icache : InstCache
  dcache : DataCache
  /-- Why the processor is halted, if it is (R67, R365). -/
  halted : Option HaltRecord
  /-- The processor waits for a memory controller that has halted, and so until reset (R67, R368), or that the
  clock/scan module has stopped, and so until it lets it run (R439). -/
  stalled : Bool
  /-- The model's record of the last two instructions. -/
  hist : History
  /-- Where the ICAR idiom stands (R183). -/
  icar : IcarPhase
  /-- The coprocessor (R49 to R52). -/
  cp : Coprocessor
  /-- The memory controller (R53 to R63). -/
  mc : MemCtl
  /-- Main memory (R90, R91). -/
  mem : Memory
  /-- The Boot-Prom's contents (R7, R104). -/
  prom : Memory
  /-- Bit m: module m holds memory (R7, R92). -/
  populated : BitVec 4
  /-- I/O slots 1 to 7 (R407). -/
  slots : Vector Slot 7
  /-- The clock/scan module (R436 to R440). -/
  csm : Csm
  /-- The encoding parameters (R7, R131). -/
  enc : Encoding
  /-- The register and operand layouts (R7). -/
  lay : Layout
  /-- The model's own: what the environment does in the coming steps (D28, D30, D31). -/
  inputs : List Input
  /-- The model's own: ECC errors that the coming main-memory line reads meet (R121). -/
  ecc : List (Option EccError)
  /-- The model's own: machine cycles so far, for the spacing of Octart references (R449). -/
  cycles : Nat
  /-- The model's own: this step has evicted a dirty line from the data cache (R104). -/
  dirtyEvicted : Bool
  /-- The model's own: a parity error on the bus from the memory controller meets what comes over it in this step, for a
  fetch, and for a load, store or GetCtl (R120). -/
  busInst : Option BusError
  busData : Option BusError
  /-- The model's own: the counter free values are drawn with. -/
  fresh : Nat
deriving DecidableEq, Repr

/-- Faults: the machine may never proceed. -/
inductive Fault where
  /-- flush with an even effective address: "the processor may never exit the flush instruction" (R233, U12). Raised by
  flush. Safe: hardware may also go on. -/
  | flushNeverExits
deriving DecidableEq, Repr

/-- Refusals: nothing sound can be said from here on. -/
inductive Refusal where
  /-- An instruction whose arm has no meaning yet. Safe. -/
  | notModelled (mnemonic : String)
  /-- A reference that two valid translations match (R98, U1). Raised by load, store and the step's fetch. Safe. -/
  | ambiguousTranslation
  /-- A special whose function field the manual does not name, privileged (R201, U10, U11). Raised by the step. Safe. -/
  | undescribedSpecial
  /-- flush with mapping on (R233, D27). Raised by flush. Safe. -/
  | flushMapped
  /-- pseudoCall with instruction mapping on (R229, U19). Raised by pseudoCall. Safe. -/
  | pseudoCallMapped
  /-- SetCtl to a control register address that selects no documented register (R218, U20). Raised by SetCtl. Safe. -/
  | undocumentedControlWrite
  /-- After an ICAR-disturbing instruction something other than the idiom (R183, U16). Raised by the step. Safe. -/
  | icarIdiomBroken
  /-- No translation for an instruction of user mode with no predecessor to suppress (R347, U18), or whose page has lost
  it since the check at its predecessor: the model's choice (log 22). Raised by the step. Safe. -/
  | firstUserFetch
  /-- A trap while a PSW write or an ICAR idiom is in flight (R353, U29), or in the two instructions after a special in
  user mode (R481, U15). Raised by trap entry. Safe. -/
  | trapInFlight
  /-- DMA while the Boot-Prom is mapped, or a dirty miss that reads it (R104, U13). Raised by the step's environment,
  load and store. Safe. -/
  | bootPromOverlap
  /-- An Octart reference less than 450 ns after the last (R449, U30). Raised by IoRead and IoWrite. Safe. -/
  | octartTooSoon
  /-- A write of RxLength with the descriptor fifo full and the receiver enabled (R457, U30). Raised by IoWrite. Safe.
  -/
  | descriptorFifoFull
  /-- A clock/scan packet that scans, or steps clocks that it holds stopped (R436, R439, D39). Raised by the step's
  environment. Safe. -/
  | scanActivity
deriving DecidableEq, Repr

/-- An instruction that did nothing the restrictions ask about. -/
def Did.nothing : Did :=
  { special := false, userSpecial := false, io := false, memory := false, store := false,
    tookResult := false, wrote := none, setCtl := none, copBusy := false }

/-- The record of a machine that has executed nothing: after reset and after a trap (R482). -/
def History.empty : History := { last := Did.nothing, special2 := false, userSpecial2 := false, setCtl2 := none }

/-- The PSW after reset (R460): rom, pre, krn, par, imp, dmp set, prv clear; the undefined fields are the model's zeros
(log 5). -/
def Psw.reset : Psw :=
  { rom := true, pre := true, krn := true, prv := false, par := true, pid := 0#8, ra := 0#2, rb := 0#2, imp := true,
    dmp := true, ext := false, ill := false, itf := false, dtf := false, wpv := false, cop := false, usr := false,
    literal := 0#6 }

/-- A translation buffer entry that is invalid and never written: what the model takes at reset (log 4). -/
def TlbEntry.blank : TlbEntry :=
  { pid := 0#8, tag := 0#13, invalid := true, writable := false, rpn := 0#22, tagParity := .unwritten,
    dataParity := .unwritten }

/-- A translation buffer of invalid entries (log 4). -/
def Tlb.blank : Tlb := { col0 := Vector.replicate 512 TlbEntry.blank, col1 := Vector.replicate 512 TlbEntry.blank }

/-- The accumulator with every bit 0. -/
def Accumulator.zero : Accumulator := { sign := false, exp := 0#16, frac := 0#64 }

/-- The coprocessor at reset: the source states nothing; the model's zeros (log 7). -/
def Coprocessor.reset : Coprocessor :=
  { ac := Accumulator.zero, abort := false, rsvOp := false, noDiv := false, tod := 0#64, itime := 0#64, timer := .off,
    intPending := false, intAge := 0 }

/-- The memory controller at reset: Enable 0, not halted, lock free (R59, R69); the rest is the model's (log 8). -/
def MemCtl.reset : MemCtl :=
  { ioSel := 0x01#6, ioAddress := 0#32, ioReadData := 0#32, ioWriteData := 0#32, slot := 0#3, ack := false,
    hErrs := 0#4, enable := 0#32, synHi := 0#8, synLo := 0#8, errCnt := 0, errLine := 0#30, errW := false,
    halted := false, lock := .none }

/-- A slot with an adaptor that can answer; the words of its bus interface are the model's zeros (log 11). -/
def Slot.holding (a : Adaptor) : Slot :=
  { busy := false, latch := { w0 := 0#32, w1 := 0#32, w2 := 0#32, w3 := 0#32 }, adaptor := a }

/-- The clock/scan module before its first packet: nothing stopped or selected; the model's choice (log 68). -/
def Csm.initial : Csm :=
  { modeA := 0xFF#8, modeB := 0#8, go := 0#32, cpuStopped := false, mcStopped := false, ioStopped := false,
    nsStopped := none, last := none, reply := none, sent := 0 }

/-- The machine right after reset (spec/10_state.md R69, spec/70_reset_and_hazards.md R460). Values the spec does not
give are those of log 3 to log 11. -/
def State.reset : State :=
  { regs := Vector.replicate 256 0#32, marks := Vector.replicate 256 .unwritten, pc := 0x00001000#32,
    npc := 0x00001004#32, pc1 := 0#32, pc2 := 0#32, rr := none, psw := Psw.reset, pend1 := none, pend2 := none,
    pend3 := none, itfr := 0#22, dtfr := 0#22, itlb := Tlb.blank, dtlb := Tlb.blank, icache := [], dcache := [],
    halted := none, stalled := false, hist := History.empty, icar := .idle,
    cp := Coprocessor.reset, mc := MemCtl.reset, mem := [], prom := [], populated := 0b1111#4,
    slots := #v[Slot.holding (.tna tnaInitial), Slot.holding (.tda tdaInitial), Slot.holding (.tfa tfaInitial),
      Slot.holding (.tma tmaInitial), Slot.holding .empty, Slot.holding .empty, Slot.holding .empty],
    csm := Csm.initial, enc := Encoding.standard, lay := Layout.standard, inputs := [], ecc := [],
    cycles := 0, dirtyEvicted := false, busInst := none, busData := none, fresh := 0 }

end Sys2Proof.Machine
end

