-- ==== Sys2Proof/Machine/Psw.lean ====
section
/-!
DEFINITION. The program status word as a 32-bit image and what a write changes (spec/10_state.md R33 to R45), and the
banked register numbers (R21).
-/
namespace Sys2Proof.Machine

/-- The 32-bit image of the PSW in the default arrangement (R33): rom 31, pre 30, krn 29, prv 28, par 27, pid 26..19,
ra 18..17, rb 16..15, imp 14,
dmp 13, ext 12, ill 11, itf 10, dtf 9, wpv 8, cop 7, usr 6, literal 5..0. -/
def Psw.toWord (p : Psw) : Word :=
  BitVec.ofBool p.rom ++ (BitVec.ofBool p.pre ++ (BitVec.ofBool p.krn ++ (BitVec.ofBool p.prv ++ (BitVec.ofBool p.par ++
  (p.pid ++ (p.ra ++ (p.rb ++ (BitVec.ofBool p.imp ++ (BitVec.ofBool p.dmp ++ (BitVec.ofBool p.ext ++
  (BitVec.ofBool p.ill ++ (BitVec.ofBool p.itf ++ (BitVec.ofBool p.dtf ++ (BitVec.ofBool p.wpv ++
  (BitVec.ofBool p.cop ++ (BitVec.ofBool p.usr ++ p.literal))))))))))))))))

/-- The PSW with the software-writable fields taken from a word (R44): krn, the trap bits and literal stay. -/
def Psw.write (p : Psw) (v : Word) : Psw :=
  { p with rom := v.getLsbD 31, pre := v.getLsbD 30, prv := v.getLsbD 28, par := v.getLsbD 27,
           pid := v.extractLsb' 19 8, ra := v.extractLsb' 17 2, rb := v.extractLsb' 15 2, imp := v.getLsbD 14,
           dmp := v.getLsbD 13 }

/-- krn takes on the value of pre (R35, R36). -/
def Psw.shadow (p : Psw) : Psw := { p with krn := p.pre }

/-- User mode without privileged instructions (R37, R362). -/
def Psw.unprivileged (p : Psw) : Bool := !p.krn && !p.prv

/-- The PSW that the current instruction executes under: a write three instructions ago is in effect but for krn
(R184, D20). -/
def State.eff (s : State) : Psw :=
  match s.pend3 with
  | none => s.psw
  | some v => s.psw.write v

/-- The PSW that holds after the current instruction: krn follows the written pre (R184, D20). -/
def State.nextPsw (s : State) : Psw :=
  match s.pend3 with
  | none => s.psw
  | some v => (s.psw.write v).shadow

/-- The number of a register: bank, then field (R20, R21). -/
def regIndex (bank : BitVec 2) (n : RegField) : RegIndex := bank ++ n

/-- The number of the register that a field ra or rc names (R21). -/
def State.raIndex (s : State) (n : RegField) : RegIndex := regIndex s.eff.ra n

/-- The number of the register that a field rb names (R21). -/
def State.rbIndex (s : State) (n : RegField) : RegIndex := regIndex s.eff.rb n

/-- The contents of a general register. -/
def State.reg (s : State) (i : RegIndex) : Word := s.regs[i.toNat]'(i.isLt)

/-- The stored parity of a general register (R24). -/
def State.mark (s : State) (i : RegIndex) : Parity := s.marks[i.toNat]'(i.isLt)

/-- What r0 reads as: the address of the instruction itself (R22), but in the second instruction after a special a
free value (R474, log 18). -/
def State.pcRead (s : State) : Word := if s.hist.special2 then Config.invalidPc s.fresh else s.pc

/-- `A(n)`: a register through the bank PSW.ra; r0 is the pc (R10, R21, R22). -/
def State.readA (s : State) (n : RegField) : Word := if n = 0#6 then s.pcRead else s.reg (s.raIndex n)

/-- `B(n)`: a register through the bank PSW.rb; r0 is the pc (R10, R21, R22). -/
def State.readB (s : State) (n : RegField) : Word := if n = 0#6 then s.pcRead else s.reg (s.rbIndex n)

/-- `A(n) <- v`: a write goes to the bank PSW.ra, with good parity; a write of r0 is discarded (R10, R21, R23, R24). -/
def State.writeA (s : State) (n : RegField) (v : Word) : State :=
  if n = 0#6 then s
  else
    { s with regs := s.regs.set (s.raIndex n).toNat v (s.raIndex n).isLt,
             marks := s.marks.set (s.raIndex n).toNat .good (s.raIndex n).isLt }

/-- Which register such a write modifies, for the hazard record. -/
def State.wroteA (s : State) (n : RegField) : Option RegIndex := if n = 0#6 then none else some (s.raIndex n)

end Sys2Proof.Machine
end

