-- ==== Sys2Proof/Machine/Tna.lean ====
section
/-!
DEFINITION. The Titan Network Adaptor (spec/61_io_devices.md R443 to R459), and what the answers of all adaptors are
made of.
-/
namespace Sys2Proof.Machine

/-- What a slot answers to an I/O read: data, acknowledge, bad parity (R407). -/
structure SlotAnswer where
  data : Word
  ack : Bool
  perr : Bool
deriving DecidableEq, Repr

/-- What an adaptor's answer depends on beside its own state: the counter of free values, the machine cycle, and the
layout of the TNA's status register. -/
structure IoContext where
  fresh : Nat
  now : Nat
  tnaStatus : Places 32
deriving DecidableEq, Repr

/-- An acknowledged answer with good parity (R396). -/
def acknowledged (data : Word) : SlotAnswer := { data := data, ack := true, perr := false }

/-- An answer that is not acknowledged: data and parity are free (R396, R400, log 38). -/
def unacknowledged (fresh : Nat) : SlotAnswer :=
  { data := Config.adaptorData fresh, ack := false, perr := Config.adaptorParity fresh }

/-- An access that the adaptor's chapter does not describe: data and acknowledge are free, and the parity too where it
is not acknowledged (R396, U30, log 59). -/
def undescribedAnswer (fresh : Nat) : SlotAnswer :=
  { data := Config.adaptorData fresh, ack := Config.adaptorAck fresh,
    perr := !Config.adaptorAck fresh && Config.adaptorParity fresh }

/-! ## Status and control (R446 to R448) -/

/-- The TNA's interrupt line: any interrupt bit (R448). -/
def tnaInterrupt (d : Tna) : Bool := d.ints.tx || d.ints.rx || d.ints.parity || d.ints.octart

/-- The control field, in the order listed (R447). -/
def tnaControlField (c : TnaControl) : BitVec 4 :=
  BitVec.ofBool c.byteOrder ++ (BitVec.ofBool c.xcvrEnbl ++ (BitVec.ofBool c.txEnbl ++ BitVec.ofBool c.rxEnbl))

/-- The interrupt field, in the order listed (R448). -/
def tnaIntField (i : TnaInts) : BitVec 4 :=
  BitVec.ofBool i.tx ++ (BitVec.ofBool i.rx ++ (BitVec.ofBool i.parity ++ BitVec.ofBool i.octart))

/-- A Seeq receiver status as it is read: bits 7 and 6 are undefined (R452, log 59). -/
def tnaRxStatusRead (fresh : Nat) (status : Byte) : Byte := Config.seeqRxHigh fresh ++ status.extractLsb' 0 6

/-- The status register in the default arrangement, the order listed: TxStatus, RxStatus, RxRead, RxWrite, ctrl, ints
(R446). -/
def tnaStatus (d : Tna) (fresh : Nat) : Word :=
  d.txStatus ++ (tnaRxStatusRead fresh d.rxStatus ++
    (d.rxRead ++ (d.rxWrite ++ (tnaControlField d.ctrl ++ tnaIntField d.ints))))

/-- The control bits of a word in that arrangement: the control field of the status register (R446, R447). -/
def tnaControlOf (v : Word) : TnaControl :=
  { byteOrder := v.getLsbD 7, xcvrEnbl := v.getLsbD 6, txEnbl := v.getLsbD 5, rxEnbl := v.getLsbD 4 }

/-- A status read with address bit 0 clear clears the interrupt bits; the Octart bit stays while its pin is asserted
(R448). Where a reset has cleared it under an asserted pin the read sets it: the model's choice (log 59). -/
def tnaStatusRead (d : Tna) (keep : Bool) : Tna :=
  if keep then d else { d with ints := { tx := false, rx := false, parity := false, octart := d.octartPin } }

/-- The Seeq status registers copied into the external registers (R446). -/
def tnaCopyStatus (d : Tna) : Tna := { d with txStatus := d.seeqTxStatus, rxStatus := d.seeqRxStatus }

/-! ## Bytes of a buffer (R447) -/

/-- The bytes of a word in the order in which the Ethernet side takes them: left to right, or the other way with
ByteOrder set (R447). -/
def tnaWordBytes (order : Bool) (w : Word) : List Byte := if order then (bytesOfWord w).reverse else bytesOfWord w

/-- The bytes of a quadword. -/
def tnaLineBytes (order : Bool) (v : Line) : List Byte :=
  tnaWordBytes order v.w0 ++ tnaWordBytes order v.w1 ++ tnaWordBytes order v.w2 ++ tnaWordBytes order v.w3

/-- The word of four bytes in that order. -/
def tnaBytesWord (order : Bool) (b0 b1 b2 b3 : Byte) : Word :=
  if order then wordOfBytes b3 b2 b1 b0 else wordOfBytes b0 b1 b2 b3

/-- Byte `i` of a packet as it lies in a receiver buffer, from the second quadword on: the first two bytes are
skipped, and what is skipped or left over is free (R456, log 59). -/
def tnaBufferByte (bytes : List Byte) (fresh i : Nat) : Byte :=
  if 2 ≤ i then bytes.getD (i - 2) (Config.tnaGap fresh i) else Config.tnaGap fresh i

/-- Quadword `k` of that. -/
def tnaBufferLine (order : Bool) (bytes : List Byte) (fresh k : Nat) : Line :=
  let w := fun j => tnaBytesWord order (tnaBufferByte bytes fresh (16 * k + 4 * j))
    (tnaBufferByte bytes fresh (16 * k + 4 * j + 1)) (tnaBufferByte bytes fresh (16 * k + 4 * j + 2))
    (tnaBufferByte bytes fresh (16 * k + 4 * j + 3))
  { w0 := w 0, w1 := w 1, w2 := w 2, w3 := w 3 }

/-- The quadwords that a packet takes, without the ending status. -/
def tnaBufferLines (order : Bool) (bytes : List Byte) (fresh : Nat) : List Line :=
  (List.range ((bytes.length + 17) / 16)).map (tnaBufferLine order bytes fresh)

/-! ## Receiver (R452, R453, R456 to R458) -/

/-- The descriptor that a pointer points to (R453). -/
def tnaDescriptor (d : Tna) (i : BitVec 4) : TnaDescriptor := d.descriptors[i.toNat]'(i.isLt)

/-- The descriptor that RxWrite points to, replaced (R453). -/
def tnaSetDescriptor (d : Tna) (e : TnaDescriptor) : Tna :=
  { d with descriptors := d.descriptors.set d.rxWrite.toNat e d.rxWrite.isLt }

/-- The descriptor fifo is empty (R446). -/
def tnaFifoEmpty (d : Tna) : Bool := d.rxRead == d.rxWrite

/-- The descriptor fifo is full (R446). -/
def tnaFifoFull (d : Tna) : Bool := d.rxWrite + 1#4 == d.rxRead

/-- The receiver's counters loaded from the descriptor at RxRead, where it is enabled and has one (R453). -/
def tnaRxLoad (d : Tna) : Tna :=
  if d.ctrl.rxEnbl && !tnaFifoEmpty d then
    { d with rxCounter := (tnaDescriptor d d.rxRead).address, rxCount := (tnaDescriptor d d.rxRead).length }
  else d

/-- The address filter of the Seeq chip (R452): command bits 7, 6 give the mode. -/
def tnaFilter (d : Tna) (bytes : List Byte) : Bool :=
  let own := bytes.take 6 == d.etherAdr.toList
  let broadcast := bytes.take 6 == [0xFF#8, 0xFF#8, 0xFF#8, 0xFF#8, 0xFF#8, 0xFF#8]
  match (d.rxCommand.extractLsb' 6 2).toNat with
  | 0 => false
  | 1 => true
  | 2 => own || broadcast
  | _ => own || broadcast || (bytes.headD 0#8).getLsbD 0

/-- The receiver begins to copy a packet into the buffer at RxRead, whose first quadword it skips (R456). A buffer of
length 0 takes no data and overflows, and its first quadword still takes the ending status: the model's choice, on which
R457 and R458 are silent (log 59). -/
def tnaRxStart (d : Tna) (bytes : List Byte) (status : Byte) (fresh : Nat) : Tna :=
  let e := tnaDescriptor d d.rxRead
  let lines := tnaBufferLines d.ctrl.byteOrder bytes fresh
  { d with
    rxCounter := e.address + 1#30, rxCount := e.length - 1#12,
    rxJob := some { lines := lines.take (e.length.toNat - 1), status := status, length := bytes.length,
                    overflow := decide (e.length.toNat - 1 < lines.length) } }

/-- A packet is flushed for want of a descriptor: the Seeq chip's receiver status tells of it, and where that matches
the command the chip's interrupt copies it out (R446, R452, R456, log 59). -/
def tnaRxFlush (d : Tna) (status : Byte) : Tna :=
  if d.rxCommand &&& 0x3F#8 &&& status != 0#8 then tnaCopyStatus { d with seeqRxStatus := status }
  else { d with seeqRxStatus := status }

/-- A packet arrives (R452, R456): with the receiver enabled and nothing else under way, one that passes the filter is
copied, or flushed where there is no descriptor. One that fails the filter changes nothing, not the status either,
though "any packet" speaks of packets "addressed to us or not": the model's choice (log 59). One that comes with RxEnbl
clear, or while another is copied, leaves the Seeq chip's receiver status as it was too, and the filter counts as it
stands at the arrival; R452 is silent on these: the model's choice (log 59). -/
def tnaArrive (d : Tna) (bytes : List Byte) (status : Byte) (fresh : Nat) : Tna :=
  if d.ctrl.rxEnbl && d.rxJob.isNone && tnaFilter d bytes then
    if tnaFifoEmpty d then tnaRxFlush d (status &&& 0x3F#8) else tnaRxStart d bytes (status &&& 0x3F#8) fresh
  else d

/-- The packet consumes its buffer and interrupts: command AND status is not zero (R452). -/
def tnaRxKeeps (d : Tna) (j : TnaRxJob) : Bool := d.rxCommand &&& 0x3F#8 &&& j.status != 0#8

/-- The ending status word (R458): unused quadwords in bits 15..4, all ones on overflow, and the odd bytes in bits
3..0, by the length formula of R458; RxStatus and RxRead above, in a lost layout. A packet of 15 bytes modulo 16 takes
one quadword more than the formula can report, and the formula is followed: the model's choice (log 59). -/
def tnaEndingWord (d : Tna) (j : TnaRxJob) (fresh : Nat) : Word :=
  Config.tnaEndingHigh (tnaRxStatusRead fresh j.status) d.rxRead ++
  ((if j.overflow then 0xFFF#12
    else (tnaDescriptor d d.rxRead).length - BitVec.ofNat 12 (j.length / 16 + 2)) ++ BitVec.ofNat 4 (j.length % 16))

/-- The first quadword of a buffer at the end: four copies of the ending status (R456), which ByteOrder, on which R447
is silent there, does not reverse: the model's choice (log 59). -/
def tnaEndingLine (d : Tna) (j : TnaRxJob) (fresh : Nat) : Line :=
  let w := tnaEndingWord d j fresh
  { w0 := w, w1 := w, w2 := w, w3 := w }

/-- The receiver after the last quadword of a packet: the buffer is used up, or its counters are reloaded for the next
packet (R452, R453, R457). Only now does the Seeq chip's receiver status tell of the packet, and the command counts as
it stands now: the model's choice (log 59). -/
def tnaRxFinish (d : Tna) (j : TnaRxJob) : Tna :=
  if tnaRxKeeps d j then
    tnaRxLoad (tnaCopyStatus { d with rxJob := none, seeqRxStatus := j.status, rxRead := d.rxRead + 1#4,
                                      ints := { d.ints with rx := true } })
  else tnaRxLoad { d with rxJob := none, seeqRxStatus := j.status }

/-- The receiver after one DMA transaction (R456). -/
def tnaRxDone (d : Tna) : Tna :=
  match d.rxJob with
  | none => d
  | some j =>
    match j.lines with
    | [] => tnaRxFinish d j
    | _ :: t =>
      { d with rxCounter := d.rxCounter + 1#30, rxCount := d.rxCount - 1#12, rxJob := some { j with lines := t } }

/-! ## Transmitter (R451, R453, R455) -/

/-- The transmitter starts, or starts again: its counters are loaded (R453). -/
def tnaTxStart (d : Tna) : Tna :=
  { d with txCounter := d.txAddress, txCount := d.txLength, txBytes := [], txPhase := .sending }

/-- The transmitter fetches: it is sending and bytes are left (R455). A TxLength of 0 is a packet of no bytes: the
model's choice (log 59). -/
def tnaTxFetches (d : Tna) : Bool := d.ctrl.txEnbl && decide (d.txPhase = .sending) && d.txCount != 0#16

/-- The transmitter with one more quadword fetched, of the first of which two bytes are skipped (R455). TxLength counts
the packet's bytes without these two: the model's choice (log 59). ByteOrder counts as it stands when a quadword is
fetched, so that a change in the middle of a transmission acts on the quadwords fetched after it, on which R447 is
silent: the model's choice (log 59). -/
def tnaTxDone (d : Tna) (v : Line) : Tna :=
  let bytes := tnaLineBytes d.ctrl.byteOrder v
  let got := (if d.txBytes.isEmpty then bytes.drop 2 else bytes).take d.txCount.toNat
  if tnaTxFetches d then
    { d with txBytes := d.txBytes ++ got, txCounter := d.txCounter + 1#30,
             txCount := d.txCount - BitVec.ofNat 16 got.length }
  else d

/-- A transmission attempt ends with a status (R451, R455): a match with the command stops the transmitter and
interrupts; an error without one starts it again. -/
def tnaTxConclude (d : Tna) (st : Byte) : Tna :=
  if d.txCommand &&& st != 0#8 then
    tnaCopyStatus { d with seeqTxStatus := st, txPhase := .waiting, ints := { d.ints with tx := true } }
  else if st &&& 0x07#8 != 0#8 then tnaTxStart { d with seeqTxStatus := st }
  else { d with seeqTxStatus := st, txPhase := .waiting }

/-- The receiver status of a packet that comes back from the transmitter: good, or short below 60 bytes (R452). -/
def tnaLoopStatus (bytes : List Byte) : Byte := if bytes.length < 60 then 0x18#8 else 0x30#8

/-- The end of a transmission attempt (R451): bits 7..4 are zero, a collision needs the transceiver, a success all bytes
fetched. Without the transceiver a packet sent comes to the receiver (R447): one that is sent whole, and not the
malformed one of a transmission that an underflow cuts short, of whose reception R447 and R455 are silent; whether the
transceiver is on counts at the end. The model's choice (log 59). -/
def tnaTxEnd (d : Tna) (status : Byte) (fresh : Nat) : Tna :=
  let st := status &&& (if d.ctrl.xcvrEnbl then 0x0F#8 else 0x09#8)
  if !(decide (d.txPhase = .sending)) || st == 0#8 || (st.getLsbD 3 && d.txCount != 0#16) then d
  else if st.getLsbD 3 && !d.ctrl.xcvrEnbl then
    tnaArrive (tnaTxConclude d st) d.txBytes (tnaLoopStatus d.txBytes) fresh
  else tnaTxConclude d st

/-- A control write (R447, R455, R456): setting an enable starts its side, clearing it stops it without an interrupt.
One that is set already and stays so changes nothing of its side but the byte order of the quadwords still to fetch; a
packet that is being copied keeps the byte order with which it came, and goes on whatever becomes of XcvrEnbl: the
model's choice (log 59). A transmission under way is cut off: of the malformed packet that it leaves (R455) nothing
comes to a receiver that the transmitter is looped to (R447), on which both are silent, and the transmitter's status
stays: the model's choice (log 59). A reception that clearing RxEnbl cuts off leaves the Seeq chip's receiver status as
it was, on which R452 and R456 are silent: the model's choice (log 59). -/
def tnaSetControl (d : Tna) (c : TnaControl) : Tna :=
  let d1 := { d with ctrl := c }
  let d2 :=
    if c.txEnbl then (if d.ctrl.txEnbl then d1 else tnaTxStart d1) else { d1 with txPhase := .idle, txBytes := [] }
  if c.rxEnbl then (if d.ctrl.rxEnbl then d2 else tnaRxLoad d2) else { d2 with rxJob := none }

/-! ## I/O reads and writes (R443) -/

/-- A read of the Seeq chip: 6 RxStatus, 7 TxStatus, else nothing (R450); the byte stands in bits 7..0 (log 59);
RxStatus bits 7, 6 are undefined (R452). -/
def tnaSeeqRead (d : Tna) (addr : Word) (fresh : Nat) : SlotAnswer × Tna :=
  match (addr.extractLsb' 0 3).toNat with
  | 6 => (acknowledged ((tnaRxStatusRead fresh d.seeqRxStatus).setWidth 32), tnaCopyStatus d)
  | 7 => (acknowledged (d.seeqTxStatus.setWidth 32), tnaCopyStatus d)
  | _ => (undescribedAnswer fresh, d)

/-- A read of the DMA registers: the two counters in bits 31..2, zeros below (log 59); the lengths read as undefined
data (R453). -/
def tnaDmaRead (d : Tna) (addr : Word) (fresh : Nat) : SlotAnswer :=
  match (addr.extractLsb' 0 2).toNat with
  | 0 => acknowledged (d.txCounter ++ 0#2)
  | 2 => acknowledged (d.rxCounter ++ 0#2)
  | _ => acknowledged (Config.adaptorData fresh)

/-- Byte `i` of the address rom (R445): address and checksum, the same reversed, the same again, the test pattern. -/
def tnaRomByte (d : Tna) (i : BitVec 5) : Byte :=
  let k : BitVec 3 := i.extractLsb' 0 3
  match (i.extractLsb' 3 2).toNat with
  | 0 => d.station[k.toNat]'(k.isLt)
  | 1 => d.station[(7#3 - k).toNat]'((7#3 - k).isLt)
  | 2 => d.station[k.toNat]'(k.isLt)
  | _ => #v[0xFF#8, 0x00#8, 0x55#8, 0xAA#8, 0xFF#8, 0x00#8, 0x55#8, 0xAA#8][k.toNat]'(k.isLt)

/-- Register `i` of the Octart (R449). -/
def tnaOctart (d : Tna) (i : BitVec 6) : Byte := d.octart[i.toNat]'(i.isLt)

/-- The Octart with register `i` written (R449). -/
def tnaSetOctart (d : Tna) (i : BitVec 6) (b : Byte) : Tna := { d with octart := d.octart.set i.toNat b i.isLt }

/-- An I/O read of a TNA: address bits 8..6 select (R443). -/
def tnaRead (d : Tna) (addr : Word) (c : IoContext) : SlotAnswer × Tna :=
  match (addr.extractLsb' 6 3).toNat with
  | 7 => (acknowledged 0x00000004#32, d)
  | 6 => (acknowledged ((tnaRomByte d (addr.extractLsb' 0 5)).setWidth 32), d)
  | 5 => (acknowledged (c.tnaStatus.put (tnaStatus d c.fresh)), tnaStatusRead d (addr.getLsbD 0))
  | 4 => (acknowledged ((tnaOctart d (addr.extractLsb' 0 6)).setWidth 32), { d with octartLast := some c.now })
  | 2 => tnaSeeqRead d addr c.fresh
  | 1 => (tnaDmaRead d addr c.fresh, d)
  | _ => (undescribedAnswer c.fresh, d)

/-- A write of the Seeq chip: EtherAdr0 to 5, RxCommand, TxCommand, from bits 7..0 (R450, log 59); TxCommand bits 7..4
are zero (R451). -/
def tnaSeeqWrite (d : Tna) (addr v : Word) : Tna :=
  let b := v.extractLsb' 0 8
  match (addr.extractLsb' 0 3).toNat with
  | 0 => { d with etherAdr := d.etherAdr.set 0 b }
  | 1 => { d with etherAdr := d.etherAdr.set 1 b }
  | 2 => { d with etherAdr := d.etherAdr.set 2 b }
  | 3 => { d with etherAdr := d.etherAdr.set 3 b }
  | 4 => { d with etherAdr := d.etherAdr.set 4 b }
  | 5 => { d with etherAdr := d.etherAdr.set 5 b }
  | 6 => { d with rxCommand := b }
  | _ => { d with txCommand := b &&& 0x0F#8 }

/-- A descriptor's length written: RxWrite goes on, and a receiver that had no descriptor loads it (R453, R456,
R457). -/
def tnaRxLengthWrite (d : Tna) (v : Word) : Tna :=
  let t := { tnaSetDescriptor d { tnaDescriptor d d.rxWrite with length := v.extractLsb' 4 12 } with
    rxWrite := d.rxWrite + 1#4 }
  if tnaFifoEmpty d then tnaRxLoad t else t

/-- A write of the DMA registers: TxAddress from bits 31..2, TxLength from 15..0, the descriptor's address, and its
length from 15..4 (R453). -/
def tnaDmaWrite (d : Tna) (addr v : Word) : Tna :=
  match (addr.extractLsb' 0 2).toNat with
  | 0 => { d with txAddress := v.extractLsb' 2 30 }
  | 1 => { d with txLength := v.extractLsb' 0 16 }
  | 2 => tnaSetDescriptor d { tnaDescriptor d d.rxWrite with address := v.extractLsb' 2 30 }
  | _ => tnaRxLengthWrite d v

/-- An I/O write of a TNA: acknowledge and the adaptor after it (R443 to R454). Data Terminal Ready takes bits 7 to 0 of
the word: the model's choice (R454, log 59). -/
def tnaWrite (d : Tna) (addr v : Word) (c : IoContext) : Bool × Tna :=
  match (addr.extractLsb' 6 3).toNat with
  | 0 => (true, { d with dtr := v.extractLsb' 0 8 })
  | 1 => (true, tnaDmaWrite d addr v)
  | 2 => (true, tnaSeeqWrite d addr v)
  | 3 => (Config.adaptorAck c.fresh, d)
  | 4 => (true, { tnaSetOctart d (addr.extractLsb' 0 6) (v.extractLsb' 0 8) with octartLast := some c.now })
  | 5 => (true, tnaSetControl d (tnaControlOf (c.tnaStatus.get v)))
  | _ => (true, d)

/-- Whether fewer than 10 cycles of 45 ns have gone by since the last Octart reference (R449). -/
def tnaOctartBusy (d : Tna) (now : Nat) : Bool :=
  match d.octartLast with
  | none => false
  | some k => decide (now < k + 10)

/-- An access that U30 refuses: an Octart reference too soon, a length written with the fifo full. With the receiver
disabled the latter is the initialisation that R457 describes: RxWrite goes on until RxRead equals it. -/
def tnaRefuses (d : Tna) (addr : Word) (write : Bool) (now : Nat) : Option Refusal :=
  match (addr.extractLsb' 6 3).toNat with
  | 4 => if tnaOctartBusy d now then some .octartTooSoon else none
  | 1 =>
    if write && decide (addr.extractLsb' 0 2 = 3#2) && tnaFifoFull d && d.ctrl.rxEnbl then some .descriptorFifoFull
    else none
  | _ => none

/-- What a TNA does on its own, but for its DMA (R446 to R452). With the transceiver off no packet comes from
outside. -/
def tnaEvent (d : Tna) (e : TnaEvent) (fresh : Nat) : Tna :=
  match e with
  | .txEnd st => tnaTxEnd d st fresh
  | .rxPacket bytes st => if d.ctrl.xcvrEnbl then tnaArrive d bytes st fresh else d
  | .parity => { d with ints := { d.ints with parity := true } }
  | .octartPin asserted =>
    { d with octartPin := asserted, ints := { d.ints with octart := d.ints.octart || asserted } }
  | .octartRegister i b => tnaSetOctart d i b

end Sys2Proof.Machine
end

