-- ==== Sys2Proof/Machine/Adaptors.lean ====
section
/-!
DEFINITION. The I/O adaptors beside the TNA (spec/61_io_devices.md R420 to R433), and a slot as the memory controller
sees it: its interrupt line, what an I/O read or write of it does, which DMA it asks for (R407), and what its adaptor
does on its own when the environment says so.
-/
namespace Sys2Proof.Machine

/-! ## TFA -/

/-- The TFA's interrupt line (R432). -/
def tfaInterrupt (d : Tfa) : Bool := d.txPX || d.txFE || d.rxPX || d.rxFE || d.bpe

/-- The fields of the TFA's status register (R431). -/
def tfaStatus (d : Tfa) : TfaStatus :=
  { txEn := d.txEn, txPX := d.txPX, txFE := d.txFE, txCnt := BitVec.ofNat 8 d.txFifo.length, rxEn := d.rxEn,
    rxPX := d.rxPX, rxFE := d.rxFE, rxCnt := BitVec.ofNat 8 d.rxFifo.length, rxCRC := d.rxCRC, bpe := d.bpe }

/-- A FIFO after a word is pushed by software; what a full one then holds is free (R430, log 58). -/
def fifoPush (fresh : Nat) (q : List Word) (w : Word) : List Word :=
  if q.length < 255 then q ++ [w] else (Config.tfaOverflow fresh).toList

/-- The word a pop gives; from an empty FIFO a free one (R430, log 58). -/
def fifoHead (fresh : Nat) (q : List Word) : Word := q.headD (Config.tfaEmptyPop fresh)

/-- A packet that has ended is complete once no whole line of it waits to be stored, or none may be (R428, R433).
RxCRC is cleared by RxReset alone (R431). -/
def tfaRxSettle (d : Tfa) : Tfa :=
  match d.rxPhase with
  | .draining crc =>
    if d.rxFifo.length < 4 || d.rxLength == 0#20 then
      { d with rxEn := false, rxPX := true, rxCRC := d.rxCRC || crc, rxPhase := .idle }
    else d
  | _ => d

/-- An I/O read of a TFA: address bits 2..0 select (R430). Above the 20 bits of a length it reads zeros: the model's
choice (log 58). -/
def tfaRead (d : Tfa) (addr : Word) (fresh : Nat) : SlotAnswer × Tfa :=
  match (addr.extractLsb' 0 3).toNat with
  | 0 => (acknowledged d.txAddress, d)
  | 1 => (acknowledged (d.txLength.setWidth 32), d)
  | 2 => (acknowledged (fifoHead fresh d.txFifo), { d with txFifo := d.txFifo.tail })
  | 3 => (acknowledged (Config.tfaStatusLayout (tfaStatus d)), d)
  | 4 => (acknowledged d.rxAddress, d)
  | 5 => (acknowledged (d.rxLength.setWidth 32), d)
  | 6 => (acknowledged (fifoHead fresh d.rxFifo), tfaRxSettle { d with rxFifo := d.rxFifo.tail })
  | _ => (acknowledged 0x00000006#32, d)

/-- TxReset: TxEn, TxPX, TxFE cleared, the FIFO flushed, a transmission aborted (R432). With Loop set the receiver goes
on taking what comes next as the same packet: the model's choice (log 58). -/
def tfaTxReset (d : Tfa) : Tfa :=
  { d with txEn := false, txPX := false, txFE := false, txSending := false, txFifo := [] }

/-- RxReset: RxEn, RxPX, RxFE, RxCRC cleared, the FIFO flushed, a reception aborted (R432). -/
def tfaRxReset (d : Tfa) : Tfa :=
  { d with rxEn := false, rxPX := false, rxFE := false, rxCRC := false, rxPhase := .idle, rxFifo := [] }

/-- A TFA control write: Loop is a level, the resets act before the starts, BPE is cleared (R431, R432, log 58). A
start of a side that is enabled already changes nothing of it, and a change of Loop acts on what comes next: the model's
choice (log 58). -/
def tfaControl (d : Tfa) (c : TfaControl) : Tfa :=
  let d := if c.txReset then tfaTxReset d else d
  let d := if c.rxReset then tfaRxReset d else d
  { d with loop := c.loop, bpe := false, txEn := d.txEn || c.txStart, rxEn := d.rxEn || c.rxStart }

/-- An I/O write of a TFA (R430); register 7 takes nothing. A length takes bits 19 to 0,
and an address or length written during a packet acts on the lines that come after it: the model's choice (log 58). -/
def tfaWrite (d : Tfa) (addr v : Word) (fresh : Nat) : Tfa :=
  match (addr.extractLsb' 0 3).toNat with
  | 0 => { d with txAddress := v }
  | 1 => { d with txLength := v.extractLsb' 0 20 }
  | 2 => { d with txFifo := fifoPush fresh d.txFifo v }
  | 3 => tfaControl d (Config.tfaControlDecode v)
  | 4 => { d with rxAddress := v }
  | 5 => tfaRxSettle { d with rxLength := v.extractLsb' 0 20 }
  | 6 => tfaRxSettle { d with rxFifo := fifoPush fresh d.rxFifo v }
  | _ => d

/-- A packet begins at the receiver: taken if the receiver is enabled (R431). One that comes while another is taken, or
still waits to be stored, is lost: the model's choice (log 58). -/
def tfaRxBegin (d : Tfa) : Tfa :=
  if d.rxEn && decide (d.rxPhase = .idle) then { d with rxPhase := .taking } else d

/-- A word of a packet comes to the receiver's FIFO; a full one overflows, and the rest of the packet is lost (R431,
log 58). -/
def tfaRxWord (d : Tfa) (w : Word) : Tfa :=
  match d.rxPhase with
  | .taking =>
    if d.rxFifo.length < 255 then { d with rxFifo := d.rxFifo ++ [w] }
    else { d with rxFE := true, rxPhase := .overflown }
  | _ => d

/-- A packet ends at the receiver; one that overflowed clears RxEn now (R431). -/
def tfaRxEnd (d : Tfa) (crc : Bool) : Tfa :=
  match d.rxPhase with
  | .taking => tfaRxSettle { d with rxPhase := .draining crc }
  | .overflown => { d with rxEn := false, rxPhase := .idle }
  | _ => d

/-- The transmitter's next move on the fiber (R428, R431): it starts once its FIFO is full or the packet is in it,
sends a word, ends the packet when the FIFO is empty and TxLength zero, and underflows when it is not. With Loop set
the receiver takes what is sent (R432); a packet cut short has a wrong CRC (log 58). With TxLength 0 the words that
software pushed, if any, are the packet: the model's choice (log 58). -/
def tfaTxWord (d : Tfa) : Tfa :=
  if !d.txEn then d
  else if !d.txSending then
    if decide (251 < d.txFifo.length) || d.txLength == 0#20 then
      let t := { d with txSending := true }
      if d.loop then tfaRxBegin t else t
    else d
  else
    match d.txFifo with
    | w :: q =>
      let t := { d with txFifo := q }
      if d.loop then tfaRxWord t w else t
    | [] =>
      let t := { d with txEn := false, txSending := false, txPX := d.txPX || d.txLength == 0#20,
                        txFE := d.txFE || d.txLength != 0#20 }
      if d.loop then tfaRxEnd t (d.txLength != 0#20) else t

/-- What a TFA does on its own, but for its DMA (R431, R433). With Loop set the fiber is not heard (R432). -/
def tfaEvent (d : Tfa) (e : TfaEvent) : Tfa :=
  match e with
  | .txWord => tfaTxWord d
  | .rxBegin => if d.loop then d else tfaRxBegin d
  | .rxWord w => if d.loop then d else tfaRxWord d w
  | .rxEnd crc => if d.loop then d else tfaRxEnd d crc
  | .busParity => { d with bpe := true }

/-- The transmitter wants its next line: it is enabled, lines are left, and its FIFO has room (R428). -/
def tfaFetches (d : Tfa) : Bool := d.txEn && d.txLength != 0#20 && decide (d.txFifo.length ≤ 251)

/-- The receiver has a line to store, and room in the buffer (R428). -/
def tfaStores (d : Tfa) : Bool := d.rxEn && d.rxLength != 0#20 && decide (4 ≤ d.rxFifo.length)

/-- The transmitter with one more line in its FIFO; TxAddress goes on and TxLength counts down (R428, log 58). -/
def tfaTxDone (d : Tfa) (v : Line) : Tfa :=
  if tfaFetches d then
    { d with txFifo := d.txFifo ++ [v.w0, v.w1, v.w2, v.w3], txAddress := d.txAddress + 4#32,
             txLength := d.txLength - 1#20 }
  else d

/-- The receiver after a line is stored; RxAddress goes on and RxLength counts down (R430, log 58). -/
def tfaRxDone (d : Tfa) : Tfa :=
  if tfaStores d then
    tfaRxSettle { d with rxFifo := d.rxFifo.drop 4, rxAddress := d.rxAddress + 4#32, rxLength := d.rxLength - 1#20 }
  else d

/-- The first four words of a FIFO. -/
def fifoLine (q : List Word) : Line :=
  { w0 := q.getD 0 0#32, w1 := q.getD 1 0#32, w2 := q.getD 2 0#32, w3 := q.getD 3 0#32 }

/-! ## TDA -/

/-- An I/O read of a TDA: its identifier at address FFFFFFFF, else one of its words (R424, R425). -/
def tdaRead (d : Tda) (addr : Word) : SlotAnswer :=
  if addr = 0xFFFFFFFF#32 then acknowledged 0x00000002#32 else acknowledged (tdaWord d (Config.tdaIndex addr))

/-- An I/O write of a TDA: "Writing any register clears the interrupt" (R426). A write of the identifier's address
writes no word (log 57). -/
def tdaWrite (d : Tda) (addr v : Word) : Tda :=
  if addr = 0xFFFFFFFF#32 then { d with int := false } else { tdaSetWord d (Config.tdaIndex addr) v with int := false }

/-- A pointer into a ring moved on by one packet of 16 16-bit words (R425). -/
def tdaAdvance (base : BitVec 9) (size : Nat) (p : BitVec 9) : BitVec 9 :=
  base + BitVec.ofNat 9 ((p - base + 16#9).toNat % size)

/-- The address in a Put or Get pointer (R425). -/
def tdaAddress (p : BitVec 16) : BitVec 9 := p.extractLsb' 0 9

/-- Consecutive 16-bit words written from an address on. -/
def tdaSetHalves (l : TdaLayout) (d : Tda) (h : BitVec 9) (vs : List (BitVec 16)) : Tda :=
  match vs with
  | [] => d
  | v :: t => tdaSetHalves l (tdaSetHalf l d h v) (h + 1#9) t

/-- The TDA puts one segment of a response into the response ring (R425, R426): locked out while the full bit is set;
the full bit is set when the segment fills the ring, and an interrupt raised when the ring was empty. -/
def tdaRespond (l : TdaLayout) (d : Tda) (segment : Vector (BitVec 16) 16) : Tda :=
  let put := tdaHalf l d l.responsePut
  let get := tdaHalf l d l.responseGet
  let next := tdaAdvance l.responseBase l.responseSize (tdaAddress put)
  if put.getLsbD 15 then d
  else
    let t := tdaSetHalves l d (tdaAddress put) segment.toList
    { tdaSetHalf l t l.responsePut (BitVec.ofBool (next == tdaAddress get) ++ next.setWidth 15) with
      int := d.int || put == get }

/-- The TDA takes a packet from the command ring, if there is one, and clears the full bit of a full ring (R425). -/
def tdaTake (l : TdaLayout) (d : Tda) : Tda :=
  let put := tdaHalf l d l.commandPut
  let get := tdaHalf l d l.commandGet
  if put == get then d
  else
    let t := tdaSetHalf l d l.commandGet ((tdaAdvance l.commandBase l.commandSize (tdaAddress get)).setWidth 16)
    tdaSetHalf l t l.commandPut (put &&& 0x7FFF#16)

/-- Whether a 16-bit word is a pointer or lies in a ring (R424). -/
def tdaOwned (l : TdaLayout) (h : BitVec 9) : Bool :=
  h == l.commandPut || h == l.commandGet || h == l.responsePut || h == l.responseGet ||
  decide ((h - l.commandBase).toNat < l.commandSize) || decide ((h - l.responseBase).toNat < l.responseSize)

/-- What a TDA does on its own (R425, R426). -/
def tdaEvent (l : TdaLayout) (d : Tda) (e : TdaEvent) : Tda :=
  match e with
  | .respond segment => tdaRespond l d segment
  | .take => tdaTake l d
  | .setWord i w => if tdaOwned l (i ++ 0#1) || tdaOwned l (i ++ 1#1) then d else tdaSetWord d i w

/-! ## TMA -/

/-- Line writes of a list of words, from an address on; what fills up the last line is free (R421, log 56). -/
def tmaWrites (fresh : Nat) (addr : Word) (data : List Word) : List TmaOp :=
  (List.range ((data.length + 3) / 4)).map (fun k =>
    .write (addr + BitVec.ofNat 32 (4 * k))
      { w0 := data.getD (4 * k) (Config.tmaPadding fresh (4 * k)),
        w1 := data.getD (4 * k + 1) (Config.tmaPadding fresh (4 * k + 1)),
        w2 := data.getD (4 * k + 2) (Config.tmaPadding fresh (4 * k + 2)),
        w3 := data.getD (4 * k + 3) (Config.tmaPadding fresh (4 * k + 3)) })

/-- The 32 line reads of a request: 128 words (R421). At a DMA Address that is not quadword aligned each transfers its
line by the rule of R119: the model's choice (log 56). -/
def tmaReads (addr : Word) : List TmaOp := (List.range 32).map (fun k => .read (addr + BitVec.ofNat 32 (4 * k)))

/-- What a request asks for: up to 128 words of write data go where the request before it, with its Write bit, said;
then 128 words are read for the reply, which has the request's addresses exchanged and its type and header (R421). The
write data of a request that no Write bit before it announced are dropped, also where it sets Write itself: the model's
choice (log 56). -/
def tmaJob (d : Tma) (r : TmaRequest) (fresh : Nat) : TmaJob :=
  let writes := match d.writeTo with
    | none => []
    | some a => tmaWrites fresh a (r.data.take 128)
  { ops := writes ++ tmaReads r.address,
    reply := { dest := r.src, src := r.dest, type := r.type, header := r.header, words := [] } }

/-- A request packet (R421, R422): it joins the requests under way; its Write bit names the place for the next packet's
data, and its interrupt bit asserts the interrupt. -/
def tmaAccept (d : Tma) (r : TmaRequest) (fresh : Nat) : Tma :=
  { d with int := d.int || r.interrupt, writeTo := if r.write then some (r.address + 128#32) else none,
           jobs := d.jobs ++ [tmaJob d r fresh] }

/-- The reply after a line transaction, with the words read. -/
def TmaReply.after (p : TmaReply) (o : TmaOp) (words : Line) : TmaReply :=
  match o with
  | .read _ => { p with words := p.words ++ [words.w0, words.w1, words.w2, words.w3] }
  | .write _ _ => p

/-- The TMA after its next line transaction: with the last one of a request its reply goes out (R421). -/
def tmaDone (d : Tma) (words : Line) : Tma :=
  match d.jobs with
  | [] => d
  | j :: t =>
    match j.ops with
    | [] => d
    | [o] => { d with jobs := t, reply := some (j.reply.after o words), sent := d.sent + 1 }
    | o :: u => { d with jobs := { ops := u, reply := j.reply.after o words } :: t }

/-! ## Any slot: I/O -/

/-- The interrupt line of a slot (R401, R407). -/
def slotInterrupt (s : Slot) : Bool :=
  match s.adaptor with
  | .empty => false
  | .tma d => d.int
  | .tda d => d.int
  | .tfa d => tfaInterrupt d
  | .tna d => tnaInterrupt d
  | .other i => i

/-- An access that the spec refuses to describe (U30); a busy adaptor does not see it (R396). -/
def slotRefuses (s : Slot) (addr : Word) (write : Bool) (now : Nat) : Option Refusal :=
  match s.adaptor with
  | .tna d => if s.busy then none else tnaRefuses d addr write now
  | _ => none

/-- `SlotRead` (R213, R407): an empty slot gives 0 with bad parity and no acknowledge; a TMA never acknowledges and
drops its interrupt (R422), also where it is busy, the model's choice (log 56); a busy adaptor does not acknowledge
(R396). -/
def slotRead (s : Slot) (addr : Word) (c : IoContext) : SlotAnswer × Slot :=
  match s.adaptor with
  | .empty => ({ data := 0#32, ack := false, perr := true }, s)
  | .tma d => (unacknowledged c.fresh, { s with adaptor := .tma { d with int := false } })
  | .tda d => if s.busy then (unacknowledged c.fresh, s) else (tdaRead d addr, s)
  | .tfa d =>
    if s.busy then (unacknowledged c.fresh, s)
    else ((tfaRead d addr c.fresh).1, { s with adaptor := .tfa (tfaRead d addr c.fresh).2 })
  | .tna d =>
    if s.busy then (unacknowledged c.fresh, s)
    else ((tnaRead d addr c).1, { s with adaptor := .tna (tnaRead d addr c).2 })
  | .other _ =>
    ({ data := (Config.otherAnswer c.fresh).1, ack := (Config.otherAnswer c.fresh).2.1,
       perr := (Config.otherAnswer c.fresh).2.2 }, s)

/-- `SlotWrite` (R214, R407). A TFA acknowledges a write of its register 7 and a TDA one of the identifier's address,
which take nothing (log 57, log 58). -/
def slotWrite (s : Slot) (addr v : Word) (c : IoContext) : Bool × Slot :=
  match s.adaptor with
  | .empty => (false, s)
  | .tma d => (false, { s with adaptor := .tma { d with int := false } })
  | .tda d => if s.busy then (false, s) else (true, { s with adaptor := .tda (tdaWrite d addr v) })
  | .tfa d => if s.busy then (false, s) else (true, { s with adaptor := .tfa (tfaWrite d addr v c.fresh) })
  | .tna d =>
    if s.busy then (false, s)
    else ((tnaWrite d addr v c).1, { s with adaptor := .tna (tnaWrite d addr v c).2 })
  | .other _ => ((Config.otherAnswer c.fresh).2.1, s)

/-! ## Any slot: DMA -/

/-- A line transaction on main memory (R391): the address, and the four words of an input in transfer order. -/
inductive DmaTransaction where
  | read (addr : Word)
  | write (addr : Word) (words : Line)
deriving DecidableEq, Repr

/-- The transaction that a TMA asks for next (R421). -/
def tmaTransaction (d : Tma) : Option DmaTransaction :=
  match d.jobs with
  | [] => none
  | j :: _ =>
    match j.ops with
    | [] => none
    | .read a :: _ => some (.read a)
    | .write a v :: _ => some (.write a v)

/-- The transaction that a TNA's receiver asks for next (R456): the next quadword of the packet, then the ending
status in the first one. -/
def tnaRxTransaction (d : Tna) (fresh : Nat) : Option DmaTransaction :=
  match d.rxJob with
  | none => none
  | some j =>
    match j.lines with
    | v :: _ => some (.write (d.rxCounter ++ 0#2) v)
    | [] =>
      if tnaRxKeeps d j then some (.write ((tnaDescriptor d d.rxRead).address ++ 0#2) (tnaEndingLine d j fresh))
      else none

/-- The transaction a slot's request stands for; an empty slot, and a request its adaptor does not make, none (R407). -/
def slotTransaction (s : Slot) (r : DmaRequest) (fresh : Nat) : Option DmaTransaction :=
  match s.adaptor, r with
  | .tma d, .tma => tmaTransaction d
  | .tda _, .read a => some (.read a)
  | .tda _, .write a v => some (.write a v)
  | .other _, .read a => some (.read a)
  | .other _, .write a v => some (.write a v)
  | .tfa d, .transmit => if tfaFetches d then some (.read d.txAddress) else none
  | .tfa d, .receive => if tfaStores d then some (.write d.rxAddress (fifoLine d.rxFifo)) else none
  | .tna d, .transmit => if tnaTxFetches d then some (.read (d.txCounter ++ 0#2)) else none
  | .tna d, .receive => tnaRxTransaction d fresh
  | _, _ => none

/-- An adaptor after the transaction of a request, with the words that a read delivered (R405). -/
def adaptorDone (a : Adaptor) (r : DmaRequest) (words : Line) : Adaptor :=
  match a, r with
  | .tma d, .tma => .tma (tmaDone d words)
  | .tfa d, .transmit => .tfa (tfaTxDone d words)
  | .tfa d, .receive => .tfa (tfaRxDone d)
  | .tna d, .transmit => .tna (tnaTxDone d words)
  | .tna d, .receive => .tna (tnaRxDone d)
  | a, _ => a

/-- A slot after it: the bus interface has latched the words of a DMA output (R405). -/
def slotDone (s : Slot) (r : DmaRequest) (words : Line) : Slot :=
  { s with latch := words, adaptor := adaptorDone s.adaptor r words }

/-! ## The seven slots -/

/-- The slot with number 1 to 7 in the vector of slots 1 to 7; `none` for 0. -/
def slotPosition (n : BitVec 3) : Option (Fin 7) :=
  match n.toNat with
  | 1 => some 0
  | 2 => some 1
  | 3 => some 2
  | 4 => some 3
  | 5 => some 4
  | 6 => some 5
  | 7 => some 6
  | _ => none

/-- The slots with slot `n` changed; slot 0 is no adaptor. -/
def onSlot (slots : Vector Slot 7) (n : BitVec 3) (f : Slot → Slot) : Vector Slot 7 :=
  match slotPosition n with
  | none => slots
  | some i => slots.set i (f slots[i])

/-- Event.ioInt: the seven interrupt lines, slot 1 leftmost (R58). -/
def interruptLines (slots : Vector Slot 7) : BitVec 7 :=
  BitVec.ofBool (slotInterrupt slots[0]) ++ (BitVec.ofBool (slotInterrupt slots[1]) ++
  (BitVec.ofBool (slotInterrupt slots[2]) ++ (BitVec.ofBool (slotInterrupt slots[3]) ++
  (BitVec.ofBool (slotInterrupt slots[4]) ++ (BitVec.ofBool (slotInterrupt slots[5]) ++
  BitVec.ofBool (slotInterrupt slots[6]))))))

/-- What an adaptor does on its own when the environment says so; an event for another kind of adaptor does nothing. -/
def adaptorEvent (a : Adaptor) (e : Event) (fresh : Nat) : Adaptor :=
  match a, e with
  | .tma d, .tma _ r => .tma (tmaAccept d r fresh)
  | .tda d, .tda _ t => .tda (tdaEvent Config.tdaLayout d t)
  | .tfa d, .tfa _ t => .tfa (tfaEvent d t)
  | .tna d, .tna _ t => .tna (tnaEvent d t fresh)
  | .other _, .otherInterrupt _ b => .other b
  | a, _ => a

end Sys2Proof.Machine
end

