-- ==== Sys2Proof/Machine/Memory.lean ====
section
/-!
DEFINITION. Sorted lists of numbered things (memory bytes, cache lines), and main memory and the Boot-Prom over them:
bytes, words and lines by real address (spec/20_memory.md R80, R81, R90, R91, R92, R104).
-/
namespace Sys2Proof.Machine

/-! ## Sorted lists by number -/

/-- The entry under a key. -/
def mapGet {α : Type} (m : List (Nat × α)) (k : Nat) : Option α :=
  match m with
  | [] => none
  | e :: t => if e.1 = k then some e.2 else mapGet t k

/-- The list without a key. -/
def mapErase {α : Type} (m : List (Nat × α)) (k : Nat) : List (Nat × α) := m.filter (fun e => e.1 != k)

/-- A new entry in its place: before the first larger key. -/
def mapPlace {α : Type} (m : List (Nat × α)) (k : Nat) (v : α) : List (Nat × α) :=
  match m with
  | [] => [(k, v)]
  | e :: t => if k < e.1 then (k, v) :: e :: t else e :: mapPlace t k v

/-- The list with one entry written. -/
def mapSet {α : Type} (m : List (Nat × α)) (k : Nat) (v : α) : List (Nat × α) := mapPlace (mapErase m k) k v

/-- Keys strictly rising. -/
def mapSorted {α : Type} (m : List (Nat × α)) : Bool :=
  match m with
  | [] => true
  | e :: t => t.all (fun f => decide (e.1 < f.1)) && mapSorted t

/-! ## Bytes -/

/-- What a byte that nothing has written reads as: 0, a DESIGN CHOICE (log 9). -/
def memoryDefault : Byte := 0#8

/-- The canonical form of memory: addresses strictly rising, no byte equal to what an unlisted address reads as. -/
def Memory.wf (m : Memory) : Bool := mapSorted m && m.all (fun c => c.2 != memoryDefault)

/-- One byte. -/
def readByte (m : Memory) (a : Nat) : Byte := (mapGet m a).getD memoryDefault

/-- Memory with one byte written, in canonical form. -/
def writeByte (m : Memory) (a : Nat) (b : Byte) : Memory :=
  if b = memoryDefault then mapErase m a else mapSet m a b

/-! ## Words and lines, by number of word or line -/

/-- The word at word number `w`, its first byte the most significant (R81). -/
def readWord (m : Memory) (w : Nat) : Word :=
  wordOfBytes (readByte m (4 * w)) (readByte m (4 * w + 1)) (readByte m (4 * w + 2)) (readByte m (4 * w + 3))

/-- Memory with the word at word number `w` written (R81). -/
def writeWord (m : Memory) (w : Nat) (v : Word) : Memory :=
  writeByte (writeByte (writeByte (writeByte m (4 * w) (v.extractLsb' 24 8)) (4 * w + 1) (v.extractLsb' 16 8))
    (4 * w + 2) (v.extractLsb' 8 8)) (4 * w + 3) (v.extractLsb' 0 8)

/-- The line at line number `l` (R80). -/
def readLine (m : Memory) (l : Nat) : Line :=
  { w0 := readWord m (4 * l), w1 := readWord m (4 * l + 1), w2 := readWord m (4 * l + 2), w3 := readWord m (4 * l + 3) }

/-- Memory with the line at line number `l` written (R80). -/
def writeLine (m : Memory) (l : Nat) (v : Line) : Memory :=
  writeWord (writeWord (writeWord (writeWord m (4 * l) v.w0) (4 * l + 1) v.w1) (4 * l + 2) v.w2) (4 * l + 3) v.w3

/-- Word `k` of a line. -/
def lineGet (v : Line) (k : BitVec 2) : Word :=
  match k.toNat with
  | 0 => v.w0
  | 1 => v.w1
  | 2 => v.w2
  | _ => v.w3

/-- A line with word `k` written. -/
def lineSet (v : Line) (k : BitVec 2) (x : Word) : Line :=
  match k.toNat with
  | 0 => { v with w0 := x }
  | 1 => { v with w1 := x }
  | 2 => { v with w2 := x }
  | _ => { v with w3 := x }

/-! ## Real addresses -/

/-- The line of a real word address (R80). -/
def lineOf (wa : Word) : LineAddr := wa.extractLsb' 2 30

/-- The word of its line that a real word address names (R95). -/
def wordInLine (wa : Word) : BitVec 2 := wa.extractLsb' 0 2

/-- The line of physical memory that a real line address reaches: the memory controller ignores the 7 high bits
(R91). -/
def physicalLine (l : LineAddr) : Nat := l.toNat % 2 ^ 23

/-- The module that a real line address reaches (R90). -/
def moduleOf (l : LineAddr) : Nat := physicalLine l / 2 ^ 21

/-- Whether that module holds memory (R92). -/
def isPopulated (populated : BitVec 4) (l : LineAddr) : Bool := populated.getLsbD (moduleOf l)

/-- Whether a line read goes to the Boot-Prom: PSW.rom is set and the full real word address is below 0x8000
(R104, D16). -/
def inBootProm (rom : Bool) (l : LineAddr) : Bool := rom && decide (l.toNat < 0x2000)

/-- A line written to main memory; a write to a vacant module is discarded (R92). -/
def physWriteLine (populated : BitVec 4) (m : Memory) (l : LineAddr) (v : Line) : Memory :=
  if isPopulated populated l then writeLine m (physicalLine l) v else m

end Sys2Proof.Machine
end

