-- ==== Sys2Proof/Machine/MemoryController.lean ====
section
/-!
DEFINITION. The memory controller: errors and their log, line transactions on main memory, the eight registers, I/O
transactions and the lock (spec/10_state.md R53 to R63, spec/20_memory.md R104, R119 to R121, spec/42_special_io.md).
-/
namespace Sys2Proof.Machine

/-! ## Errors -/

/-- A hardware error is detected: its hErrs bit is set, and the controller halts if its errHalt bit is on (R58, R59,
R368). Bit 3 single-bit, 2 double-bit, 1 CPU bus parity, 0 I/O bus parity. -/
def raiseError (mc : MemCtl) (k : Nat) : MemCtl :=
  { mc with hErrs := mc.hErrs ||| (1#4 <<< k), halted := mc.halted || mc.enable.getLsbD (4 + k) }

/-- The uncomplemented `Synd[5:0]` of a single-bit error in a data bit (R64). -/
def dataSyndrome (bit : BitVec 5) : BitVec 6 :=
  #v[3#6, 5#6, 6#6, 48#6, 26#6, 28#6, 42#6, 44#6, 9#6, 10#6, 11#6, 12#6, 13#6, 14#6, 17#6, 18#6, 19#6, 20#6, 21#6, 22#6,
     24#6, 25#6, 40#6, 41#6, 33#6, 34#6, 35#6, 36#6, 37#6, 38#6, 49#6, 50#6][bit.toNat]'(bit.isLt)

/-- The uncomplemented syndrome of a single-bit error in a check bit (R64). -/
def checkSyndrome (c : BitVec 3) : Byte :=
  #v[0x81#8, 0x82#8, 0x84#8, 0x88#8, 0x90#8, 0xA0#8, 0xC0#8, 0x80#8][c.toNat]'(c.isLt)

/-- The uncomplemented syndrome of an error (R64): for a data bit `Synd[6]` is the word of the half line, and `Synd[7]`,
a parity bit, is set by every single-bit error. -/
def HalfError.syndrome (h : HalfError) : Byte :=
  match h with
  | .data second bit => 1#1 ++ (BitVec.ofBool second ++ dataSyndrome bit)
  | .check c => checkSyndrome c
  | .double syndrome => syndrome

/-- The syndrome of a half line, 0 where it has no error. -/
def halfSyndrome (h : Option HalfError) : Byte :=
  match h with
  | none => 0#8
  | some e => e.syndrome

/-- A double-bit error (else single-bit). -/
def HalfError.isDouble (h : HalfError) : Bool :=
  match h with
  | .data _ _ => false
  | .check _ => false
  | .double _ => true

/-- An error of a kind in one of the two half lines. -/
def EccError.has (e : EccError) (double : Bool) : Bool :=
  e.even.any (fun h => h.isDouble == double) || e.odd.any (fun h => h.isDouble == double)

/-- How many half lines are in error. -/
def EccError.count (e : EccError) : Nat := e.even.toList.length + e.odd.toList.length

/-- Memory errors of a line read in the log: both syndromes, the address, who asked, and a count of the half lines in
error (R60, R61, log 34). -/
def noteMemoryError (mc : MemCtl) (synHi synLo : Byte) (count : Nat) (l : LineAddr) (w : Bool) : MemCtl :=
  { mc with synHi := synHi, synLo := synLo, errCnt := mc.errCnt + count, errLine := l, errW := w }

/-- Memory errors of a line read: they are logged, a single-bit error raises hErrs bit 3 and a double-bit one bit 2
(R60, R64, R121). -/
def logMemoryError (mc : MemCtl) (e : EccError) (l : LineAddr) (w : Bool) : MemCtl :=
  let m := noteMemoryError mc (halfSyndrome e.even) (halfSyndrome e.odd) e.count l w
  let m := if e.has false then raiseError m 3 else m
  if e.has true then raiseError m 2 else m

/-- The single-bit error that a vacant module's read reports, its syndromes free (R92, log 33). -/
def logVacantRead (mc : MemCtl) (l : LineAddr) (w : Bool) (fresh : Nat) : MemCtl :=
  raiseError (noteMemoryError mc (Config.vacantSyndrome fresh).1 (Config.vacantSyndrome fresh).2 1 l w) 3

/-- The external interrupt request: enabled hErrs or enabled adaptor lines (R62). -/
def State.extReq (s : State) : Bool :=
  (s.mc.hErrs &&& s.mc.enable.extractLsb' 0 4 != 0#4) ||
  (interruptLines s.slots &&& s.mc.enable.extractLsb' 25 7 != 0#7)

/-- The coprocessor interrupt request (R358). -/
def State.copReq (s : State) : Bool := s.cp.intPending

/-- The memory controller does nothing: it has halted (R368), or the clock/scan module has stopped it (R439). -/
def State.mcDown (s : State) : Bool := s.mc.halted || s.csm.mcStopped

/-! ## Line transactions -/

/-- A word with a bit flipped. -/
def flipBit (x : Word) (b : BitVec 5) : Word := x ^^^ (1#32 <<< b.toNat)

/-- The two words of a half line that meets an error (R121, U3): a single-bit error is corrected if `correct`; those
of a double-bit error are `free`. -/
def deliverHalf (x y : Word) (h : Option HalfError) (correct : Bool) (free : Word × Word) : Word × Word :=
  match h with
  | none => (x, y)
  | some (.data false b) => (if correct then x else flipBit x b, y)
  | some (.data true b) => (x, if correct then y else flipBit y b)
  | some (.check _) => (x, y)
  | some (.double _) => free

/-- The words a line read delivers when its half lines meet errors: words 0 and 2 are the even half, 1 and 3 the odd one
(R64, R121, log 34). -/
def deliverWithError (v : Line) (e : EccError) (correct : Bool) (l : LineAddr) (fresh : Nat) : Line :=
  let a := deliverHalf v.w0 v.w2 e.even correct
    (Config.doubleBitData fresh l false false, Config.doubleBitData fresh l false true)
  let b := deliverHalf v.w1 v.w3 e.odd correct
    (Config.doubleBitData fresh l true false, Config.doubleBitData fresh l true true)
  { w0 := a.1, w1 := b.1, w2 := a.2, w3 := b.2 }

/-- The line of a vacant module: zeros (R92). -/
def zeroLine : Line := { w0 := 0#32, w1 := 0#32, w2 := 0#32, w3 := 0#32 }

/-- A line read of the memory controller (R112): the Boot-Prom window (R104), a vacant module that reads zeros with a
single-bit error (R92), or main memory, where the next ECC entry applies. `dma` says an adaptor asks (R61). -/
def readRealLine (s : State) (rom dma : Bool) (l : LineAddr) : Line × State :=
  if inBootProm rom l then (readLine s.prom l.toNat, s)
  else if isPopulated s.populated l then
    match s.ecc with
    | [] => (readLine s.mem (physicalLine l), s)
    | none :: t => (readLine s.mem (physicalLine l), { s with ecc := t })
    | some e :: t =>
      (deliverWithError (readLine s.mem (physicalLine l)) e (s.mc.enable.getLsbD 8) l s.fresh,
       { s with ecc := t, mc := if e.count = 0 then s.mc else logMemoryError s.mc e l dma })
  else (zeroLine, { s with mc := logVacantRead s.mc l dma s.fresh })

/-- A line write of the memory controller (R92). -/
def State.writeRealLine (s : State) (l : LineAddr) (v : Line) : State :=
  { s with mem := physWriteLine s.populated s.mem l v }

/-! ## The eight registers -/

/-- The IoStatus image: in the default arrangement slot 2..0, a 3, the rest free (R57, IOSTATUS_LAYOUT). -/
def ioStatusWord (s : State) : Word :=
  s.lay.ioStatus.put (Config.ioStatusHigh s.fresh ++ (BitVec.ofBool s.mc.ack ++ s.mc.slot))

/-- The Event image: ioInt, in the default arrangement 31..25, and hErrs 3..0, the rest 0 (R58, EVENT_IOINT, log 35). -/
def eventWord (s : State) : Word := s.lay.eventIoInt.put (interruptLines s.slots ++ 0#21) ++ s.mc.hErrs

/-- `MCRead(a)` (R211): the register a control address selects; any other is a free value (U20, log 36). The syndromes
of ErrorLog are complemented (R60). -/
def controlRead (s : State) (a : BitVec 6) : Word :=
  match a.toNat with
  | 0x01 => s.mc.ioAddress
  | 0x10 => s.mc.ioReadData
  | 0x20 => s.mc.ioWriteData
  | 0x30 => ioStatusWord s
  | 0x08 => eventWord s
  | 0x28 => s.mc.enable
  | 0x18 => Config.errorLogLayout (~~~s.mc.synHi) (~~~s.mc.synLo) s.mc.errCnt
  | 0x38 => Config.errorAddressLayout s.mc.errLine s.mc.errW
  | _ => Config.undocumentedControl s.fresh

/-- Event written: ones clear hErrs bits; clearing bit 3 resets errCnt (R58, R60, R218). That a one written to bit 3
resets it also where the bit is 0 already is the model's choice (log 34). -/
def eventWrite (mc : MemCtl) (v : Word) : MemCtl :=
  { mc with hErrs := mc.hErrs &&& ~~~(v.extractLsb' 0 4), errCnt := if v.getLsbD 3 then 0 else mc.errCnt }

/-- `MCWrite(a, v)` (R218), with IoStatus under its layout: the four read-only registers ignore it (D12); `none` for
an address that selects no
documented register (U20). -/
def controlWrite (mc : MemCtl) (ioStatus : Places 32) (a : BitVec 6) (v : Word) : Option MemCtl :=
  match a.toNat with
  | 0x20 => some { mc with ioWriteData := v }
  | 0x30 => some { mc with slot := (ioStatus.get v).extractLsb' 0 3 }
  | 0x08 => some (eventWrite mc v)
  | 0x28 => some { mc with enable := v }
  | 0x01 => some mc
  | 0x10 => some mc
  | 0x18 => some mc
  | 0x38 => some mc
  | _ => none

/-! ## I/O transactions -/

/-- What the adaptors' answers depend on (log 59). -/
def State.ioContext (s : State) : IoContext := { fresh := s.fresh, now := s.cycles, tnaStatus := s.lay.tnaStatus }

/-- An I/O transaction that the addressed adaptor's chapter refuses to describe (U30); one that the clock/scan module
has stopped sees none. -/
def State.ioRefusal (s : State) (addr : Word) (write : Bool) : Option Refusal :=
  match slotPosition s.mc.slot with
  | none => none
  | some i => if s.csm.ioStopped then none else slotRefuses s.slots[i] addr write s.cycles

/-- The lock step of an I/O read of slot 0 (R215): odd IoWriteData tries to acquire, even releases if the CPU holds. -/
def lockStep (lock : LockHolder) (acquire : Bool) : LockHolder :=
  match lock, acquire with
  | .none, true => .cpu
  | .none, false => .none
  | .cpu, true => .cpu
  | .cpu, false => .none
  | .slot n, _ => .slot n

/-- IoRead of slot 0 (R215, D33): bit 0 of IoReadData is the old lock; the other bits and the ack are free (log 38). -/
def ioReadLock (s : State) (addr : Word) : State :=
  { s with mc := { s.mc with
      ioAddress := addr, lock := lockStep s.mc.lock (s.mc.ioWriteData.getLsbD 0),
      ioReadData := Config.lockReadHigh s.fresh ++ BitVec.ofBool (s.mc.lock != .none),
      ack := Config.lockReadAck s.fresh } }

/-- What a slot answers to an I/O read, and the slot after it: an adaptor whose clock the clock/scan module has stopped
neither acknowledges nor changes (R439, log 64). -/
def State.slotAnswer (s : State) (i : Fin 7) (addr : Word) : SlotAnswer × Slot :=
  if s.csm.ioStopped && decide (s.slots[i].adaptor ≠ .empty) then (unacknowledged s.fresh, s.slots[i])
  else slotRead s.slots[i] addr s.ioContext

/-- What a slot acknowledges to an I/O write, and the slot after it (R439, log 64). -/
def State.slotAccepts (s : State) (i : Fin 7) (addr v : Word) : Bool × Slot :=
  if s.csm.ioStopped then (false, s.slots[i]) else slotWrite s.slots[i] addr v s.ioContext

/-- IoRead of slot 1 to 7 (R213): the adaptor's data and acknowledge; bad parity raises hErrs bit 0. -/
def ioReadSlot (s : State) (i : Fin 7) (addr : Word) : State :=
  let r := s.slotAnswer i addr
  let mc := { s.mc with ioAddress := addr, ioReadData := r.1.data, ack := r.1.ack }
  { s with mc := if r.1.perr then raiseError mc 0 else mc, slots := s.slots.set i r.2 }

/-- The I/O read transaction (R213). -/
def State.ioRead (s : State) (addr : Word) : State :=
  match slotPosition s.mc.slot with
  | none => ioReadLock s addr
  | some i => ioReadSlot s i addr

/-- The I/O write transaction (R214): IoReadData is destroyed; slot 0 acknowledges nothing (U21, log 39). -/
def State.ioWrite (s : State) (addr : Word) : State :=
  match slotPosition s.mc.slot with
  | none =>
    { s with mc := { s.mc with ioAddress := addr, ack := false, ioReadData := Config.destroyedReadData s.fresh } }
  | some i =>
    let r := s.slotAccepts i addr s.mc.ioWriteData
    { s with mc := { s.mc with ioAddress := addr, ack := r.1, ioReadData := Config.destroyedReadData s.fresh },
             slots := s.slots.set i r.2 }

end Sys2Proof.Machine
end

