-- ==== Sys2Proof/Machine/Translation.lean ====
section
/-!
DEFINITION. Translation: the hashed row, the lookup in a translation buffer, and the words that the TLB specials read
and write (spec/20_memory.md R95 to R101, spec/41_special.md R192 to R199).
-/
namespace Sys2Proof.Machine

/-- The 9-bit low-page field of a virtual word address (R95). -/
def lowPage (wa : Word) : BitVec 9 := wa.extractLsb' 10 9

/-- The 13-bit tag of a virtual word address (R95). -/
def tagOf (wa : Word) : BitVec 13 := wa.extractLsb' 19 13

/-- The 22-bit page number of a virtual word address (R46, R95). -/
def pageOf (wa : Word) : BitVec 22 := wa.extractLsb' 10 22

/-- The row a virtual word address selects under a pid (R97). -/
def tlbRow (wa : Word) (pid : BitVec 8) : Nat :=
  ((lowPage wa).toNat / 256) * 256 + ((lowPage wa).toNat + 4 * pid.toNat) % 256

/-- A row number is 0 to 511 (R97). -/
theorem tlbRow_lt (wa : Word) (pid : BitVec 8) : tlbRow wa pid < 512 := by
  have h := (lowPage wa).isLt
  unfold tlbRow
  omega

/-- The entry of a column and row; column true is Col1. -/
def tlbEntry (t : Tlb) (col : Bool) (wa : Word) (pid : BitVec 8) : TlbEntry :=
  if col then t.col1[tlbRow wa pid]'(tlbRow_lt wa pid) else t.col0[tlbRow wa pid]'(tlbRow_lt wa pid)

/-- The buffer with the entry of a column and row replaced. -/
def tlbPut (t : Tlb) (col : Bool) (wa : Word) (pid : BitVec 8) (e : TlbEntry) : Tlb :=
  if col then { t with col1 := t.col1.set (tlbRow wa pid) e (tlbRow_lt wa pid) }
  else { t with col0 := t.col0.set (tlbRow wa pid) e (tlbRow_lt wa pid) }

/-- Pid and tag of an entry agree with a reference (R98). -/
def entryAgrees (e : TlbEntry) (wa : Word) (pid : BitVec 8) : Bool := e.pid == pid && e.tag == tagOf wa

/-- An entry matches a reference: pid and tag agree and it is valid (R98). -/
def entryMatches (e : TlbEntry) (wa : Word) (pid : BitVec 8) : Bool := entryAgrees e wa pid && !e.invalid

/-- What a lookup finds (R98). -/
inductive Lookup where
  | found (e : TlbEntry)
  | missing
  /-- Two valid translations (U1). -/
  | ambiguous
deriving DecidableEq, Repr

/-- The lookup of a virtual word address (R98). -/
def tlbLookup (t : Tlb) (wa : Word) (pid : BitVec 8) : Lookup :=
  match entryMatches (tlbEntry t false wa pid) wa pid, entryMatches (tlbEntry t true wa pid) wa pid with
  | false, false => .missing
  | true, false => .found (tlbEntry t false wa pid)
  | false, true => .found (tlbEntry t true wa pid)
  | true, true => .ambiguous

/-- The real word address an entry gives: real page number, then word in page (R98). -/
def realAddress (e : TlbEntry) (wa : Word) : Word := e.rpn ++ wa.extractLsb' 0 10

/-- Where a reference goes (R96 to R100). -/
inductive Reference where
  | real (rwa : Word)
  /-- No valid translation. -/
  | noTranslation
  /-- A store to a page that is not writable. -/
  | readOnly
  | ambiguous
deriving DecidableEq, Repr

/-- An instruction reference under a PSW (R96, R98). -/
def instReference (t : Tlb) (p : Psw) (wa : Word) : Reference :=
  if p.imp then .real wa
  else
    match tlbLookup t wa p.pid with
    | .found e => .real (realAddress e wa)
    | .missing => .noTranslation
    | .ambiguous => .ambiguous

/-- A data reference under a PSW; a store needs a writable page (R96, R98, R99). -/
def dataReference (t : Tlb) (p : Psw) (wa : Word) (store : Bool) : Reference :=
  if p.dmp then .real wa
  else
    match tlbLookup t wa p.pid with
    | .found e => if store && !e.writable then .readOnly else .real (realAddress e wa)
    | .missing => .noTranslation
    | .ambiguous => .ambiguous

/-! ## Entry words -/

/-- Odd parity of a vector: the bit that makes the number of ones odd. -/
def oddParity {w : Nat} (v : BitVec w) : Bool := !((List.range w).foldl (fun p i => p ^^ v.getLsbD i) false)

/-- The stored parity bit of a part of an entry: that of its contents, the other one, or a free one (R47, R120, log
12, log 28). -/
def storedParity (p : Parity) (right free : Bool) : Bool :=
  match p with
  | .good => right
  | .bad => !right
  | .unwritten => free
  | .unsure => free

/-- Whether a column counts as matched in the field m of a tag read (R193, N8, log 26). -/
def columnMatched (e : TlbEntry) (wa : Word) (pid : BitVec 8) : Bool :=
  if Config.tlbMatchNeedsValid then entryMatches e wa pid else entryAgrees e wa pid

/-- The field m: 1 Col[0], 2 Col[1], 3 both (R193). -/
def matchField (t : Tlb) (wa : Word) (pid : BitVec 8) : BitVec 2 :=
  BitVec.ofBool (columnMatched (tlbEntry t true wa pid) wa pid) ++
  BitVec.ofBool (columnMatched (tlbEntry t false wa pid) wa pid)

/-- The high 23 bits of a tag word: pid, tag, ~v, w (R101, D15). -/
def tagHigh (e : TlbEntry) : BitVec 23 := e.pid ++ (e.tag ++ (BitVec.ofBool e.invalid ++ BitVec.ofBool e.writable))

/-- The stored parity of an entry's tag part (R47, R193). -/
def tagParityBit (e : TlbEntry) : Bool :=
  storedParity e.tagParity (oddParity (tagHigh e)) (Config.unwrittenParityBit true e)

/-- The stored parity of an entry's data part (R47, R193). -/
def dataParityBit (e : TlbEntry) : Bool :=
  storedParity e.dataParity (oddParity e.rpn) (Config.unwrittenParityBit false e)

/-- The word a tag read returns (R193). -/
def tagReadWord (t : Tlb) (col : Bool) (wa : Word) (pid : BitVec 8) : Word :=
  tagHigh (tlbEntry t col wa pid) ++ Config.tlbTagReadLow (tagParityBit (tlbEntry t col wa pid)) (matchField t wa pid)

/-- The word a data read returns (R193). -/
def dataReadWord (t : Tlb) (col : Bool) (wa : Word) (pid : BitVec 8) : Word :=
  (tlbEntry t col wa pid).rpn ++ Config.tlbDataReadLow (dataParityBit (tlbEntry t col wa pid))

/-- The parity that a part written with some low bits has: "The least significant 9 bits must be zero, or processor
parity checking will not work correctly" (R194, R197, log 28). -/
def writtenParity (lowZero : Bool) : Parity := if lowZero then .good else .unsure

/-- An entry with its tag part, parity included, taken from a word of the write format (R47, R101, R195). -/
def withTagWord (e : TlbEntry) (v : Word) : TlbEntry :=
  { e with pid := v.extractLsb' 24 8, tag := v.extractLsb' 11 13, invalid := v.getLsbD 10, writable := v.getLsbD 9,
           tagParity := writtenParity (v.extractLsb' 0 9 == 0#9) }

/-- An entry with its data part, parity included, taken from a word of the write format (R47, R101, R198). -/
def withDataWord (e : TlbEntry) (v : Word) : TlbEntry :=
  { e with rpn := v.extractLsb' 10 22, dataParity := writtenParity (v.extractLsb' 0 10 == 0#10) }

/-- The buffer with a tag part written from a word (R195). -/
def tlbWriteTag (t : Tlb) (col : Bool) (wa : Word) (pid : BitVec 8) (v : Word) : Tlb :=
  tlbPut t col wa pid (withTagWord (tlbEntry t col wa pid) v)

/-- The buffer with a data part written from a word (R198). -/
def tlbWriteData (t : Tlb) (col : Bool) (wa : Word) (pid : BitVec 8) (v : Word) : Tlb :=
  tlbPut t col wa pid (withDataWord (tlbEntry t col wa pid) v)

end Sys2Proof.Machine
end

