-- ==== Sys2Proof/Machine/Ops.lean ====
section
/-!
DEFINITION. The shared operations of the meanings: retiring an instruction, taking a trap (spec/60_exceptions.md
R345), returning from one (spec/43_kernel_control.md R225), halting (R365), and the processor's accesses to its caches
(spec/20_memory.md R111 to R116).
-/
namespace Sys2Proof.Machine

/-- What a meaning answers. -/
abbrev Result := Host.Outcome State Fault Refusal

/-! ## Retiring -/

/-- The hazard record after an instruction that did `d`. -/
def History.after (h : History) (d : Did) : History :=
  { last := d, special2 := h.last.special, userSpecial2 := h.last.userSpecial, setCtl2 := h.last.setCtl }

/-- The ICAR phase after an instruction that does not itself disturb the ICAR (R183). The null runs twice, and the
idiom is over after the first time: a trap before the second, in privileged user mode, is taken and saves the null's
address, the model's choice (U29, log 21, log 23). -/
def IcarPhase.advance (p : IcarPhase) : IcarPhase :=
  match p with
  | .idle => .idle
  | .gotoNext => .nullNext
  | .nullNext => .idle
  | .broken => .broken

/-- Entering kernel mode by a PSW write: what user mode kept running is frozen with no stated value (R29, R45, R46;
log 15, log 16, log 25). -/
def State.freezeUserState (s : State) : State :=
  { s with
    pc2 := Config.userPcQueue s.fresh ++ 0#2, pc1 := Config.userPcQueueNext s.fresh ++ 0#2,
    itfr := Config.invalidItfr s.fresh, dtfr := Config.invalidDtfr s.fresh,
    psw := { s.psw with
      ext := (Config.userRequestBits s.fresh).getLsbD 1, ill := (Config.userTrapBits s.fresh).getLsbD 4,
      itf := (Config.userTrapBits s.fresh).getLsbD 3, dtf := (Config.userTrapBits s.fresh).getLsbD 2,
      wpv := (Config.userTrapBits s.fresh).getLsbD 1, cop := (Config.userRequestBits s.fresh).getLsbD 0,
      usr := (Config.userTrapBits s.fresh).getLsbD 0, literal := Config.undefinedLiteral s.fresh } }

/-- The PSW pipeline after one instruction: a write moves one place on, and the one that had reached its third
instruction is in effect with krn (R184). `w` is what this instruction writes. -/
def State.advancePsw (s : State) (w : Option Word) : State :=
  let t := { s with psw := s.nextPsw, pend3 := s.pend2, pend2 := s.pend1, pend1 := w }
  if !s.psw.krn && s.nextPsw.krn then t.freezeUserState else t

/-- The end of an instruction: the pc moves on (R27), the PSW pipeline advances, the hazard record notes `d`. `nnpc` is
the address after the next instruction; `icar` the ICAR phase; `pswWrite` a PSW write that starts. -/
def State.retireWith (s : State) (d : Did) (nnpc : Word) (icar : IcarPhase) (pswWrite : Option Word) : State :=
  { s.advancePsw pswWrite with pc := s.npc, npc := nnpc, hist := s.hist.after d, icar := icar }

/-- The end of an instruction that is no branch and disturbs nothing: the next but one follows in sequence, modulo 2^32
(R27, R28). -/
def State.retire (s : State) (d : Did) : State := s.retireWith d (s.npc + 4#32) s.icar.advance none

/-- The end of a branch with target `t` (R27). -/
def State.retireTo (s : State) (d : Did) (t : Word) : State := s.retireWith d t s.icar.advance none

/-- The ICAR phase after an instruction that disturbs the ICAR: the idiom goes on at the next word (R183, R475); in the
delay slot of a branch it cannot. -/
def State.disturbed (s : State) : IcarPhase := if s.npc = s.pc + 4#32 then .gotoNext else .broken

/-- The end of an instruction that disturbs the ICAR (R183, R475). -/
def State.retireDisturbed (s : State) (d : Did) : State := s.retireWith d (s.npc + 4#32) s.disturbed none

/-- An instruction that writes register field `n` and nothing that a restriction asks about. -/
def didWrite (s : State) (n : RegField) : Did := { Did.nothing with wrote := s.wroteA n }

/-- A result: RR is loaded and the register written (R30). -/
def State.result (s : State) (n : RegField) (v : Word) : State := { s.writeA n v with rr := some v }

/-- An ordinary instruction with a result: RR, the register, the next instruction. -/
def finish (s : State) (n : RegField) (v : Word) : Result := .next ((s.result n v).retire (didWrite s n))

/-- Waiting for the memory controller, which has halted: nothing changes until reset (R67, R368, log 40); where the
clock/scan module has stopped it, until that lets it run (R439, log 64). -/
def stall (s : State) : Result := .next { s with stalled := true }

/-! ## Traps and halts -/

/-- The conditions of one trap (R345, R351); ext and cop are sampled at entry. -/
structure TrapInfo where
  ill : Bool
  itf : Bool
  dtf : Bool
  wpv : Bool
  /-- A coprocessor arithmetic trap. -/
  arith : Bool
  usr : Bool
  literal : BitVec 6
  instPage : BitVec 22
  dataPage : BitVec 22
deriving DecidableEq, Repr

/-- No condition. -/
def noTrap : TrapInfo :=
  { ill := false, itf := false, dtf := false, wpv := false, arith := false, usr := false, literal := 0#6,
    instPage := 0#22, dataPage := 0#22 }

/-- Whether some condition of the instruction or its successor's fetch holds. -/
def TrapInfo.any (t : TrapInfo) : Bool := t.ill || t.itf || t.dtf || t.wpv || t.arith || t.usr

/-- The illegal instruction trap (R362, R363). -/
def illegalTrap : TrapInfo := { noTrap with ill := true }

/-- A PSW write or an ICAR idiom is under way (R353). -/
def State.inFlight (s : State) : Bool :=
  s.pend1.isSome || s.pend2.isSome || s.pend3.isSome || s.icar != .idle

/-- One of the last two instructions was a special in user mode, whose restrictions bind the next ones (R481). -/
def State.afterUserSpecial (s : State) : Bool := s.hist.last.userSpecial || s.hist.userSpecial2

/-- The PSW at trap entry (R345): the causes, the literal, krn, pre, imp and dmp set, the rest kept. -/
def trapPsw (s : State) (t : TrapInfo) : Psw :=
  { s.psw with
    ill := t.ill, itf := t.itf, dtf := t.dtf, wpv := t.wpv, usr := t.usr, ext := s.extReq, cop := s.copReq || t.arith,
    literal := if t.usr then t.literal else Config.undefinedLiteral s.fresh,
    krn := true, pre := true, imp := true, dmp := true }

/-- Trap entry's effect (R345, R346): the pc-queue takes pc and npc, the fault registers the pages of the faults, the
PSW the causes; control goes to real address 0 and RR is not loaded. The record of what came before is cleared (R482),
and with it that a coprocessor operation of several cycles was under way: that it is done by then is the model's choice
(R489, log 41). -/
def trapState (s : State) (t : TrapInfo) : State :=
  { s with
    pc2 := s.pc, pc1 := s.npc, psw := trapPsw s t,
    itfr := if t.itf then t.instPage else Config.invalidItfr s.fresh,
    dtfr := if t.dtf || t.wpv then t.dataPage else Config.invalidDtfr s.fresh,
    pc := 0x00000000#32, npc := 0x00000004#32, rr := none, hist := History.empty }

/-- Taking a trap in user mode (R345); refused while a PSW write or an ICAR idiom is in flight (U29), and between a
special and the instructions its restrictions bind (R481, U15). -/
def enterTrap (t : TrapInfo) (s : State) : Result :=
  if s.inFlight || s.afterUserSpecial then .refused .trapInFlight else .next (trapState s t)

/-- The processor halts: no other state changes (R365, D32). -/
def State.halt (s : State) (cause : HaltCause) (ar br : Word) : State :=
  { s with halted := some { cause := cause, pc := s.pc, npc := s.npc, ar := ar, br := br } }

/-- A halt with the register fields of the halting instruction in AR and BR (R365, D32, log 51). -/
def State.haltFields (s : State) (cause : HaltCause) (ra rb : RegField) : State :=
  s.halt cause (s.readA ra) (s.readB rb)

/-- A halt before any instruction is fetched: AR and BR are free (log 51). -/
def State.haltPlain (s : State) (cause : HaltCause) : State :=
  s.halt cause (Config.haltAr s.fresh) (Config.haltBr s.fresh)

/-- Privileged instructions: in user mode without prv the illegal instruction trap, else the effect (R362). -/
def privileged (s : State) (effect : Result) : Result :=
  if s.eff.unprivileged then enterTrap illegalTrap s else effect

/-- An instruction that traps in user mode and halts in kernel mode, its operands in the halt record (R170, R174). -/
def trapOrHalt (s : State) (t : TrapInfo) (cause : HaltCause) (ra rb : RegField) : Result :=
  if s.eff.krn then .next (s.haltFields cause ra rb) else enterTrap t s

/-! ## The pc-queue -/

/-- The word address in a byte address, modulo 2^30, moved by a displacement and shifted back (R225, R250). -/
def jumpTarget (base : Word) (disp : BitVec 16) : Word := ((base >>> 2) + disp.signExtend 32) <<< 2

/-- PC2 as an instruction sees it: frozen in kernel mode; in user mode it tracks the pipeline, a free value
(R29, log 16). -/
def State.queueHead (s : State) : Word := if s.eff.krn then s.pc2 else Config.userPcQueue s.fresh ++ 0#2

/-- Kernel exit's effect, the return from a trap (R225): the queue moves on, this instruction's address enters it, and
the instruction after the next is at PC2 plus the displacement. -/
def kernelReturn (s : State) (disp : BitVec 16) : State :=
  ({ s with pc2 := s.pc1, pc1 := s.pc, rr := none } : State).retireTo Did.nothing (jumpTarget s.queueHead disp)

/-! ## Data cache -/

/-- The data cache holds a line. -/
def State.hasDataLine (s : State) (l : LineAddr) : Bool := (mapGet s.dcache l.toNat).isSome

/-- The line's words in the data cache; zeros where it is absent. -/
def State.dataLine (s : State) (l : LineAddr) : Line := ((mapGet s.dcache l.toNat).map (·.line)).getD default

/-- A dirty miss that reads the Boot-Prom (R104, U13): this step evicted a dirty line, and the line asked for is the
Boot-Prom's (log 32). -/
def State.dirtyPromMiss (s : State) (l : LineAddr) : Bool :=
  s.dirtyEvicted && !s.hasDataLine l && inBootProm s.eff.rom l

/-- A line as it comes over the bus from the memory controller: a parity error spoils one word (R120). -/
def busLine (e : Option BusError) (v : Line) : Line :=
  match e with
  | none => v
  | some b => lineSet v b.k b.v

/-- Which words of it have bad parity. -/
def busBad (e : Option BusError) : BitVec 4 :=
  match e with
  | none => 0#4
  | some b => 1#4 <<< b.k.toNat

/-- A single word as it comes over that bus. -/
def busWord (e : Option BusError) (v : Word) : Word :=
  match e with
  | none => v
  | some b => b.v

/-- A line that has just come into the data cache, clean. -/
def DataLine.arrived (e : Option BusError) (v : Line) : DataLine :=
  { line := busLine e v, dirty := false, bad := busBad e, tagBad := false }

/-- A line that has just come into the instruction cache. -/
def InstLine.arrived (e : Option BusError) (v : Line) : InstLine :=
  { line := busLine e v, bad := busBad e, tagBad := false }

/-- Bringing a line into the data cache (R112); `none` when that needs a memory controller that does nothing (R368). -/
def State.fillData (s : State) (l : LineAddr) : Option State :=
  if s.hasDataLine l then some s
  else if s.mcDown then none
  else
    let r := readRealLine s s.eff.rom false l
    some { r.2 with dcache := mapSet r.2.dcache l.toNat (DataLine.arrived s.busData r.1) }

/-- The word at a real word address in the data cache. -/
def State.dataWord (s : State) (rwa : Word) : Word := lineGet (s.dataLine (lineOf rwa)) (wordInLine rwa)

/-- Word `k` no longer marked bad. -/
def clearMark (m : BitVec 4) (k : BitVec 2) : BitVec 4 := m &&& ~~~(1#4 <<< k.toNat)

/-- Which words of a data line have bad parity. -/
def State.dataBad (s : State) (l : LineAddr) : BitVec 4 := ((mapGet s.dcache l.toNat).map (·.bad)).getD 0#4

/-- The cached tag of a data line has bad parity. -/
def State.dataTagBad (s : State) (l : LineAddr) : Bool := ((mapGet s.dcache l.toNat).map (·.tagBad)).getD false

/-- The data cache with a word written, with good parity, and its line dirty (R112, R120). -/
def State.putDataWord (s : State) (rwa v : Word) : State :=
  let l := lineOf rwa
  let d : DataLine := { line := lineSet (s.dataLine l) (wordInLine rwa) v, dirty := true,
                        bad := clearMark (s.dataBad l) (wordInLine rwa), tagBad := s.dataTagBad l }
  { s with dcache := mapSet s.dcache (lineOf rwa).toNat d }

/-! ## Instruction cache -/

/-- Bringing a line into the instruction cache (R114); `none` when that needs a memory controller that does nothing. The
PSW is the one that the instruction was fetched under. -/
def State.fillInst (s : State) (l : LineAddr) : Option State :=
  if (mapGet s.icache l.toNat).isSome then some s
  else if s.mcDown then none
  else
    let r := readRealLine s s.psw.rom false l
    some { r.2 with icache := mapSet r.2.icache l.toNat (InstLine.arrived s.busInst r.1) }

/-- The word at a real word address in the instruction cache. -/
def State.instWord (s : State) (rwa : Word) : Word :=
  lineGet (((mapGet s.icache (lineOf rwa).toNat).map (·.line)).getD default) (wordInLine rwa)

/-! ## Eviction and flush -/

/-- Writing a line of the data cache out would read bad parity, in its tag or its words (R120, R367). -/
def DataLine.spoilt (d : DataLine) : Bool := d.tagBad || d.bad != 0#4

/-- A data line leaves the cache, written to memory first if dirty (R111); a write-back that reads bad parity with
PSW.par clear halts the processor instead (R367, log 28). -/
def State.evictData (s : State) (l : LineAddr) : State :=
  match mapGet s.dcache l.toNat with
  | none => s
  | some d =>
    if d.dirty && d.spoilt && !s.psw.par then s.haltPlain .parity
    else
      { s with mem := if d.dirty then physWriteLine s.populated s.mem l d.line else s.mem,
               dcache := mapErase s.dcache l.toNat, dirtyEvicted := s.dirtyEvicted || d.dirty }

/-- An instruction line leaves the cache (R111). -/
def State.evictInst (s : State) (l : LineAddr) : State := { s with icache := mapErase s.icache l.toNat }

/-- Whether a flush of word address `ea` covers a line: from its line to the last line of its page (R233). -/
def flushCovers (ea : Word) (l : Nat) : Bool :=
  decide ((lineOf ea).toNat ≤ l) && decide (l ≤ ((lineOf ea) ||| 0xFF#30).toNat)

/-- Memory after the covered dirty lines of a data cache are written out (R233). -/
def writeBack (populated : BitVec 4) (ea : Word) (d : DataCache) (m : Memory) : Memory :=
  match d with
  | [] => m
  | e :: t =>
    writeBack populated ea t
      (if flushCovers ea e.1 && e.2.dirty then physWriteLine populated m (BitVec.ofNat 30 e.1) e.2.line else m)

/-- A flush must write some line, and so needs the memory controller (R368). -/
def State.flushWrites (s : State) (ea : Word) : Bool := s.dcache.any (fun e => flushCovers ea e.1 && e.2.dirty)

/-- The effect of a flush on caches and memory (R233). -/
def State.flushFrom (s : State) (ea : Word) : State :=
  { s with mem := writeBack s.populated ea s.dcache s.mem,
           dcache := s.dcache.filter (fun e => !flushCovers ea e.1),
           icache := s.icache.filter (fun e => !flushCovers ea e.1) }

end Sys2Proof.Machine
end

