-- ==== Sys2Proof/Machine/Operands.lean ====
section
/-!
DEFINITION. The operand forms: effective addresses (spec/44_load_store.md R240), the ALU's A operand (R151, R265), the
64-bit pair (R260), fields of it, and bases that have no hardware interlock (R476).
-/
namespace Sys2Proof.Machine

/-- `EA`: a base register shifted right by two, plus the sign-extended displacement, a word address (R240). -/
def effectiveAddress (base : Word) (disp : BitVec 16) : Word := (base >>> 2) + disp.signExtend 32

/-- The effective address of an instruction with base field rb (R240). -/
def State.ea (s : State) (rb : RegField) (disp : BitVec 16) : Word := effectiveAddress (s.readB rb) disp

/-- The base register of an instruction that has no address interlock: free when the instruction before wrote it, or,
where `afterStore`, when that was a store (R476, log 20). -/
def State.baseNoInterlock (s : State) (rb : RegField) (afterStore : Bool) : Word :=
  if (decide (rb ≠ 0#6) && s.hist.last.wrote == some (s.rbIndex rb)) || (afterStore && s.hist.last.store) then
    Config.uninterlockedBase s.fresh
  else s.readB rb

/-- The ALU's A operand: the field itself as a number 0 to 63 with the literal bit, else the register (R265). -/
def State.aluA (s : State) (lit : Bool) (ra : RegField) : Word := if lit then ra.setWidth 32 else s.readA ra

/-- The 64-bit pair with its most significant word first (R260, R290). -/
def pair (a b : Word) : Dword := a ++ b

/-- The low `size` bits of the pair shifted right, zero-extended (R260): `size` is 1 to 32. -/
def fieldOf (a b : Word) (shift size : Nat) : Word :=
  ((pair a b >>> shift) &&& (BitVec.ofNat 64 (2 ^ size - 1))).setWidth 32

/-- The shift count of a variable extract: the complement of the low 5 bits of the A operand (R276). -/
def variableShift (a : Word) : Nat := 31 - (a.extractLsb' 0 5).toNat

/-- The shift count of a byte extract: byte 0 is the most significant without inv, the least with it (R278). -/
def byteShift (a : Word) (inv : Bool) : Nat :=
  if inv then 8 * (a.extractLsb' 0 2).toNat else 8 * (3 - (a.extractLsb' 0 2).toNat)

/-- RR as R30 keeps it, `none` unless the instruction just before loaded it: a special that takes RR leaves the register
as it was (R196, R213, R214) and loads none (R30, log 17). -/
def State.loadedResult (s : State) : Option Word := if s.hist.last.tookResult then none else s.rr

/-- RR as a special write uses it: free when the instruction before loaded none (R30, R196, U14, log 17). -/
def State.resultRegister (s : State) : Word := s.loadedResult.getD (Config.unloadedResult s.fresh)

/-- The instruction fetched while this one is in its EX stage, the second after it, opens a memory line, and its fetch
may miss: this one is in word 2 of its line, where R195, R198 and R229 forbid it, or it is the delay slot of a branch to
word 3 (R477, log 14). -/
def State.missesInEx (s : State) : Bool := s.pc.extractLsb' 2 2 == 2#2 || (s.npc + 4#32).extractLsb' 2 2 == 0#2

/-- The word that a write of the data translation buffer stores: RR, free where the fetch may miss (R195, R198, R477,
log 14). -/
def State.dataEntryWord (s : State) : Word :=
  if s.missesInEx then Config.miswrittenEntry s.fresh else s.resultRegister

/-- RR as an I/O special uses it: free when it comes right after an I/O special (R217, log 37). The special before it,
and which control register this one selects, stay exact. -/
def State.ioOperand (s : State) : Word :=
  if s.hist.last.io then Config.hazardControlData s.fresh else s.resultRegister

end Sys2Proof.Machine
end

