-- ==== Sys2Proof/Machine/Flags.lean ====
section
/-!
DEFINITION. Every truth value the machine computes: the relations of a conditional jump (spec/45_jumps.md R256), the
ALU's adder and sign corrector (spec/46_extract_alu.md R267, R271), and the coprocessor status word
(spec/47_coprocessor.md R293). The Titan has no condition codes (R32).
-/
namespace Sys2Proof.Machine

/-! ## Conditional jump -/

/-- The eight relations to zero (R256). -/
inductive Relation where
  | eq
  | ne
  | lt
  | ge
  | gt
  | le
  | odd
  | even
deriving DecidableEq, Repr

/-- A word's relation to zero, signed (R256). -/
def Relation.holds (r : Relation) (x : Word) : Bool :=
  match r with
  | .eq => x == 0#32
  | .ne => x != 0#32
  | .lt => x.msb
  | .ge => !x.msb
  | .gt => !x.msb && x != 0#32
  | .le => x.msb || x == 0#32
  | .odd => x.getLsbD 0
  | .even => !x.getLsbD 0

/-! ## Adder -/

/-- The adder's 33-bit sum of two words and a carry in (R267). -/
def adder (x y : Word) (ci : Bool) : BitVec 33 := x.setWidth 33 + y.setWidth 33 + (BitVec.ofBool ci).setWidth 33

/-- The word of a sum (R267). -/
def adderSum (x y : Word) (ci : Bool) : Word := (adder x y ci).setWidth 32

/-- The carry out of the sign position (R267). -/
def adderCarry (x y : Word) (ci : Bool) : Bool := (adder x y ci).msb

/-- The true sign of `x - y`, or of `x - y - 1` without carry in (R271). -/
def trueSign (x y : Word) (ci uns : Bool) : Bool :=
  if uns then !adderCarry x (~~~y) ci
  else if x.msb = y.msb then (adderSum x (~~~y) ci).msb
  else adderCarry x (~~~y) ci

/-- A comparison's result: the true sign in bit 31, the rest free (R271, R272, U22, log 55). -/
def compareResult (ts : Bool) (fresh : Nat) : Word := BitVec.ofBool ts ++ Config.compareLow fresh

/-! ## Coprocessor status -/

/-- The accumulator cannot be represented with a biased exponent of 1 to `top` (R293). -/
def outOfRange (ac : Accumulator) (bias top : Int) : Bool :=
  ac.frac != 0#64 && (decide (ac.exp.toInt + bias < 1) || decide (ac.exp.toInt + bias > top))

/-- gRange (R293). -/
def gRange (ac : Accumulator) : Bool := outOfRange ac 1024 2047

/-- fRange (R293). -/
def fRange (ac : Accumulator) : Bool := outOfRange ac 128 255

/-- The coprocessor status word (R293, D14): neg 31, nz 30, abort 29, gRange 28, fRange 27, rsvOp 26, noDiv 25, int 24,
the rest 0. -/
def copStatus (cp : Coprocessor) : Word :=
  BitVec.ofBool cp.ac.sign ++ (BitVec.ofBool (cp.ac.frac != 0#64) ++ (BitVec.ofBool cp.abort ++
  (BitVec.ofBool (gRange cp.ac) ++ (BitVec.ofBool (fRange cp.ac) ++ (BitVec.ofBool cp.rsvOp ++
  (BitVec.ofBool cp.noDiv ++ (BitVec.ofBool cp.intPending ++ 0#24)))))))

end Sys2Proof.Machine
end

