-- ==== Sys2Proof/Machine/Float.lean ====
section
/-!
DEFINITION. Floating point (spec/47_coprocessor.md R294 to R315): the external formats, exact arithmetic on sign,
mantissa and exponent, rounding to a stored fraction of 23 or 52 bits by the parameter FP_OP (R312, D29, log 44), and
packing.
-/
namespace Sys2Proof.Machine

/-- A number `(-1)^sign * mant * 2^exp`. -/
structure Exact where
  sign : Bool
  mant : Nat
  exp : Int
deriving DecidableEq, Repr

/-- The four floating operand types: input format, then result rounding (R296). -/
inductive FloatFormat where
  | f
  | fg
  | gf
  | g
deriving DecidableEq, Repr

/-- The operand is in G format (R296). -/
def FloatFormat.inputG (m : FloatFormat) : Bool :=
  match m with
  | .f => false
  | .fg => false
  | .gf => true
  | .g => true

/-- Significant bits after rounding, hidden bit included: 24 or 53 (R311). -/
def FloatFormat.precision (m : FloatFormat) : Nat :=
  match m with
  | .f => 24
  | .fg => 53
  | .gf => 24
  | .g => 53

/-- The F operand in a word (R297, D34): an exponent field of 0 is zero. -/
def operandF (a : Word) : Exact :=
  if a.extractLsb' 23 8 = 0#8 then { sign := false, mant := 0, exp := 0 }
  else
    { sign := a.getLsbD 31, mant := 2 ^ 23 + (a.extractLsb' 0 23).toNat,
      exp := ((a.extractLsb' 23 8).toNat : Int) - 128 - 24 }

/-- The G operand in a pair (R297, D34). -/
def operandG (x : Dword) : Exact :=
  if x.extractLsb' 52 11 = 0#11 then { sign := false, mant := 0, exp := 0 }
  else
    { sign := x.getLsbD 63, mant := 2 ^ 52 + (x.extractLsb' 0 52).toNat,
      exp := ((x.extractLsb' 52 11).toNat : Int) - 1024 - 53 }

/-- The operand of a floating instruction (R310). -/
def floatOperand (m : FloatFormat) (a b : Word) : Exact := if m.inputG then operandG (pair a b) else operandF a

/-- A reserved operand: exponent field 0 and sign 1 (R297, R332). -/
def reservedOperand (m : FloatFormat) (a : Word) : Bool :=
  a.getLsbD 31 && (if m.inputG then a.extractLsb' 20 11 == 0#11 else a.extractLsb' 23 8 == 0#8)

/-- The accumulator's value (R298). -/
def accumulatorValue (ac : Accumulator) : Exact :=
  { sign := ac.sign, mant := ac.frac.toNat, exp := ac.exp.toInt - 63 }

/-- The mantissa with its sign, at a smaller or equal exponent. -/
def scaledTo (x : Exact) (e : Int) : Int :=
  let m : Int := (x.mant : Int) * ((2 ^ (x.exp - e).toNat : Nat) : Int)
  if x.sign then -m else m

/-- The exact sum. -/
def exactAdd (x y : Exact) : Exact :=
  let e := min x.exp y.exp
  let n := scaledTo x e + scaledTo y e
  { sign := decide (n < 0), mant := n.natAbs, exp := e }

/-- The negative. -/
def exactNeg (x : Exact) : Exact := { x with sign := !x.sign }

/-- The exact product. -/
def exactMul (x y : Exact) : Exact := { sign := x.sign ^^ y.sign, mant := x.mant * y.mant, exp := x.exp + y.exp }

/-- The quotient cut to at least 64 bits; its exact value exceeds it by less than one unit. -/
def quotient (x y : Exact) : Exact :=
  { sign := x.sign ^^ y.sign, mant := (x.mant * 2 ^ 128) / y.mant, exp := x.exp - y.exp - 128 }

/-- The quotient was cut. -/
def quotientCut (x y : Exact) : Bool := (x.mant * 2 ^ 128) % y.mant != 0

/-- A magnitude `mant * 2^exp`, plus less than one unit if `cut`, rounded to `p` significant bits: a mantissa of exactly
`p` bits and an exponent with the binary point left of it. An exact value is kept; an inexact one goes to one of its two
neighbours, the larger if `up` (R310, R311). -/
def roundMagnitude (p mant : Nat) (exp : Int) (cut up : Bool) : Nat × Int :=
  let len := Nat.log2 mant + 1
  if len ≤ p then (mant * 2 ^ (p - len), exp + len)
  else
    let q := mant / 2 ^ (len - p)
    let inexact := cut || q * 2 ^ (len - p) != mant
    let q' := if inexact && up then q + 1 else q
    if q' = 2 ^ p then (2 ^ (p - 1), exp + len + 1) else (q', exp + len)

/-- What `FP_OP` depends on (R312): which function it is, the operation code, the accumulator and the operand. The free
exponent is drawn from them too (N32, log 62). -/
structure FloatKey where
  fpOp : Rounding
  code : BitVec 7
  ac : Accumulator
  x : Dword
deriving DecidableEq, Repr

/-- A mantissa lies at least half way from the `p` bits it begins with to the next larger: the neighbour that rounding
to nearest with ties away from zero takes (R312, D29). What was cut behind it is less than one unit and decides
nothing. -/
def halfWay (p mant : Nat) : Bool :=
  decide (2 ^ (Nat.log2 mant - p) ≤ mant % 2 ^ (Nat.log2 mant + 1 - p))

/-- An inexact magnitude goes to the larger of its neighbours (R312, D29, log 44). -/
def FloatKey.roundsUp (k : FloatKey) (p mant : Nat) : Bool :=
  match k.fpOp with
  | .nearestAway => halfWay p mant
  | .other => Config.roundsUp k.code k.ac k.x

/-- The exponent register; what does not fit its 16 bits is free (N32, log 62). -/
def exponentRegister (k : FloatKey) (e : Int) : BitVec 16 :=
  if -32768 ≤ e ∧ e ≤ 32767 then BitVec.ofInt 16 e else Config.wideExponent k.code k.ac k.x

/-- The accumulator after a floating result: normalised and rounded, or all zero (R298, R310, R311). -/
def floatResult (k : FloatKey) (p : Nat) (v : Exact) (cut : Bool) : Accumulator :=
  if v.mant = 0 then Accumulator.zero
  else
    let r := roundMagnitude p v.mant v.exp cut (k.roundsUp p v.mant)
    { sign := v.sign, exp := exponentRegister k r.2, frac := BitVec.ofNat 64 (r.1 * 2 ^ (63 - p)) }

/-- The six arithmetic functions (R296). -/
inductive ArithFn where
  | add
  | subtract
  | rsubtract
  | multiply
  | divide
  | rdivide
deriving DecidableEq, Repr

/-- Floating arithmetic on the accumulator's value and the operand (R310). -/
def floatArith (k : FloatKey) (fn : ArithFn) (m : FloatFormat) (v x : Exact) : Accumulator :=
  match fn with
  | .add => floatResult k m.precision (exactAdd v x) false
  | .subtract => floatResult k m.precision (exactAdd v (exactNeg x)) false
  | .rsubtract => floatResult k m.precision (exactAdd x (exactNeg v)) false
  | .multiply => floatResult k m.precision (exactMul v x) false
  | .divide => floatResult k m.precision (quotient v x) (quotientCut v x)
  | .rdivide => floatResult k m.precision (quotient x v) (quotientCut x v)

/-- The F word of the accumulator (R294). -/
def packF (ac : Accumulator) : Word :=
  if ac.frac = 0#64 then 0#32
  else BitVec.ofBool ac.sign ++ ((ac.exp + 128#16).extractLsb' 0 8 ++ ac.frac.extractLsb' 39 23)

/-- The G pair of the accumulator (R294). -/
def packG (ac : Accumulator) : Dword :=
  if ac.frac = 0#64 then 0#64
  else BitVec.ofBool ac.sign ++ ((ac.exp + 1024#16).extractLsb' 0 11 ++ ac.frac.extractLsb' 10 52)

/-- A fixed-point number with its binary point between the words of the pair (R314). -/
def fixedPoint (x : Dword) : Exact := { sign := x.msb, mant := x.toInt.natAbs, exp := -32 }

end Sys2Proof.Machine
end

