-- ==== Sys2Proof/Machine/CopOps.lean ====
section
/-!
DEFINITION. The coprocessor's operations, its result formats, its traps and its clock, and the one shape of a
coprocessor instruction (spec/47_coprocessor.md R290 to R333).
-/
namespace Sys2Proof.Machine

/-- What a coprocessor instruction starts (R296). -/
inductive CopOp where
  | loadI
  | loadFloat (m : FloatFormat)
  | int (fn : ArithFn)
  | float (fn : ArithFn) (m : FloatFormat)
  | fix
  | floatf
  | floatg
  | scale
  | ldExp
  | wrSign
  | rdTod
  | wrInt
  | wrTod
  | nop
deriving DecidableEq, Repr

/-- The func field of an arithmetic function (R296). -/
def ArithFn.code (fn : ArithFn) : BitVec 3 :=
  match fn with
  | .add => 1#3
  | .subtract => 2#3
  | .rsubtract => 3#3
  | .multiply => 5#3
  | .divide => 6#3
  | .rdivide => 7#3

/-- The op field of a floating operand type (R296). -/
def FloatFormat.code (m : FloatFormat) : BitVec 3 :=
  match m with
  | .f => 4#3
  | .fg => 5#3
  | .gf => 6#3
  | .g => 7#3

/-- The seven-bit code of an operation that rounds: op, func, 0 (R142, R296). -/
def CopOp.code (o : CopOp) : BitVec 7 :=
  match o with
  | .loadI => 0x00#7
  | .loadFloat m => m.code ++ (0#3 ++ 0#1)
  | .int fn => 0#3 ++ (fn.code ++ 0#1)
  | .float fn m => m.code ++ (fn.code ++ 0#1)
  | .fix => 0x50#7
  | .floatf => 0x48#7
  | .floatg => 0x58#7
  | .scale => 0x68#7
  | .ldExp => 0x78#7
  | .wrSign => 0x08#7
  | .rdTod => 0x18#7
  | .wrInt => 0x30#7
  | .wrTod => 0x38#7
  | .nop => 0x28#7

/-- The operation takes several cycles (R335, R501): floating arithmetic, every multiply and divide, floatf, floatg. -/
def CopOp.multiCycle (o : CopOp) : Bool :=
  match o with
  | .int .multiply => true
  | .int .divide => true
  | .int .rdivide => true
  | .float _ _ => true
  | .floatf => true
  | .floatg => true
  | _ => false

/-! ## Results -/

/-- What a coprocessor instruction delivers (R292 to R294), in the layouts of D14 and D34. -/
def copResult (l : Layout) (r : CopResult) (cp : Coprocessor) : Word :=
  match r with
  | .sign => l.copStatus.putBelow (n := 1) (copStatus cp)
  | .exp => cp.ac.exp.signExtend 32
  | .inth => cp.ac.frac.extractLsb' 32 32
  | .intl => cp.ac.frac.extractLsb' 0 32
  | .dph => (l.gPair.put (packG cp.ac)).extractLsb' 32 32
  | .dpl => (l.gPair.put (packG cp.ac)).extractLsb' 0 32
  | .sp => l.fWord.put (packF cp.ac)
  | .null => 0#32

/-- The range error: a floating result that its format cannot represent (R333). -/
def rangeError (r : CopResult) (ac : Accumulator) : Bool :=
  match r with
  | .sp => fRange ac
  | .dph => gRange ac
  | .dpl => gRange ac
  | _ => false

/-! ## Operands -/

/-- A floating operand pair in the default arrangement of D34: a G operand is the pair, an F operand the first word. -/
def canonicalFloat (l : Layout) (m : FloatFormat) (a b : Word) : Word × Word :=
  if m.inputG then ((l.gPair.get (pair a b)).extractLsb' 32 32, (l.gPair.get (pair a b)).extractLsb' 0 32)
  else (l.fWord.get a, b)

/-- The operands of an operation in the default arrangements: floating operands (D34), wrSign's status word (D14),
of which the sign is bit 31 in any arrangement (R293, R322). -/
def canonicalOperands (l : Layout) (o : CopOp) (a b : Word) : Word × Word :=
  match o with
  | .loadFloat m => canonicalFloat l m a b
  | .float _ m => canonicalFloat l m a b
  | .wrSign => (l.copStatus.getBelow (n := 1) a, b)
  | _ => (a, b)

/-- The operands of a coprocessor instruction (R290). -/
def State.copOperands (s : State) (o : CopOp) (ra rb : RegField) : Word × Word :=
  canonicalOperands s.lay o (s.readA ra) (s.readB rb)

/-! ## Traps -/

/-- The operand is reserved (R332). -/
def copReserved (o : CopOp) (a : Word) : Bool :=
  match o with
  | .loadFloat m => reservedOperand m a
  | .float _ m => reservedOperand m a
  | _ => false

/-- A floating divide by zero (R331). -/
def copDivideByZero (o : CopOp) (ac : Accumulator) (a b : Word) : Bool :=
  match o with
  | .float .divide m => !reservedOperand m a && decide ((floatOperand m a b).mant = 0)
  | .float .rdivide _ => ac.frac == 0#64
  | _ => false

/-- Some coprocessor trap condition holds (R331 to R333). -/
def copTraps (o : CopOp) (r : CopResult) (cp : Coprocessor) (a b : Word) : Bool :=
  rangeError r cp.ac || copReserved o a || copDivideByZero o cp.ac a b

/-- The coprocessor after an aborted instruction: abort and the cause bits set, nothing else (R330). -/
def copAborted (o : CopOp) (cp : Coprocessor) (a b : Word) : Coprocessor :=
  { cp with abort := true, rsvOp := cp.rsvOp || copReserved o a,
            noDiv := cp.noDiv || copDivideByZero o cp.ac a b }

/-! ## Integer arithmetic -/

/-- The divide step (R304): quotient in the low word; in the high word the remainder, less the divisor where the
quotient is even and the remainder not 0; a failed precondition leaves a free fraction (U27, log 45). -/
def divideStep (n : Dword) (d low : Word) : Dword :=
  if low = 0#32 ∧ 0 < d.toNat ∧ d.toNat < 2 ^ 31 ∧ (n.extractLsb' 32 32).toNat < d.toNat then
    let q := n.toNat / d.toNat
    let r := n.toNat % d.toNat
    let high : Word :=
      if q % 2 = 1 then BitVec.ofNat 32 r
      else if r ≠ 0 then BitVec.ofNat 32 r - d
      else if Config.divEvenZeroRem n d then 0#32 - d else 0#32
    high ++ BitVec.ofNat 32 q
  else Config.divideUnspecified n (d ++ low)

/-- Integer arithmetic on the fraction (R302 to R304). -/
def intArith (fn : ArithFn) (frac : Dword) (a b : Word) : Dword :=
  match fn with
  | .add => frac + pair a b
  | .subtract => frac - pair a b
  | .rsubtract => pair a b - frac
  | .multiply => a.signExtend 64 * (frac.extractLsb' 32 32).signExtend 64
  | .divide => divideStep frac a b
  | .rdivide => divideStep (pair a b) (frac.extractLsb' 32 32) (frac.extractLsb' 0 32)

/-! ## Loads, fix -/

/-- Loading an F or G operand (R299): f and g exactly, gf with rounding to 23 bits. The sign and exponent of zero are
zero. -/
def loadFloat (k : FloatKey) (m : FloatFormat) (a b : Word) : Accumulator :=
  floatResult k m.precision (floatOperand m a b) false

/-- fix (R313): the fraction shifted to an integer, negated if the sign is set; an exponent above 63 leaves a free
fraction (U28, log 45). -/
def fixFraction (ac : Accumulator) : Dword :=
  if ac.exp.toInt > 63 then Config.fixUnspecified ac
  else if ac.sign then -(ac.frac >>> (63 - ac.exp.toInt).toNat) else ac.frac >>> (63 - ac.exp.toInt).toNat

/-! ## Clock -/

/-- wrInt in kernel mode (R324, R325): the interval is loaded and the request cleared; outside 1 to 2^19 - 1 cycles
ahead the next rise is not described (U25). -/
def loadInterval (cp : Coprocessor) (t : Dword) : Coprocessor :=
  { cp with itime := t, intPending := false, intAge := 0,
            timer := if 1 ≤ (t - cp.tod).toNat ∧ (t - cp.tod).toNat ≤ 2 ^ 19 - 1 then .armed else .unspecified }

/-- wrTod in kernel mode (R326): the clock is loaded, the interval lost, an interrupt requested; a request already
pending has waited as long as it has (R325). -/
def loadClock (cp : Coprocessor) (t : Dword) (fresh : Nat) : Coprocessor :=
  { cp with tod := t, itime := Config.lostInterval fresh, timer := .off, intPending := true,
            intAge := if cp.intPending then cp.intAge else 0 }

/-- Whether the interval request rises within `n` cycles (R325, U25). -/
def timerRises (cp : Coprocessor) (n fresh : Nat) : Bool :=
  match cp.timer with
  | .off => false
  | .armed => decide (1 ≤ (cp.itime - cp.tod).toNat ∧ (cp.itime - cp.tod).toNat ≤ n)
  | .unspecified => Config.timerRises fresh

/-- The cycles that a request which rises within `n` cycles has waited at their end (R325); all of them where it is
not said when it rises (U25, log 48). -/
def risenFor (cp : Coprocessor) (n : Nat) : Nat :=
  match cp.timer with
  | .armed => n - (cp.itime - cp.tod).toNat
  | _ => n

/-- The cycles that a request has waited after `n` more (R325). -/
def waitedFor (cp : Coprocessor) (n fresh : Nat) : Nat :=
  if cp.intPending then cp.intAge + n else if timerRises cp n fresh then risenFor cp n else 0

/-- The time of day after `n` cycles; free once a request has waited 2^19 cycles (R325, log 48). -/
def todAfter (cp : Coprocessor) (n fresh : Nat) : Dword :=
  if 2 ^ 19 ≤ waitedFor cp n fresh then Config.unservicedTod fresh else cp.tod + BitVec.ofNat 64 n

/-- The coprocessor after `n` machine cycles (R325, R327). -/
def copClock (cp : Coprocessor) (n fresh : Nat) : Coprocessor :=
  { cp with
    tod := todAfter cp n fresh, intPending := cp.intPending || timerRises cp n fresh,
    timer := if timerRises cp n fresh then .off else cp.timer, intAge := waitedFor cp n fresh }

/-! ## The instruction -/

/-- The operand that `FP_OP` sees: the pair, or ra alone where the operation takes an F operand (R310, R312). -/
def CopOp.operand (o : CopOp) (a b : Word) : Dword :=
  match o with
  | .loadFloat m => if m.inputG then pair a b else pair a 0#32
  | .float _ m => if m.inputG then pair a b else pair a 0#32
  | _ => pair a b

/-- The coprocessor after an operation under a function `FP_OP` (R299 to R326); wrInt and wrTod act in kernel mode
only. -/
def copOperate (fpOp : Rounding) (o : CopOp) (cp : Coprocessor) (a b : Word) (krn : Bool) (fresh : Nat) : Coprocessor :=
  let k : FloatKey := { fpOp := fpOp, code := o.code, ac := cp.ac, x := o.operand a b }
  match o with
  | .loadI => { cp with ac := { cp.ac with sign := a.getLsbD 31, frac := pair a b } }
  | .loadFloat m => { cp with ac := loadFloat k m a b }
  | .int fn => { cp with ac := { cp.ac with frac := intArith fn cp.ac.frac a b } }
  | .float fn m => { cp with ac := floatArith k fn m (accumulatorValue cp.ac) (floatOperand m a b) }
  | .fix => { cp with ac := { cp.ac with frac := fixFraction cp.ac } }
  | .floatf => { cp with ac := floatResult k 24 (fixedPoint (pair a b)) false }
  | .floatg => { cp with ac := floatResult k 53 (fixedPoint (pair a b)) false }
  | .scale => { cp with ac := { cp.ac with exp := cp.ac.exp + a.extractLsb' 0 16 } }
  | .ldExp => { cp with ac := { cp.ac with exp := a.extractLsb' 0 16 } }
  | .wrSign =>
    { cp with ac := { cp.ac with sign := a.getLsbD 31 }, rsvOp := a.getLsbD 26, noDiv := a.getLsbD 25 }
  | .rdTod => { cp with ac := { cp.ac with frac := cp.tod } }
  | .wrInt => if krn then loadInterval cp (pair a b) else cp
  | .wrTod => if krn then loadClock cp (pair a b) fresh else cp
  | .nop => cp

/-- The coprocessor an instruction meets: right after a multi-cycle operation its accumulator is free (R489, log 41). -/
def State.copNow (s : State) : Coprocessor :=
  if s.hist.last.copBusy then { s.cp with ac := Config.adjacentAccumulator s.fresh } else s.cp

/-- What the instruction delivers; free right after a multi-cycle operation (R489, log 41). -/
def State.copDelivers (s : State) (r : CopResult) : Word :=
  if s.hist.last.copBusy then Config.adjacentResult s.fresh else copResult s.lay r s.copNow

/-- The state after an aborted coprocessor instruction, before the trap (R330). -/
def State.copAbort (s : State) (o : CopOp) (ra rb : RegField) : State :=
  { s with cp := copAborted o s.copNow (s.copOperands o ra rb).1 (s.copOperands o ra rb).2 }

/-- Whether a coprocessor instruction aborts (R330). -/
def State.copAborts (s : State) (o : CopOp) (r : CopResult) (ra rb : RegField) : Bool :=
  copTraps o r s.copNow (s.copOperands o ra rb).1 (s.copOperands o ra rb).2

/-- The coprocessor after an operation that does not abort; right after a multi-cycle operation its whole accumulator is
free (R335, R489, log 41). -/
def State.copAfter (s : State) (o : CopOp) (ra rb : RegField) : Coprocessor :=
  let cp := copOperate s.lay.fpOp o { s.copNow with abort := false } (s.copOperands o ra rb).1 (s.copOperands o ra rb).2
    s.eff.krn s.fresh
  if s.hist.last.copBusy then { cp with ac := Config.adjacentOutcome s.fresh } else cp

/-- The coprocessor arithmetic trap (R330). -/
def arithTrap : TrapInfo := { noTrap with arith := true }

/-- A coprocessor instruction (R290): on a trap condition it aborts, trapping in user mode and going on in kernel mode;
else the result of the previous operation goes to RR and rc and the operation starts. -/
def copInstr (o : CopOp) (r : CopResult) (ra rb rc : RegField) (s : State) : Result :=
  if s.copAborts o r ra rb then
    if s.eff.krn then .next (({ s.copAbort o ra rb with rr := none } : State).retire Did.nothing)
    else enterTrap arithTrap (s.copAbort o ra rb)
  else
    .next ((({ s with cp := s.copAfter o ra rb } : State).result rc (s.copDelivers r)).retire
      { didWrite s rc with copBusy := o.multiCycle })

end Sys2Proof.Machine
end

