-- ==== Sys2Proof/Machine/LoadStore.lean ====
section
/-!
DEFINITION. load, store and load address (spec/44_load_store.md).
-/
namespace Sys2Proof.Machine

/-- A data translation fault on an address (R348). -/
def dataTranslationTrap (ea : Word) : TrapInfo := { noTrap with dtf := true, dataPage := pageOf ea }

/-- A write protection violation on an address (R349). -/
def writeProtectionTrap (ea : Word) : TrapInfo := { noTrap with wpv := true, dataPage := pageOf ea }

/-- A load's or store's note for the restrictions. -/
def didMemory (store : Bool) (wrote : Option RegIndex) : Did :=
  { Did.nothing with memory := true, store := store, wrote := wrote }

/-- A load from a real word address: through the data cache into RR and ra (R112, R241). -/
def loadReal (s : State) (ra : RegField) (rwa : Word) : Result :=
  if s.dirtyPromMiss (lineOf rwa) then .refused .bootPromOverlap
  else
    match s.fillData (lineOf rwa) with
    | none => stall s
    | some t => .next ((t.result ra (t.dataWord rwa)).retire (didMemory false (s.wroteA ra)))

/-- A store to a real word address: the data cache's line becomes dirty; RR is not loaded (R112, R242). -/
def storeReal (s : State) (v rwa : Word) : Result :=
  if s.dirtyPromMiss (lineOf rwa) then .refused .bootPromOverlap
  else
    match s.fillData (lineOf rwa) with
    | none => stall s
    | some t => .next (({ t.putDataWord rwa v with rr := none } : State).retire (didMemory true none))

/-- load (R241); a fault traps in user mode and halts in kernel mode with the operands in the halt record (R348, R349,
R365, D32). -/
def execLoad (ra rb : RegField) (disp : BitVec 16) (s : State) : Result :=
  match dataReference s.dtlb s.eff (s.ea rb disp) false with
  | .real rwa => loadReal s ra rwa
  | .noTranslation => trapOrHalt s (dataTranslationTrap (s.ea rb disp)) .dtf ra rb
  | .readOnly => trapOrHalt s (writeProtectionTrap (s.ea rb disp)) .wpv ra rb
  | .ambiguous => .refused .ambiguousTranslation

/-- store (R242); a fault as load's. -/
def execStore (ra rb : RegField) (disp : BitVec 16) (s : State) : Result :=
  match dataReference s.dtlb s.eff (s.ea rb disp) true with
  | .real rwa => storeReal s (s.readA ra) rwa
  | .noTranslation => trapOrHalt s (dataTranslationTrap (s.ea rb disp)) .dtf ra rb
  | .readOnly => trapOrHalt s (writeProtectionTrap (s.ea rb disp)) .wpv ra rb
  | .ambiguous => .refused .ambiguousTranslation

/-- load address (R243). -/
def execLoadAddress (ra rb : RegField) (disp : BitVec 16) (s : State) : Result := finish s ra (s.ea rb disp)

end Sys2Proof.Machine
end

