-- ==== Sys2Proof/Machine/Trapping.lean ====
section
/-!
DEFINITION. The trapping instructions: abort, trap, undef1, undef2 (spec/40_trapping.md R170 to R174).
-/
namespace Sys2Proof.Machine

/-- The user trap with its literal (R171). -/
def userTrap (literal : BitVec 6) : TrapInfo := { noTrap with usr := true, literal := literal }

/-- abort (R170): ill in user mode, a halt in kernel mode; the displacement is ignored. -/
def execAbort (ra rb : RegField) (_disp : BitVec 16) (s : State) : Result := trapOrHalt s illegalTrap .abort ra rb

/-- trap (R171): usr and the literal in user mode, a halt in kernel mode with the record of R174. -/
def execTrap (ra rb : RegField) (literal : BitVec 6) (s : State) : Result :=
  trapOrHalt s (userTrap literal) .trap ra rb

/-- undef1 (R172): as abort, with its own halt cause. -/
def execUndef1 (ra rb : RegField) (_disp : BitVec 16) (s : State) : Result := trapOrHalt s illegalTrap .undef ra rb

/-- undef2 (R173): as undef1. -/
def execUndef2 (ra rb : RegField) (_disp : BitVec 16) (s : State) : Result := trapOrHalt s illegalTrap .undef ra rb

end Sys2Proof.Machine
end

