-- ==== Sys2Proof/Machine/Causes.lean ====
section
/-!
DEFINITION. The conditions of a trap that an instruction itself contributes (spec/60_exceptions.md R351), for the case
that an interrupt or a fetch fault of its successor suppresses it: the meanings raise the same conditions when it
executes.
-/
namespace Sys2Proof.Machine

/-- What an instruction can trap for (R351). -/
inductive TrapClass where
  | never
  | privileged
  | illegal
  | user (literal : BitVec 6)
  | load (rb : RegField) (disp : BitVec 16)
  | store (rb : RegField) (disp : BitVec 16)
  | cop (o : CopOp) (r : CopResult) (ra rb : RegField)
deriving DecidableEq, Repr

/-- The trap class of an instruction. -/
def trapClass (i : Instr) : TrapClass :=
  match i with
  | .abort _ _ _ => .illegal
  | .readStatus _ _ => .privileged
  | .readPcQ _ _ => .privileged
  | .writeStatus _ _ => .privileged
  | .readInstTFR _ _ => .privileged
  | .readDataTFR _ _ => .privileged
  | .readInstTlbTag0 _ _ => .privileged
  | .readInstTlbTag1 _ _ => .privileged
  | .readDataTlbTag0 _ _ => .privileged
  | .readDataTlbTag1 _ _ => .privileged
  | .readInstTlbData0 _ _ => .privileged
  | .readInstTlbData1 _ _ => .privileged
  | .readDataTlbData0 _ _ => .privileged
  | .readDataTlbData1 _ _ => .privileged
  | .writeInstTlbTag0 _ _ => .privileged
  | .writeInstTlbTag1 _ _ => .privileged
  | .writeDataTlbTag0 _ _ => .privileged
  | .writeDataTlbTag1 _ _ => .privileged
  | .writeInstTlbData0 _ _ => .privileged
  | .writeInstTlbData1 _ _ => .privileged
  | .writeDataTlbData0 _ _ => .privileged
  | .writeDataTlbData1 _ _ => .privileged
  | .getCtl _ _ => .privileged
  | .setCtl _ _ => .privileged
  | .ioRead _ _ => .privileged
  | .ioWrite _ _ => .privileged
  | .kernelExit _ _ _ => .privileged
  | .pseudoCall _ _ _ => .privileged
  | .flush _ _ _ => .privileged
  | .load _ rb disp => .load rb disp
  | .store _ rb disp => .store rb disp
  | .goto _ _ _ => .never
  | .cjumpEq _ _ => .never
  | .cjumpNe _ _ => .never
  | .cjumpLt _ _ => .never
  | .cjumpGe _ _ => .never
  | .cjumpGt _ _ => .never
  | .cjumpLe _ _ => .never
  | .cjumpOdd _ _ => .never
  | .cjumpEven _ _ => .never
  | .extract _ _ _ _ _ => .never
  | .aluAdd _ _ _ _ => .never
  | .aluAdd1 _ _ _ _ => .never
  | .aluRsub _ _ _ _ => .never
  | .aluRsub1 _ _ _ _ => .never
  | .aluSub _ _ _ _ => .never
  | .aluSub1 _ _ _ _ => .never
  | .aluNeg _ _ _ _ => .never
  | .aluNegm1 _ _ _ _ => .never
  | .aluGt _ _ _ _ => .never
  | .aluGtu _ _ _ _ => .never
  | .aluGe _ _ _ _ => .never
  | .aluGeu _ _ _ _ => .never
  | .aluLt _ _ _ _ => .never
  | .aluLtu _ _ _ _ => .never
  | .aluLe _ _ _ _ => .never
  | .aluLeu _ _ _ _ => .never
  | .aluEqv _ _ _ _ => .never
  | .aluXor _ _ _ _ => .never
  | .aluOr _ _ _ _ => .never
  | .aluMovb _ _ _ _ => .never
  | .aluNot _ _ _ _ => .never
  | .aluMova _ _ _ _ => .never
  | .aluAnd _ _ _ _ => .never
  | .aluZero _ _ _ _ => .never
  | .aluVext _ _ _ _ _ => .never
  | .aluBext _ _ _ _ _ _ => .never
  | .copLoadI result ra rb _ => .cop .loadI result ra rb
  | .copLoadF result ra rb _ => .cop (.loadFloat .f) result ra rb
  | .copLoadGf result ra rb _ => .cop (.loadFloat .gf) result ra rb
  | .copLoadG result ra rb _ => .cop (.loadFloat .g) result ra rb
  | .copAddI result ra rb _ => .cop (.int .add) result ra rb
  | .copAddF result ra rb _ => .cop (.float .add .f) result ra rb
  | .copAddFg result ra rb _ => .cop (.float .add .fg) result ra rb
  | .copAddGf result ra rb _ => .cop (.float .add .gf) result ra rb
  | .copAddG result ra rb _ => .cop (.float .add .g) result ra rb
  | .copSubtractI result ra rb _ => .cop (.int .subtract) result ra rb
  | .copSubtractF result ra rb _ => .cop (.float .subtract .f) result ra rb
  | .copSubtractFg result ra rb _ => .cop (.float .subtract .fg) result ra rb
  | .copSubtractGf result ra rb _ => .cop (.float .subtract .gf) result ra rb
  | .copSubtractG result ra rb _ => .cop (.float .subtract .g) result ra rb
  | .copRsubtractI result ra rb _ => .cop (.int .rsubtract) result ra rb
  | .copRsubtractF result ra rb _ => .cop (.float .rsubtract .f) result ra rb
  | .copRsubtractFg result ra rb _ => .cop (.float .rsubtract .fg) result ra rb
  | .copRsubtractGf result ra rb _ => .cop (.float .rsubtract .gf) result ra rb
  | .copRsubtractG result ra rb _ => .cop (.float .rsubtract .g) result ra rb
  | .copMultiplyI result ra rb _ => .cop (.int .multiply) result ra rb
  | .copMultiplyF result ra rb _ => .cop (.float .multiply .f) result ra rb
  | .copMultiplyFg result ra rb _ => .cop (.float .multiply .fg) result ra rb
  | .copMultiplyGf result ra rb _ => .cop (.float .multiply .gf) result ra rb
  | .copMultiplyG result ra rb _ => .cop (.float .multiply .g) result ra rb
  | .copDivideI result ra rb _ => .cop (.int .divide) result ra rb
  | .copDivideF result ra rb _ => .cop (.float .divide .f) result ra rb
  | .copDivideFg result ra rb _ => .cop (.float .divide .fg) result ra rb
  | .copDivideGf result ra rb _ => .cop (.float .divide .gf) result ra rb
  | .copDivideG result ra rb _ => .cop (.float .divide .g) result ra rb
  | .copRdivideI result ra rb _ => .cop (.int .rdivide) result ra rb
  | .copRdivideF result ra rb _ => .cop (.float .rdivide .f) result ra rb
  | .copRdivideFg result ra rb _ => .cop (.float .rdivide .fg) result ra rb
  | .copRdivideGf result ra rb _ => .cop (.float .rdivide .gf) result ra rb
  | .copRdivideG result ra rb _ => .cop (.float .rdivide .g) result ra rb
  | .copFix result ra rb _ => .cop .fix result ra rb
  | .copFloatf result ra rb _ => .cop .floatf result ra rb
  | .copFloatg result ra rb _ => .cop .floatg result ra rb
  | .copScale result ra rb _ => .cop .scale result ra rb
  | .copLdExp result ra rb _ => .cop .ldExp result ra rb
  | .copWrSign result ra rb _ => .cop .wrSign result ra rb
  | .copRdTod result ra rb _ => .cop .rdTod result ra rb
  | .copWrInt result ra rb _ => .cop .wrInt result ra rb
  | .copWrTod result ra rb _ => .cop .wrTod result ra rb
  | .copNop result ra rb _ => .cop .nop result ra rb
  | .trap _ _ literal => .user literal
  | .loadAddress _ _ _ => .never
  | .undef1 _ _ _ => .illegal
  | .undef2 _ _ _ => .illegal

/-- The trap class of a decoded word: an undescribed special is privileged like every special (R201). -/
def decodedTrapClass (d : Decoded) : TrapClass :=
  match d with
  | .instr i => trapClass i
  | .undescribed (.special _ _ _) => .privileged
  | .undescribed (.alu _ _ _ _) => .never
  | .undescribed (.cop _ _ _) => .never

/-- A data reference's condition (R348, R349). One that two valid translations match (U1), of a load or store that a
request or its successor's fetch fault suppresses in user mode, contributes none and stops nothing: the trap is taken
for the other causes, though the reference alone is refused. R98 and R351 are silent on it: the model's choice (log
24). -/
def referenceTrap (r : Reference) (ea : Word) : TrapInfo :=
  match r with
  | .real _ => noTrap
  | .noTranslation => dataTranslationTrap ea
  | .readOnly => writeProtectionTrap ea
  | .ambiguous => noTrap

/-- The conditions an instruction of a class contributes in user mode (R351): all of them, of which D21 would allow a
subset, the model's choice (log 49). -/
def ownTrap (c : TrapClass) (s : State) : TrapInfo :=
  match c with
  | .never => noTrap
  | .privileged => if s.eff.unprivileged then illegalTrap else noTrap
  | .illegal => illegalTrap
  | .user literal => userTrap literal
  | .load rb disp => referenceTrap (dataReference s.dtlb s.eff (s.ea rb disp) false) (s.ea rb disp)
  | .store rb disp => referenceTrap (dataReference s.dtlb s.eff (s.ea rb disp) true) (s.ea rb disp)
  | .cop o r ra rb => if s.copAborts o r ra rb then arithTrap else noTrap

/-- What a suppressed instruction leaves behind: an aborted coprocessor instruction its status bits (R330), also where a
request or a fetch fault is reported beside it, the model's choice (log 49); any other nothing. -/
def suppressed (c : TrapClass) (s : State) : State :=
  match c with
  | .cop o r ra rb => if s.copAborts o r ra rb then s.copAbort o ra rb else s
  | _ => s

end Sys2Proof.Machine
end

