-- ==== Sys2Proof/Machine/Alu.lean ====
section
/-!
DEFINITION. Extract, the ALU's arithmetic, comparison and logical functions, variable and byte extract
(spec/46_extract_alu.md). `lit` makes the field ra a value 0 to 63 (R265).
-/
namespace Sys2Proof.Machine

/-! ## Extract -/

/-- extract (R260): the field of the 64-bit pair ra, rb. -/
def execExtract (ra rb rc : RegField) (shift mask : Nat) (s : State) : Result :=
  finish s rc (fieldOf (s.readA ra) (s.readB rb) shift mask)

/-! ## Arithmetic (R267, R268) -/

/-- Select 4: `AR + BR + ci`. -/
def aluSum (s : State) (lit : Bool) (ra rb : RegField) (ci : Bool) : Word :=
  adderSum (s.aluA lit ra) (s.readB rb) ci

/-- Select 5: `BR - AR`, less 1 without carry in. -/
def aluReverse (s : State) (lit : Bool) (ra rb : RegField) (ci : Bool) : Word :=
  adderSum (s.readB rb) (~~~(s.aluA lit ra)) ci

/-- Select 6: `AR - BR`, less 1 without carry in. -/
def aluDifference (s : State) (lit : Bool) (ra rb : RegField) (ci : Bool) : Word :=
  adderSum (s.aluA lit ra) (~~~(s.readB rb)) ci

/-- Select 7: `-AR`, less 1 without carry in. -/
def aluNegative (s : State) (lit : Bool) (ra : RegField) (ci : Bool) : Word := adderSum 0#32 (~~~(s.aluA lit ra)) ci

/-- alu.add (R268): `ra + rb`. -/
def execAluAdd (lit : Bool) (ra rb rc : RegField) (s : State) : Result :=
  finish s rc (aluSum s lit ra rb false)

/-- alu.add1 (R268): `ra + rb + 1`. -/
def execAluAdd1 (lit : Bool) (ra rb rc : RegField) (s : State) : Result :=
  finish s rc (aluSum s lit ra rb true)

/-- alu.rsub (R268): `rb - ra`. -/
def execAluRsub (lit : Bool) (ra rb rc : RegField) (s : State) : Result :=
  finish s rc (aluReverse s lit ra rb true)

/-- alu.rsub1 (R268): `rb - ra - 1`. -/
def execAluRsub1 (lit : Bool) (ra rb rc : RegField) (s : State) : Result :=
  finish s rc (aluReverse s lit ra rb false)

/-- alu.sub (R268): `ra - rb`. -/
def execAluSub (lit : Bool) (ra rb rc : RegField) (s : State) : Result :=
  finish s rc (aluDifference s lit ra rb true)

/-- alu.sub1 (R268): `ra - rb - 1`. -/
def execAluSub1 (lit : Bool) (ra rb rc : RegField) (s : State) : Result :=
  finish s rc (aluDifference s lit ra rb false)

/-- alu.neg (R268): `-ra`. -/
def execAluNeg (lit : Bool) (ra _rb rc : RegField) (s : State) : Result := finish s rc (aluNegative s lit ra true)

/-- alu.negm1 (R268): `-ra - 1`. -/
def execAluNegm1 (lit : Bool) (ra _rb rc : RegField) (s : State) : Result :=
  finish s rc (aluNegative s lit ra false)

/-! ## Comparisons (R271, R272): bit 31 is the truth, the rest free -/

/-- A comparison with select 5: the sign of `BR - AR`, or of `BR - AR - 1` without carry in. -/
def compareReverse (s : State) (lit : Bool) (ra rb : RegField) (ci uns : Bool) : Word :=
  compareResult (trueSign (s.readB rb) (s.aluA lit ra) ci uns) s.fresh

/-- A comparison with select 6: the sign of `AR - BR`, or of `AR - BR - 1` without carry in. -/
def compareForward (s : State) (lit : Bool) (ra rb : RegField) (ci uns : Bool) : Word :=
  compareResult (trueSign (s.aluA lit ra) (s.readB rb) ci uns) s.fresh

/-- alu.gt (R272): `ra > rb`. -/
def execAluGt (lit : Bool) (ra rb rc : RegField) (s : State) : Result :=
  finish s rc (compareReverse s lit ra rb true false)

/-- alu.gtu (R272): `ra >u rb`. -/
def execAluGtu (lit : Bool) (ra rb rc : RegField) (s : State) : Result :=
  finish s rc (compareReverse s lit ra rb true true)

/-- alu.ge (R272): `ra >= rb`. -/
def execAluGe (lit : Bool) (ra rb rc : RegField) (s : State) : Result :=
  finish s rc (compareReverse s lit ra rb false false)

/-- alu.geu (R272): `ra >=u rb`. -/
def execAluGeu (lit : Bool) (ra rb rc : RegField) (s : State) : Result :=
  finish s rc (compareReverse s lit ra rb false true)

/-- alu.lt (R272): `ra < rb`. -/
def execAluLt (lit : Bool) (ra rb rc : RegField) (s : State) : Result :=
  finish s rc (compareForward s lit ra rb true false)

/-- alu.ltu (R272): `ra <u rb`. -/
def execAluLtu (lit : Bool) (ra rb rc : RegField) (s : State) : Result :=
  finish s rc (compareForward s lit ra rb true true)

/-- alu.le (R272, R273): `ra <= rb`. -/
def execAluLe (lit : Bool) (ra rb rc : RegField) (s : State) : Result :=
  finish s rc (compareForward s lit ra rb false false)

/-- alu.leu (R272, R273): `ra <=u rb`. -/
def execAluLeu (lit : Bool) (ra rb rc : RegField) (s : State) : Result :=
  finish s rc (compareForward s lit ra rb false true)

/-! ## Logical functions and moves (R269, R270) -/

/-- alu.eqv (R269): `ra eqv rb`. -/
def execAluEqv (lit : Bool) (ra rb rc : RegField) (s : State) : Result :=
  finish s rc (~~~(s.aluA lit ra ^^^ s.readB rb))

/-- alu.xor (R269): `ra xor rb`. -/
def execAluXor (lit : Bool) (ra rb rc : RegField) (s : State) : Result :=
  finish s rc (s.aluA lit ra ^^^ s.readB rb)

/-- alu.or (R269): `ra or rb`. -/
def execAluOr (lit : Bool) (ra rb rc : RegField) (s : State) : Result :=
  finish s rc (s.aluA lit ra ||| s.readB rb)

/-- alu.movb (R269): `rb`. -/
def execAluMovb (_lit : Bool) (_ra rb rc : RegField) (s : State) : Result := finish s rc (s.readB rb)

/-- alu.not (R269): `not ra`. -/
def execAluNot (lit : Bool) (ra _rb rc : RegField) (s : State) : Result := finish s rc (~~~(s.aluA lit ra))

/-- alu.mova (R269): `ra`. -/
def execAluMova (lit : Bool) (ra _rb rc : RegField) (s : State) : Result := finish s rc (s.aluA lit ra)

/-- alu.and (R269): `ra and rb`. -/
def execAluAnd (lit : Bool) (ra rb rc : RegField) (s : State) : Result :=
  finish s rc (s.aluA lit ra &&& s.readB rb)

/-- alu.zero (R269): `0`. -/
def execAluZero (_lit : Bool) (_ra _rb rc : RegField) (s : State) : Result := finish s rc 0#32

/-! ## Variable and byte extract -/

/-- alu.vext (R276): a field at a variable place. -/
def execAluVext (lit : Bool) (ra rb rc : RegField) (size : Nat) (s : State) : Result :=
  finish s rc (fieldOf (s.aluA lit ra) (s.readB rb) (variableShift (s.aluA lit ra)) size)

/-- alu.bext (R278): a field at a byte boundary. -/
def execAluBext (lit : Bool) (ra rb rc : RegField) (inv : Bool) (size : Nat) (s : State) : Result :=
  finish s rc (fieldOf (s.aluA lit ra) (s.readB rb) (byteShift (s.aluA lit ra) inv) size)

end Sys2Proof.Machine
end

