-- ==== Sys2Proof/Machine/Coprocessor.lean ====
section
/-!
DEFINITION. The coprocessor instructions (spec/47_coprocessor.md): each is the one shape `copInstr` (R290) with its
own operation.
-/
namespace Sys2Proof.Machine

/-- cop.load.i (R301). -/
def execCopLoadI (result : CopResult) (ra rb rc : RegField) (s : State) : Result :=
  copInstr .loadI result ra rb rc s

/-- cop.load.f (R299). -/
def execCopLoadF (result : CopResult) (ra rb rc : RegField) (s : State) : Result :=
  copInstr (.loadFloat .f) result ra rb rc s

/-- cop.load.gf (R299). -/
def execCopLoadGf (result : CopResult) (ra rb rc : RegField) (s : State) : Result :=
  copInstr (.loadFloat .gf) result ra rb rc s

/-- cop.load.g (R299). -/
def execCopLoadG (result : CopResult) (ra rb rc : RegField) (s : State) : Result :=
  copInstr (.loadFloat .g) result ra rb rc s

/-- cop.add.i (R302). -/
def execCopAddI (result : CopResult) (ra rb rc : RegField) (s : State) : Result :=
  copInstr (.int .add) result ra rb rc s

/-- cop.add.f (R310). -/
def execCopAddF (result : CopResult) (ra rb rc : RegField) (s : State) : Result :=
  copInstr (.float .add .f) result ra rb rc s

/-- cop.add.fg (R310). -/
def execCopAddFg (result : CopResult) (ra rb rc : RegField) (s : State) : Result :=
  copInstr (.float .add .fg) result ra rb rc s

/-- cop.add.gf (R310). -/
def execCopAddGf (result : CopResult) (ra rb rc : RegField) (s : State) : Result :=
  copInstr (.float .add .gf) result ra rb rc s

/-- cop.add.g (R310). -/
def execCopAddG (result : CopResult) (ra rb rc : RegField) (s : State) : Result :=
  copInstr (.float .add .g) result ra rb rc s

/-- cop.subtract.i (R302). -/
def execCopSubtractI (result : CopResult) (ra rb rc : RegField) (s : State) : Result :=
  copInstr (.int .subtract) result ra rb rc s

/-- cop.subtract.f (R310). -/
def execCopSubtractF (result : CopResult) (ra rb rc : RegField) (s : State) : Result :=
  copInstr (.float .subtract .f) result ra rb rc s

/-- cop.subtract.fg (R310). -/
def execCopSubtractFg (result : CopResult) (ra rb rc : RegField) (s : State) : Result :=
  copInstr (.float .subtract .fg) result ra rb rc s

/-- cop.subtract.gf (R310). -/
def execCopSubtractGf (result : CopResult) (ra rb rc : RegField) (s : State) : Result :=
  copInstr (.float .subtract .gf) result ra rb rc s

/-- cop.subtract.g (R310). -/
def execCopSubtractG (result : CopResult) (ra rb rc : RegField) (s : State) : Result :=
  copInstr (.float .subtract .g) result ra rb rc s

/-- cop.rsubtract.i (R302). -/
def execCopRsubtractI (result : CopResult) (ra rb rc : RegField) (s : State) : Result :=
  copInstr (.int .rsubtract) result ra rb rc s

/-- cop.rsubtract.f (R310). -/
def execCopRsubtractF (result : CopResult) (ra rb rc : RegField) (s : State) : Result :=
  copInstr (.float .rsubtract .f) result ra rb rc s

/-- cop.rsubtract.fg (R310). -/
def execCopRsubtractFg (result : CopResult) (ra rb rc : RegField) (s : State) : Result :=
  copInstr (.float .rsubtract .fg) result ra rb rc s

/-- cop.rsubtract.gf (R310). -/
def execCopRsubtractGf (result : CopResult) (ra rb rc : RegField) (s : State) : Result :=
  copInstr (.float .rsubtract .gf) result ra rb rc s

/-- cop.rsubtract.g (R310). -/
def execCopRsubtractG (result : CopResult) (ra rb rc : RegField) (s : State) : Result :=
  copInstr (.float .rsubtract .g) result ra rb rc s

/-- cop.multiply.i (R303). -/
def execCopMultiplyI (result : CopResult) (ra rb rc : RegField) (s : State) : Result :=
  copInstr (.int .multiply) result ra rb rc s

/-- cop.multiply.f (R310). -/
def execCopMultiplyF (result : CopResult) (ra rb rc : RegField) (s : State) : Result :=
  copInstr (.float .multiply .f) result ra rb rc s

/-- cop.multiply.fg (R310). -/
def execCopMultiplyFg (result : CopResult) (ra rb rc : RegField) (s : State) : Result :=
  copInstr (.float .multiply .fg) result ra rb rc s

/-- cop.multiply.gf (R310). -/
def execCopMultiplyGf (result : CopResult) (ra rb rc : RegField) (s : State) : Result :=
  copInstr (.float .multiply .gf) result ra rb rc s

/-- cop.multiply.g (R310). -/
def execCopMultiplyG (result : CopResult) (ra rb rc : RegField) (s : State) : Result :=
  copInstr (.float .multiply .g) result ra rb rc s

/-- cop.divide.i (R304). -/
def execCopDivideI (result : CopResult) (ra rb rc : RegField) (s : State) : Result :=
  copInstr (.int .divide) result ra rb rc s

/-- cop.divide.f (R310). -/
def execCopDivideF (result : CopResult) (ra rb rc : RegField) (s : State) : Result :=
  copInstr (.float .divide .f) result ra rb rc s

/-- cop.divide.fg (R310). -/
def execCopDivideFg (result : CopResult) (ra rb rc : RegField) (s : State) : Result :=
  copInstr (.float .divide .fg) result ra rb rc s

/-- cop.divide.gf (R310). -/
def execCopDivideGf (result : CopResult) (ra rb rc : RegField) (s : State) : Result :=
  copInstr (.float .divide .gf) result ra rb rc s

/-- cop.divide.g (R310). -/
def execCopDivideG (result : CopResult) (ra rb rc : RegField) (s : State) : Result :=
  copInstr (.float .divide .g) result ra rb rc s

/-- cop.rdivide.i (R304). -/
def execCopRdivideI (result : CopResult) (ra rb rc : RegField) (s : State) : Result :=
  copInstr (.int .rdivide) result ra rb rc s

/-- cop.rdivide.f (R310). -/
def execCopRdivideF (result : CopResult) (ra rb rc : RegField) (s : State) : Result :=
  copInstr (.float .rdivide .f) result ra rb rc s

/-- cop.rdivide.fg (R310). -/
def execCopRdivideFg (result : CopResult) (ra rb rc : RegField) (s : State) : Result :=
  copInstr (.float .rdivide .fg) result ra rb rc s

/-- cop.rdivide.gf (R310). -/
def execCopRdivideGf (result : CopResult) (ra rb rc : RegField) (s : State) : Result :=
  copInstr (.float .rdivide .gf) result ra rb rc s

/-- cop.rdivide.g (R310). -/
def execCopRdivideG (result : CopResult) (ra rb rc : RegField) (s : State) : Result :=
  copInstr (.float .rdivide .g) result ra rb rc s

/-- cop.fix (R313). -/
def execCopFix (result : CopResult) (ra rb rc : RegField) (s : State) : Result :=
  copInstr .fix result ra rb rc s

/-- cop.floatf (R314). -/
def execCopFloatf (result : CopResult) (ra rb rc : RegField) (s : State) : Result :=
  copInstr .floatf result ra rb rc s

/-- cop.floatg (R314). -/
def execCopFloatg (result : CopResult) (ra rb rc : RegField) (s : State) : Result :=
  copInstr .floatg result ra rb rc s

/-- cop.scale (R315). -/
def execCopScale (result : CopResult) (ra rb rc : RegField) (s : State) : Result :=
  copInstr .scale result ra rb rc s

/-- cop.ldExp (R316). -/
def execCopLdExp (result : CopResult) (ra rb rc : RegField) (s : State) : Result :=
  copInstr .ldExp result ra rb rc s

/-- cop.wrSign (R322). -/
def execCopWrSign (result : CopResult) (ra rb rc : RegField) (s : State) : Result :=
  copInstr .wrSign result ra rb rc s

/-- cop.rdTod (R323). -/
def execCopRdTod (result : CopResult) (ra rb rc : RegField) (s : State) : Result :=
  copInstr .rdTod result ra rb rc s

/-- cop.wrInt (R324). -/
def execCopWrInt (result : CopResult) (ra rb rc : RegField) (s : State) : Result :=
  copInstr .wrInt result ra rb rc s

/-- cop.wrTod (R326). -/
def execCopWrTod (result : CopResult) (ra rb rc : RegField) (s : State) : Result :=
  copInstr .wrTod result ra rb rc s

/-- cop.nop (R317). -/
def execCopNop (result : CopResult) (ra rb rc : RegField) (s : State) : Result :=
  copInstr .nop result ra rb rc s

end Sys2Proof.Machine
end

