-- ==== Sys2Proof/Machine/Jumps.lean ====
section
/-!
DEFINITION. Subroutine jump and conditional jump (spec/45_jumps.md).
-/
namespace Sys2Proof.Machine

/-- goto (R250): ra takes the address of the goto itself, and the instruction after the next is at the effective
address. -/
def execGoto (ra rb : RegField) (disp : BitVec 16) (s : State) : Result :=
  .next ((s.result ra s.pcRead).retireTo (didWrite s ra) (jumpTarget (s.readB rb) disp))

/-- The value a conditional jump tests: ra, but a free value right after a special that wrote it (R257, R472, log
19). -/
def testedValue (s : State) (ra : RegField) : Word :=
  if decide (ra ≠ 0#6) && s.hist.last.special && s.hist.last.wrote == some (s.raIndex ra) then
    Config.bypassedTest s.fresh
  else s.readA ra

/-- The address after the next instruction of a conditional jump (R255). -/
def cjumpTarget (s : State) (r : Relation) (ra : RegField) (disp : BitVec 16) : Word :=
  if r.holds (testedValue s ra) then jumpTarget s.pcRead disp else s.npc + 4#32

/-- A conditional jump (R255): no register is written, RR is not loaded. -/
def conditionalJump (s : State) (r : Relation) (ra : RegField) (disp : BitVec 16) : Result :=
  .next (({ s with rr := none } : State).retireTo Did.nothing (cjumpTarget s r ra disp))

/-- cjump.eq (R255, R256). -/
def execCjumpEq (ra : RegField) (disp : BitVec 16) (s : State) : Result := conditionalJump s .eq ra disp

/-- cjump.ne (R255, R256). -/
def execCjumpNe (ra : RegField) (disp : BitVec 16) (s : State) : Result := conditionalJump s .ne ra disp

/-- cjump.lt (R255, R256). -/
def execCjumpLt (ra : RegField) (disp : BitVec 16) (s : State) : Result := conditionalJump s .lt ra disp

/-- cjump.ge (R255, R256). -/
def execCjumpGe (ra : RegField) (disp : BitVec 16) (s : State) : Result := conditionalJump s .ge ra disp

/-- cjump.gt (R255, R256). -/
def execCjumpGt (ra : RegField) (disp : BitVec 16) (s : State) : Result := conditionalJump s .gt ra disp

/-- cjump.le (R255, R256). -/
def execCjumpLe (ra : RegField) (disp : BitVec 16) (s : State) : Result := conditionalJump s .le ra disp

/-- cjump.odd (R255, R256). -/
def execCjumpOdd (ra : RegField) (disp : BitVec 16) (s : State) : Result := conditionalJump s .odd ra disp

/-- cjump.even (R255, R256). -/
def execCjumpEven (ra : RegField) (disp : BitVec 16) (s : State) : Result := conditionalJump s .even ra disp

end Sys2Proof.Machine
end

