-- ==== Sys2Proof/Machine/KernelControl.lean ====
section
/-!
DEFINITION. Kernel exit, set pc-queue and flush (spec/43_kernel_control.md); all three are privileged.
-/
namespace Sys2Proof.Machine

/-- kernelExit (R225): the return from a trap; the fields ra and rb play no part. -/
def execKernelExit (_ra _rb : RegField) (disp : BitVec 16) (s : State) : Result :=
  privileged s (.next (kernelReturn s disp))

/-- The pc-queue, PC2 first, after a pseudoCall (R229): it shifts by one and the effective address enters it as a byte
address. Where the fetch in its EX stage may miss it "will not be written properly" and is free (R229, R477, log 14). -/
def pseudoCallQueue (s : State) (ea : Word) : Word × Word :=
  if s.missesInEx then
    ((Config.miswrittenPcQueue s.fresh).1 ++ 0#2, (Config.miswrittenPcQueue s.fresh).2 ++ 0#2)
  else (s.pc1, ea <<< 2)

/-- pseudoCall's effect (R229). -/
def pseudoCallState (s : State) (ea : Word) : State :=
  { s with pc2 := (pseudoCallQueue s ea).1, pc1 := (pseudoCallQueue s ea).2, rr := none }

/-- The effective address of a pseudoCall; its base has no interlock (R229, R500, U15, log 20). -/
def pseudoCallAddress (s : State) (rb : RegField) (disp : BitVec 16) : Word :=
  effectiveAddress (s.baseNoInterlock rb false) disp

/-- pseudoCall (R229); with instruction mapping on it is not described (U19). -/
def execPseudoCall (_ra rb : RegField) (disp : BitVec 16) (s : State) : Result :=
  privileged s
    (if s.eff.imp then
       .next ((pseudoCallState s (pseudoCallAddress s rb disp)).retireDisturbed Did.nothing)
     else .refused .pseudoCallMapped)

/-- The effective address of a flush; its base has no interlock (R233, R476). -/
def flushAddress (s : State) (rb : RegField) (disp : BitVec 16) : Word :=
  effectiveAddress (s.baseNoInterlock rb true) disp

/-- flush (R233): defined with both mappings off (D27) and an odd effective address (U12); a dirty line needs the memory
controller (R368, R439). -/
def execFlush (_ra rb : RegField) (disp : BitVec 16) (s : State) : Result :=
  privileged s
    (if !(s.eff.imp && s.eff.dmp) then .refused .flushMapped
     else if !(flushAddress s rb disp).getLsbD 0 then .fault .flushNeverExits
     else if s.mcDown && s.flushWrites (flushAddress s rb disp) then stall s
     else
       .next (({ s.flushFrom (flushAddress s rb disp) with rr := none } : State).retireDisturbed Did.nothing))

end Sys2Proof.Machine
end

