-- ==== Sys2Proof/Machine/Special.lean ====
section
/-!
DEFINITION. The special instructions on the PSW, the pc-queue, the fault registers and the translation buffers
(spec/41_special.md). Each is privileged (R180) and sends its rb field to the memory controller as the new I/O control
address (R210).
-/
namespace Sys2Proof.Machine

/-- Every special sets the I/O control address to its rb field (R180, R210), also while the memory controller has halted
or is stopped, on which R368 and R439 are silent: the model's choice (log 40, log 64). -/
def State.selectControl (s : State) (rb : RegField) : State := { s with mc := { s.mc with ioSel := rb } }

/-- What a special notes for the restrictions: a read-class one writes `ra` (R472, R474); whether it ran in user mode
(R481). -/
def didSpecial (s : State) (wrote : Option RegIndex) : Did :=
  { Did.nothing with special := true, userSpecial := !s.eff.krn, wrote := wrote }

/-- What a special that takes RR notes (R30). -/
def didTake (s : State) : Did := { didSpecial s none with tookResult := true }

/-- The end of a read-class special: RR and ra take the value (R181 to R191). -/
def specialRead (s : State) (ra rb : RegField) (v : Word) : Result :=
  .next (((s.selectControl rb).result ra v).retire (didSpecial s (s.wroteA ra)))

/-- The end of a read-class special that disturbs the ICAR (R183). -/
def specialReadDisturbed (s : State) (ra rb : RegField) (v : Word) : Result :=
  .next (((s.selectControl rb).result ra v).retireDisturbed (didSpecial s (s.wroteA ra)))

/-- The PSW image a ReadStatus returns (R181): in kernel mode the PSW in effect; in user mode ext and cop show the
requests and the other trap bits and the literal are free (R45, log 15). -/
def statusImage (s : State) : Psw :=
  if s.eff.krn then s.eff
  else
    { s.eff with
      ext := s.extReq, cop := s.copReq, ill := (Config.userTrapBits s.fresh).getLsbD 4,
      itf := (Config.userTrapBits s.fresh).getLsbD 3, dtf := (Config.userTrapBits s.fresh).getLsbD 2,
      wpv := (Config.userTrapBits s.fresh).getLsbD 1, usr := (Config.userTrapBits s.fresh).getLsbD 0,
      literal := Config.undefinedLiteral s.fresh }

/-- ITFR as read: valid in kernel mode, else free (R46, log 25). -/
def itfrRead (s : State) : Word := s.lay.tfr.image (if s.eff.krn then s.itfr else Config.invalidItfr s.fresh)

/-- DTFR as read: valid in kernel mode, else free (R46, log 25). -/
def dtfrRead (s : State) : Word := s.lay.tfr.image (if s.eff.krn then s.dtfr else Config.invalidDtfr s.fresh)

/-- The word address that selects the row of an instruction-side TLB special, and of a TLB write (R192, R476). -/
def tlbAddress (s : State) (rb : RegField) : Word := s.baseNoInterlock rb false >>> 2

/-- The word address that selects the row of a data-side TLB read, which a store must not precede (R192, R476). -/
def tlbDataReadAddress (s : State) (rb : RegField) : Word := s.baseNoInterlock rb true >>> 2

/-- The end of a write of the instruction-side buffer: nothing else is written; the ICAR is disturbed (R194, R197). -/
def writeInstTlb (s : State) (rb : RegField) (t : Tlb) : Result :=
  .next ((({ s with itlb := t } : State).selectControl rb).retireDisturbed (didTake s))

/-- The end of a write of the data-side buffer (R195, R198). -/
def writeDataTlb (s : State) (rb : RegField) (t : Tlb) : Result :=
  .next ((({ s with dtlb := t } : State).selectControl rb).retire (didTake s))

/-- Reading an instruction-side tag, column `col` (R188). -/
def readInstTag (s : State) (col : Bool) (ra rb : RegField) : Result :=
  privileged s (specialReadDisturbed s ra rb (tagReadWord s.itlb col (tlbAddress s rb) s.eff.pid))

/-- Reading an instruction-side data entry (R190). -/
def readInstData (s : State) (col : Bool) (ra rb : RegField) : Result :=
  privileged s (specialReadDisturbed s ra rb (dataReadWord s.itlb col (tlbAddress s rb) s.eff.pid))

/-- Reading a data-side tag (R189). -/
def readDataTag (s : State) (col : Bool) (ra rb : RegField) : Result :=
  privileged s (specialRead s ra rb (tagReadWord s.dtlb col (tlbDataReadAddress s rb) s.eff.pid))

/-- Reading a data-side data entry (R191). -/
def readDataData (s : State) (col : Bool) (ra rb : RegField) : Result :=
  privileged s (specialRead s ra rb (dataReadWord s.dtlb col (tlbDataReadAddress s rb) s.eff.pid))

/-- Writing an instruction-side tag from the complement of RR (R194). -/
def writeInstTag (s : State) (col : Bool) (rb : RegField) : Result :=
  privileged s (writeInstTlb s rb (tlbWriteTag s.itlb col (tlbAddress s rb) s.eff.pid (~~~s.resultRegister)))

/-- Writing an instruction-side data entry from the complement of RR (R197). -/
def writeInstData (s : State) (col : Bool) (rb : RegField) : Result :=
  privileged s (writeInstTlb s rb (tlbWriteData s.itlb col (tlbAddress s rb) s.eff.pid (~~~s.resultRegister)))

/-- Writing a data-side tag from RR (R195, R477). -/
def writeDataTag (s : State) (col : Bool) (rb : RegField) : Result :=
  privileged s (writeDataTlb s rb (tlbWriteTag s.dtlb col (tlbAddress s rb) s.eff.pid s.dataEntryWord))

/-- Writing a data-side data entry from RR (R198, R477). -/
def writeDataData (s : State) (col : Bool) (rb : RegField) : Result :=
  privileged s (writeDataTlb s rb (tlbWriteData s.dtlb col (tlbAddress s rb) s.eff.pid s.dataEntryWord))

/-! ## PSW and pc-queue -/

/-- ReadStatus (R181), in the layout of R33, of which the trap bits and the literal may be arranged otherwise (D11,
log 2). -/
def execReadStatus (ra rb : RegField) (s : State) : Result :=
  privileged s (specialRead s ra rb (s.lay.psw.putBelow (n := 19) (statusImage s).toWord))

/-- ReadPcQ (R182): PC2 is read and PC1 moves into it; what enters PC1 is undefined (U7, log 16). -/
def execReadPcQ (ra rb : RegField) (s : State) : Result :=
  privileged s
    (specialRead { s with pc2 := s.pc1, pc1 := Config.pcQueueEntry s.fresh ++ 0#2 } ra rb s.queueHead)

/-- Whether a WriteStatus at this address is carried out: at word 0 of a line yes, elsewhere it is open
(R184, U17, log 14). At word 0 it is carried out also where the third instruction after it, whose fetch falls in its WR
stage, stands at or behind a branch target, and so may miss, or in a line that is evicted meanwhile: R184 says that on
a miss there the PSW is not written, R477 assumes that there is none, and U17 speaks only of other words of a line. The
model's choice (log 14). -/
def statusWriteHappens (s : State) : Bool :=
  decide (s.pc.extractLsb' 2 2 = 0#2) || Config.statusWritten s.fresh

/-- WriteStatus (R184): RR takes ra's value, and the PSW write starts its three-instruction delay; the fields it writes
have the places that R33 fixes. -/
def execWriteStatus (ra rb : RegField) (s : State) : Result :=
  privileged s
    (.next (({ s.selectControl rb with rr := some (s.readA ra) } : State).retireWith (didSpecial s none)
      (s.npc + 4#32) s.icar.advance (if statusWriteHappens s then some (s.readA ra) else none)))

/-! ## Fault registers -/

/-- ReadInstTFR (R186); the ICAR is disturbed. -/
def execReadInstTFR (ra rb : RegField) (s : State) : Result :=
  privileged s (specialReadDisturbed s ra rb (itfrRead s))

/-- ReadDataTFR (R187). -/
def execReadDataTFR (ra rb : RegField) (s : State) : Result := privileged s (specialRead s ra rb (dtfrRead s))

/-! ## Translation buffer reads -/

/-- ReadInstTlbTag0 (R188). -/
def execReadInstTlbTag0 (ra rb : RegField) (s : State) : Result := readInstTag s false ra rb

/-- ReadInstTlbTag1 (R188). -/
def execReadInstTlbTag1 (ra rb : RegField) (s : State) : Result := readInstTag s true ra rb

/-- ReadInstTlbData0 (R190). -/
def execReadInstTlbData0 (ra rb : RegField) (s : State) : Result := readInstData s false ra rb

/-- ReadInstTlbData1 (R190). -/
def execReadInstTlbData1 (ra rb : RegField) (s : State) : Result := readInstData s true ra rb

/-- ReadDataTlbTag0 (R189). -/
def execReadDataTlbTag0 (ra rb : RegField) (s : State) : Result := readDataTag s false ra rb

/-- ReadDataTlbTag1 (R189). -/
def execReadDataTlbTag1 (ra rb : RegField) (s : State) : Result := readDataTag s true ra rb

/-- ReadDataTlbData0 (R191). -/
def execReadDataTlbData0 (ra rb : RegField) (s : State) : Result := readDataData s false ra rb

/-- ReadDataTlbData1 (R191). -/
def execReadDataTlbData1 (ra rb : RegField) (s : State) : Result := readDataData s true ra rb

/-! ## Translation buffer writes. The field ra is not used. -/

/-- WriteInstTlbTag0 (R194). -/
def execWriteInstTlbTag0 (_ra rb : RegField) (s : State) : Result := writeInstTag s false rb

/-- WriteInstTlbTag1 (R194). -/
def execWriteInstTlbTag1 (_ra rb : RegField) (s : State) : Result := writeInstTag s true rb

/-- WriteInstTlbData0 (R197). -/
def execWriteInstTlbData0 (_ra rb : RegField) (s : State) : Result := writeInstData s false rb

/-- WriteInstTlbData1 (R197). -/
def execWriteInstTlbData1 (_ra rb : RegField) (s : State) : Result := writeInstData s true rb

/-- WriteDataTlbTag0 (R195). -/
def execWriteDataTlbTag0 (_ra rb : RegField) (s : State) : Result := writeDataTag s false rb

/-- WriteDataTlbTag1 (R195). -/
def execWriteDataTlbTag1 (_ra rb : RegField) (s : State) : Result := writeDataTag s true rb

/-- WriteDataTlbData0 (R198). -/
def execWriteDataTlbData0 (_ra rb : RegField) (s : State) : Result := writeDataData s false rb

/-- WriteDataTlbData1 (R198). -/
def execWriteDataTlbData1 (_ra rb : RegField) (s : State) : Result := writeDataData s true rb

end Sys2Proof.Machine
end

