-- ==== Sys2Proof/Machine/SpecialIo.lean ====
section
/-!
DEFINITION. The I/O specials: GetCtl, SetCtl, IoRead, IoWrite (spec/42_special_io.md).
-/
namespace Sys2Proof.Machine

/-- What an I/O special notes for the restrictions. -/
def didIo (s : State) (wrote : Option RegIndex) (setCtl : Option (BitVec 6)) : Did :=
  { didSpecial s wrote with io := true, setCtl := setCtl }

/-- What one of them that takes RR notes (R30). -/
def didIoTake (s : State) (setCtl : Option (BitVec 6)) : Did := { didIo s none setCtl with tookResult := true }

/-- A GetCtl breaks a restriction of R217: adjacent to an I/O special (a), too close to a SetCtl of the register it
reads (c), or selecting another register after a load, store or special or in word 3 of a line (e). -/
def getCtlHazard (s : State) (rb : RegField) : Bool :=
  s.hist.last.io || s.hist.last.setCtl == some s.mc.ioSel || s.hist.setCtl2 == some s.mc.ioSel ||
  (rb != s.mc.ioSel && (s.hist.last.memory || s.hist.last.special || s.pc.extractLsb' 2 2 == 3#2))

/-- What a GetCtl returns: the register selected by the special before it (R211), free where a restriction is broken
(log 37). -/
def getCtlValue (s : State) (rb : RegField) : Word :=
  if getCtlHazard s rb then Config.hazardControlRead s.fresh else controlRead s s.mc.ioSel

/-- The word of a GetCtl as it comes over the bus from the memory controller (R120, R211). -/
def getCtlDelivered (s : State) (rb : RegField) : Word := busWord s.busData (getCtlValue s rb)

/-- GetCtl (R211). -/
def execGetCtl (ra rb : RegField) (s : State) : Result :=
  privileged s
    (if s.mcDown then stall s
     else .next (((s.selectControl rb).result ra (getCtlDelivered s rb)).retire (didIo s (s.wroteA ra) none)))

/-- SetCtl (R212): the register selected by the special before it takes RR; no general register is written. -/
def execSetCtl (_ra rb : RegField) (s : State) : Result :=
  privileged s
    (if s.mcDown then stall s
     else
       match controlWrite s.mc s.lay.ioStatus s.mc.ioSel s.ioOperand with
       | none => .refused .undocumentedControlWrite
       | some mc =>
         .next ((({ s with mc := mc } : State).selectControl rb).retire (didIoTake s (some s.mc.ioSel))))

/-- IoRead (R213): the transaction with the address in RR; no general register is written. -/
def execIoRead (_ra rb : RegField) (s : State) : Result :=
  privileged s
    (if s.mcDown then stall s
     else
       match s.ioRefusal s.ioOperand false with
       | some r => .refused r
       | none => .next (((s.ioRead s.ioOperand).selectControl rb).retire (didIoTake s none)))

/-- IoWrite (R214): the transaction with the address in RR and the data in IoWriteData. -/
def execIoWrite (_ra rb : RegField) (s : State) : Result :=
  privileged s
    (if s.mcDown then stall s
     else
       match s.ioRefusal s.ioOperand true with
       | some r => .refused r
       | none => .next (((s.ioWrite s.ioOperand).selectControl rb).retire (didIoTake s none)))

end Sys2Proof.Machine
end

