-- ==== Sys2Proof/Machine/Dispatch.lean ====
section
/-!
DEFINITION. The meaning of each instruction, one arm each.
-/
namespace Sys2Proof.Machine

def exec (i : Instr) (s : State) : Host.Outcome State Fault Refusal :=
  match i with
  | .abort ra rb disp => Sys2Proof.Machine.execAbort ra rb disp s
  | .readStatus ra rb => Sys2Proof.Machine.execReadStatus ra rb s
  | .readPcQ ra rb => Sys2Proof.Machine.execReadPcQ ra rb s
  | .writeStatus ra rb => Sys2Proof.Machine.execWriteStatus ra rb s
  | .readInstTFR ra rb => Sys2Proof.Machine.execReadInstTFR ra rb s
  | .readDataTFR ra rb => Sys2Proof.Machine.execReadDataTFR ra rb s
  | .readInstTlbTag0 ra rb => Sys2Proof.Machine.execReadInstTlbTag0 ra rb s
  | .readInstTlbTag1 ra rb => Sys2Proof.Machine.execReadInstTlbTag1 ra rb s
  | .readDataTlbTag0 ra rb => Sys2Proof.Machine.execReadDataTlbTag0 ra rb s
  | .readDataTlbTag1 ra rb => Sys2Proof.Machine.execReadDataTlbTag1 ra rb s
  | .readInstTlbData0 ra rb => Sys2Proof.Machine.execReadInstTlbData0 ra rb s
  | .readInstTlbData1 ra rb => Sys2Proof.Machine.execReadInstTlbData1 ra rb s
  | .readDataTlbData0 ra rb => Sys2Proof.Machine.execReadDataTlbData0 ra rb s
  | .readDataTlbData1 ra rb => Sys2Proof.Machine.execReadDataTlbData1 ra rb s
  | .writeInstTlbTag0 ra rb => Sys2Proof.Machine.execWriteInstTlbTag0 ra rb s
  | .writeInstTlbTag1 ra rb => Sys2Proof.Machine.execWriteInstTlbTag1 ra rb s
  | .writeDataTlbTag0 ra rb => Sys2Proof.Machine.execWriteDataTlbTag0 ra rb s
  | .writeDataTlbTag1 ra rb => Sys2Proof.Machine.execWriteDataTlbTag1 ra rb s
  | .writeInstTlbData0 ra rb => Sys2Proof.Machine.execWriteInstTlbData0 ra rb s
  | .writeInstTlbData1 ra rb => Sys2Proof.Machine.execWriteInstTlbData1 ra rb s
  | .writeDataTlbData0 ra rb => Sys2Proof.Machine.execWriteDataTlbData0 ra rb s
  | .writeDataTlbData1 ra rb => Sys2Proof.Machine.execWriteDataTlbData1 ra rb s
  | .getCtl ra rb => Sys2Proof.Machine.execGetCtl ra rb s
  | .setCtl ra rb => Sys2Proof.Machine.execSetCtl ra rb s
  | .ioRead ra rb => Sys2Proof.Machine.execIoRead ra rb s
  | .ioWrite ra rb => Sys2Proof.Machine.execIoWrite ra rb s
  | .kernelExit ra rb disp => Sys2Proof.Machine.execKernelExit ra rb disp s
  | .pseudoCall ra rb disp => Sys2Proof.Machine.execPseudoCall ra rb disp s
  | .flush ra rb disp => Sys2Proof.Machine.execFlush ra rb disp s
  | .load ra rb disp => Sys2Proof.Machine.execLoad ra rb disp s
  | .store ra rb disp => Sys2Proof.Machine.execStore ra rb disp s
  | .goto ra rb disp => Sys2Proof.Machine.execGoto ra rb disp s
  | .cjumpEq ra disp => Sys2Proof.Machine.execCjumpEq ra disp s
  | .cjumpNe ra disp => Sys2Proof.Machine.execCjumpNe ra disp s
  | .cjumpLt ra disp => Sys2Proof.Machine.execCjumpLt ra disp s
  | .cjumpGe ra disp => Sys2Proof.Machine.execCjumpGe ra disp s
  | .cjumpGt ra disp => Sys2Proof.Machine.execCjumpGt ra disp s
  | .cjumpLe ra disp => Sys2Proof.Machine.execCjumpLe ra disp s
  | .cjumpOdd ra disp => Sys2Proof.Machine.execCjumpOdd ra disp s
  | .cjumpEven ra disp => Sys2Proof.Machine.execCjumpEven ra disp s
  | .extract ra rb rc shift mask => Sys2Proof.Machine.execExtract ra rb rc shift mask s
  | .aluAdd lit ra rb rc => Sys2Proof.Machine.execAluAdd lit ra rb rc s
  | .aluAdd1 lit ra rb rc => Sys2Proof.Machine.execAluAdd1 lit ra rb rc s
  | .aluRsub lit ra rb rc => Sys2Proof.Machine.execAluRsub lit ra rb rc s
  | .aluRsub1 lit ra rb rc => Sys2Proof.Machine.execAluRsub1 lit ra rb rc s
  | .aluSub lit ra rb rc => Sys2Proof.Machine.execAluSub lit ra rb rc s
  | .aluSub1 lit ra rb rc => Sys2Proof.Machine.execAluSub1 lit ra rb rc s
  | .aluNeg lit ra rb rc => Sys2Proof.Machine.execAluNeg lit ra rb rc s
  | .aluNegm1 lit ra rb rc => Sys2Proof.Machine.execAluNegm1 lit ra rb rc s
  | .aluGt lit ra rb rc => Sys2Proof.Machine.execAluGt lit ra rb rc s
  | .aluGtu lit ra rb rc => Sys2Proof.Machine.execAluGtu lit ra rb rc s
  | .aluGe lit ra rb rc => Sys2Proof.Machine.execAluGe lit ra rb rc s
  | .aluGeu lit ra rb rc => Sys2Proof.Machine.execAluGeu lit ra rb rc s
  | .aluLt lit ra rb rc => Sys2Proof.Machine.execAluLt lit ra rb rc s
  | .aluLtu lit ra rb rc => Sys2Proof.Machine.execAluLtu lit ra rb rc s
  | .aluLe lit ra rb rc => Sys2Proof.Machine.execAluLe lit ra rb rc s
  | .aluLeu lit ra rb rc => Sys2Proof.Machine.execAluLeu lit ra rb rc s
  | .aluEqv lit ra rb rc => Sys2Proof.Machine.execAluEqv lit ra rb rc s
  | .aluXor lit ra rb rc => Sys2Proof.Machine.execAluXor lit ra rb rc s
  | .aluOr lit ra rb rc => Sys2Proof.Machine.execAluOr lit ra rb rc s
  | .aluMovb lit ra rb rc => Sys2Proof.Machine.execAluMovb lit ra rb rc s
  | .aluNot lit ra rb rc => Sys2Proof.Machine.execAluNot lit ra rb rc s
  | .aluMova lit ra rb rc => Sys2Proof.Machine.execAluMova lit ra rb rc s
  | .aluAnd lit ra rb rc => Sys2Proof.Machine.execAluAnd lit ra rb rc s
  | .aluZero lit ra rb rc => Sys2Proof.Machine.execAluZero lit ra rb rc s
  | .aluVext lit ra rb rc size => Sys2Proof.Machine.execAluVext lit ra rb rc size s
  | .aluBext lit ra rb rc inv size => Sys2Proof.Machine.execAluBext lit ra rb rc inv size s
  | .copLoadI result ra rb rc => Sys2Proof.Machine.execCopLoadI result ra rb rc s
  | .copLoadF result ra rb rc => Sys2Proof.Machine.execCopLoadF result ra rb rc s
  | .copLoadGf result ra rb rc => Sys2Proof.Machine.execCopLoadGf result ra rb rc s
  | .copLoadG result ra rb rc => Sys2Proof.Machine.execCopLoadG result ra rb rc s
  | .copAddI result ra rb rc => Sys2Proof.Machine.execCopAddI result ra rb rc s
  | .copAddF result ra rb rc => Sys2Proof.Machine.execCopAddF result ra rb rc s
  | .copAddFg result ra rb rc => Sys2Proof.Machine.execCopAddFg result ra rb rc s
  | .copAddGf result ra rb rc => Sys2Proof.Machine.execCopAddGf result ra rb rc s
  | .copAddG result ra rb rc => Sys2Proof.Machine.execCopAddG result ra rb rc s
  | .copSubtractI result ra rb rc => Sys2Proof.Machine.execCopSubtractI result ra rb rc s
  | .copSubtractF result ra rb rc => Sys2Proof.Machine.execCopSubtractF result ra rb rc s
  | .copSubtractFg result ra rb rc => Sys2Proof.Machine.execCopSubtractFg result ra rb rc s
  | .copSubtractGf result ra rb rc => Sys2Proof.Machine.execCopSubtractGf result ra rb rc s
  | .copSubtractG result ra rb rc => Sys2Proof.Machine.execCopSubtractG result ra rb rc s
  | .copRsubtractI result ra rb rc => Sys2Proof.Machine.execCopRsubtractI result ra rb rc s
  | .copRsubtractF result ra rb rc => Sys2Proof.Machine.execCopRsubtractF result ra rb rc s
  | .copRsubtractFg result ra rb rc => Sys2Proof.Machine.execCopRsubtractFg result ra rb rc s
  | .copRsubtractGf result ra rb rc => Sys2Proof.Machine.execCopRsubtractGf result ra rb rc s
  | .copRsubtractG result ra rb rc => Sys2Proof.Machine.execCopRsubtractG result ra rb rc s
  | .copMultiplyI result ra rb rc => Sys2Proof.Machine.execCopMultiplyI result ra rb rc s
  | .copMultiplyF result ra rb rc => Sys2Proof.Machine.execCopMultiplyF result ra rb rc s
  | .copMultiplyFg result ra rb rc => Sys2Proof.Machine.execCopMultiplyFg result ra rb rc s
  | .copMultiplyGf result ra rb rc => Sys2Proof.Machine.execCopMultiplyGf result ra rb rc s
  | .copMultiplyG result ra rb rc => Sys2Proof.Machine.execCopMultiplyG result ra rb rc s
  | .copDivideI result ra rb rc => Sys2Proof.Machine.execCopDivideI result ra rb rc s
  | .copDivideF result ra rb rc => Sys2Proof.Machine.execCopDivideF result ra rb rc s
  | .copDivideFg result ra rb rc => Sys2Proof.Machine.execCopDivideFg result ra rb rc s
  | .copDivideGf result ra rb rc => Sys2Proof.Machine.execCopDivideGf result ra rb rc s
  | .copDivideG result ra rb rc => Sys2Proof.Machine.execCopDivideG result ra rb rc s
  | .copRdivideI result ra rb rc => Sys2Proof.Machine.execCopRdivideI result ra rb rc s
  | .copRdivideF result ra rb rc => Sys2Proof.Machine.execCopRdivideF result ra rb rc s
  | .copRdivideFg result ra rb rc => Sys2Proof.Machine.execCopRdivideFg result ra rb rc s
  | .copRdivideGf result ra rb rc => Sys2Proof.Machine.execCopRdivideGf result ra rb rc s
  | .copRdivideG result ra rb rc => Sys2Proof.Machine.execCopRdivideG result ra rb rc s
  | .copFix result ra rb rc => Sys2Proof.Machine.execCopFix result ra rb rc s
  | .copFloatf result ra rb rc => Sys2Proof.Machine.execCopFloatf result ra rb rc s
  | .copFloatg result ra rb rc => Sys2Proof.Machine.execCopFloatg result ra rb rc s
  | .copScale result ra rb rc => Sys2Proof.Machine.execCopScale result ra rb rc s
  | .copLdExp result ra rb rc => Sys2Proof.Machine.execCopLdExp result ra rb rc s
  | .copWrSign result ra rb rc => Sys2Proof.Machine.execCopWrSign result ra rb rc s
  | .copRdTod result ra rb rc => Sys2Proof.Machine.execCopRdTod result ra rb rc s
  | .copWrInt result ra rb rc => Sys2Proof.Machine.execCopWrInt result ra rb rc s
  | .copWrTod result ra rb rc => Sys2Proof.Machine.execCopWrTod result ra rb rc s
  | .copNop result ra rb rc => Sys2Proof.Machine.execCopNop result ra rb rc s
  | .trap ra rb literal => Sys2Proof.Machine.execTrap ra rb literal s
  | .loadAddress ra rb disp => Sys2Proof.Machine.execLoadAddress ra rb disp s
  | .undef1 ra rb disp => Sys2Proof.Machine.execUndef1 ra rb disp s
  | .undef2 ra rb disp => Sys2Proof.Machine.execUndef2 ra rb disp s

end Sys2Proof.Machine
end

