-- ==== Sys2Proof/Machine/Parity.lean ====
section
/-!
DEFINITION. Processor parity (spec/20_memory.md R120, spec/60_exceptions.md R367): what an instruction and its fetch
read that carries parity, when that halts the processor, and what a parity error spoils.
-/
namespace Sys2Proof.Machine

/-- Something an instruction reads that carries parity. -/
inductive Source where
  /-- The register that a field ra or rc names. -/
  | a (n : RegField)
  /-- The register that a field rb names. -/
  | b (n : RegField)
  /-- The tags of a buffer row, instruction side (`inst`) or data side, by a translation buffer special: the one it
  returns, and, for the match that it reports, the other column's (R193). -/
  | tlbTag (inst : Bool) (rb : RegField)
  /-- The data part of a buffer entry, by such a special. -/
  | tlbData (inst col : Bool) (rb : RegField)
  /-- What a load or store translates with, and what it meets in the data cache or on the bus. -/
  | memory (rb : RegField) (disp : BitVec 16) (store : Bool)
  /-- The cache tags that a flush compares, and the words that it writes out. -/
  | flush (rb : RegField) (disp : BitVec 16)
  /-- The word that comes over the bus to a GetCtl. -/
  | control
deriving DecidableEq, Repr

/-- The operands of every ALU function, also of one that uses only one of them: AR, a register unless the literal bit is
set, and BR (R265, log 28). -/
def aluSources (lit : Bool) (ra rb : RegField) : List Source := if lit then [.b rb] else [.a ra, .b rb]

/-- The operands of every coprocessor instruction: the pair ra, rb (R290, log 28). -/
def copSources (ra rb : RegField) : List Source := [.a ra, .b rb]

/-- What an instruction reads. -/
def sources (i : Instr) : List Source :=
  match i with
  | .abort ra rb _ => [.a ra, .b rb]
  | .readStatus _ _ => []
  | .readPcQ _ _ => []
  | .writeStatus ra _ => [.a ra]
  | .readInstTFR _ _ => []
  | .readDataTFR _ _ => []
  | .readInstTlbTag0 _ rb => [.b rb, .tlbTag true rb]
  | .readInstTlbTag1 _ rb => [.b rb, .tlbTag true rb]
  | .readDataTlbTag0 _ rb => [.b rb, .tlbTag false rb]
  | .readDataTlbTag1 _ rb => [.b rb, .tlbTag false rb]
  | .readInstTlbData0 _ rb => [.b rb, .tlbData true false rb]
  | .readInstTlbData1 _ rb => [.b rb, .tlbData true true rb]
  | .readDataTlbData0 _ rb => [.b rb, .tlbData false false rb]
  | .readDataTlbData1 _ rb => [.b rb, .tlbData false true rb]
  | .writeInstTlbTag0 _ rb => [.b rb]
  | .writeInstTlbTag1 _ rb => [.b rb]
  | .writeDataTlbTag0 _ rb => [.b rb]
  | .writeDataTlbTag1 _ rb => [.b rb]
  | .writeInstTlbData0 _ rb => [.b rb]
  | .writeInstTlbData1 _ rb => [.b rb]
  | .writeDataTlbData0 _ rb => [.b rb]
  | .writeDataTlbData1 _ rb => [.b rb]
  | .getCtl _ _ => [.control]
  | .setCtl _ _ => []
  | .ioRead _ _ => []
  | .ioWrite _ _ => []
  | .kernelExit _ _ _ => []
  | .pseudoCall _ rb _ => [.b rb]
  | .flush _ rb disp => [.b rb, .flush rb disp]
  | .load _ rb disp => [.b rb, .memory rb disp false]
  | .store ra rb disp => [.a ra, .b rb, .memory rb disp true]
  | .goto _ rb _ => [.b rb]
  | .cjumpEq ra _ => [.a ra]
  | .cjumpNe ra _ => [.a ra]
  | .cjumpLt ra _ => [.a ra]
  | .cjumpGe ra _ => [.a ra]
  | .cjumpGt ra _ => [.a ra]
  | .cjumpLe ra _ => [.a ra]
  | .cjumpOdd ra _ => [.a ra]
  | .cjumpEven ra _ => [.a ra]
  | .extract ra rb _ _ _ => [.a ra, .b rb]
  | .aluAdd lit ra rb _ => aluSources lit ra rb
  | .aluAdd1 lit ra rb _ => aluSources lit ra rb
  | .aluRsub lit ra rb _ => aluSources lit ra rb
  | .aluRsub1 lit ra rb _ => aluSources lit ra rb
  | .aluSub lit ra rb _ => aluSources lit ra rb
  | .aluSub1 lit ra rb _ => aluSources lit ra rb
  | .aluNeg lit ra rb _ => aluSources lit ra rb
  | .aluNegm1 lit ra rb _ => aluSources lit ra rb
  | .aluGt lit ra rb _ => aluSources lit ra rb
  | .aluGtu lit ra rb _ => aluSources lit ra rb
  | .aluGe lit ra rb _ => aluSources lit ra rb
  | .aluGeu lit ra rb _ => aluSources lit ra rb
  | .aluLt lit ra rb _ => aluSources lit ra rb
  | .aluLtu lit ra rb _ => aluSources lit ra rb
  | .aluLe lit ra rb _ => aluSources lit ra rb
  | .aluLeu lit ra rb _ => aluSources lit ra rb
  | .aluEqv lit ra rb _ => aluSources lit ra rb
  | .aluXor lit ra rb _ => aluSources lit ra rb
  | .aluOr lit ra rb _ => aluSources lit ra rb
  | .aluMovb lit ra rb _ => aluSources lit ra rb
  | .aluNot lit ra rb _ => aluSources lit ra rb
  | .aluMova lit ra rb _ => aluSources lit ra rb
  | .aluAnd lit ra rb _ => aluSources lit ra rb
  | .aluZero lit ra rb _ => aluSources lit ra rb
  | .aluVext lit ra rb _ _ => aluSources lit ra rb
  | .aluBext lit ra rb _ _ _ => aluSources lit ra rb
  | .copLoadI _ ra rb _ => copSources ra rb
  | .copLoadF _ ra rb _ => copSources ra rb
  | .copLoadGf _ ra rb _ => copSources ra rb
  | .copLoadG _ ra rb _ => copSources ra rb
  | .copAddI _ ra rb _ => copSources ra rb
  | .copAddF _ ra rb _ => copSources ra rb
  | .copAddFg _ ra rb _ => copSources ra rb
  | .copAddGf _ ra rb _ => copSources ra rb
  | .copAddG _ ra rb _ => copSources ra rb
  | .copSubtractI _ ra rb _ => copSources ra rb
  | .copSubtractF _ ra rb _ => copSources ra rb
  | .copSubtractFg _ ra rb _ => copSources ra rb
  | .copSubtractGf _ ra rb _ => copSources ra rb
  | .copSubtractG _ ra rb _ => copSources ra rb
  | .copRsubtractI _ ra rb _ => copSources ra rb
  | .copRsubtractF _ ra rb _ => copSources ra rb
  | .copRsubtractFg _ ra rb _ => copSources ra rb
  | .copRsubtractGf _ ra rb _ => copSources ra rb
  | .copRsubtractG _ ra rb _ => copSources ra rb
  | .copMultiplyI _ ra rb _ => copSources ra rb
  | .copMultiplyF _ ra rb _ => copSources ra rb
  | .copMultiplyFg _ ra rb _ => copSources ra rb
  | .copMultiplyGf _ ra rb _ => copSources ra rb
  | .copMultiplyG _ ra rb _ => copSources ra rb
  | .copDivideI _ ra rb _ => copSources ra rb
  | .copDivideF _ ra rb _ => copSources ra rb
  | .copDivideFg _ ra rb _ => copSources ra rb
  | .copDivideGf _ ra rb _ => copSources ra rb
  | .copDivideG _ ra rb _ => copSources ra rb
  | .copRdivideI _ ra rb _ => copSources ra rb
  | .copRdivideF _ ra rb _ => copSources ra rb
  | .copRdivideFg _ ra rb _ => copSources ra rb
  | .copRdivideGf _ ra rb _ => copSources ra rb
  | .copRdivideG _ ra rb _ => copSources ra rb
  | .copFix _ ra rb _ => copSources ra rb
  | .copFloatf _ ra rb _ => copSources ra rb
  | .copFloatg _ ra rb _ => copSources ra rb
  | .copScale _ ra rb _ => copSources ra rb
  | .copLdExp _ ra rb _ => copSources ra rb
  | .copWrSign _ ra rb _ => copSources ra rb
  | .copRdTod _ ra rb _ => copSources ra rb
  | .copWrInt _ ra rb _ => copSources ra rb
  | .copWrTod _ ra rb _ => copSources ra rb
  | .copNop _ ra rb _ => copSources ra rb
  | .trap ra rb _ => [.a ra, .b rb]
  | .loadAddress _ rb _ => [.b rb]
  | .undef1 ra rb _ => [.a ra, .b rb]
  | .undef2 ra rb _ => [.a ra, .b rb]

/-- What a decoded word reads; the operands of an undescribed special are not said. -/
def decodedSources (d : Decoded) : List Source :=
  match d with
  | .instr i => sources i
  | .undescribed (.special _ _ _) => []
  | .undescribed (.alu lit ra rb _) => aluSources lit ra rb
  | .undescribed (.cop ra rb _) => copSources ra rb

/-- What a decoded word reads in a state: nothing, where it is privileged and only traps (R180). -/
def State.reads (s : State) (d : Decoded) : List Source :=
  if decide (decodedTrapClass d = .privileged) && s.eff.unprivileged then [] else decodedSources d

/-- The parity of something that is marked bad or not. -/
def markOf (bad : Bool) : Parity := if bad then .bad else .good

/-- The parity of both tags of a row (R98, R193). -/
def rowTagMarks (t : Tlb) (wa : Word) (pid : BitVec 8) : List Parity :=
  [(tlbEntry t false wa pid).tagParity, (tlbEntry t true wa pid).tagParity]

/-- The parity of what a translated reference reads: both tags of the row, and the data part of the one that matches
(R98). -/
def referenceMarks (t : Tlb) (off : Bool) (wa : Word) (pid : BitVec 8) : List Parity :=
  if off then []
  else
    rowTagMarks t wa pid ++
    match tlbLookup t wa pid with
    | .found e => [e.dataParity]
    | _ => []

/-- The parity of a register field; r0 is the pc (R22). -/
def State.fieldMark (s : State) (n : RegField) (i : RegIndex) : Parity := if n = 0#6 then .good else s.mark i

/-- The row of a cache that a line selects (R110). -/
def cacheRow (l : Nat) : Nat := l % 256

/-- The parity of the data cache's tags in the row of a line, of the word at a real word address, and of the line where
it comes over the bus. A store that replaces a bad word may find it or not (R110, R120, log 28). -/
def dataMarks (s : State) (rwa : Word) (store : Bool) : List Parity :=
  let l := lineOf rwa
  [ markOf (s.dcache.any (fun e => e.2.tagBad && cacheRow e.1 == cacheRow l.toNat)),
    if (s.dataBad l).getLsbD (wordInLine rwa).toNat then (if store then .unsure else .bad) else .good,
    markOf (!s.hasDataLine l && !s.mcDown && s.busData.isSome) ]

/-- The same of the instruction cache and a fetch. -/
def instMarks (s : State) (rwa : Word) : List Parity :=
  let l := lineOf rwa
  [ markOf (s.icache.any (fun e => e.2.tagBad && cacheRow e.1 == cacheRow l.toNat)),
    markOf ((((mapGet s.icache l.toNat).map (·.bad)).getD 0#4).getLsbD (wordInLine rwa).toNat),
    markOf ((mapGet s.icache l.toNat).isNone && !s.mcDown && s.busInst.isSome) ]

/-- Whether a flush of word address `ea` compares the tags of a line's row: rows up to the end of the page (R233). -/
def flushReadsRow (ea : Word) (l : Nat) : Bool := decide (cacheRow (lineOf ea).toNat ≤ cacheRow l)

/-- The parity of what a flush that is defined (D27, U12) reads: the tags of both caches in the rows it covers, and the
words of the dirty lines it writes out (R110, R233). -/
def flushMarks (s : State) (ea : Word) : List Parity :=
  if s.eff.imp && s.eff.dmp && ea.getLsbD 0 then
    [ markOf (s.icache.any (fun e => e.2.tagBad && flushReadsRow ea e.1)),
      markOf (s.dcache.any (fun e => e.2.tagBad && flushReadsRow ea e.1)),
      markOf (s.dcache.any (fun e => flushCovers ea e.1 && e.2.dirty && e.2.bad != 0#4)) ]
  else []

/-- The parity of what a source reads. -/
def Source.marks (x : Source) (s : State) : List Parity :=
  match x with
  | .a n => [s.fieldMark n (s.raIndex n)]
  | .b n => [s.fieldMark n (s.rbIndex n)]
  | .tlbTag true rb => rowTagMarks s.itlb (tlbAddress s rb) s.eff.pid
  | .tlbTag false rb => rowTagMarks s.dtlb (tlbDataReadAddress s rb) s.eff.pid
  | .tlbData true col rb => [(tlbEntry s.itlb col (tlbAddress s rb) s.eff.pid).dataParity]
  | .tlbData false col rb => [(tlbEntry s.dtlb col (tlbDataReadAddress s rb) s.eff.pid).dataParity]
  | .memory rb disp store =>
    referenceMarks s.dtlb s.eff.dmp (s.ea rb disp) s.eff.pid ++
    match dataReference s.dtlb s.eff (s.ea rb disp) store with
    | .real rwa => dataMarks s rwa store
    | _ => []
  | .flush rb disp => flushMarks s (flushAddress s rb disp)
  | .control => [markOf (!s.mcDown && s.busData.isSome)]

/-- A parity error among what is read: bad parity, or one that may or may not fit, which is free (R24, R194, D24, log
12, log 28). -/
def parityError (marks : List Parity) (fresh : Nat) : Bool :=
  marks.contains .bad || ((marks.contains .unwritten || marks.contains .unsure) && Config.unwrittenParity fresh)

/-- What a decoded word reads has a parity error, with PSW.par clear (R367). -/
def operandParityHalts (d : Decoded) (s : State) : Bool :=
  !s.eff.par && parityError ((s.reads d).flatMap (fun x => x.marks s)) s.fresh

/-- The translation of the successor's fetch has one (R347, R367). -/
def successorParityHalts (s : State) : Bool :=
  !s.nextPsw.par && parityError (referenceMarks s.itlb s.nextPsw.imp (s.npc >>> 2) s.nextPsw.pid) s.fresh

/-- An instruction halts the processor by a parity error, in either mode, also where an interrupt or a fault would
suppress it (R367, log 28). -/
def parityHalts (d : Decoded) (s : State) : Bool := operandParityHalts d s || successorParityHalts s

/-- The parity of what the fetch at pc reads: the translation, and what it meets in the instruction cache or on the
bus. -/
def fetchMarks (s : State) : List Parity :=
  referenceMarks s.itlb s.psw.imp (s.pc >>> 2) s.psw.pid ++
  match instReference s.itlb s.psw (s.pc >>> 2) with
  | .real rwa => instMarks s rwa
  | _ => []

/-- The fetch halts the processor by a parity error (R367). -/
def fetchParityHalts (s : State) : Bool := !s.psw.par && parityError (fetchMarks s) s.fresh

/-! ## What an error spoils (R120) -/

/-- The entry of a column and row. -/
def tlbAt (t : Tlb) (col : Bool) (row : Fin 512) : TlbEntry := if col then t.col1[row] else t.col0[row]

/-- The buffer with the entry of a column and row replaced. -/
def tlbPutAt (t : Tlb) (col : Bool) (row : Fin 512) (e : TlbEntry) : Tlb :=
  if col then { t with col1 := t.col1.set row e } else { t with col0 := t.col0.set row e }

/-- One of the two buffers changed. -/
def State.changeTlb (s : State) (inst : Bool) (f : Tlb → Tlb) : State :=
  if inst then { s with itlb := f s.itlb } else { s with dtlb := f s.dtlb }

/-- Word `k` marked bad. -/
def setMark (m : BitVec 4) (k : BitVec 2) : BitVec 4 := m ||| (1#4 <<< k.toNat)

/-- An instruction cache line with a word spoilt. -/
def spoilInst (c : InstCache) (l : LineAddr) (k : BitVec 2) (v : Word) : InstCache :=
  match mapGet c l.toNat with
  | none => c
  | some e => mapSet c l.toNat { e with line := lineSet e.line k v, bad := setMark e.bad k }

/-- A data cache line with a word spoilt. -/
def spoilData (c : DataCache) (l : LineAddr) (k : BitVec 2) (v : Word) : DataCache :=
  match mapGet c l.toNat with
  | none => c
  | some e => mapSet c l.toNat { e with line := lineSet e.line k v, bad := setMark e.bad k }

/-- The line that a line under another tag is taken for: its row stays (R110). -/
def retagged (l : LineAddr) (tag : BitVec 22) : LineAddr := tag ++ l.extractLsb' 0 8

/-- An instruction cache line under a wrong tag, whose parity is bad. -/
def retagInst (c : InstCache) (l : LineAddr) (tag : BitVec 22) : InstCache :=
  match mapGet c l.toNat with
  | none => c
  | some e => mapSet (mapErase c l.toNat) (retagged l tag).toNat { e with tagBad := true }

/-- A data cache line under a wrong tag, whose parity is bad. -/
def retagData (c : DataCache) (l : LineAddr) (tag : BitVec 22) : DataCache :=
  match mapGet c l.toNat with
  | none => c
  | some e => mapSet (mapErase c l.toNat) (retagged l tag).toNat { e with tagBad := true }

/-- The state with something spoilt: the erroneous value is what is read from then on, and its parity is bad (R120, log
28). -/
def State.spoilt (s : State) (x : Spoil) : State :=
  match x with
  | .register i v => { s with regs := s.regs.set i.toNat v i.isLt, marks := s.marks.set i.toNat .bad i.isLt }
  | .tlbTag inst col row pid tag invalid writable =>
    s.changeTlb inst (fun t => tlbPutAt t col row
      { tlbAt t col row with pid := pid, tag := tag, invalid := invalid, writable := writable, tagParity := .bad })
  | .tlbData inst col row rpn =>
    s.changeTlb inst (fun t => tlbPutAt t col row { tlbAt t col row with rpn := rpn, dataParity := .bad })
  | .instWord l k v => { s with icache := spoilInst s.icache l k v }
  | .dataWord l k v => { s with dcache := spoilData s.dcache l k v }
  | .instTag l tag => { s with icache := retagInst s.icache l tag }
  | .dataTag l tag => { s with dcache := retagData s.dcache l tag }

end Sys2Proof.Machine
end

