-- ==== Sys2Proof/Machine/Environment.lean ====
section
/-!
DEFINITION. What happens between two instructions: the clock and interval timer advance (D31), and the environment's
events act in order (D28, D30): evictions, DMA, adaptors, errors, the clock/scan module, processor reset
(spec/61_io_devices.md, spec/70_reset_and_hazards.md R460).
-/
namespace Sys2Proof.Machine

/-! ## Processor reset -/

/-- The PSW after a reset whose unspecified fields are given (R460). -/
def resetPsw (u : Unspecified) : Psw :=
  { Psw.reset with
    pid := u.pid, ra := u.raBank, rb := u.rbBank, ext := u.trapBits.getLsbD 6, ill := u.trapBits.getLsbD 5,
    itf := u.trapBits.getLsbD 4, dtf := u.trapBits.getLsbD 3, wpv := u.trapBits.getLsbD 2,
    cop := u.trapBits.getLsbD 1, usr := u.trapBits.getLsbD 0, literal := u.literal }

/-- The memory controller after a reset (R59, R462): Enable 0, not halted, the lock free, hErrs kept. One that the
clock/scan module holds stopped is reset too, on which R439 and R462 are silent: the model's choice (log 64). -/
def resetMemCtl (u : Unspecified) (mc : MemCtl) : MemCtl :=
  { ioSel := u.ioSel, ioAddress := u.ioAddress, ioReadData := u.ioReadData, ioWriteData := u.ioWriteData,
    slot := u.ioSlot, ack := u.ioAck, hErrs := mc.hErrs, enable := 0#32, synHi := u.synHi, synLo := u.synLo,
    errCnt := u.errCnt, errLine := u.errLine, errW := u.errW, halted := false, lock := .none }

/-- A translation buffer that nothing has written since reset, whatever its entries hold (R47, D24). -/
def unwrittenTlb (t : Tlb) : Tlb :=
  { col0 := t.col0.map (fun e => { e with tagParity := .unwritten, dataParity := .unwritten }),
    col1 := t.col1.map (fun e => { e with tagParity := .unwritten, dataParity := .unwritten }) }

/-- The slots after the I/O bus reset: adaptors that the diagnostic stop holds suppress it (R408). -/
def State.slotsReset (s : State) : Vector Slot 7 := if s.csm.ioStopped then s.slots else s.slots.map resetSlot

/-- A processor reset (R460 to R462, R69): both caches empty with dirty lines lost, main memory kept, the adaptors
reset, no register or buffer entry written yet, and what the source leaves unspecified as `u` says. -/
def State.resetWith (s : State) (u : Unspecified) : State :=
  { s with
    regs := u.regs, marks := Vector.replicate 256 .unwritten, pc := 0x00001000#32, npc := 0x00001004#32,
    pc1 := u.pc1 ++ 0#2, pc2 := u.pc2 ++ 0#2, rr := none, psw := resetPsw u, pend1 := none, pend2 := none,
    pend3 := none, itfr := u.itfr, dtfr := u.dtfr, itlb := unwrittenTlb u.itlb, dtlb := unwrittenTlb u.dtlb,
    icache := [], dcache := [], halted := none, stalled := false, hist := History.empty, icar := .idle, cp := u.cp,
    mc := resetMemCtl u s.mc, slots := s.slotsReset, dirtyEvicted := false, busInst := none, busData := none }

/-- The processor stands still: it has halted (R365), or the clock/scan module has stopped its clock (R439). -/
def State.frozen (s : State) : Bool := s.halted.isSome || s.csm.cpuStopped

/-- What follows where a result goes on. -/
def andThen (r : Result) (f : State → Result) : Result :=
  match r with
  | .next s => f s
  | .fault e => .fault e
  | .refused e => .refused e

/-! ## DMA -/

/-- The line that a DMA input writes: the j-th word transferred is word `(a[1:0] + j) mod 4` (R119). -/
def dmaLine (addr : Word) (t : Line) : Line :=
  match (wordInLine addr).toNat with
  | 0 => t
  | 1 => { w0 := t.w3, w1 := t.w0, w2 := t.w1, w3 := t.w2 }
  | 2 => { w0 := t.w2, w1 := t.w3, w2 := t.w0, w3 := t.w1 }
  | _ => { w0 := t.w1, w1 := t.w2, w2 := t.w3, w3 := t.w0 }

/-- The words that a DMA output transfers: the j-th is word `(a[1:0] + j) mod 4` of the line (R119). -/
def dmaWords (addr : Word) (v : Line) : Line :=
  match (wordInLine addr).toNat with
  | 0 => v
  | 1 => { w0 := v.w1, w1 := v.w2, w2 := v.w3, w3 := v.w0 }
  | 2 => { w0 := v.w2, w1 := v.w3, w2 := v.w0, w3 := v.w1 }
  | _ => { w0 := v.w3, w1 := v.w0, w2 := v.w1, w3 := v.w2 }

/-- A slot after its request, with the words that its bus interface then holds (R405). -/
def State.dmaDone (s : State) (i : Fin 7) (r : DmaRequest) (words : Line) : State :=
  { s with slots := s.slots.set i (slotDone s.slots[i] r words) }

/-- A DMA transaction on main memory (R119, R393), and the words the bus interface holds after it: those of the line
where it is an output, else what it held. -/
def State.transact (s : State) (t : DmaTransaction) (held : Line) : Line × State :=
  match t with
  | .read a => (dmaWords a (readRealLine s false true (lineOf a)).1, (readRealLine s false true (lineOf a)).2)
  | .write a words => (held, s.writeRealLine (lineOf a) (dmaLine a words))

/-- One slot's request (R392, R407). A transaction waits while the memory controller does nothing (log 29), and must not
happen while the Boot-Prom is mapped (R104, U13). An adaptor whose clock is stopped asks for none (R439). -/
def dmaOne (s : State) (i : Fin 7) (r : DmaRequest) : Result :=
  if s.csm.ioStopped then .next s
  else
    match slotTransaction s.slots[i] r s.fresh with
    | none => .next (s.dmaDone i r s.slots[i].latch)
    | some t =>
      if s.mcDown then .next s
      else if s.psw.rom then .refused .bootPromOverlap
      else .next ((s.transact t s.slots[i].latch).2.dmaDone i r (s.transact t s.slots[i].latch).1)

/-- The requests of the slots of a list, one whole transaction after the other (R392). -/
def dmaSlots (l : List (Fin 7)) (requests : Vector (Option DmaRequest) 7) (s : State) : Result :=
  match l with
  | [] => .next s
  | i :: t =>
    match requests[i] with
    | none => dmaSlots t requests s
    | some r => andThen (dmaOne s i r) (fun u => dmaSlots t requests { u with fresh := u.fresh + 1 })

/-- One arbitration (R392): slot 1 has the highest priority, slot 7 the lowest. -/
def dmaRound (requests : Vector (Option DmaRequest) 7) (s : State) : Result :=
  dmaSlots [0, 1, 2, 3, 4, 5, 6] requests s

/-! ## Clock/scan module -/

/-- A packet that the module discards: a broadcast, or of another type (R438 steps 1, 2). -/
def csmDiscards (p : CsmPacket) : Bool := p.dest == 0xFFFFFFFFFFFF#48 || p.type != 0x803A#16

/-- A packet that repeats the last request (R438 step 3). -/
def csmRepeats (c : Csm) (p : CsmPacket) : Bool := c.last == some (p.src, p.seqNumber)

/-- The module that a select code determines (R439, Figure 6-3). -/
def scanModule (code : BitVec 4) : ScanModule :=
  match code.toNat with
  | 0x0 => .dataPath
  | 0x1 => .instCache
  | 0x2 => .dataCache
  | 0x3 => .coprocessor
  | 0x4 => .memoryController
  | 0x5 => .nonStopMemoryController
  | 0x6 => .slot 7#3
  | 0x7 => .slot 6#3
  | 0x8 => .slot 5#3
  | 0x9 => .slot 4#3
  | 0xA => .slot 3#3
  | 0xB => .slot 2#3
  | 0xC => .slot 1#3
  | 0xF => .null
  | _ => .reserved

/-- The cycles that a ScanCount code stands for (R439, Figure 6-5). -/
def scanCycles (code : BitVec 4) : Nat := if code.getLsbD 3 then 0 else code.toNat + 1

/-- The fields of a ModeA byte: in the default arrangement select 3..0 and, active low, StopCPU 4, StopMC 5, StopNS 6,
StopIO 7 (R439, Figure 6-2 lost, log 68). -/
def csmModeA (l : Layout) (b : Byte) : CsmModeA :=
  let v := l.csmModeA.get b
  { select := scanModule (v.extractLsb' 0 4), runCpu := v.getLsbD 4, runMc := v.getLsbD 5, runNs := v.getLsbD 6,
    runIo := v.getLsbD 7 }

/-- The fields of a ModeB byte: in the default arrangement ScanCount 3..0, Boot 4, ScanMode 5 (R439, Figure 6-4 lost,
log 68). -/
def csmModeB (l : Layout) (b : Byte) : CsmModeB :=
  let v := l.csmModeB.get b
  { scanMode := v.getLsbD 5, boot := v.getLsbD 4, scanCycles := scanCycles (v.extractLsb' 0 4) }

/-- Some clock is stopped, so that a Go would step it (R439). -/
def Csm.stops (c : Csm) : Bool := c.cpuStopped || c.mcStopped || c.ioStopped || c.nsStopped.isSome

/-- A packet whose effect is not modelled (D39): it scans, or steps clocks that are stopped. -/
def csmScans (l : Layout) (c : Csm) (p : CsmPacket) : Bool :=
  p.scanInModeA != 0x0F#8 || p.scanOutModeA != 0x0F#8 || (p.go != 0#32 && c.stops) ||
  (csmModeB l p.endModeB).scanMode || (csmModeA l p.endModeA).select != .null

/-- The panel's halt led: the processor or the memory controller is halted (R436). -/
def State.haltLed (s : State) : Bool := s.halted.isSome || s.mc.halted

/-- The module's reply (R438 steps 4 to 7, 13); the fields that R438 does not say are free (log 68). -/
def State.csmReply (s : State) (p : CsmPacket) : CsmPacket :=
  { Config.csmReplyRest s.fresh with
    dest := p.src, src := p.dest, type := 0x803A#16, seqNumber := p.seqNumber, header := p.header, version := 3#8,
    systemStatus := Config.csmSystemStatus s.halted.isSome s.mc.halted }

/-- The module after a request: its registers, the stop signals, and its reply (R438 steps 9, 11 to 14, R439). -/
def State.csmAfter (s : State) (p : CsmPacket) : Csm :=
  let a := csmModeA s.lay p.endModeA
  { modeA := p.endModeA, modeB := p.endModeB, go := p.go, cpuStopped := !a.runCpu, mcStopped := !a.runMc,
    ioStopped := !a.runIo, nsStopped := if a.runNs then none else some (s.csm.nsStopped.getD s.cycles),
    last := some (p.src, p.seqNumber), reply := some (s.csmReply p), sent := s.csm.sent + 1 }

/-- The machine after a request: a processor that waits for a memory controller that now runs goes on (log 64). -/
def State.csmFinish (s : State) (p : CsmPacket) : State :=
  { s with csm := s.csmAfter p, stalled := s.stalled && (s.mc.halted || !(csmModeA s.lay p.endModeA).runMc) }

/-- A packet reaches the clock/scan module (R438); the Boot bit resets the processor (R440, D39): once with each such
packet, after which the processor runs though the bit stays set, the model's choice (log 68). -/
def csmPacket (p : CsmPacket) (s : State) : Result :=
  if csmDiscards p then .next s
  else if csmRepeats s.csm p then .next { s with csm := { s.csm with sent := s.csm.sent + 1 } }
  else if csmScans s.lay s.csm p then .refused .scanActivity
  else if (csmModeB s.lay p.endModeB).boot then
    .next ((s.resetWith (Config.unspecifiedAfterReset s.fresh)).csmFinish p)
  else .next (s.csmFinish p)

/-- What main memory holds once it has gone without refresh for too long (R439, log 64). -/
def lostContents (cells : List (Nat × Byte)) : Memory :=
  cells.foldl (fun m c => writeByte m (c.1 % 2 ^ 27) c.2) []

/-- Main memory `n` cycles on: lost where its refresh has stood still for too long (R439). -/
def State.memoryAfter (s : State) (n : Nat) : Memory :=
  match s.csm.nsStopped with
  | none => s.mem
  | some k => if Config.refreshLimit + k < s.cycles + n then lostContents (Config.lostMemory s.fresh) else s.mem

/-! ## Events -/

/-- An adaptor's own activity in slot `n`; one whose clock is stopped does nothing (R439). -/
def State.adaptorActs (s : State) (n : BitVec 3) (e : Event) : State :=
  if s.csm.ioStopped then s
  else { s with slots := onSlot s.slots n (fun t => { t with adaptor := adaptorEvent t.adaptor e s.fresh }) }

/-- An adaptor's ability to answer (R396). -/
def State.setBusy (s : State) (n : BitVec 3) (b : Bool) : State :=
  if s.csm.ioStopped then s else { s with slots := onSlot s.slots n (fun t => { t with busy := b }) }

/-- Slot `n` holds an adaptor whose clock runs. -/
def State.slotActs (s : State) (n : BitVec 3) : Bool :=
  !s.csm.ioStopped &&
  match slotPosition n with
  | none => false
  | some i => decide (s.slots[i].adaptor ≠ .empty)

/-- The lock as an adaptor takes it, where it can win the arbitration (R397, R407). -/
def State.takeLock (s : State) (n : BitVec 3) : LockHolder :=
  if s.mc.lock = .none ∧ s.slotActs n ∧ ¬ s.mcDown then .slot n else s.mc.lock

/-- The lock as its holder drops it (R397). -/
def State.dropLock (s : State) (n : BitVec 3) : LockHolder :=
  if s.mc.lock = .slot n ∧ s.slotActs n then .none else s.mc.lock

/-- An error that the memory controller sees on a bus; stopped, it sees none (R120, R400, R439). -/
def State.busError (s : State) (k : Nat) : State := if s.csm.mcStopped then s else { s with mc := raiseError s.mc k }

/-- One event. What stands still neither evicts a line nor meets a parity error (R365, log 51). -/
def applyEvent (e : Event) (s : State) : Result :=
  match e with
  | .evictData l => .next (if s.frozen || s.mcDown then s else s.evictData l)
  | .evictInst l => .next (if s.frozen then s else s.evictInst l)
  | .dma requests => dmaRound requests s
  | .ecc errors => .next { s with ecc := s.ecc ++ errors }
  | .ioBusParity => .next (s.busError 0)
  | .cpuBusParity => .next (s.busError 1)
  | .spoil x => .next (if s.frozen then s else s.spoilt x)
  | .busInst x => .next { s with busInst := some x }
  | .busData x => .next { s with busData := some x }
  | .busy n b => .next (s.setBusy n b)
  | .takeLock n => .next { s with mc := { s.mc with lock := s.takeLock n } }
  | .dropLock n => .next { s with mc := { s.mc with lock := s.dropLock n } }
  | .tma n r => .next (s.adaptorActs n (.tma n r))
  | .tda n t => .next (s.adaptorActs n (.tda n t))
  | .tfa n t => .next (s.adaptorActs n (.tfa n t))
  | .tna n t => .next (s.adaptorActs n (.tna n t))
  | .otherInterrupt n b => .next (s.adaptorActs n (.otherInterrupt n b))
  | .csm p => csmPacket p s
  | .reset => .next (s.resetWith (Config.unspecifiedAfterReset s.fresh))

/-- Events in order, each with a fresh counter of its own; the first refusal ends them. -/
def applyEvents (es : List Event) (s : State) : Result :=
  match es with
  | [] => .next s
  | e :: t => andThen (applyEvent e s) (fun u => applyEvents t { u with fresh := u.fresh + 1 })

/-- The clock's share of a step (R327, D31): at least one cycle; the coprocessor of a processor that stands still
keeps its clock (R365). -/
def State.tick (s : State) (n : Nat) : State :=
  { s with cp := if s.frozen then s.cp else copClock s.cp n s.fresh, mem := s.memoryAfter n, cycles := s.cycles + n,
           fresh := s.fresh + 1 }

/-- The marks of a step's own, cleared before it. -/
def State.newStep (s : State) : State := { s with dirtyEvicted := false, busInst := none, busData := none }

/-- The environment's share of a step: the next input, or one cycle and no events when none is listed. -/
def environment (s : State) : Result :=
  match s.inputs with
  | [] => .next (s.newStep.tick 1)
  | i :: t => applyEvents i.events (({ s.newStep with inputs := t } : State).tick (1 + i.extraCycles))

end Sys2Proof.Machine
end

