-- ==== Sys2Proof/Machine/Fetch.lean ====
section
/-!
DEFINITION. Fetching: the current instruction (spec/20_memory.md R114), the check of its successor
(spec/60_exceptions.md R347), the ICAR idiom (spec/41_special.md R183), undescribed words
(spec/93_implementation_defined.md), and where a test places a word for the fetch.
-/
namespace Sys2Proof.Machine

/-- What fetching the instruction at pc gives. -/
inductive Fetched where
  /-- The word, and the state with its line in the instruction cache. -/
  | word (w : Word) (s : State)
  /-- No valid translation. -/
  | noTranslation
  | ambiguous
  /-- A memory controller that does nothing is needed (R368, R439). -/
  | stalled
deriving DecidableEq, Repr

/-- Fetching the instruction at pc under the PSW it was fetched with (R27, R96, R114, R184). -/
def fetch (s : State) : Fetched :=
  match instReference s.itlb s.psw (s.pc >>> 2) with
  | .real rwa =>
    match s.fillInst (lineOf rwa) with
    | none => .stalled
    | some t => .word (t.instWord rwa) { t with fresh := t.fresh + 1 }
  | .noTranslation => .noTranslation
  | .readOnly => .noTranslation
  | .ambiguous => .ambiguous

/-- The reference that fetches the successor, under the PSW that will hold for it (R184, R347). -/
def successorReference (s : State) : Reference := instReference s.itlb s.nextPsw (s.npc >>> 2)

/-- A null: an ALU instruction that assigns to r0 and reads r0 through no register field that its function uses (R161,
R475, D10). `usesA`, `usesB` are the operands it uses. -/
def nullForm (usesA usesB lit : Bool) (ra rb rc : RegField) : Bool :=
  rc == 0#6 && !(usesA && !lit && ra == 0#6) && !(usesB && rb == 0#6)

/-- A null (R161, R270, R475). -/
def isNull (i : Instr) : Bool :=
  match i with
  | .aluAdd lit ra rb rc => nullForm true true lit ra rb rc
  | .aluAdd1 lit ra rb rc => nullForm true true lit ra rb rc
  | .aluRsub lit ra rb rc => nullForm true true lit ra rb rc
  | .aluRsub1 lit ra rb rc => nullForm true true lit ra rb rc
  | .aluSub lit ra rb rc => nullForm true true lit ra rb rc
  | .aluSub1 lit ra rb rc => nullForm true true lit ra rb rc
  | .aluNeg lit ra rb rc => nullForm true false lit ra rb rc
  | .aluNegm1 lit ra rb rc => nullForm true false lit ra rb rc
  | .aluGt lit ra rb rc => nullForm true true lit ra rb rc
  | .aluGtu lit ra rb rc => nullForm true true lit ra rb rc
  | .aluGe lit ra rb rc => nullForm true true lit ra rb rc
  | .aluGeu lit ra rb rc => nullForm true true lit ra rb rc
  | .aluLt lit ra rb rc => nullForm true true lit ra rb rc
  | .aluLtu lit ra rb rc => nullForm true true lit ra rb rc
  | .aluLe lit ra rb rc => nullForm true true lit ra rb rc
  | .aluLeu lit ra rb rc => nullForm true true lit ra rb rc
  | .aluEqv lit ra rb rc => nullForm true true lit ra rb rc
  | .aluXor lit ra rb rc => nullForm true true lit ra rb rc
  | .aluOr lit ra rb rc => nullForm true true lit ra rb rc
  | .aluMovb lit ra rb rc => nullForm false true lit ra rb rc
  | .aluNot lit ra rb rc => nullForm true false lit ra rb rc
  | .aluMova lit ra rb rc => nullForm true false lit ra rb rc
  | .aluAnd lit ra rb rc => nullForm true true lit ra rb rc
  | .aluZero lit ra rb rc => nullForm false false lit ra rb rc
  | .aluVext lit ra rb rc _ => nullForm true true lit ra rb rc
  | .aluBext lit ra rb rc _ _ => nullForm true true lit ra rb rc
  | _ => false

/-- A null as it is decoded: an ALU word of an undescribed function is one too where its rc is r0, and is taken to use
both operands (R161, log 21). -/
def isNullWord (d : Decoded) : Bool :=
  match d with
  | .instr i => isNull i
  | .undescribed (.alu lit ra rb rc) => nullForm true true lit ra rb rc
  | .undescribed (.special _ _ _) => false
  | .undescribed (.cop _ _ _) => false

/-- Whether the ICAR phase admits a decoded word: after an ICAR-disturbing instruction only `goto 1[r0]` at the next
word, then only a null (R183, D18). -/
def icarAdmits (p : IcarPhase) (d : Decoded) : Bool :=
  match p with
  | .idle => true
  | .gotoNext => decide (d = .instr (.goto 0#6 0#6 1#16))
  | .nullNext => isNullWord d
  | .broken => false

/-! ## Placing a word -/

/-- Memory with a word at a physical or Boot-Prom word number. -/
def placeWord (s : State) (rwa w : Word) : State :=
  if inBootProm s.psw.rom (lineOf rwa) then { s with prom := writeWord s.prom rwa.toNat w }
  else
    { s with mem := writeWord s.mem (rwa.toNat % 2 ^ 25) w,
             populated := s.populated ||| (1#4 <<< moduleOf (lineOf rwa)) }

/-- The real word address the fetch at pc uses, and the state with instruction mapping off where it has none. -/
def fetchPlace (s : State) : Word × State :=
  match instReference s.itlb s.psw (s.pc >>> 2) with
  | .real rwa => (rwa, s)
  | _ => (s.pc >>> 2, { s with psw := { s.psw with imp := true } })

/-- The state with a word stored where the fetch at pc reads it: the Boot-Prom or main memory, and no stale copy in the
instruction cache. -/
def storeFetchWord (s : State) (w : Word) : State :=
  (placeWord (fetchPlace s).2 (fetchPlace s).1 w).evictInst (lineOf (fetchPlace s).1)

end Sys2Proof.Machine
end

