-- ==== Sys2Proof/Machine/Undescribed.lean ====
section
/-!
DEFINITION. Words that are no row of the opcode table (spec/30_encoding.md R157): none traps but a special in user
mode (spec/93_implementation_defined.md U10, U11, U23, U26).
-/
namespace Sys2Proof.Machine

/-- An undescribed coprocessor operation: accumulator and result are free, abort is cleared (U26, log 55). Whether it
takes several cycles is not said (R335); the model takes it so, which leaves a coprocessor instruction right after it
open (log 41). -/
def undescribedCop (rc : RegField) (s : State) : Result :=
  let cp := { s.cp with ac := Config.undefinedAccumulator s.fresh, abort := false }
  .next ((({ s with cp := cp } : State).result rc (Config.undefinedCopResult s.fresh)).retire
    { didWrite s rc with copBusy := true })

/-- An undescribed word: a special traps in user mode (R201) and is refused where privileged (U10, U11); an ALU function
writes a free value (U23). -/
def execUndescribed (u : Undescribed) (s : State) : Result :=
  match u with
  | .special _ _ _ => privileged s (.refused .undescribedSpecial)
  | .alu _ _ _ rc => finish s rc (Config.aluUndefined s.fresh)
  | .cop _ _ rc => undescribedCop rc s

end Sys2Proof.Machine
end

