-- ==== Sys2Proof/Machine/Step.lean ====
section
/-!
DEFINITION. One step: the environment's share, then one instruction, or the trap that suppresses it.
-/
namespace Sys2Proof.Machine

/-- A decoded word executes. -/
def execDecoded (d : Decoded) (s : State) : Result :=
  match d with
  | .instr i => exec i s
  | .undescribed u => execUndescribed u s

/-- A user-mode instruction with its successor's fetch fault and the request lines (R345, R351, R357, R358). -/
def runUser (d : Decoded) (s : State) (itf : Bool) : Result :=
  if itf || s.extReq || s.copReq then
    enterTrap { ownTrap (decodedTrapClass d) s with itf := itf, instPage := pageOf (s.npc >>> 2) }
      (suppressed (decodedTrapClass d) s)
  else execDecoded d s

/-- An instruction that halts the processor itself: its own halt record stands, whatever its successor's fetch does
(R170 to R174, log 51). -/
def haltsItself (r : Result) : Bool :=
  match r with
  | .next t => t.halted.isSome
  | .fault _ => false
  | .refused _ => false

/-- A successor without a translation, in kernel mode: a halt with the operands of the instruction in the record
(R365, D32), or a refusal where it is the first user instruction (R347, U18). -/
def successorFault (w : Word) (s : State) : Result :=
  if s.nextPsw.krn then .next (s.haltFields .itf (raField w) (rbField w)) else .refused .firstUserFetch

/-- A kernel-mode instruction: interrupts are ignored (R360). -/
def runKernel (w : Word) (d : Decoded) (s : State) (itf : Bool) : Result :=
  if itf && !haltsItself (execDecoded d s) then successorFault w s else execDecoded d s

/-- A word runs by mode. -/
def runMode (w : Word) (d : Decoded) (s : State) (itf : Bool) : Result :=
  if s.eff.krn then runKernel w d s itf else runUser d s itf

/-- A fetched word, in the default arrangement, runs: the ICAR idiom, parity, the successor's fetch check, then by
mode. Where two valid translations match the successor everything is refused, also an instruction that would trap or
halt by itself (R174), on which R98 and R365 are silent: the model's choice (log 24). -/
def runWord (w : Word) (s : State) : Result :=
  if !icarAdmits s.icar (decodeWord w) then .refused .icarIdiomBroken
  else if parityHalts (decodeWord w) s then .next (s.haltFields .parity (raField w) (rbField w))
  else
    match successorReference s with
    | .ambiguous => .refused .ambiguousTranslation
    | .real _ => runMode w (decodeWord w) s false
    | .noTranslation => runMode w (decodeWord w) s true
    | .readOnly => runMode w (decodeWord w) s true

/-- The fetch at pc, then the word fetched. The page of pc was checked when its predecessor ran (R347); where it has no
translation after all, as at the first user instruction (U18), or because a buffer write or an error in the buffer
(R120) has taken it away since, user mode is refused and kernel mode halts: the model's choice (log 22).

The fetch comes before the conditions that suppress the instruction are looked at: where it needs a memory controller
that has halted, or is stopped, the processor waits, and an interrupt that is pending in user mode, or a fault of the
successor's fetch, is not taken. R357 and R368 (and R347) do not say which comes first: the model's choice (log 40). -/
def runFetched (s : State) : Result :=
  if fetchParityHalts s then .next (s.haltPlain .parity)
  else
    match fetch s with
    | .word w t => runWord (s.enc.read w) t
    | .noTranslation => if s.eff.krn then .next (s.haltPlain .itf) else .refused .firstUserFetch
    | .ambiguous => .refused .ambiguousTranslation
    | .stalled => stall s

/-- The processor's share of a step: none where it stands still, or waits for a memory controller that has halted (R365,
R368). -/
def runProcessor (s : State) : Result := if s.frozen || s.stalled then .next s else runFetched s

/-- One step (R27): the environment, then the processor. -/
def step (s : State) : Host.Outcome State Fault Refusal := andThen (environment s) runProcessor

/-- The state with an instruction word, numbered as spec/opcode_table.json numbers its bits, stored where the next fetch
reads it. -/
def State.withFetchWord (s : State) (nbits w : Nat) : State := storeFetchWord s (BitVec.ofNat 32 (w % 2 ^ nbits))

end Sys2Proof.Machine
end

