-- ==== Sys2Proof/Safety.lean ====
section
/-!
DEFINITION. What claims are stated in: a running machine, a step that goes on, the invariant that every step keeps,
and the frames: which parts of the state an instruction leaves as they were.
-/
namespace Sys2Proof.Machine

/-- The processor runs and so does the memory controller (R67, R439). -/
def State.running (s : State) : Prop := s.frozen = false ∧ s.stalled = false ∧ s.mcDown = false

/-- A step that goes on: a next state whose processor is not halted. -/
def safeStep (s : State) : Prop := ∃ t, step s = .next t ∧ t.halted = none

/-- A byte address with its two low bits 0 (R26). -/
def aligned (a : Word) : Prop := a.extractLsb' 0 2 = 0#2

/-- The invariant of the machine: the pc pair and the pc-queue are aligned (R26, R29), krn shadows pre (R36), memory and
Boot-Prom are in canonical form, the caches are sorted by line (R111), the encoding and the layouts are one to one
(R7, R131). -/
structure State.Inv (s : State) : Prop where
  pc : aligned s.pc
  npc : aligned s.npc
  pc1 : aligned s.pc1
  pc2 : aligned s.pc2
  krn : s.psw.krn = s.psw.pre
  mem : Memory.wf s.mem = true
  prom : Memory.wf s.prom = true
  icache : mapSorted s.icache = true
  dcache : mapSorted s.dcache = true
  enc : s.enc.valid = true
  lay : s.lay.valid = true

/-! ## Frames -/

/-- No general register changes, nor its parity. -/
def regsKept (s t : State) : Prop := ∀ i, t.reg i = s.reg i ∧ t.mark i = s.mark i

/-- Every general register keeps its contents and its parity but the one that the field `n` names through the bank
PSW.ra, which takes `v` with good parity; r0 names none (R21, R23, R24). -/
def regWritten (s t : State) (n : RegField) (v : Word) : Prop :=
  ∀ i, t.reg i = (if n ≠ 0#6 ∧ i = s.raIndex n then v else s.reg i) ∧
    t.mark i = if n ≠ 0#6 ∧ i = s.raIndex n then .good else s.mark i

/-- Every byte of main memory reads as before. -/
def mainMemoryKept (s t : State) : Prop := ∀ a, readByte t.mem a = readByte s.mem a

/-- Every byte of main memory and of the Boot-Prom reads as before, and both caches hold what they held. -/
structure memoryKept (s t : State) : Prop where
  mem : mainMemoryKept s t
  prom : ∀ a, readByte t.prom a = readByte s.prom a
  populated : t.populated = s.populated
  icache : t.icache = s.icache
  dcache : t.dcache = s.dcache

/-- Both translation buffers are as before. -/
def translationKept (s t : State) : Prop := t.itlb = s.itlb ∧ t.dtlb = s.dtlb

/-- The memory controller and the adaptors are as before. -/
def ioKept (s t : State) : Prop := t.mc = s.mc ∧ t.slots = s.slots

/-- The memory controller and the adaptors are as before, but the I/O control address is `a` (R210). -/
def ioSelected (s t : State) (a : BitVec 6) : Prop := t.mc = { s.mc with ioSel := a } ∧ t.slots = s.slots

/-- The PSW, the fault registers and the pc-queue are as before, unless a WriteStatus of three instructions ago takes
effect (R184); no PSW write starts, and those under way move on. -/
structure systemKept (s t : State) : Prop where
  pend1 : t.pend1 = none
  pend2 : t.pend2 = s.pend1
  pend3 : t.pend3 = s.pend2
  psw : s.pend3 = none → t.psw = s.psw
  itfr : s.pend3 = none → t.itfr = s.itfr
  dtfr : s.pend3 = none → t.dtfr = s.dtfr

/-- The pc-queue is as before, unless a WriteStatus of three instructions ago takes effect (R29, R184). -/
def queueKept (s t : State) : Prop := s.pend3 = none → t.pc1 = s.pc1 ∧ t.pc2 = s.pc2

/-- The processor is halted or waiting or not as before; the clock/scan module, the encoding, the layouts and the
model's own inputs are as before. -/
structure runKept (s t : State) : Prop where
  halted : t.halted = s.halted
  stalled : t.stalled = s.stalled
  csm : t.csm = s.csm
  enc : t.enc = s.enc
  lay : t.lay = s.lay
  cycles : t.cycles = s.cycles
  dirtyEvicted : t.dirtyEvicted = s.dirtyEvicted
  busInst : t.busInst = s.busInst
  busData : t.busData = s.busData
  inputs : t.inputs = s.inputs
  ecc : t.ecc = s.ecc
  fresh : t.fresh = s.fresh

/-- Control goes on: the next instruction is at npc, the one after it at `nnpc` (R27). -/
def goesOn (s t : State) (nnpc : Word) : Prop := t.pc = s.npc ∧ t.npc = nnpc

/-- What every ordinary instruction leaves: memory, translation buffers, memory controller, adaptors, coprocessor, PSW,
pc-queue, fault registers. -/
structure restKept (s t : State) : Prop where
  memory : memoryKept s t
  translation : translationKept s t
  io : ioKept s t
  cp : t.cp = s.cp
  system : systemKept s t
  queue : queueKept s t
  run : runKept s t

/-- An instruction whose one effect is the result `v` in RR and in the register that the field `n` names, with the next
instruction but one at `nnpc`. -/
structure resultOnly (s t : State) (n : RegField) (v nnpc : Word) : Prop where
  regs : regWritten s t n v
  rr : t.rr = some v
  control : goesOn s t nnpc
  rest : restKept s t

/-- The instruction completes with the result `v` in RR and in the field `n`, and nothing else but the sequential
advance. -/
def yields (i : Instr) (s : State) (n : RegField) (v : Word) : Prop :=
  ∃ t, exec i s = .next t ∧ resultOnly s t n v (s.npc + 4#32)

/-- What every special leaves, whatever else it does: memory, the adaptors, the coprocessor; its rb field becomes the
I/O control address (R180, R210). -/
structure specialKept (s t : State) (rb : RegField) : Prop where
  control : goesOn s t (s.npc + 4#32)
  memory : memoryKept s t
  io : ioSelected s t rb
  cp : t.cp = s.cp
  run : runKept s t

/-- A read-class special completes with the value `v` in RR and in the register that ra names, and nothing else but the
I/O control address and the sequential advance. -/
def specialYields (i : Instr) (s : State) (ra rb : RegField) (v : Word) : Prop :=
  ∃ t, exec i s = .next t ∧ regWritten s t ra v ∧ t.rr = some v ∧ specialKept s t rb ∧ translationKept s t ∧
    systemKept s t ∧ queueKept s t

/-- Trap entry with the causes `c` (R345, R346): the pc-queue takes the addresses of the two aborted instructions, the
PSW the causes with krn, pre, imp, dmp set and the rest as it was, control goes to real address 0, RR is not loaded; no
register, memory, translation buffer, memory controller or adaptor is changed. -/
structure trapped (s t : State) (c : TrapInfo) : Prop where
  pc : t.pc = 0x00000000#32
  npc : t.npc = 0x00000004#32
  pc2 : t.pc2 = s.pc
  pc1 : t.pc1 = s.npc
  rr : t.rr = none
  causes : t.psw.ill = c.ill ∧ t.psw.itf = c.itf ∧ t.psw.dtf = c.dtf ∧ t.psw.wpv = c.wpv ∧ t.psw.usr = c.usr
  ext : t.psw.ext = s.extReq
  cop : t.psw.cop = (s.copReq || c.arith)
  literal : c.usr = true → t.psw.literal = c.literal
  kernel : t.psw.krn = true ∧ t.psw.pre = true ∧ t.psw.imp = true ∧ t.psw.dmp = true
  kept : t.psw.rom = s.psw.rom ∧ t.psw.prv = s.psw.prv ∧ t.psw.par = s.psw.par ∧ t.psw.pid = s.psw.pid ∧
    t.psw.ra = s.psw.ra ∧ t.psw.rb = s.psw.rb
  itfr : c.itf = true → t.itfr = c.instPage
  dtfr : (c.dtf || c.wpv) = true → t.dtfr = c.dataPage
  regs : regsKept s t
  memory : memoryKept s t
  translation : translationKept s t
  io : ioKept s t
  run : runKept s t

/-- The processor halts (R365): the record holds the cause, the halting instruction's address and its successor's, and
the registers that its fields ra and rb name, the convention of D32 (log 51); nothing else of the state changes. -/
def haltedBy (s t : State) (cause : HaltCause) (ra rb : RegField) : Prop :=
  t = { s with halted := some { cause := cause, pc := s.pc, npc := s.npc, ar := s.readA ra, br := s.readB rb } }

/-- User mode with nothing in flight: no PSW write is under way and no ICAR idiom, and no special in the two
instructions before (R353, R360, R481). -/
def State.userReady (s : State) : Prop := s.eff.krn = false ∧ s.inFlight = false ∧ s.afterUserSpecial = false

/-- Privileged instructions have their effect (R37, R362). -/
def State.mayPrivileged (s : State) : Prop := s.eff.unprivileged = false

/-! ## What an instruction is and which register it writes -/

/-- The families of instructions (R156). -/
inductive InstrKind where
  | trapping
  | special
  /-- kernelExit and pseudoCall. -/
  | queue
  | flush
  | load
  | store
  | jump
  /-- extract, ALU, load address. -/
  | compute
  | coprocessor
deriving DecidableEq, Repr

/-- An instruction's family, and the register field it writes, if any (R21): rc for extract, ALU and coprocessor; ra for
load, load address, goto and the read-class specials. -/
def profile (i : Instr) : InstrKind × Option RegField :=
  match i with
  | .abort _ _ _ => (.trapping, none)
  | .readStatus ra _ => (.special, some ra)
  | .readPcQ ra _ => (.special, some ra)
  | .writeStatus _ _ => (.special, none)
  | .readInstTFR ra _ => (.special, some ra)
  | .readDataTFR ra _ => (.special, some ra)
  | .readInstTlbTag0 ra _ => (.special, some ra)
  | .readInstTlbTag1 ra _ => (.special, some ra)
  | .readDataTlbTag0 ra _ => (.special, some ra)
  | .readDataTlbTag1 ra _ => (.special, some ra)
  | .readInstTlbData0 ra _ => (.special, some ra)
  | .readInstTlbData1 ra _ => (.special, some ra)
  | .readDataTlbData0 ra _ => (.special, some ra)
  | .readDataTlbData1 ra _ => (.special, some ra)
  | .writeInstTlbTag0 _ _ => (.special, none)
  | .writeInstTlbTag1 _ _ => (.special, none)
  | .writeDataTlbTag0 _ _ => (.special, none)
  | .writeDataTlbTag1 _ _ => (.special, none)
  | .writeInstTlbData0 _ _ => (.special, none)
  | .writeInstTlbData1 _ _ => (.special, none)
  | .writeDataTlbData0 _ _ => (.special, none)
  | .writeDataTlbData1 _ _ => (.special, none)
  | .getCtl ra _ => (.special, some ra)
  | .setCtl _ _ => (.special, none)
  | .ioRead _ _ => (.special, none)
  | .ioWrite _ _ => (.special, none)
  | .kernelExit _ _ _ => (.queue, none)
  | .pseudoCall _ _ _ => (.queue, none)
  | .flush _ _ _ => (.flush, none)
  | .load ra _ _ => (.load, some ra)
  | .store _ _ _ => (.store, none)
  | .goto ra _ _ => (.jump, some ra)
  | .cjumpEq _ _ => (.jump, none)
  | .cjumpNe _ _ => (.jump, none)
  | .cjumpLt _ _ => (.jump, none)
  | .cjumpGe _ _ => (.jump, none)
  | .cjumpGt _ _ => (.jump, none)
  | .cjumpLe _ _ => (.jump, none)
  | .cjumpOdd _ _ => (.jump, none)
  | .cjumpEven _ _ => (.jump, none)
  | .extract _ _ rc _ _ => (.compute, some rc)
  | .aluAdd _ _ _ rc => (.compute, some rc)
  | .aluAdd1 _ _ _ rc => (.compute, some rc)
  | .aluRsub _ _ _ rc => (.compute, some rc)
  | .aluRsub1 _ _ _ rc => (.compute, some rc)
  | .aluSub _ _ _ rc => (.compute, some rc)
  | .aluSub1 _ _ _ rc => (.compute, some rc)
  | .aluNeg _ _ _ rc => (.compute, some rc)
  | .aluNegm1 _ _ _ rc => (.compute, some rc)
  | .aluGt _ _ _ rc => (.compute, some rc)
  | .aluGtu _ _ _ rc => (.compute, some rc)
  | .aluGe _ _ _ rc => (.compute, some rc)
  | .aluGeu _ _ _ rc => (.compute, some rc)
  | .aluLt _ _ _ rc => (.compute, some rc)
  | .aluLtu _ _ _ rc => (.compute, some rc)
  | .aluLe _ _ _ rc => (.compute, some rc)
  | .aluLeu _ _ _ rc => (.compute, some rc)
  | .aluEqv _ _ _ rc => (.compute, some rc)
  | .aluXor _ _ _ rc => (.compute, some rc)
  | .aluOr _ _ _ rc => (.compute, some rc)
  | .aluMovb _ _ _ rc => (.compute, some rc)
  | .aluNot _ _ _ rc => (.compute, some rc)
  | .aluMova _ _ _ rc => (.compute, some rc)
  | .aluAnd _ _ _ rc => (.compute, some rc)
  | .aluZero _ _ _ rc => (.compute, some rc)
  | .aluVext _ _ _ rc _ => (.compute, some rc)
  | .aluBext _ _ _ rc _ _ => (.compute, some rc)
  | .copLoadI _ _ _ rc => (.coprocessor, some rc)
  | .copLoadF _ _ _ rc => (.coprocessor, some rc)
  | .copLoadGf _ _ _ rc => (.coprocessor, some rc)
  | .copLoadG _ _ _ rc => (.coprocessor, some rc)
  | .copAddI _ _ _ rc => (.coprocessor, some rc)
  | .copAddF _ _ _ rc => (.coprocessor, some rc)
  | .copAddFg _ _ _ rc => (.coprocessor, some rc)
  | .copAddGf _ _ _ rc => (.coprocessor, some rc)
  | .copAddG _ _ _ rc => (.coprocessor, some rc)
  | .copSubtractI _ _ _ rc => (.coprocessor, some rc)
  | .copSubtractF _ _ _ rc => (.coprocessor, some rc)
  | .copSubtractFg _ _ _ rc => (.coprocessor, some rc)
  | .copSubtractGf _ _ _ rc => (.coprocessor, some rc)
  | .copSubtractG _ _ _ rc => (.coprocessor, some rc)
  | .copRsubtractI _ _ _ rc => (.coprocessor, some rc)
  | .copRsubtractF _ _ _ rc => (.coprocessor, some rc)
  | .copRsubtractFg _ _ _ rc => (.coprocessor, some rc)
  | .copRsubtractGf _ _ _ rc => (.coprocessor, some rc)
  | .copRsubtractG _ _ _ rc => (.coprocessor, some rc)
  | .copMultiplyI _ _ _ rc => (.coprocessor, some rc)
  | .copMultiplyF _ _ _ rc => (.coprocessor, some rc)
  | .copMultiplyFg _ _ _ rc => (.coprocessor, some rc)
  | .copMultiplyGf _ _ _ rc => (.coprocessor, some rc)
  | .copMultiplyG _ _ _ rc => (.coprocessor, some rc)
  | .copDivideI _ _ _ rc => (.coprocessor, some rc)
  | .copDivideF _ _ _ rc => (.coprocessor, some rc)
  | .copDivideFg _ _ _ rc => (.coprocessor, some rc)
  | .copDivideGf _ _ _ rc => (.coprocessor, some rc)
  | .copDivideG _ _ _ rc => (.coprocessor, some rc)
  | .copRdivideI _ _ _ rc => (.coprocessor, some rc)
  | .copRdivideF _ _ _ rc => (.coprocessor, some rc)
  | .copRdivideFg _ _ _ rc => (.coprocessor, some rc)
  | .copRdivideGf _ _ _ rc => (.coprocessor, some rc)
  | .copRdivideG _ _ _ rc => (.coprocessor, some rc)
  | .copFix _ _ _ rc => (.coprocessor, some rc)
  | .copFloatf _ _ _ rc => (.coprocessor, some rc)
  | .copFloatg _ _ _ rc => (.coprocessor, some rc)
  | .copScale _ _ _ rc => (.coprocessor, some rc)
  | .copLdExp _ _ _ rc => (.coprocessor, some rc)
  | .copWrSign _ _ _ rc => (.coprocessor, some rc)
  | .copRdTod _ _ _ rc => (.coprocessor, some rc)
  | .copWrInt _ _ _ rc => (.coprocessor, some rc)
  | .copWrTod _ _ _ rc => (.coprocessor, some rc)
  | .copNop _ _ _ rc => (.coprocessor, some rc)
  | .trap _ _ _ => (.trapping, none)
  | .loadAddress ra _ _ => (.compute, some ra)
  | .undef1 _ _ _ => (.trapping, none)
  | .undef2 _ _ _ => (.trapping, none)

/-- An instruction's family. -/
def kind (i : Instr) : InstrKind := (profile i).1

/-- The register field that an instruction writes. -/
def destination (i : Instr) : Option RegField := (profile i).2

/-- Every ALU instruction: its A operand is the register or, with the literal bit, the number `ra`, its B operand the
register `rb` (R265). -/
def aluForms (lit : Bool) (ra rb rc : RegField) (inv : Bool) (size : Nat) : List Instr :=
  [
    .aluAdd lit ra rb rc, .aluAdd1 lit ra rb rc, .aluRsub lit ra rb rc, .aluRsub1 lit ra rb rc, .aluSub lit ra rb rc,
    .aluSub1 lit ra rb rc, .aluNeg lit ra rb rc, .aluNegm1 lit ra rb rc, .aluGt lit ra rb rc, .aluGtu lit ra rb rc,
    .aluGe lit ra rb rc, .aluGeu lit ra rb rc, .aluLt lit ra rb rc, .aluLtu lit ra rb rc, .aluLe lit ra rb rc,
    .aluLeu lit ra rb rc, .aluEqv lit ra rb rc, .aluXor lit ra rb rc, .aluOr lit ra rb rc, .aluMovb lit ra rb rc,
    .aluNot lit ra rb rc, .aluMova lit ra rb rc, .aluAnd lit ra rb rc, .aluZero lit ra rb rc,
    .aluVext lit ra rb rc size, .aluBext lit ra rb rc inv size
  ]

/-- Every coprocessor instruction, its operands the pair `ra`, `rb` (R290). -/
def copForms (r : CopResult) (ra rb rc : RegField) : List Instr :=
  [
    .copLoadI r ra rb rc, .copLoadF r ra rb rc, .copLoadGf r ra rb rc, .copLoadG r ra rb rc, .copAddI r ra rb rc,
    .copAddF r ra rb rc, .copAddFg r ra rb rc, .copAddGf r ra rb rc, .copAddG r ra rb rc, .copSubtractI r ra rb rc,
    .copSubtractF r ra rb rc, .copSubtractFg r ra rb rc, .copSubtractGf r ra rb rc, .copSubtractG r ra rb rc,
    .copRsubtractI r ra rb rc, .copRsubtractF r ra rb rc, .copRsubtractFg r ra rb rc, .copRsubtractGf r ra rb rc,
    .copRsubtractG r ra rb rc, .copMultiplyI r ra rb rc, .copMultiplyF r ra rb rc, .copMultiplyFg r ra rb rc,
    .copMultiplyGf r ra rb rc, .copMultiplyG r ra rb rc, .copDivideI r ra rb rc, .copDivideF r ra rb rc,
    .copDivideFg r ra rb rc, .copDivideGf r ra rb rc, .copDivideG r ra rb rc, .copRdivideI r ra rb rc,
    .copRdivideF r ra rb rc, .copRdivideFg r ra rb rc, .copRdivideGf r ra rb rc, .copRdivideG r ra rb rc,
    .copFix r ra rb rc, .copFloatf r ra rb rc, .copFloatg r ra rb rc, .copScale r ra rb rc, .copLdExp r ra rb rc,
    .copWrSign r ra rb rc, .copRdTod r ra rb rc, .copWrInt r ra rb rc, .copWrTod r ra rb rc, .copNop r ra rb rc
  ]

/-! ## Translation buffers -/

/-- One entry of a buffer has become what `f` makes of it; every other entry is as before. -/
def tlbWritten (old new : Tlb) (col : Bool) (wa : Word) (pid : BitVec 8) (f : TlbEntry → TlbEntry) : Prop :=
  tlbEntry new col wa pid = f (tlbEntry old col wa pid) ∧
  ∀ col' wa' pid', col' ≠ col ∨ tlbRow wa' pid' ≠ tlbRow wa pid →
      tlbEntry new col' wa' pid' = tlbEntry old col' wa' pid'

/-! ## Coprocessor -/

/-- What a coprocessor instruction leaves, whatever it starts: memory, translation buffers, memory controller, adaptors,
PSW, pc-queue, fault registers. -/
structure copKept (s t : State) : Prop where
  control : goesOn s t (s.npc + 4#32)
  memory : memoryKept s t
  translation : translationKept s t
  io : ioKept s t
  system : systemKept s t
  queue : queueKept s t
  run : runKept s t

/-- A coprocessor instruction completes: the result of the previous operation in RR and in the field rc, and the
coprocessor as `cp`. -/
def copYields (i : Instr) (s : State) (rc : RegField) (r : CopResult) (cp : Coprocessor) : Prop :=
  ∃ t, exec i s = .next t ∧ regWritten s t rc (copResult s.lay r s.cp) ∧ t.rr = some (copResult s.lay r s.cp) ∧
    copKept s t ∧ t.cp = cp

/-- No multi-cycle operation was started by the instruction before (R335), and the result asked for is in range
(R333). -/
def copReady (s : State) (r : CopResult) : Prop := s.hist.last.copBusy = false ∧ rangeError r s.cp.ac = false

/-! ## What the processor sees of memory -/

/-- The line that the data side sees at a real line address: the data cache's where it holds the line, else the
Boot-Prom's, zeros of a vacant module, or main memory's (R92, R104, R112). -/
def seenLine (s : State) (rom : Bool) (l : LineAddr) : Line :=
  match mapGet s.dcache l.toNat with
  | some d => d.line
  | none =>
    if inBootProm rom l then readLine s.prom l.toNat
    else if isPopulated s.populated l then readLine s.mem (physicalLine l)
    else { w0 := 0#32, w1 := 0#32, w2 := 0#32, w3 := 0#32 }

/-- The word that the data side sees at a real word address. -/
def seenWord (s : State) (rom : Bool) (rwa : Word) : Word := lineGet (seenLine s rom (lineOf rwa)) (wordInLine rwa)

/-- A data line can be had without an error: the data cache holds it, or the memory controller runs and the line is the
Boot-Prom's, with no dirty miss, or in a populated module with no ECC error due, and no parity error meets it on the bus
(R92, R104, R112, R120, R121, R368). -/
def State.lineReady (s : State) (l : LineAddr) : Prop :=
  s.hasDataLine l = true ∨
  (s.mcDown = false ∧ s.busData = none ∧ ((inBootProm s.eff.rom l = true ∧ s.dirtyEvicted = false) ∨
    (inBootProm s.eff.rom l = false ∧ isPopulated s.populated l = true ∧ s.ecc = [])))

/-- The memory controller has noted memory errors in a line read (R58 to R61, R121, R368): a single-bit one sets hErrs
bit 3, a double-bit one bit 2; each half line in error counts; the line, and whether an adaptor asked, are recorded;
and the controller halts if an errHalt bit says so. -/
structure errorNoted (old new : MemCtl) (single double : Bool) (count : Nat) (l : LineAddr) (dma : Bool) : Prop where
  hErrs : new.hErrs = old.hErrs ||| (if single then 8#4 else 0#4) ||| (if double then 4#4 else 0#4)
  errCnt : new.errCnt = old.errCnt + count
  errLine : new.errLine = l
  errW : new.errW = dma
  halted : new.halted = (old.halted || (single && old.enable.getLsbD 7) || (double && old.enable.getLsbD 6))
  others : new = { old with hErrs := new.hErrs, errCnt := new.errCnt, errLine := l, errW := dma, halted := new.halted,
                            synHi := new.synHi, synLo := new.synLo }

/-- The two words of a half line as they are delivered: right without an error, and right with a single-bit error that
Enable.c corrects or that lies in a check bit; else the bit that the error names is wrong, and after a double-bit error
they may be anything (R121, U3). -/
def halfDelivered (correct : Bool) (h : Option HalfError) (right got : Word × Word) : Prop :=
  match h with
  | none => got = right
  | some (.check _) => got = right
  | some (.data false b) => got = (if correct then right.1 else right.1 ^^^ (1#32 <<< b.toNat), right.2)
  | some (.data true b) => got = (right.1, if correct then right.2 else right.2 ^^^ (1#32 <<< b.toNat))
  | some (.double _) => True

/-- A line read of the memory controller delivers `v` and leaves the registers `mc` and the coming errors `ecc` (R92,
R104, R121): the Boot-Prom's line; or zeros of a vacant module with a single-bit error; or main memory's, with the
errors that the model's input lists for this read (log 34). -/
structure lineRead (s : State) (rom dma : Bool) (l : LineAddr) (v : Line) (mc : MemCtl) (ecc : List (Option EccError)) :
    Prop where
  prom : inBootProm rom l = true → v = readLine s.prom l.toNat ∧ mc = s.mc ∧ ecc = s.ecc
  vacant : inBootProm rom l = false → isPopulated s.populated l = false →
    v = { w0 := 0#32, w1 := 0#32, w2 := 0#32, w3 := 0#32 } ∧ errorNoted s.mc mc true false 1 l dma ∧ ecc = s.ecc
  clean : inBootProm rom l = false → isPopulated s.populated l = true → (∀ e, s.ecc.head? ≠ some (some e)) →
    v = readLine s.mem (physicalLine l) ∧ mc = s.mc ∧ ecc = s.ecc.tail
  errors : inBootProm rom l = false → isPopulated s.populated l = true → ∀ e, s.ecc.head? = some (some e) →
    ecc = s.ecc.tail ∧
    halfDelivered (s.mc.enable.getLsbD 8) e.even
      ((readLine s.mem (physicalLine l)).w0, (readLine s.mem (physicalLine l)).w2) (v.w0, v.w2) ∧
    halfDelivered (s.mc.enable.getLsbD 8) e.odd
      ((readLine s.mem (physicalLine l)).w1, (readLine s.mem (physicalLine l)).w3) (v.w1, v.w3) ∧
    (e.even = none → e.odd = none → mc = s.mc) ∧
    (e.even ≠ none ∨ e.odd ≠ none →
      errorNoted s.mc mc (e.has false) (e.has true) (e.even.toList.length + e.odd.toList.length) l dma ∧
      mc.synHi = halfSyndrome e.even ∧ mc.synLo = halfSyndrome e.odd)

/-- Main memory, Boot-Prom, instruction cache and every line of the data cache but `l` are as before; that one is `d`
(R112). -/
structure dataLineBecomes (s t : State) (l : LineAddr) (d : DataLine) : Prop where
  mem : mainMemoryKept s t
  prom : ∀ a, readByte t.prom a = readByte s.prom a
  populated : t.populated = s.populated
  icache : t.icache = s.icache
  line : mapGet t.dcache l.toNat = some d
  others : ∀ k, k ≠ l.toNat → mapGet t.dcache k = mapGet s.dcache k

/-- What a load or a store leaves, whatever it does to memory. -/
structure accessKept (s t : State) : Prop where
  control : goesOn s t (s.npc + 4#32)
  translation : translationKept s t
  slots : t.slots = s.slots
  cp : t.cp = s.cp
  system : systemKept s t
  queue : queueKept s t
  halted : t.halted = s.halted
  stalled : t.stalled = s.stalled

/-! ## Floating point values as rational numbers -/

/-- The value of the accumulator (R298): `(-1)^sign * (frac / 2^63) * 2^exp`. -/
def accumulatorRat (ac : Accumulator) : ℚ :=
  (if ac.sign then -1 else 1) * (ac.frac.toNat : ℚ) * (2 : ℚ) ^ (ac.exp.toInt - 63)

/-- The value of an F word (R297): 0 where the exponent field is 0, else a fraction with the hidden bit, its binary
point left of it, times 2 to the exponent less 128. -/
def fRat (a : Word) : ℚ :=
  if a.extractLsb' 23 8 = 0#8 then 0
  else (if a.getLsbD 31 then -1 else 1) * ((2 ^ 23 + (a.extractLsb' 0 23).toNat : Nat) : ℚ) *
    (2 : ℚ) ^ (((a.extractLsb' 23 8).toNat : ℤ) - 128 - 24)

/-- The value of a G pair (R297): the same with 1024 and 52 fraction bits. -/
def gRat (x : Dword) : ℚ :=
  if x.extractLsb' 52 11 = 0#11 then 0
  else (if x.getLsbD 63 then -1 else 1) * ((2 ^ 52 + (x.extractLsb' 0 52).toNat : Nat) : ℚ) *
    (2 : ℚ) ^ (((x.extractLsb' 52 11).toNat : ℤ) - 1024 - 53)

/-- The exact result of an arithmetic function on the accumulator's value and the operand's (R310). -/
def exactRat (fn : ArithFn) (v x : ℚ) : ℚ :=
  match fn with
  | .add => v + x
  | .subtract => v - x
  | .rsubtract => x - v
  | .multiply => v * x
  | .divide => v / x
  | .rdivide => x / v

/-- A number that a mantissa of `p` bits and some exponent represent. -/
def representable (p : Nat) (x : ℚ) : Prop := ∃ (m e : ℤ), |m| < 2 ^ p ∧ x = (m : ℚ) * (2 : ℚ) ^ e

/-- A floating operand is reserved (R297, R332): sign 1 and exponent field 0, in the input format of the operation. -/
def reservedOperandP (m : FloatFormat) (a : Word) : Prop :=
  a.getLsbD 31 = true ∧ (if m.inputG then a.extractLsb' 20 11 = 0#11 else a.extractLsb' 23 8 = 0#8)

/-- A floating accumulator in normal form with `p` significant bits (R298, R311): zero, or hidden bit 62 set, bit 63
clear and the bits below the precision 0. -/
def floatNormal (p : Nat) (ac : Accumulator) : Prop :=
  ac = Accumulator.zero ∨ (2 ^ 62 ≤ ac.frac.toNat ∧ ac.frac.toNat < 2 ^ 63 ∧ 2 ^ (63 - p) ∣ ac.frac.toNat)

end Sys2Proof.Machine
end

