-- ==== Sys2Proof/Certificates/Slice0/Obligations.lean ====
section
/-!
DEFINITION. The statements for the provers. Each docstring names the rule of spec/ a statement formalises; where a
statement rests on a choice of the model's own, it names the log entry.
-/
section
open Sys2Proof Sys2Proof.Machine

/-! ## Encoding -/

/-- Words that spec/95_test_vectors.md writes out from R132, R133 and the field rules decode to their instruction, bytes
in memory order (R81). They are words under the default parameters of R131, which the model takes at reset (log 1). -/
def Obligations.DecodeWords : Prop :=
  ∀ e : Encoding, e = Encoding.standard →
  decodeWith e [0x10#8, 0x30#8, 0x03#8, 0x00#8] = .ok (.ioRead 0#6 0x30#6) ∧
  decodeWith e [0x10#8, 0x81#8, 0x01#8, 0x15#8] = .ok (.readDataTlbTag1 2#6 1#6) ∧
  decodeWith e [0x7F#8, 0x81#8, 0x00#8, 0x00#8] = .ok (.goto 62#6 1#6 0#16) ∧
  decodeWith e [0x81#8, 0x50#8, 0xFF#8, 0xFC#8] = .ok (.cjumpLt 5#6 0xFFFC#16) ∧
  decodeWith e [0x90#8, 0x41#8, 0x07#8, 0x9D#8] = .ok (.extract 1#6 1#6 1#6 3 29) ∧
  decodeWith e [0xA0#8, 0x40#8, 0x00#8, 0x60#8] = .ok (.aluNot false 1#6 0#6 0#6) ∧
  decodeWith e [0xA0#8, 0x00#8, 0x02#8, 0x68#8] = .ok (.aluMova true 0#6 0#6 0#6) ∧
  decodeWith e [0xB0#8, 0x42#8, 0x03#8, 0xE0#8] = .ok (.copLoadGf .null 1#6 2#6 0#6) ∧
  decodeWith e [0x40#8, 0x01#8, 0x00#8, 0x01#8] = .ok (.flush 0#6 1#6 1#16) ∧
  decodeWith e [0xC0#8, 0x00#8, 0x00#8, 0x3F#8] = .ok (.trap 0#6 0#6 63#6)

/-- Decode and encode agree under every choice of the encoding parameters of R131: every well-formed instruction, with
every operand at every value its fields admit, decodes from the bytes of its word, whatever follows them (R130 to
R143; the arrangement that the parameters permute is log 1's). -/
def Obligations.DecodeEncode : Prop :=
  ∀ (e : Encoding) (i : Instr) (rest : List Byte), e.valid = true → i.wellFormed = true →
    decodeWith e (bytesOfWord (encodeWith e i) ++ rest) = .ok i

/-- What the decoder reads is an instruction the encoding admits, whatever the parameters are: counts of shift 0 to 31
and size 1 to 32 (R139, R141). -/
def Obligations.DecodedWellFormed : Prop :=
  ∀ (e : Encoding) (bytes : List Byte) (i : Instr), decodeWith e bytes = .ok i → i.wellFormed = true

/-- A word whose opcode is special's 1 (R134) is described exactly if its function field is one of the 25 codes of
R135 to R137, in the default arrangement (the cache-read codes are the defaults of log 1); every other function is
rejected by name (R157). -/
def Obligations.SpecialFunctionCodes : Prop :=
  ∀ w : Word, opField w = 1#4 →
    ((∃ i, decodeWord w = .instr i) ↔
      dispField w ∈ [0x000#16, 0x040#16, 0x280#16, 0x0C3#16, 0x103#16, 0x0C1#16, 0x0D5#16, 0x101#16, 0x115#16, 0x0C0#16,
        0x0D4#16, 0x100#16, 0x114#16, 0x207#16, 0x20D#16, 0x247#16, 0x24D#16, 0x20B#16, 0x20E#16, 0x24B#16, 0x24E#16,
        0x080#16, 0x2C0#16, 0x300#16, 0x340#16]) ∧
    ((∀ i, decodeWord w ≠ .instr i) → decodeWord w = .undescribed (.special (raField w) (rbField w) (dispField w)))

/-! ## Reset -/

/-- The state right after reset: the PSW bits and addresses of R460, no register or translation buffer entry written
(R24, R47), empty caches (R461), Enable 0, the lock free, nothing halted or waiting (R462, R69). That no adaptor
interrupts is decision D38 for TMA, TDA and TFA (R423, R427, R433); which adaptors are installed, and that one the spec
does not describe would not interrupt either, is the model's own choice (log 10, log 11). -/
def Obligations.ResetState : Prop :=
  State.reset.pc = 0x00001000#32 ∧ State.reset.npc = 0x00001004#32 ∧
  State.reset.psw.rom = true ∧ State.reset.psw.krn = true ∧ State.reset.psw.pre = true ∧
  State.reset.psw.par = true ∧ State.reset.psw.imp = true ∧ State.reset.psw.dmp = true ∧
  State.reset.psw.prv = false ∧ State.reset.rr = none ∧ State.reset.halted = none ∧ State.reset.stalled = false ∧
  State.reset.pend1 = none ∧ State.reset.pend2 = none ∧ State.reset.pend3 = none ∧
  (∀ i, State.reset.mark i = .unwritten) ∧
  (∀ b ∈ [State.reset.itlb, State.reset.dtlb], ∀ col wa pid,
    (tlbEntry b col wa pid).tagParity = .unwritten ∧ (tlbEntry b col wa pid).dataParity = .unwritten) ∧
  State.reset.icache = [] ∧ State.reset.dcache = [] ∧ State.reset.mc.enable = 0#32 ∧
  State.reset.mc.lock = .none ∧ State.reset.mc.halted = false ∧ interruptLines State.reset.slots = 0#7

/-- The invariant holds after reset (R26, R29, R36, R111). -/
def Obligations.ResetInvariant : Prop := State.reset.Inv

/-- A processor reset from outside, at any time (R460 to R462), whether from the panel or by a clock/scan packet with
the Boot bit (R438, R440): the PSW bits and addresses as after reset, no register or translation buffer entry written
yet (R24, R47), both caches empty with their dirty lines lost, main memory, Boot-Prom and Event.hErrs kept, Enable 0,
the lock free, nothing halted or waiting; the adaptors are reset (R408), and that none then interrupts is decision D38
for TMA, TDA and TFA and the model's own choice for an adaptor that the spec does not describe (log 11). Adaptors that
the diagnostic stop holds suppress the reset (R408). What the source leaves unspecified is free (log 52). A packet
without Boot and without scan activity sets the module's registers and the stop signals (R439, places of log 68), and is
answered (R438); a processor that waited for a stopped memory controller goes on once that runs (log 64). A repeated
packet is answered again, and a broadcast is discarded; one that scans or steps stopped clocks is refused (D39, log 64).
-/
def Obligations.ResetEvent : Prop :=
  ∀ (s : State) (p : CsmPacket),
    (∀ e, e = .reset ∨ (e = .csm p ∧ csmDiscards p = false ∧ csmRepeats s.csm p = false ∧
        csmScans s.lay s.csm p = false ∧ (csmModeB s.lay p.endModeB).boot = true) →
      ∃ t, applyEvent e s = .next t ∧
        t.pc = 0x00001000#32 ∧ t.npc = 0x00001004#32 ∧ t.psw.rom = true ∧ t.psw.krn = true ∧ t.psw.pre = true ∧
        t.psw.par = true ∧ t.psw.imp = true ∧ t.psw.dmp = true ∧ t.psw.prv = false ∧ t.rr = none ∧ t.halted = none ∧
        t.stalled = false ∧ t.pend1 = none ∧ t.pend2 = none ∧ t.pend3 = none ∧ (∀ i, t.mark i = .unwritten) ∧
        (∀ b ∈ [t.itlb, t.dtlb], ∀ col wa pid,
          (tlbEntry b col wa pid).tagParity = .unwritten ∧ (tlbEntry b col wa pid).dataParity = .unwritten) ∧
        t.icache = [] ∧ t.dcache = [] ∧ mainMemoryKept s t ∧ (∀ a, readByte t.prom a = readByte s.prom a) ∧
        t.mc.hErrs = s.mc.hErrs ∧ t.mc.enable = 0#32 ∧ t.mc.halted = false ∧ t.mc.lock = .none ∧
        (s.csm.ioStopped = false → interruptLines t.slots = 0#7) ∧ (s.csm.ioStopped = true → t.slots = s.slots)) ∧
    (csmDiscards p = true → applyEvent (.csm p) s = .next s) ∧
    (csmDiscards p = false → csmRepeats s.csm p = true →
      applyEvent (.csm p) s = .next { s with csm := { s.csm with sent := s.csm.sent + 1 } }) ∧
    (csmDiscards p = false → csmRepeats s.csm p = false →
      (csmScans s.lay s.csm p = true → applyEvent (.csm p) s = .refused .scanActivity) ∧
      (csmScans s.lay s.csm p = false → (csmModeB s.lay p.endModeB).boot = false →
        ∀ a, a = csmModeA s.lay p.endModeA →
        ∃ c r, applyEvent (.csm p) s =
            .next { s with csm := c, stalled := s.stalled && (s.mc.halted || c.mcStopped) } ∧
          c.cpuStopped = !a.runCpu ∧ c.mcStopped = !a.runMc ∧ c.ioStopped = !a.runIo ∧
          (c.nsStopped = none ↔ a.runNs = true) ∧ c.reply = some r ∧ c.sent = s.csm.sent + 1 ∧
          c.last = some (p.src, p.seqNumber) ∧ c.modeA = p.endModeA ∧ c.modeB = p.endModeB ∧ c.go = p.go ∧
          r.dest = p.src ∧ r.src = p.dest ∧ r.type = 0x803A#16 ∧ r.header = p.header ∧ r.version = 3#8 ∧
          r.systemStatus = Config.csmSystemStatus s.halted.isSome s.mc.halted))

/-! ## The step -/

/-- Every step keeps the invariant: instruction addresses and the pc-queue stay aligned (R26, R29), krn stays the shadow
of pre (R35, R36), memory keeps its canonical form and the caches their order, whatever the environment does. -/
def Obligations.StepKeepsInvariant : Prop := ∀ s t : State, s.Inv → step s = .next t → t.Inv

/-- A step runs the decoded instruction (R27): where the environment leaves the state `u`, the fetch at pc reads a
word whose bytes decode to `i` under the state's encoding parameters, nothing that is read has a parity error, the
ICAR phase admits it, its successor has a translation and no request is delivered, the step is `exec i` on the fetched
state. In kernel mode requests are ignored (R36, R355). -/
def Obligations.StepRunsDecoded : Prop :=
  ∀ (s u t : State) (w rwa : Word) (i : Instr),
    environment s = .next u → u.frozen = false → u.stalled = false → fetchParityHalts u = false →
    fetch u = .word w t → decodeWith u.enc (bytesOfWord w) = .ok i → icarAdmits t.icar (.instr i) = true →
    parityHalts (.instr i) t = false → successorReference t = .real rwa →
    (t.eff.krn = true ∨ (t.extReq = false ∧ t.copReq = false)) → step s = exec i t

/-- A fetch (R114) reads the word from the instruction cache where it holds the line; else the memory controller reads
the line (R91, R92, R104, R121), which is then in the cache with good parity, beside the lines it held; a parity error
on the bus spoils one word of it, which the cache then holds with bad parity (R120, log 28). Stores in the data cache
are not seen. Nothing else changes, but for the model's own counter `fresh`. With the memory controller halted, or
stopped (log 64), a line that is not there is waited for (R368). That an error comes is an input of the model (log 34,
log 28). -/
def Obligations.FetchReads : Prop :=
  ∀ (s : State) (rwa : Word), instReference s.itlb s.psw (s.pc >>> 2) = .real rwa →
    (∀ l, mapGet s.icache (lineOf rwa).toNat = some l →
      fetch s = .word (lineGet l.line (wordInLine rwa)) { s with fresh := s.fresh + 1 }) ∧
    (mapGet s.icache (lineOf rwa).toNat = none → s.mcDown = true → fetch s = .stalled) ∧
    (mapGet s.icache (lineOf rwa).toNat = none → s.mcDown = false →
      ∃ c v mc ecc d, lineRead s s.psw.rom false (lineOf rwa) v mc ecc ∧
        (s.busInst = none → d = { line := v, bad := 0#4, tagBad := false }) ∧
        (∀ b, s.busInst = some b →
          d = { line := lineSet v b.k b.v, bad := 1#4 <<< b.k.toNat, tagBad := false }) ∧
        (∀ l, l ≠ (lineOf rwa).toNat → mapGet c l = mapGet s.icache l) ∧ mapGet c (lineOf rwa).toNat = some d ∧
        fetch s = .word (lineGet d.line (wordInLine rwa))
          { s with icache := c, mc := mc, ecc := ecc, fresh := s.fresh + 1 })

/-- A halted processor executes no further instruction and does not change (R365): short of a reset from the panel and
of a clock/scan packet with the Boot bit (R440), a step leaves the halt record, the addresses, the PSW, every
register, RR, both translation buffers, both caches, the coprocessor with its clock, the fault registers and the
pc-queue. -/
def Obligations.HaltedStays : Prop :=
  ∀ (s t : State) (h : HaltRecord), s.halted = some h →
    (∀ i, s.inputs.head? = some i → ∀ e ∈ i.events, e ≠ .reset ∧
      ∀ p, e = .csm p → csmDiscards p = true ∨ (csmModeB s.lay p.endModeB).boot = false) → step s = .next t →
    t.halted = some h ∧ t.pc = s.pc ∧ t.npc = s.npc ∧ t.psw = s.psw ∧ regsKept s t ∧ t.rr = s.rr ∧
    translationKept s t ∧ t.icache = s.icache ∧ t.dcache = s.dcache ∧ t.cp = s.cp ∧ t.itfr = s.itfr ∧ t.dtfr = s.dtfr ∧
    t.pc1 = s.pc1 ∧ t.pc2 = s.pc2

/-- In user mode an asserted request suppresses whatever instruction stands at pc and takes the trap (R357, R358):
PSW.ext as the request line is, PSW.cop as its line is or a coprocessor abort of the instruction's own, and beside
them the conditions that the instruction itself contributes (R345, R351); no register or memory is written. That it is
taken at the first boundary and that every condition is reported, where D21 allows a subset, is the model's choice (log
49); so is the literal of a suppressed trap instruction (D17, log 50), and that a data reference which two translations
match contributes none (log 24). -/
def Obligations.InterruptSuppresses : Prop :=
  ∀ (w : Word) (s : State) (rwa : Word), s.userReady → (s.extReq || s.copReq) = true →
    parityHalts (decodeWord w) s = false → successorReference s = .real rwa →
    ∃ t, runWord w s = .next t ∧ trapped s t (ownTrap (decodedTrapClass (decodeWord w)) s) ∧ t.psw.itf = false

/-- An instruction whose successor has no translation (R347): in user mode it is suppressed and the trap has itf set
and the successor's page in ITFR, beside the conditions that the instruction itself contributes (R351); in kernel mode
the processor halts (R365), where the successor is a kernel instruction and no ICAR idiom is under way. That every
condition is reported, where D21 allows a subset, is the model's choice (log 49); so is the literal of a suppressed trap
instruction (D17, log 50), and that a data reference which two translations match contributes none (log 24). The halt
record's addresses and operands follow D32 (log 51). An instruction that itself halts in kernel mode keeps its own
record (R170 to R174, log 51). -/
def Obligations.SuccessorFault : Prop :=
  ∀ (w : Word) (s : State), successorReference s = .noTranslation → parityHalts (decodeWord w) s = false →
    (s.userReady → ∃ t, runWord w s = .next t ∧
      trapped s t { ownTrap (decodedTrapClass (decodeWord w)) s with itf := true, instPage := pageOf (s.npc >>> 2) } ∧
      t.psw.itf = true ∧ t.itfr = pageOf (s.npc >>> 2)) ∧
    (s.eff.krn = true → s.icar = .idle →
      (∀ t, execDecoded (decodeWord w) s = .next t → t.halted ≠ none → runWord w s = .next t) ∧
      (s.nextPsw.krn = true → (∀ t, execDecoded (decodeWord w) s = .next t → t.halted = none) →
        ∃ t, runWord w s = .next t ∧ haltedBy s t .itf (raField w) (rbField w)))

/-! ## Registers -/

/-- Reading a register field (R21, R22): r0 is the address of the instruction itself, but in the second instruction
after a special (R474); any other field is the register of the bank that PSW.ra or PSW.rb selects. A move of rb copies
from the bank PSW.rb to the bank PSW.ra, with good parity (R24). -/
def Obligations.RegisterBanks : Prop :=
  ∀ (s : State) (n : RegField),
    (n = 0#6 → s.hist.special2 = false → s.readA n = s.pc ∧ s.readB n = s.pc) ∧
    (n ≠ 0#6 → s.readA n = s.reg (s.eff.ra ++ n) ∧ s.readB n = s.reg (s.eff.rb ++ n)) ∧
    ∀ (lit : Bool) (ra rb rc : RegField), rb ≠ 0#6 → rc ≠ 0#6 →
      ∃ t, exec (.aluMovb lit ra rb rc) s = .next t ∧ t.reg (s.eff.ra ++ rc) = s.reg (s.eff.rb ++ rb) ∧
        t.mark (s.eff.ra ++ rc) = .good ∧ ∀ i, i ≠ s.eff.ra ++ rc → t.reg i = s.reg i ∧ t.mark i = s.mark i

/-- A write of r0 is discarded, RR is still loaded (R23): so with a move, with the null instruction, and with a goto
whose link register is r0. -/
def Obligations.RegisterZeroDiscards : Prop :=
  ∀ (s : State) (v : Word), s.writeA 0#6 v = s ∧
    (∀ (lit : Bool) (ra rb : RegField),
      ∃ t, exec (.aluMova lit ra rb 0#6) s = .next t ∧ regsKept s t ∧ t.rr = some (s.aluA lit ra)) ∧
    (∃ t, exec (.aluZero true 0#6 0#6 0#6) s = .next t ∧ regsKept s t ∧ t.rr = some 0#32) ∧
    (∀ (rb : RegField) (disp : BitVec 16),
      ∃ t, exec (.goto 0#6 rb disp) s = .next t ∧ regsKept s t ∧ t.rr = some s.pcRead)

/-! ## Extract and ALU -/

/-- The eight arithmetic functions (R267, R268), modulo 2^32; the A operand is the field itself with the literal bit
(R265). Nothing else changes. -/
def Obligations.AluArithmetic : Prop :=
  ∀ (lit : Bool) (ra rb rc : RegField) (s : State) (a b : Word),
    a = (if lit then ra.setWidth 32 else s.readA ra) → b = s.readB rb →
    yields (.aluAdd lit ra rb rc) s rc (a + b) ∧ yields (.aluAdd1 lit ra rb rc) s rc (a + b + 1#32) ∧
    yields (.aluRsub lit ra rb rc) s rc (b - a) ∧ yields (.aluRsub1 lit ra rb rc) s rc (b - a - 1#32) ∧
    yields (.aluSub lit ra rb rc) s rc (a - b) ∧ yields (.aluSub1 lit ra rb rc) s rc (a - b - 1#32) ∧
    yields (.aluNeg lit ra rb rc) s rc (-a) ∧ yields (.aluNegm1 lit ra rb rc) s rc (-a - 1#32)

/-- The eight comparisons (R272): the sign bit of the result is 1 exactly if the relation holds, signed or unsigned; the
other bits are whatever they are (U22, log 55). Nothing else changes. -/
def Obligations.AluCompare : Prop :=
  ∀ (lit : Bool) (ra rb rc : RegField) (s : State) (a b : Word),
    a = (if lit then ra.setWidth 32 else s.readA ra) → b = s.readB rb →
    (∃ v, yields (.aluGt lit ra rb rc) s rc v ∧ v.msb = decide (a.toInt > b.toInt)) ∧
    (∃ v, yields (.aluGtu lit ra rb rc) s rc v ∧ v.msb = decide (a.toNat > b.toNat)) ∧
    (∃ v, yields (.aluGe lit ra rb rc) s rc v ∧ v.msb = decide (a.toInt ≥ b.toInt)) ∧
    (∃ v, yields (.aluGeu lit ra rb rc) s rc v ∧ v.msb = decide (a.toNat ≥ b.toNat)) ∧
    (∃ v, yields (.aluLt lit ra rb rc) s rc v ∧ v.msb = decide (a.toInt < b.toInt)) ∧
    (∃ v, yields (.aluLtu lit ra rb rc) s rc v ∧ v.msb = decide (a.toNat < b.toNat)) ∧
    (∃ v, yields (.aluLe lit ra rb rc) s rc v ∧ v.msb = decide (a.toInt ≤ b.toInt)) ∧
    (∃ v, yields (.aluLeu lit ra rb rc) s rc v ∧ v.msb = decide (a.toNat ≤ b.toNat))

/-- The logical functions and moves (R269), bit by bit. Nothing else changes. -/
def Obligations.AluLogical : Prop :=
  ∀ (lit : Bool) (ra rb rc : RegField) (s : State) (a b : Word),
    a = (if lit then ra.setWidth 32 else s.readA ra) → b = s.readB rb →
    (∃ v, yields (.aluEqv lit ra rb rc) s rc v ∧ ∀ i < 32, v.getLsbD i = (a.getLsbD i == b.getLsbD i)) ∧
    (∃ v, yields (.aluXor lit ra rb rc) s rc v ∧ ∀ i < 32, v.getLsbD i = (a.getLsbD i != b.getLsbD i)) ∧
    (∃ v, yields (.aluOr lit ra rb rc) s rc v ∧ ∀ i < 32, v.getLsbD i = (a.getLsbD i || b.getLsbD i)) ∧
    (∃ v, yields (.aluAnd lit ra rb rc) s rc v ∧ ∀ i < 32, v.getLsbD i = (a.getLsbD i && b.getLsbD i)) ∧
    (∃ v, yields (.aluNot lit ra rb rc) s rc v ∧ ∀ i < 32, v.getLsbD i = !a.getLsbD i) ∧
    yields (.aluMovb lit ra rb rc) s rc b ∧ yields (.aluMova lit ra rb rc) s rc a ∧
    yields (.aluZero lit ra rb rc) s rc 0#32

/-- Extract (R260), bit by bit: bit `i` of the result is bit `shift + i` of the pair ra, rb for `i` below mask, else 0.
Nothing else changes. -/
def Obligations.ExtractField : Prop :=
  ∀ (ra rb rc : RegField) (shift mask : Nat) (s : State), shift ≤ 31 → 1 ≤ mask → mask ≤ 32 →
    ∃ v, yields (.extract ra rb rc shift mask) s rc v ∧
      ∀ i < 32, v.getLsbD i = (decide (i < mask) && (s.readA ra ++ s.readB rb).getLsbD (shift + i))

/-- Variable extract (R276) and byte extract (R278), bit by bit: the shift is 31 less the low 5 bits of the A operand,
or 8 times the byte's place, counted from the most significant byte without inv and from the least with it. Nothing
else changes. -/
def Obligations.VariableExtract : Prop :=
  ∀ (lit inv : Bool) (ra rb rc : RegField) (size : Nat) (s : State) (a b : Word), 1 ≤ size → size ≤ 32 →
    a = (if lit then ra.setWidth 32 else s.readA ra) → b = s.readB rb →
    (∃ v, yields (.aluVext lit ra rb rc size) s rc v ∧
      ∀ i < 32, v.getLsbD i = (decide (i < size) && (a ++ b).getLsbD (31 - a.toNat % 32 + i))) ∧
    (∃ v, yields (.aluBext lit ra rb rc inv size) s rc v ∧
      ∀ i < 32, v.getLsbD i = (decide (i < size) &&
        (a ++ b).getLsbD ((if inv then 8 * (a.toNat % 4) else 24 - 8 * (a.toNat % 4)) + i)))

/-! ## Load address and jumps -/

/-- Load address (R243): the effective address (R240), a word address modulo 2^32, in RR and ra. Nothing else changes.
-/
def Obligations.LoadAddress : Prop :=
  ∀ (ra rb : RegField) (disp : BitVec 16) (s : State),
    yields (.loadAddress ra rb disp) s ra ((s.readB rb >>> 2) + disp.signExtend 32)

/-- goto (R250): RR and ra take the address of the goto, the next instruction executes, and the one after it is at the
effective address; the base is read before the link is written. Nothing else changes. A branch in the delay slot of a
branch (R253): w branches to z and x to y; the execution sequence is w, x, z, y. -/
def Obligations.Goto : Prop :=
  ∀ (ra rb : RegField) (disp : BitVec 16) (s : State),
    ∃ t, exec (.goto ra rb disp) s = .next t ∧
      resultOnly s t ra s.pcRead (((s.readB rb >>> 2) + disp.signExtend 32) <<< 2) ∧
      (s.hist.special2 = false → t.rr = some s.pc) ∧
      ∀ (ra' rb' : RegField) (disp' : BitVec 16),
        ∃ u, exec (.goto ra' rb' disp') t = .next u ∧ t.pc = s.npc ∧
          u.pc = ((s.readB rb >>> 2) + disp.signExtend 32) <<< 2 ∧
          u.npc = ((t.readB rb' >>> 2) + disp'.signExtend 32) <<< 2

/-- The eight conditional jumps (R255, R256): ra's relation to zero decides whether the instruction after the next is
at pc plus the displacement in words, or in sequence; no register is written and RR is not loaded. Unless
the special before it wrote ra, or a special stands two before it (R257, R472, R474), the value tested is ra's and the
target is pc's; there they are free (log 18, log 19), and the jump still completes. -/
def Obligations.ConditionalJump : Prop :=
  ∀ (ra : RegField) (disp : BitVec 16) (s : State), aligned s.pc →
    ∀ p ∈ [(Instr.cjumpEq ra disp, decide ((s.readA ra).toInt = 0)),
      (.cjumpNe ra disp, decide ((s.readA ra).toInt ≠ 0)),
      (.cjumpLt ra disp, decide ((s.readA ra).toInt < 0)), (.cjumpGe ra disp, decide ((s.readA ra).toInt ≥ 0)),
      (.cjumpGt ra disp, decide ((s.readA ra).toInt > 0)), (.cjumpLe ra disp, decide ((s.readA ra).toInt ≤ 0)),
      (.cjumpOdd ra disp, decide ((s.readA ra).toNat % 2 = 1)),
      (.cjumpEven ra disp, decide ((s.readA ra).toNat % 2 = 0))],
    ∃ t, exec p.1 s = .next t ∧ regsKept s t ∧ t.rr = none ∧ restKept s t ∧ t.pc = s.npc ∧
      (¬(s.hist.last.special = true ∧ ra ≠ 0#6 ∧ s.hist.last.wrote = some (s.raIndex ra)) → s.hist.special2 = false →
        t.npc = if p.2 then s.pc + 4#32 * disp.signExtend 32 else s.npc + 4#32)

/-! ## Memory -/

/-- The translation of a data reference (R96 to R99): with data mapping off the address itself; with it on the entries
of the row that low page and pid select, of which the one that matches gives the real page, none a fault, and a store
to a page that is not writable a violation. Two valid matches are refused (U1, log 24). Instruction references are the
same without write protection. -/
def Obligations.TranslationLookup : Prop :=
  ∀ (b : Tlb) (p : Psw) (wa : Word) (store : Bool) (row : Nat) (e0 e1 : TlbEntry),
    row = ((wa.extractLsb' 10 9).toNat / 256) * 256 + ((wa.extractLsb' 10 9).toNat + 4 * p.pid.toNat) % 256 →
    b.col0[row]? = some e0 → b.col1[row]? = some e1 →
    ∀ hit : TlbEntry → Prop, (∀ e, hit e ↔ e.pid = p.pid ∧ e.tag = wa.extractLsb' 19 13 ∧ e.invalid = false) →
    (p.dmp = true → dataReference b p wa store = .real wa) ∧ (p.imp = true → instReference b p wa = .real wa) ∧
    (p.dmp = false →
      (¬hit e0 → ¬hit e1 → dataReference b p wa store = .noTranslation) ∧
      (hit e0 → hit e1 → dataReference b p wa store = .ambiguous) ∧
      ∀ e, (e = e0 ∧ hit e0 ∧ ¬hit e1) ∨ (e = e1 ∧ hit e1 ∧ ¬hit e0) →
        dataReference b p wa store =
          if store = true ∧ e.writable = false then .readOnly else .real (e.rpn ++ wa.extractLsb' 0 10)) ∧
    (p.imp = false →
      (¬hit e0 → ¬hit e1 → instReference b p wa = .noTranslation) ∧
      (hit e0 → hit e1 → instReference b p wa = .ambiguous) ∧
      ∀ e, (e = e0 ∧ hit e0 ∧ ¬hit e1) ∨ (e = e1 ∧ hit e1 ∧ ¬hit e0) →
        instReference b p wa = .real (e.rpn ++ wa.extractLsb' 0 10))

/-- load (R241, R112): RR and ra take the word at the effective address as the data side sees it; a line that the data
cache lacks comes in clean, and nothing else of memory changes. -/
def Obligations.Load : Prop :=
  ∀ (ra rb : RegField) (disp : BitVec 16) (s : State) (ea rwa : Word),
    ea = (s.readB rb >>> 2) + disp.signExtend 32 → dataReference s.dtlb s.eff ea false = .real rwa →
    s.lineReady (lineOf rwa) →
    ∃ t, exec (.load ra rb disp) s = .next t ∧ regWritten s t ra (seenWord s s.eff.rom rwa) ∧
      t.rr = some (seenWord s s.eff.rom rwa) ∧ accessKept s t ∧ t.mc = s.mc ∧ runKept s t ∧
      (s.hasDataLine (lineOf rwa) = true → memoryKept s t) ∧
      (s.hasDataLine (lineOf rwa) = false →
        dataLineBecomes s t (lineOf rwa) { line := seenLine s s.eff.rom (lineOf rwa), dirty := false,
                                            bad := 0#4, tagBad := false }) ∧
      ∀ a, seenWord t s.eff.rom a = seenWord s s.eff.rom a

/-- store (R242, R112): the word at the effective address becomes ra's value in the data cache, whose line is dirty;
its parity is good (R120), main memory is not updated, no register is written and RR is not loaded. Every other word
reads as before. -/
def Obligations.Store : Prop :=
  ∀ (ra rb : RegField) (disp : BitVec 16) (s : State) (ea rwa : Word),
    ea = (s.readB rb >>> 2) + disp.signExtend 32 → dataReference s.dtlb s.eff ea true = .real rwa →
    s.lineReady (lineOf rwa) →
    ∃ t, exec (.store ra rb disp) s = .next t ∧ regsKept s t ∧ t.rr = none ∧ accessKept s t ∧ t.mc = s.mc ∧
      runKept s t ∧
      (∃ l b, dataLineBecomes s t (lineOf rwa)
          { line := l, dirty := true, bad := b, tagBad := s.dataTagBad (lineOf rwa) } ∧
        b.getLsbD (wordInLine rwa).toNat = false) ∧
      seenWord t s.eff.rom rwa = s.readA ra ∧ ∀ a, a ≠ rwa → seenWord t s.eff.rom a = seenWord s s.eff.rom a

/-- A load returns the value of the store before it to the same real word address (R113), whatever virtual address
either used. -/
def Obligations.StoreThenLoad : Prop :=
  ∀ (ra rb ra' rb' : RegField) (disp disp' : BitVec 16) (s t : State) (rwa : Word),
    dataReference s.dtlb s.eff ((s.readB rb >>> 2) + disp.signExtend 32) true = .real rwa →
    exec (.store ra rb disp) s = .next t → ¬(s.mcDown = true ∧ s.hasDataLine (lineOf rwa) = false) →
    dataReference t.dtlb t.eff ((t.readB rb' >>> 2) + disp'.signExtend 32) false = .real rwa →
    ∃ u, exec (.load ra' rb' disp') t = .next u ∧ u.rr = some (s.readA ra) ∧ regWritten t u ra' (s.readA ra)

/-- A load or store that misses reads its line of the memory controller, whatever that read meets (R92, R104, R112,
R121, R60, R61): a vacant module reads zeros with a single-bit error; an error in either half line is noted with its
syndromes, and a single-bit one corrected if Enable.c is set; the controller halts exactly if the errHalt bit of an
error is set (R59, R368). The syndrome of a single-bit error names its data bit or check bit by the table of R64,
which gives `Synd[5:0]` of a data bit and the whole syndrome of a check bit. That a half line is words 0, 2 or words
1, 3, that each half line in error counts, that the even half's syndrome is SynHi, and that `Synd[7]` of a data bit is
1 are the model's inferences (log 34). The load takes the word delivered; the store puts its word into the line
delivered. A parity error on the bus spoils one word of the line, which the cache then holds with bad parity (R120,
log 28; with PSW.par clear the step halts instead). That an error comes is an input of the model (log 34, log 28). -/
def Obligations.LoadErrors : Prop :=
  ∀ (ra rb : RegField) (disp : BitVec 16) (s : State) (ea rwa : Word),
    ea = (s.readB rb >>> 2) + disp.signExtend 32 → s.hasDataLine (lineOf rwa) = false → s.mcDown = false →
    s.dirtyPromMiss (lineOf rwa) = false →
    (∃ v mc ecc d, lineRead s s.eff.rom false (lineOf rwa) v mc ecc ∧
      (s.busData = none → d = { line := v, dirty := false, bad := 0#4, tagBad := false }) ∧
      (∀ b, s.busData = some b →
        d = { line := lineSet v b.k b.v, dirty := false, bad := 1#4 <<< b.k.toNat, tagBad := false }) ∧
      (dataReference s.dtlb s.eff ea false = .real rwa →
        ∃ t, exec (.load ra rb disp) s = .next t ∧ regWritten s t ra (lineGet d.line (wordInLine rwa)) ∧
          t.rr = some (lineGet d.line (wordInLine rwa)) ∧ accessKept s t ∧ t.mc = mc ∧ t.ecc = ecc ∧
          dataLineBecomes s t (lineOf rwa) d) ∧
      (dataReference s.dtlb s.eff ea true = .real rwa →
        ∃ t, exec (.store ra rb disp) s = .next t ∧ regsKept s t ∧ t.rr = none ∧ accessKept s t ∧ t.mc = mc ∧
          t.ecc = ecc ∧
          dataLineBecomes s t (lineOf rwa)
            { line := lineSet d.line (wordInLine rwa) (s.readA ra), dirty := true,
              bad := d.bad &&& ~~~(1#4 <<< (wordInLine rwa).toNat), tagBad := false })) ∧
    (∀ p ∈ [(3, 0), (5, 1), (6, 2), (9, 8), (10, 9), (11, 10), (12, 11), (13, 12), (14, 13), (17, 14), (18, 15),
        (19, 16), (20, 17), (21, 18), (22, 19), (24, 20), (25, 21), (26, 4), (28, 5), (33, 24), (34, 25), (35, 26),
        (36, 27), (37, 28), (38, 29), (40, 22), (41, 23), (42, 6), (44, 7), (48, 3), (49, 30), (50, 31)],
      ∀ second : Bool, (HalfError.data second (BitVec.ofNat 5 p.2)).syndrome =
        1#1 ++ (BitVec.ofBool second ++ BitVec.ofNat 6 p.1)) ∧
    ∀ p ∈ [(0#3, 0x81#8), (1#3, 0x82#8), (2#3, 0x84#8), (3#3, 0x88#8), (4#3, 0x90#8), (5#3, 0xA0#8), (6#3, 0xC0#8),
        (7#3, 0x80#8)], (HalfError.check p.1).syndrome = p.2

/-- An instruction that needs the halted memory controller never completes (R67, R368): a load or store that misses,
each I/O special and a flush of a dirty line, where they are privileged, change nothing, and the processor waits; once
it waits, a step leaves it so, whatever requests rise, short of a reset or a clock/scan packet by the environment. That
the instruction changes nothing but the model's mark `stalled`, that a flush waits before it touches any line, that the
I/O specials wait, and that no trap ends the wait, is the model's inference from R67 and R368 (log 40, DEDUCED). The
same where the clock/scan module has stopped the memory controller (R439, log 64). -/
def Obligations.MemoryControllerHalted : Prop :=
  ∀ (ra rb : RegField) (disp : BitVec 16) (s : State),
    (s.mc.halted = true ∨ s.csm.mcStopped = true →
      (∀ rwa, dataReference s.dtlb s.eff ((s.readB rb >>> 2) + disp.signExtend 32) false = .real rwa →
        s.hasDataLine (lineOf rwa) = false → s.dirtyPromMiss (lineOf rwa) = false →
        exec (.load ra rb disp) s = .next { s with stalled := true }) ∧
      (∀ rwa, dataReference s.dtlb s.eff ((s.readB rb >>> 2) + disp.signExtend 32) true = .real rwa →
        s.hasDataLine (lineOf rwa) = false → s.dirtyPromMiss (lineOf rwa) = false →
        exec (.store ra rb disp) s = .next { s with stalled := true }) ∧
      (s.mayPrivileged →
        (∀ i ∈ [Instr.getCtl ra rb, .setCtl ra rb, .ioRead ra rb, .ioWrite ra rb],
          exec i s = .next { s with stalled := true }) ∧
        (s.eff.imp = true → s.eff.dmp = true → (flushAddress s rb disp).getLsbD 0 = true →
          (∃ e ∈ s.dcache, flushCovers (flushAddress s rb disp) e.1 = true ∧ e.2.dirty = true) →
          exec (.flush ra rb disp) s = .next { s with stalled := true }))) ∧
    ∀ t, s.stalled = true → (∀ i, s.inputs.head? = some i → Event.reset ∉ i.events ∧ ∀ p, Event.csm p ∉ i.events) →
      step s = .next t →
      t.stalled = true ∧ t.pc = s.pc ∧ t.npc = s.npc ∧ t.psw = s.psw ∧ t.rr = s.rr ∧ t.pc1 = s.pc1 ∧ t.pc2 = s.pc2

/-- The environment's own accesses to memory (R111, R119, R393, R104): a data line that the cache evicts is written
back if it is dirty and its module is populated, an instruction line is dropped; a write-back that reads a bad tag or
word with PSW.par clear halts the processor instead (R120, R367, log 28). A DMA input writes one line, a DMA output
delivers one to the slot's bus interface, the j-th word transferred being word (a[1:0] + j) mod 4 of the line, from main
memory whatever the caches hold (R115), with the errors that its read meets; a halted or stopped memory controller does
neither (log 29). -/
def Obligations.EnvironmentMemory : Prop :=
  ∀ (s : State) (l : LineAddr) (k : Fin 7) (r : DmaRequest),
    (s.frozen = false → s.mcDown = false → ∀ d, mapGet s.dcache l.toNat = some d →
      (d.dirty = true → d.tagBad = true ∨ d.bad ≠ 0#4 → s.psw.par = false →
        ∃ h, applyEvent (.evictData l) s = .next { s with halted := some h } ∧ h.cause = .parity) ∧
      (d.dirty = false ∨ (d.tagBad = false ∧ d.bad = 0#4) ∨ s.psw.par = true →
      ∃ t, applyEvent (.evictData l) s = .next t ∧ mapGet t.dcache l.toNat = none ∧
        (∀ j, j ≠ l.toNat → mapGet t.dcache j = mapGet s.dcache j) ∧ t.icache = s.icache ∧ t.mc = s.mc ∧
        regsKept s t ∧ (d.dirty = true → isPopulated s.populated l = true → readLine t.mem (physicalLine l) = d.line) ∧
        ∀ a, d.dirty = false ∨ isPopulated s.populated l = false ∨ a / 16 ≠ physicalLine l →
          readByte t.mem a = readByte s.mem a)) ∧
    (s.frozen = false → ∃ t, applyEvent (.evictInst l) s = .next t ∧
      mapGet t.icache l.toNat = none ∧ (∀ j, j ≠ l.toNat → mapGet t.icache j = mapGet s.icache j) ∧
      t.dcache = s.dcache ∧ mainMemoryKept s t) ∧
    (s.psw.rom = false → s.mcDown = false → s.csm.ioStopped = false →
      (∀ addr words, slotTransaction s.slots[k] r s.fresh = some (.write addr words) →
        ∃ t, dmaOne s k r = .next t ∧ t.mc = s.mc ∧ t.icache = s.icache ∧ t.dcache = s.dcache ∧ regsKept s t ∧
          (isPopulated s.populated (lineOf addr) = true → ∀ j : BitVec 2,
            lineGet (readLine t.mem (physicalLine (lineOf addr))) (addr.extractLsb' 0 2 + j) = lineGet words j) ∧
          (∀ a, isPopulated s.populated (lineOf addr) = false ∨ a / 16 ≠ physicalLine (lineOf addr) →
            readByte t.mem a = readByte s.mem a) ∧
          t.slots = s.slots.set k (slotDone s.slots[k] r s.slots[k].latch)) ∧
      ∀ addr, slotTransaction s.slots[k] r s.fresh = some (.read addr) →
        ∃ t v words mc ecc, dmaOne s k r = .next t ∧ lineRead s false true (lineOf addr) v mc ecc ∧ t.mc = mc ∧
          t.ecc = ecc ∧ t.icache = s.icache ∧ t.dcache = s.dcache ∧ regsKept s t ∧ mainMemoryKept s t ∧
          (∀ j : BitVec 2, lineGet words j = lineGet v (addr.extractLsb' 0 2 + j)) ∧
          t.slots = s.slots.set k (slotDone s.slots[k] r words) ∧ t.slots[k].latch = words) ∧
    (s.mcDown = true → ∀ x, slotTransaction s.slots[k] r s.fresh = some x → dmaOne s k r = .next s) ∧
    ∀ (j : Fin 7) (q : DmaRequest) (pending : Vector (Option DmaRequest) 7), k < j →
      (∀ n, pending[n] = if n = k then some r else if n = j then some q else none) →
      applyEvent (.dma pending) s =
        andThen (dmaOne s k r) (fun t =>
          andThen (dmaOne { t with fresh := t.fresh + 1 } j q) (fun u => .next { u with fresh := u.fresh + 1 }))

/-- Data translation fault and write protection violation (R348, R349, R365): in user mode the instruction is
suppressed and the trap has dtf or wpv with the page of the effective address in DTFR; in kernel mode the processor
halts, with the halt record of D32 (log 51). -/
def Obligations.DataFaults : Prop :=
  ∀ (ra rb : RegField) (disp : BitVec 16) (s : State) (ea : Word), ea = (s.readB rb >>> 2) + disp.signExtend 32 →
    ∀ p ∈ [(Instr.load ra rb disp, false), (.store ra rb disp, true)],
      (dataReference s.dtlb s.eff ea p.2 = .noTranslation →
        (s.userReady → ∃ c t, exec p.1 s = .next t ∧ trapped s t c ∧ t.cp = s.cp ∧ c.ill = false ∧ c.itf = false ∧
          c.dtf = true ∧ c.wpv = false ∧ c.arith = false ∧ c.usr = false ∧ t.dtfr = ea.extractLsb' 10 22) ∧
        (s.eff.krn = true → ∃ t, exec p.1 s = .next t ∧ haltedBy s t .dtf ra rb)) ∧
      (dataReference s.dtlb s.eff ea p.2 = .readOnly →
        (s.userReady → ∃ c t, exec p.1 s = .next t ∧ trapped s t c ∧ t.cp = s.cp ∧ c.ill = false ∧ c.itf = false ∧
          c.dtf = false ∧ c.wpv = true ∧ c.arith = false ∧ c.usr = false ∧ t.dtfr = ea.extractLsb' 10 22) ∧
        (s.eff.krn = true → ∃ t, exec p.1 s = .next t ∧ haltedBy s t .wpv ra rb))

/-! ## Trapping instructions -/

/-- abort, undef1, undef2 and trap (R170 to R173, R363): in user mode, whatever PSW.prv is, the trap with ill, or with
usr and the instruction's literal; in kernel mode the processor halts with the operands in AR and BR (R174, R365); for
trap the record is D32's (log 51). -/
def Obligations.Trapping : Prop :=
  ∀ (ra rb : RegField) (disp : BitVec 16) (lit : BitVec 6) (s : State),
    (s.userReady →
      (∀ i ∈ [Instr.abort ra rb disp, .undef1 ra rb disp, .undef2 ra rb disp],
        ∃ t, exec i s = .next t ∧ trapped s t illegalTrap ∧ t.cp = s.cp ∧ t.psw.ill = true ∧ t.psw.usr = false) ∧
      ∃ t c, exec (.trap ra rb lit) s = .next t ∧ trapped s t c ∧ t.cp = s.cp ∧ t.psw.usr = true ∧
        t.psw.literal = lit ∧ c.ill = false ∧ c.itf = false ∧ c.dtf = false ∧ c.wpv = false ∧ c.arith = false) ∧
    (s.eff.krn = true →
      ∀ p ∈ [(Instr.abort ra rb disp, HaltCause.abort), (.undef1 ra rb disp, .undef), (.undef2 ra rb disp, .undef),
        (.trap ra rb lit, .trap)],
      ∃ t, exec p.1 s = .next t ∧ haltedBy s t p.2 ra rb)

/-- Processor parity (R24, R120, R367): with PSW.par set nothing is checked; with it clear, an instruction that reads
something of bad parity halts the processor in either mode, with the record of D32 (log 51), and so does its fetch. So
for a register operand of every extract, ALU and coprocessor instruction, for the part that a translation buffer read
returns and, of a tag read, which reports a match in both columns (R193), the other column's tag, for the entries of a
data reference's row, for a cache tag in the row of a load, store or fetch, for the cache word of a load or fetch, and
for a line that comes over the bus. What nothing has written since reset may halt (D24, log 12); what has good parity
does not. That both register operands count as read where a function uses one or none of them, that both tags of a row
count, and that an instruction which an interrupt or a fault would suppress is checked too, is the model's choice (log
28). A privileged instruction that only traps reads nothing (R180). -/
def Obligations.ParityHalts : Prop :=
  ∀ (w : Word) (s : State) (i : Instr) (ra rb rc : RegField) (disp : BitVec 16),
    (s.eff.par = true → s.nextPsw.par = true → parityHalts (decodeWord w) s = false) ∧
    (s.psw.par = true → fetchParityHalts s = false) ∧
    (fetchParityHalts s = true → ∃ t, runFetched s = .next t ∧ t.halted ≠ none) ∧
    (icarAdmits s.icar (decodeWord w) = true → parityHalts (decodeWord w) s = true →
      ∃ t, runWord w s = .next t ∧ haltedBy s t .parity (raField w) (rbField w)) ∧
    (s.eff.par = false →
      (∀ (r : CopResult) (inv : Bool) (shift size : Nat),
        (rb ≠ 0#6 → s.mark (s.rbIndex rb) = .bad → ∀ lit, ∀ j ∈ aluForms lit ra rb rc inv size,
          parityHalts (.instr j) s = true) ∧
        ((ra ≠ 0#6 ∧ s.mark (s.raIndex ra) = .bad) ∨ (rb ≠ 0#6 ∧ s.mark (s.rbIndex rb) = .bad) →
          ∀ j ∈ Instr.extract ra rb rc shift size :: (aluForms false ra rb rc inv size ++ copForms r ra rb rc),
            parityHalts (.instr j) s = true)) ∧
      (s.mayPrivileged → ∀ inst data : Bool → TlbEntry,
        inst = (fun col => tlbEntry s.itlb col (tlbAddress s rb) s.eff.pid) →
        data = (fun col => tlbEntry s.dtlb col (tlbDataReadAddress s rb) s.eff.pid) →
        (∀ col, ((inst col).tagParity = .bad → parityHalts (.instr (.readInstTlbTag0 ra rb)) s = true ∧
            parityHalts (.instr (.readInstTlbTag1 ra rb)) s = true) ∧
          ((data col).tagParity = .bad → parityHalts (.instr (.readDataTlbTag0 ra rb)) s = true ∧
            parityHalts (.instr (.readDataTlbTag1 ra rb)) s = true)) ∧
        ∀ p ∈ [(Instr.readInstTlbData0 ra rb, inst false), (.readInstTlbData1 ra rb, inst true),
            (.readDataTlbData0 ra rb, data false), (.readDataTlbData1 ra rb, data true)],
          p.2.dataParity = .bad → parityHalts (.instr p.1) s = true) ∧
      (s.eff.dmp = false → ∀ col, (tlbEntry s.dtlb col (s.ea rb disp) s.eff.pid).tagParity = .bad →
        parityHalts (.instr (.load ra rb disp)) s = true ∧ parityHalts (.instr (.store ra rb disp)) s = true) ∧
      ∀ rwa, ∀ p ∈ [(Instr.load ra rb disp, false), (.store ra rb disp, true)],
        dataReference s.dtlb s.eff ((s.readB rb >>> 2) + disp.signExtend 32) p.2 = .real rwa →
        ((∃ e ∈ s.dcache, e.2.tagBad = true ∧ e.1 % 256 = (lineOf rwa).toNat % 256) ∨
          (p.2 = false ∧ ∃ d, mapGet s.dcache (lineOf rwa).toNat = some d ∧
            d.bad.getLsbD (wordInLine rwa).toNat = true) ∨
          (mapGet s.dcache (lineOf rwa).toNat = none ∧ s.mcDown = false ∧ s.busData ≠ none)) →
        parityHalts (.instr p.1) s = true) ∧
    (s.psw.par = false → ∀ rwa, instReference s.itlb s.psw (s.pc >>> 2) = .real rwa →
      ((∃ e ∈ s.icache, e.2.tagBad = true ∧ e.1 % 256 = (lineOf rwa).toNat % 256) ∨
        (∃ d, mapGet s.icache (lineOf rwa).toNat = some d ∧ d.bad.getLsbD (wordInLine rwa).toNat = true) ∨
        (mapGet s.icache (lineOf rwa).toNat = none ∧ s.mcDown = false ∧ s.busInst ≠ none)) →
      fetchParityHalts s = true) ∧
    (trapClass i = .privileged → s.eff.unprivileged = true → s.nextPsw.imp = true →
      parityHalts (.instr i) s = false) ∧
    (s.eff.par = false → s.nextPsw.imp = true → ra ≠ 0#6 → s.mark (s.raIndex ra) = .unwritten →
      parityHalts (.instr (.aluAdd false ra 0#6 rc)) s = Config.unwrittenParity s.fresh) ∧
    (s.nextPsw.imp = true → (∀ x ∈ sources i, ∀ m ∈ x.marks s, m = .good) → parityHalts (.instr i) s = false)

/-! ## Privileged instructions -/

/-- Every special, kernelExit, pseudoCall and flush in user mode without prv (R362, R180): the illegal instruction
trap and nothing else; the I/O control address, memory, translation buffers and coprocessor stay. -/
def Obligations.PrivilegedTraps : Prop :=
  ∀ (i : Instr) (s : State), trapClass i = .privileged → s.userReady → s.eff.prv = false →
    ∃ t c, exec i s = .next t ∧ trapped s t c ∧ t.cp = s.cp ∧ c.ill = true ∧ c.itf = false ∧ c.dtf = false ∧
      c.wpv = false ∧ c.arith = false ∧ c.usr = false

/-- ReadStatus (R181, R33): the PSW in effect, bit by bit, in RR and ra. In user mode with prv, ext and cop show the
request lines (R45), and the other trap bits and the literal are free (log 15). The places of bits 31 to 13 are R33's;
those of the trap bits and of the literal are D11's (log 2), moved as the layout of the state says. -/
def Obligations.ReadStatus : Prop :=
  ∀ (ra rb : RegField) (s : State) (p : Psw), s.lay.valid = true → s.mayPrivileged → p = s.eff →
    ∃ u v, specialYields (.readStatus ra rb) s ra rb u ∧ v = s.lay.psw.get (u.extractLsb' 0 13) ∧
      u.getLsbD 31 = p.rom ∧ u.getLsbD 30 = p.pre ∧ u.getLsbD 29 = p.krn ∧ u.getLsbD 28 = p.prv ∧ u.getLsbD 27 = p.par ∧
      u.extractLsb' 19 8 = p.pid ∧ u.extractLsb' 17 2 = p.ra ∧ u.extractLsb' 15 2 = p.rb ∧ u.getLsbD 14 = p.imp ∧
      u.getLsbD 13 = p.dmp ∧
      (p.krn = true → v.getLsbD 12 = p.ext ∧ v.getLsbD 11 = p.ill ∧ v.getLsbD 10 = p.itf ∧ v.getLsbD 9 = p.dtf ∧
        v.getLsbD 8 = p.wpv ∧ v.getLsbD 7 = p.cop ∧ v.getLsbD 6 = p.usr ∧ v.extractLsb' 0 6 = p.literal) ∧
      (p.krn = false → v.getLsbD 12 = s.extReq ∧ v.getLsbD 7 = s.copReq)

/-- WriteStatus (R184): RR takes ra's value, no register is written, and at word 0 of a line the PSW write starts its
delay; that it does so also where the fetch in its WR stage may miss, the third instruction after it being at or behind a
branch target, is the model's choice (log 14). Elsewhere in a line it is open whether it does (U17, log 14). -/
def Obligations.WriteStatus : Prop :=
  ∀ (ra rb : RegField) (s : State), s.mayPrivileged →
    ∃ t, exec (.writeStatus ra rb) s = .next t ∧ regsKept s t ∧ t.rr = some (s.readA ra) ∧ specialKept s t rb ∧
      translationKept s t ∧ queueKept s t ∧ (s.pend3 = none → t.psw = s.psw) ∧ t.pend2 = s.pend1 ∧ t.pend3 = s.pend2 ∧
      (s.pc.extractLsb' 2 2 = 0#2 → t.pend1 = some (s.readA ra)) ∧ (t.pend1 = some (s.readA ra) ∨ t.pend1 = none)

/-- The delay of a PSW write (R184, R44; what is fetched and executed when: log 13), seen by three nulls after it: the
first two execute under the old PSW; the third is fetched under the old one and executes under the new one but for
krn; the fourth instruction is fetched and executed under the new PSW, krn included. krn, the trap bits and the
literal are not written. That the write happens wherever its successors stand is the model's choice (log 14). -/
def Obligations.WriteStatusDelay : Prop :=
  ∀ (ra rb : RegField) (s t1 : State) (v : Word) (w : Psw) (null : Instr),
    s.mayPrivileged → s.pc.extractLsb' 2 2 = 0#2 → s.pend1 = none → s.pend2 = none → s.pend3 = none →
    v = s.readA ra → null = .aluZero true 0#6 0#6 0#6 → exec (.writeStatus ra rb) s = .next t1 →
    w = { s.psw with
      rom := v.getLsbD 31, pre := v.getLsbD 30, prv := v.getLsbD 28, par := v.getLsbD 27, pid := v.extractLsb' 19 8,
      ra := v.extractLsb' 17 2, rb := v.extractLsb' 15 2, imp := v.getLsbD 14, dmp := v.getLsbD 13 } →
    ∃ t2 t3 t4, exec null t1 = .next t2 ∧ exec null t2 = .next t3 ∧ exec null t3 = .next t4 ∧
      t1.eff = s.psw ∧ t2.eff = s.psw ∧ t2.psw = s.psw ∧ t1.nextPsw = s.psw ∧ t2.nextPsw = s.psw ∧ t3.eff = w ∧
      t3.nextPsw = { w with krn := v.getLsbD 30 } ∧ t4.eff.krn = v.getLsbD 30 ∧
      (s.psw.krn = true → t4.eff = { w with krn := v.getLsbD 30 })

/-- ReadInstTFR and ReadDataTFR in kernel mode (R186, R187): the faulting page in RR and ra, in the format of the
state, a byte address where it is the default (log 25). ReadPcQ in kernel mode (R182): PC2 in RR and ra, PC1 moves
into PC2; what enters PC1 is free (log 16). In user mode with prv what the three read is free (log 16, log 25). -/
def Obligations.TrapRegisterReads : Prop :=
  ∀ (ra rb : RegField) (s : State), s.mayPrivileged →
    (∃ v, specialYields (.readInstTFR ra rb) s ra rb v ∧ (s.eff.krn = true → v = s.lay.tfr.image s.itfr) ∧
      (s.eff.krn = true → s.lay.tfr = .byteAddress → v = s.itfr.setWidth 32 <<< 12)) ∧
    (∃ v, specialYields (.readDataTFR ra rb) s ra rb v ∧ (s.eff.krn = true → v = s.lay.tfr.image s.dtfr) ∧
      (s.eff.krn = true → s.lay.tfr = .byteAddress → v = s.dtfr.setWidth 32 <<< 12)) ∧
    ∃ t v, exec (.readPcQ ra rb) s = .next t ∧ regWritten s t ra v ∧ t.rr = some v ∧ specialKept s t rb ∧
      translationKept s t ∧ systemKept s t ∧ (s.eff.krn = true → v = s.pc2 ∧ t.pc2 = s.pc1)

/-- The eight translation buffer reads (R188 to R193): the row that register rb's address and the pid select, its pid,
tag, invalid and writable bits or its real page number in the high bits of RR and ra. Parity and the match field lie
in the low bits, in a layout the source lost (log 26); that the instruction side reads the uncomplemented entry is log
27's. Where the instruction before wrote rb, or a store came before a data-side read, the row is open (R476, log 20),
and the read still completes. -/
def Obligations.TlbReads : Prop :=
  ∀ (ra rb : RegField) (s : State), s.mayPrivileged →
    ∀ p ∈ [(Instr.readInstTlbTag0 ra rb, s.itlb, false, false, true),
      (.readInstTlbTag1 ra rb, s.itlb, true, false, true),
      (.readInstTlbData0 ra rb, s.itlb, false, false, false), (.readInstTlbData1 ra rb, s.itlb, true, false, false),
      (.readDataTlbTag0 ra rb, s.dtlb, false, true, true), (.readDataTlbTag1 ra rb, s.dtlb, true, true, true),
      (.readDataTlbData0 ra rb, s.dtlb, false, true, false), (.readDataTlbData1 ra rb, s.dtlb, true, true, false)],
    ∃ v, specialYields p.1 s ra rb v ∧
      (s.hist.last.wrote ≠ some (s.rbIndex rb) → (p.2.2.2.1 = true → s.hist.last.store = false) →
        ∀ e, e = tlbEntry p.2.1 p.2.2.1 (s.readB rb >>> 2) s.eff.pid →
          if p.2.2.2.2 then
            v.extractLsb' 24 8 = e.pid ∧ v.extractLsb' 11 13 = e.tag ∧ v.getLsbD 10 = e.invalid ∧
              v.getLsbD 9 = e.writable
          else v.extractLsb' 10 22 = e.rpn)

/-- The eight translation buffer writes (R194 to R198): one entry of one column takes its tag part or its data part
from RR, complemented on the instruction side; every other entry, the other buffer, the registers and RR stay. The row
is that of register rb's address under the pid. Where the instruction before loaded no RR (U14, log 17), or wrote rb
(R476, log 20), the value or the row is open, and the write still completes. So it is on the data side where the
instruction is in word 2 of a memory line, or in the delay slot of a branch to word 3 (R195, R198, R477, log 14). The
parity is good where the low 9 bits of a tag word, or 10 of a data word, are zero; where they are not, that parity
checking "will not work correctly" is in the model a parity that fits or not, freely (log 28, DESIGN CHOICE). -/
def Obligations.TlbWrites : Prop :=
  ∀ (ra rb : RegField) (s : State), s.mayPrivileged →
    ∀ (tag data : Word → TlbEntry → TlbEntry),
    tag = (fun v e => { e with pid := v.extractLsb' 24 8, tag := v.extractLsb' 11 13, invalid := v.getLsbD 10,
                               writable := v.getLsbD 9,
                               tagParity := if v.extractLsb' 0 9 = 0#9 then .good else .unsure }) →
    data = (fun v e => { e with rpn := v.extractLsb' 10 22,
                                dataParity := if v.extractLsb' 0 10 = 0#10 then .good else .unsure }) →
    ∃ r q wa : Word, (∀ x, s.loadedResult = some x → r = x) ∧
    (s.pc.extractLsb' 2 2 ≠ 2#2 → (s.npc + 4#32).extractLsb' 2 2 ≠ 0#2 → q = r) ∧
    (rb = 0#6 ∨ s.hist.last.wrote ≠ some (s.rbIndex rb) → wa = s.readB rb >>> 2) ∧
    (∀ p ∈ [(Instr.writeInstTlbTag0 ra rb, false, tag), (.writeInstTlbTag1 ra rb, true, tag),
        (.writeInstTlbData0 ra rb, false, data), (.writeInstTlbData1 ra rb, true, data)],
      ∃ t, exec p.1 s = .next t ∧ regsKept s t ∧ t.rr = s.rr ∧ specialKept s t rb ∧ systemKept s t ∧ queueKept s t ∧
        t.dtlb = s.dtlb ∧ tlbWritten s.itlb t.itlb p.2.1 wa s.eff.pid (p.2.2 (~~~r))) ∧
    (∀ p ∈ [(Instr.writeDataTlbTag0 ra rb, false, tag), (.writeDataTlbTag1 ra rb, true, tag),
        (.writeDataTlbData0 ra rb, false, data), (.writeDataTlbData1 ra rb, true, data)],
      ∃ t, exec p.1 s = .next t ∧ regsKept s t ∧ t.rr = s.rr ∧ specialKept s t rb ∧ systemKept s t ∧ queueKept s t ∧
        t.itlb = s.itlb ∧ tlbWritten s.dtlb t.dtlb p.2.1 wa s.eff.pid (p.2.2 q))

/-- The ICAR idiom (R183): after an instruction that disturbs the ICAR, at byte address `s.pc` with its successor in
sequence, goto 1[r0] and then a null (executed once more as the goto's target, log 21) lead to the fourth instruction,
and change nothing but RR. Anything else in those places, a null that reads r0 among it (R475), is refused by the step,
and everything after one whose successor is not in sequence (U16, log 21). -/
def Obligations.IcarIdiom : Prop :=
  ∀ (ra rb : RegField) (disp : BitVec 16) (s t : State) (i null : Instr),
    i ∈ [Instr.readInstTFR ra rb, .readInstTlbTag0 ra rb, .readInstTlbTag1 ra rb, .readInstTlbData0 ra rb,
      .readInstTlbData1 ra rb, .writeInstTlbTag0 ra rb, .writeInstTlbTag1 ra rb, .writeInstTlbData0 ra rb,
      .writeInstTlbData1 ra rb, .pseudoCall ra rb disp, .flush ra rb disp] →
    s.mayPrivileged → s.inFlight = false → aligned s.pc → s.hist.last.special = false →
    null = .aluZero true 0#6 0#6 0#6 → s.mcDown = false → exec i s = .next t →
    (s.npc ≠ s.pc + 4#32 → ∀ w, runWord w t = .refused .icarIdiomBroken) ∧
    (s.npc = s.pc + 4#32 →
      (∀ w, decodeWord w ≠ .instr (.goto 0#6 0#6 1#16) → runWord w t = .refused .icarIdiomBroken) ∧
      ∃ u v w, exec (.goto 0#6 0#6 1#16) t = .next u ∧ exec null u = .next v ∧ exec null v = .next w ∧
        u.pc = s.pc + 8#32 ∧ u.npc = s.pc + 8#32 ∧ w.pc = s.pc + 12#32 ∧ w.npc = s.pc + 16#32 ∧ w.rr = some 0#32 ∧
        regsKept t w ∧ memoryKept t w ∧ translationKept t w ∧ ioKept t w ∧ w.cp = t.cp ∧ w.psw = t.psw ∧
        w.icar = .idle ∧ (∀ w', isNullWord (decodeWord w') = false → runWord w' u = .refused .icarIdiomBroken))

/-! ## I/O specials -/

/-- GetCtl (R211, R210): RR and ra take the register that the special before it selected, and the field selects the
next; the eight registers, where none of R217's restrictions is broken (else the value is free, log 37). A parity error
on the bus brings another word instead (R120, log 28). Where IoStatus and Event hold their fields is log 35's, moved as
the layout of the state says. -/
def Obligations.GetCtl : Prop :=
  ∀ (ra rb : RegField) (s : State), s.lay.valid = true → s.mayPrivileged → s.mcDown = false →
    ∃ v, specialYields (.getCtl ra rb) s ra rb v ∧ (∀ b, s.busData = some b → v = b.v) ∧
      (s.busData = none → s.hist.last.io = false → s.hist.last.setCtl ≠ some s.mc.ioSel →
        s.hist.setCtl2 ≠ some s.mc.ioSel →
        (rb = s.mc.ioSel ∨
          (s.hist.last.memory = false ∧ s.hist.last.special = false ∧ s.pc.extractLsb' 2 2 ≠ 3#2)) →
        (s.mc.ioSel = 0x01#6 → v = s.mc.ioAddress) ∧ (s.mc.ioSel = 0x10#6 → v = s.mc.ioReadData) ∧
        (s.mc.ioSel = 0x20#6 → v = s.mc.ioWriteData) ∧
        (s.mc.ioSel = 0x30#6 →
          (s.lay.ioStatus.get v).extractLsb' 0 3 = s.mc.slot ∧ (s.lay.ioStatus.get v).getLsbD 3 = s.mc.ack) ∧
        (s.mc.ioSel = 0x08#6 → v.extractLsb' 0 4 = s.mc.hErrs ∧
          (s.lay.eventIoInt.get (v.extractLsb' 4 28)).extractLsb' 21 7 = interruptLines s.slots) ∧
        (s.mc.ioSel = 0x28#6 → v = s.mc.enable) ∧
        (s.mc.ioSel = 0x18#6 → v = Config.errorLogLayout (~~~s.mc.synHi) (~~~s.mc.synLo) s.mc.errCnt) ∧
        (s.mc.ioSel = 0x38#6 → v = Config.errorAddressLayout s.mc.errLine s.mc.errW))

/-- SetCtl (R212, R218): the register that the special before it selected takes RR, the field selects the next.
IoWriteData and Enable are replaced; IoStatus takes the slot; ones written to Event clear hErrs bits and bit 3 the error
count; that it does so also where hErrs bit 3 is 0 already, while R58 and R218 speak of clearing the bit, is the model's
choice (log 34); the four read-only registers ignore it (log 35); any other address is refused (U20, log 36). -/
def Obligations.SetCtl : Prop :=
  ∀ (ra rb : RegField) (s : State) (v : Word), s.mayPrivileged → s.mcDown = false → s.loadedResult = some v →
    s.hist.last.io = false →
    (∀ p ∈ [(0x20#6, { s.mc with ioWriteData := v }), (0x28#6, { s.mc with enable := v }),
        (0x30#6, { s.mc with slot := (s.lay.ioStatus.get v).extractLsb' 0 3 }),
        (0x08#6, { s.mc with hErrs := s.mc.hErrs &&& ~~~(v.extractLsb' 0 4),
                             errCnt := if v.getLsbD 3 then 0 else s.mc.errCnt }),
        (0x01#6, s.mc), (0x10#6, s.mc), (0x18#6, s.mc), (0x38#6, s.mc)],
      s.mc.ioSel = p.1 →
      ∃ t, exec (.setCtl ra rb) s = .next t ∧ regsKept s t ∧ t.rr = s.rr ∧ goesOn s t (s.npc + 4#32) ∧
        memoryKept s t ∧ translationKept s t ∧ t.mc = { p.2 with ioSel := rb } ∧ t.slots = s.slots ∧ t.cp = s.cp ∧
        systemKept s t ∧ queueKept s t ∧ runKept s t) ∧
    (s.mc.ioSel ∉ [0x20#6, 0x28#6, 0x30#6, 0x08#6, 0x01#6, 0x10#6, 0x18#6, 0x38#6] →
      exec (.setCtl ra rb) s = .refused .undocumentedControlWrite)

/-- IoRead and IoWrite with a slot 1 to 7 in IoStatus (R213, R214): the address is RR; a read gives IoReadData and ack
the adaptor's answer, and bad parity sets hErrs bit 0; a write hands the adaptor IoWriteData, and leaves IoReadData
open (log 38). No register is written and RR stays; the field selects the next control register. An access that U30
leaves undefined is refused by its name (log 59). An adaptor whose clock is stopped neither acknowledges nor changes
(R439, log 64). -/
def Obligations.IoTransactions : Prop :=
  ∀ (ra rb : RegField) (s : State) (addr : Word) (k : Fin 7), s.mayPrivileged → s.mcDown = false →
    s.loadedResult = some addr → s.hist.last.io = false → s.mc.slot.toNat = k.val + 1 →
    (s.csm.ioStopped = true → s.slots[k].adaptor ≠ .empty →
      ∀ i ∈ [Instr.ioRead ra rb, .ioWrite ra rb],
      ∃ t, exec i s = .next t ∧ regsKept s t ∧ t.rr = s.rr ∧ goesOn s t (s.npc + 4#32) ∧ memoryKept s t ∧
        translationKept s t ∧ t.cp = s.cp ∧ systemKept s t ∧ queueKept s t ∧ runKept s t ∧ t.slots = s.slots ∧
        t.mc.ack = false ∧ t.mc.ioAddress = addr ∧ t.mc.ioSel = rb) ∧
    (∀ r, s.ioRefusal addr false = some r → exec (.ioRead ra rb) s = .refused r) ∧
    (∀ r, s.ioRefusal addr true = some r → exec (.ioWrite ra rb) s = .refused r) ∧
    (∀ a q, s.csm.ioStopped = false → s.ioRefusal addr false = none → slotRead s.slots[k] addr s.ioContext = (a, q) →
      ∃ t, exec (.ioRead ra rb) s = .next t ∧ regsKept s t ∧ t.rr = s.rr ∧ goesOn s t (s.npc + 4#32) ∧
        memoryKept s t ∧ translationKept s t ∧ t.cp = s.cp ∧ systemKept s t ∧ queueKept s t ∧ runKept s t ∧
        t.slots = s.slots.set k q ∧
        t.mc = { s.mc with ioSel := rb, ioAddress := addr, ioReadData := a.data, ack := a.ack,
                           hErrs := if a.perr then s.mc.hErrs ||| 1#4 else s.mc.hErrs,
                           halted := a.perr && s.mc.enable.getLsbD 4 }) ∧
    (∀ ack q, s.csm.ioStopped = false → s.ioRefusal addr true = none →
      slotWrite s.slots[k] addr s.mc.ioWriteData s.ioContext = (ack, q) →
      ∃ t d, exec (.ioWrite ra rb) s = .next t ∧ regsKept s t ∧ t.rr = s.rr ∧ goesOn s t (s.npc + 4#32) ∧
        memoryKept s t ∧ translationKept s t ∧ t.cp = s.cp ∧ systemKept s t ∧ queueKept s t ∧ runKept s t ∧
        t.slots = s.slots.set k q ∧
        t.mc = { s.mc with ioSel := rb, ioAddress := addr, ioReadData := d, ack := ack })

/-- The lock (R215): an IoRead of slot 0 records in IoReadData bit 0 whether the lock was held; with an odd
IoWriteData it takes a free lock, with an even one it gives back the processor's own; another holder keeps it. That
the old value is recorded on a release too is the model's choice (log 66). An IoWrite of slot 0 is not described: in
the model it leaves the lock, is not acknowledged, and destroys IoReadData as every IoWrite does (R55, U21, log 39).
-/
def Obligations.IoLock : Prop :=
  ∀ (ra rb : RegField) (s : State) (addr : Word), s.mayPrivileged → s.mcDown = false → s.mc.slot = 0#3 →
    s.loadedResult = some addr → s.hist.last.io = false →
    (∃ t d, exec (.ioWrite ra rb) s = .next t ∧ regsKept s t ∧ t.rr = s.rr ∧ goesOn s t (s.npc + 4#32) ∧
      memoryKept s t ∧ translationKept s t ∧ t.slots = s.slots ∧ t.cp = s.cp ∧ systemKept s t ∧ queueKept s t ∧
      runKept s t ∧ t.mc = { s.mc with ioSel := rb, ioAddress := addr, ioReadData := d, ack := false }) ∧
    ∃ t d a l, exec (.ioRead ra rb) s = .next t ∧ regsKept s t ∧ t.rr = s.rr ∧ goesOn s t (s.npc + 4#32) ∧
      memoryKept s t ∧ translationKept s t ∧ t.slots = s.slots ∧ t.cp = s.cp ∧ systemKept s t ∧ queueKept s t ∧
      runKept s t ∧ t.mc = { s.mc with ioSel := rb, ioAddress := addr, ioReadData := d, ack := a, lock := l } ∧
      d.getLsbD 0 = decide (s.mc.lock ≠ .none) ∧
      (s.mc.ioWriteData.getLsbD 0 = true → l = if s.mc.lock = .none then LockHolder.cpu else s.mc.lock) ∧
      (s.mc.ioWriteData.getLsbD 0 = false → l = if s.mc.lock = .cpu then LockHolder.none else s.mc.lock)

/-- Polling a slot (R219, R422): an adaptor that can answer gives its type code at address FFFFFFFF,
acknowledged and with good parity; an empty slot gives 0 with bad parity and no acknowledge; a TMA never acknowledges; a
busy adaptor does not (R396), and is left as it is. -/
def Obligations.IoPoll : Prop :=
  ∀ (c : IoContext) (l : Line) (poll : Word), poll = 0xFFFFFFFF#32 →
    (∀ b, slotRead { busy := b, latch := l, adaptor := .empty } poll c =
      ({ data := 0#32, ack := false, perr := true }, { busy := b, latch := l, adaptor := .empty })) ∧
    (∀ d, slotRead { busy := false, latch := l, adaptor := .tda d } poll c =
      ({ data := 2#32, ack := true, perr := false }, { busy := false, latch := l, adaptor := .tda d })) ∧
    (∀ d, slotRead { busy := false, latch := l, adaptor := .tna d } poll c =
      ({ data := 4#32, ack := true, perr := false }, { busy := false, latch := l, adaptor := .tna d })) ∧
    (∀ d, slotRead { busy := false, latch := l, adaptor := .tfa d } poll c =
      ({ data := 6#32, ack := true, perr := false }, { busy := false, latch := l, adaptor := .tfa d })) ∧
    (∀ b d, (slotRead { busy := b, latch := l, adaptor := .tma d } poll c).1.ack = false) ∧
    ∀ (d : Tda) (e : Tna) (f : Tfa), ∀ a ∈ [Adaptor.tda d, .tna e, .tfa f],
      (slotRead { busy := true, latch := l, adaptor := a } poll c).1.ack = false ∧
      (slotRead { busy := true, latch := l, adaptor := a } poll c).2 = { busy := true, latch := l, adaptor := a }

/-! ## Kernel control -/

/-- kernelExit (R225): a delayed branch to PC2 plus the displacement in words; PC1 moves into PC2 and the address of
the kernelExit into PC1. In user mode with prv the queue is open (log 16), and it still completes. pseudoCall (R229):
PC1 moves into PC2, the effective address enters PC1 as a byte address, and control goes on; where the instruction
before wrote rb the base has no interlock and is open (R500, U15, log 20), and it still completes; with instruction
mapping on it is refused (U19, log 54). In word 2 of a memory line, and in the delay slot of a branch to word 3, a
pseudoCall leaves the queue open, and still completes (R229, R477, log 14). Neither writes a register or memory or loads
RR. -/
def Obligations.PcQueueInstructions : Prop :=
  ∀ (ra rb : RegField) (disp : BitVec 16) (s : State), s.mayPrivileged →
    (∃ t, exec (.kernelExit ra rb disp) s = .next t ∧ t.pc = s.npc ∧ regsKept s t ∧ t.rr = none ∧ memoryKept s t ∧
      translationKept s t ∧ ioKept s t ∧ t.cp = s.cp ∧ systemKept s t ∧ runKept s t ∧
      (s.eff.krn = true → t.npc = ((s.pc2 >>> 2) + disp.signExtend 32) <<< 2 ∧ t.pc2 = s.pc1 ∧ t.pc1 = s.pc)) ∧
    (s.eff.imp = true →
      ∃ t, exec (.pseudoCall ra rb disp) s = .next t ∧ goesOn s t (s.npc + 4#32) ∧ regsKept s t ∧ t.rr = none ∧
        memoryKept s t ∧ translationKept s t ∧ ioKept s t ∧ t.cp = s.cp ∧ systemKept s t ∧ runKept s t ∧
        (s.eff.krn = true → s.pc.extractLsb' 2 2 ≠ 2#2 → (s.npc + 4#32).extractLsb' 2 2 ≠ 0#2 →
          t.pc2 = s.pc1 ∧ (rb = 0#6 ∨ s.hist.last.wrote ≠ some (s.rbIndex rb) →
            t.pc1 = ((s.readB rb >>> 2) + disp.signExtend 32) <<< 2))) ∧
    (s.eff.imp = false → exec (.pseudoCall ra rb disp) s = .refused .pseudoCallMapped)

/-- The return from a trap (R226): WriteStatus at word 0 of a line, one instruction with a result, and two kernelExits
with displacement 0 lead to the pair of addresses that the queue held, in user mode if the written pre is 0, with the
registers and memory as the second instruction left them. That the PSW is written wherever those instructions stand is the
model's choice (log 14). -/
def Obligations.ReturnFromKernel : Prop :=
  ∀ (ra rb n : RegField) (v w : Word) (s t1 t2 : State),
    s.eff.krn = true → s.pend1 = none → s.pend2 = none → s.pend3 = none → s.pc.extractLsb' 2 2 = 0#2 →
    aligned s.pc1 → aligned s.pc2 → v = s.readA ra → exec (.writeStatus ra rb) s = .next t1 →
    resultOnly t1 t2 n w (t1.npc + 4#32) →
    ∃ t3 t4, exec (.kernelExit 0#6 0#6 0#16) t2 = .next t3 ∧ exec (.kernelExit 0#6 0#6 0#16) t3 = .next t4 ∧
      t4.pc = s.pc2 ∧ t4.npc = s.pc1 ∧ regsKept t2 t4 ∧ memoryKept s t4 ∧ t4.rr = none ∧
      t4.psw = { s.psw with
        rom := v.getLsbD 31, pre := v.getLsbD 30, krn := v.getLsbD 30, prv := v.getLsbD 28, par := v.getLsbD 27,
        pid := v.extractLsb' 19 8, ra := v.extractLsb' 17 2, rb := v.extractLsb' 15 2, imp := v.getLsbD 14,
        dmp := v.getLsbD 13 } ∧
      t4.pend1 = none ∧ t4.pend2 = none ∧ t4.pend3 = none

/-- flush (R233) with both mappings off and an odd effective address: every line from the effective address to the end
of its page leaves both caches, the dirty ones among them written to memory if their module is populated (R92); every
other line, and every other byte of memory, stays; RR is not loaded. With mapping on it is refused (log 53); with an
even effective address it never completes (U12, log 53). -/
def Obligations.Flush : Prop :=
  ∀ (ra rb : RegField) (disp : BitVec 16) (s : State) (ea : Word), s.mayPrivileged →
    s.hist.last.wrote ≠ some (s.rbIndex rb) → s.hist.last.store = false →
    ea = (s.readB rb >>> 2) + disp.signExtend 32 →
    ((s.eff.imp = false ∨ s.eff.dmp = false) → exec (.flush ra rb disp) s = .refused .flushMapped) ∧
    (s.eff.imp = true → s.eff.dmp = true → ea.getLsbD 0 = false →
      exec (.flush ra rb disp) s = .fault .flushNeverExits) ∧
    (s.eff.imp = true → s.eff.dmp = true → ea.getLsbD 0 = true → s.mcDown = false → mapSorted s.dcache = true →
      ∀ covered : LineAddr → Prop,
      (∀ l, covered l ↔ (lineOf ea).toNat ≤ l.toNat ∧ l.extractLsb' 8 22 = (lineOf ea).extractLsb' 8 22) →
      ∃ t, exec (.flush ra rb disp) s = .next t ∧ goesOn s t (s.npc + 4#32) ∧ regsKept s t ∧ t.rr = none ∧
        translationKept s t ∧ ioKept s t ∧ t.cp = s.cp ∧ systemKept s t ∧ queueKept s t ∧ runKept s t ∧
        t.populated = s.populated ∧ (∀ a, readByte t.prom a = readByte s.prom a) ∧
        (∀ l, covered l → mapGet t.dcache l.toNat = none ∧ mapGet t.icache l.toNat = none) ∧
        (∀ l, ¬covered l → mapGet t.dcache l.toNat = mapGet s.dcache l.toNat ∧
          mapGet t.icache l.toNat = mapGet s.icache l.toNat) ∧
        (∀ l d, covered l → mapGet s.dcache l.toNat = some d → d.dirty = true → isPopulated s.populated l = true →
          readLine t.mem (physicalLine l) = d.line) ∧
        ∀ a, (∀ l d, covered l → mapGet s.dcache l.toNat = some d → d.dirty = true →
            isPopulated s.populated l = true → a / 16 ≠ physicalLine l) →
          readByte t.mem a = readByte s.mem a)

/-- The other named stops, in the step and in the instructions: a reference that two valid translations match (U1, log
24); a trap of any kind, interrupts and fetch faults among them, while a PSW write or an ICAR idiom is under way (U29,
log 23) or right after a special in user mode (R481, U15, log 23); no translation for the first user instruction
(U18), or for a user fetch whose page has lost it since the check at its predecessor (log 22); a dirty miss that reads
the Boot-Prom, and DMA while it is mapped (R104, U13, log 32); an undescribed special where it is privileged (U11, log
55); an Octart reference too soon, and a descriptor too many while the receiver is enabled (R449, R457, U30, log 59).
-/
def Obligations.NamedStops : Prop :=
  ∀ (ra rb : RegField) (disp : BitVec 16) (s : State) (w rwa addr : Word) (i : Instr) (k : Fin 7) (d : Tna),
    (dataReference s.dtlb s.eff ((s.readB rb >>> 2) + disp.signExtend 32) false = .ambiguous →
      exec (.load ra rb disp) s = .refused .ambiguousTranslation) ∧
    (dataReference s.dtlb s.eff ((s.readB rb >>> 2) + disp.signExtend 32) true = .ambiguous →
      exec (.store ra rb disp) s = .refused .ambiguousTranslation) ∧
    (fetchParityHalts s = false →
      (instReference s.itlb s.psw (s.pc >>> 2) = .ambiguous → runFetched s = .refused .ambiguousTranslation) ∧
      (s.eff.krn = false → instReference s.itlb s.psw (s.pc >>> 2) = .noTranslation →
        runFetched s = .refused .firstUserFetch)) ∧
    (s.eff.krn = false → s.inFlight = true ∨ s.afterUserSpecial = true → (ownTrap (trapClass i) s).any = true →
      exec i s = .refused .trapInFlight) ∧
    (icarAdmits s.icar (decodeWord w) = true → parityHalts (decodeWord w) s = false →
      (successorReference s = .ambiguous → runWord w s = .refused .ambiguousTranslation) ∧
      (s.eff.krn = false → s.inFlight = true ∨ s.afterUserSpecial = true →
        (successorReference s = .noTranslation ∨
          (successorReference s = .real rwa ∧ (s.extReq || s.copReq) = true)) →
        runWord w s = .refused .trapInFlight) ∧
      (s.eff.krn = true → s.nextPsw.krn = false → successorReference s = .noTranslation →
        (∀ t, execDecoded (decodeWord w) s = .next t → t.halted = none) → runWord w s = .refused .firstUserFetch)) ∧
    (s.dirtyEvicted = true → s.hasDataLine (lineOf rwa) = false → inBootProm s.eff.rom (lineOf rwa) = true →
      (dataReference s.dtlb s.eff ((s.readB rb >>> 2) + disp.signExtend 32) false = .real rwa →
        exec (.load ra rb disp) s = .refused .bootPromOverlap) ∧
      (dataReference s.dtlb s.eff ((s.readB rb >>> 2) + disp.signExtend 32) true = .real rwa →
        exec (.store ra rb disp) s = .refused .bootPromOverlap)) ∧
    (s.mcDown = false → s.csm.ioStopped = false → s.psw.rom = true →
      ∀ r x, slotTransaction s.slots[k] r s.fresh = some x → dmaOne s k r = .refused .bootPromOverlap) ∧
    (s.mayPrivileged → execUndescribed (.special ra rb disp) s = .refused .undescribedSpecial) ∧
    (s.mayPrivileged → s.mcDown = false → s.csm.ioStopped = false → s.loadedResult = some addr →
      s.hist.last.io = false → s.mc.slot.toNat = k.val + 1 → s.slots[k].adaptor = .tna d → s.slots[k].busy = false →
      (addr.extractLsb' 6 3 = 4#3 → (∃ c, d.octartLast = some c ∧ s.cycles < c + 10) →
        ∀ j ∈ [Instr.ioRead ra rb, .ioWrite ra rb], exec j s = .refused .octartTooSoon) ∧
      (addr.extractLsb' 6 3 = 1#3 → addr.extractLsb' 0 2 = 3#2 → d.rxWrite + 1#4 = d.rxRead → d.ctrl.rxEnbl = true →
        exec (.ioWrite ra rb) s = .refused .descriptorFifoFull))

/-! ## Coprocessor -/

/-- The coprocessor traps (R330 to R333), for every coprocessor instruction not adjacent to a multi-cycle one: a
reserved operand, a floating divide by zero, or a floating result that its format cannot represent aborts the
instruction: abort and the cause bits are set and the rest of the coprocessor stays. In user mode the trap is taken
with PSW.cop set; in kernel mode no trap is taken and execution goes on, RR not loaded and no register written.
Operands are read by the F and G layout of D34 (log 43), moved as the layout of the state says; that rsvOp and noDiv
stay set, and the kernel-mode clause, are D36's (log 47). -/
def Obligations.CopAborts : Prop :=
  ∀ (i : Instr) (o : CopOp) (r : CopResult) (ra rb : RegField) (s : State) (a : Word) (reserved noDiv range : Prop),
    trapClass i = .cop o r ra rb → s.hist.last.copBusy = false → a = (s.copOperands o ra rb).1 →
    (reserved ↔ ∃ m, (o = .loadFloat m ∨ ∃ fn, o = .float fn m) ∧ reservedOperandP m a) →
    (noDiv ↔ (∃ m, o = .float .divide m ∧ ¬reservedOperandP m a ∧
        (if m.inputG then a.extractLsb' 20 11 = 0#11 else a.extractLsb' 23 8 = 0#8)) ∨
      (∃ m, o = .float .rdivide m ∧ s.cp.ac.frac = 0#64)) →
    (range ↔ s.cp.ac.frac ≠ 0#64 ∧
      ((r = .sp ∧ (s.cp.ac.exp.toInt + 128 < 1 ∨ s.cp.ac.exp.toInt + 128 > 255)) ∨
       ((r = .dph ∨ r = .dpl) ∧ (s.cp.ac.exp.toInt + 1024 < 1 ∨ s.cp.ac.exp.toInt + 1024 > 2047)))) →
    reserved ∨ noDiv ∨ range →
    ∃ cp, (cp.rsvOp = true ↔ s.cp.rsvOp = true ∨ reserved) ∧ (cp.noDiv = true ↔ s.cp.noDiv = true ∨ noDiv) ∧
      cp = { s.cp with abort := true, rsvOp := cp.rsvOp, noDiv := cp.noDiv } ∧
      (s.userReady → ∃ t c, exec i s = .next t ∧ trapped s t c ∧ t.cp = cp ∧ t.psw.cop = true ∧ c.ill = false ∧
        c.itf = false ∧ c.dtf = false ∧ c.wpv = false ∧ c.usr = false) ∧
      (s.eff.krn = true → ∃ t, exec i s = .next t ∧ regsKept s t ∧ t.rr = none ∧ copKept s t ∧ t.cp = cp)

/-- Every coprocessor instruction that no trap condition stops completes (R290): RR and rc take the result of the
operation before it, abort is cleared, and its own operation is done. No other register changes, nor memory or the
PSW; only wrSign writes rsvOp and noDiv, and only wrInt and wrTod touch the timer. The operand tests read the F and G
layout of D34 (log 43), which the standard layout leaves as the registers hold it. Right after a multi-cycle operation
the result and the accumulator are open (R489, log 41): there it completes or aborts in kernel mode, and in user mode
it completes or traps with PSW.cop; that an abort goes on in kernel mode, and that rsvOp and noDiv stay set, is D36's
(log 47). -/
def Obligations.CopCompletes : Prop :=
  ∀ (i : Instr) (o : CopOp) (r : CopResult) (ra rb rc : RegField) (s : State) (a b : Word),
    trapClass i = .cop o r ra rb → destination i = some rc → (a, b) = s.copOperands o ra rb →
    (s.lay = Layout.standard → a = s.readA ra ∧ b = s.readB rb) ∧
    (copReady s r → (∀ m, (o = .loadFloat m ∨ ∃ fn, o = .float fn m) → ¬reservedOperandP m a) →
      (∀ m, o = .float .divide m → (if m.inputG then gRat (a ++ b) else fRat a) ≠ 0) →
      (∀ m, o = .float .rdivide m → s.cp.ac.frac ≠ 0#64) →
      ∃ cp, copYields i s rc r cp ∧ cp.abort = false ∧
        (o ≠ .wrSign → cp.rsvOp = s.cp.rsvOp ∧ cp.noDiv = s.cp.noDiv) ∧
        (o ≠ .wrInt → o ≠ .wrTod → cp.tod = s.cp.tod ∧ cp.itime = s.cp.itime ∧ cp.timer = s.cp.timer ∧
          cp.intPending = s.cp.intPending)) ∧
    (s.eff.krn = true → ∃ t, exec i s = .next t ∧ copKept s t) ∧
    (s.userReady →
      (∃ t v, exec i s = .next t ∧ regWritten s t rc v ∧ t.rr = some v ∧ copKept s t ∧ t.cp.abort = false) ∨
      (∃ t c, exec i s = .next t ∧ trapped s t c ∧ t.cp.abort = true ∧ t.psw.cop = true ∧ c.ill = false ∧
        c.itf = false ∧ c.dtf = false ∧ c.wpv = false ∧ c.usr = false))

/-- What a coprocessor instruction delivers (R292 to R294), from the accumulator `ac` that the operation before it left:
status word, sign-extended exponent, halves of the fraction, the halves of the G value, the F value, zero. neg stands in
bit 31 in every layout; the places of the other status bits are log 42's and those of the F and G fields log 43's, moved
as the layout says. -/
def Obligations.CopResultFormats : Prop :=
  ∀ (l : Layout) (cp : Coprocessor) (ac : Accumulator) (st : BitVec 31) (f : Word) (g : Dword), l.valid = true →
    ac = cp.ac → st = l.copStatus.get ((copResult l .sign cp).extractLsb' 0 31) → f = l.fWord.get (copResult l .sp cp) →
    g = l.gPair.get (copResult l .dph cp ++ copResult l .dpl cp) →
    (copResult l .sign cp).getLsbD 31 = ac.sign ∧ st.getLsbD 30 = decide (ac.frac ≠ 0#64) ∧ st.getLsbD 29 = cp.abort ∧
    st.getLsbD 28 = decide (ac.frac ≠ 0#64 ∧ (ac.exp.toInt + 1024 < 1 ∨ ac.exp.toInt + 1024 > 2047)) ∧
    st.getLsbD 27 = decide (ac.frac ≠ 0#64 ∧ (ac.exp.toInt + 128 < 1 ∨ ac.exp.toInt + 128 > 255)) ∧
    st.getLsbD 26 = cp.rsvOp ∧ st.getLsbD 25 = cp.noDiv ∧ st.getLsbD 24 = cp.intPending ∧
    st.extractLsb' 0 24 = 0#24 ∧
    (copResult l .exp cp).toInt = ac.exp.toInt ∧ copResult l .inth cp ++ copResult l .intl cp = ac.frac ∧
    copResult l .null cp = 0#32 ∧ (ac.frac = 0#64 → g = 0#64 ∧ f = 0#32) ∧
    (floatNormal 24 ac → ac.frac ≠ 0#64 → rangeError .sp ac = false → fRat f = accumulatorRat ac) ∧
    (floatNormal 53 ac → ac.frac ≠ 0#64 → rangeError .dph ac = false → gRat g = accumulatorRat ac)

/-- The integer operations on the fraction (R301 to R304), modulo 2^64; multiply takes the high word of the fraction,
signed. Divide, with its preconditions met, leaves the quotient in the low word and in the high word a remainder that
is right after the stated correction (the divisor is added where the quotient is even and the remainder returned not
0; log 45). Sign and exponent stay, but that a load sets the sign (log 46). -/
def Obligations.CopInteger : Prop :=
  ∀ (r : CopResult) (ra rb rc : RegField) (s : State) (a b : Word) (ac : Accumulator), copReady s r →
    a = s.readA ra → b = s.readB rb → ac = s.cp.ac →
    (∀ p ∈ [(Instr.copLoadI r ra rb rc, { ac with sign := a.msb, frac := a ++ b }),
        (.copAddI r ra rb rc, { ac with frac := ac.frac + (a ++ b) }),
        (.copSubtractI r ra rb rc, { ac with frac := ac.frac - (a ++ b) }),
        (.copRsubtractI r ra rb rc, { ac with frac := (a ++ b) - ac.frac }),
        (.copMultiplyI r ra rb rc,
          { ac with frac := BitVec.ofInt 64 (a.toInt * (ac.frac.extractLsb' 32 32).toInt) })],
      copYields p.1 s rc r { s.cp with abort := false, ac := p.2 }) ∧
    ∀ (i : Instr) (n : Dword) (d low : Word),
      (i = .copDivideI r ra rb rc ∧ n = ac.frac ∧ d = a ∧ low = b) ∨
      (i = .copRdivideI r ra rb rc ∧ n = a ++ b ∧ d = ac.frac.extractLsb' 32 32 ∧ low = ac.frac.extractLsb' 0 32) →
      ∃ q, copYields i s rc r { s.cp with abort := false, ac := { ac with frac := q } } ∧
        (low = 0#32 → 0 < d.toNat → d.toNat < 2 ^ 31 → (n.extractLsb' 32 32).toNat < d.toNat →
          (q.extractLsb' 0 32).toNat = n.toNat / d.toNat ∧
          (if n.toNat / d.toNat % 2 = 0 ∧ q.extractLsb' 32 32 ≠ 0#32 then q.extractLsb' 32 32 + d
            else q.extractLsb' 32 32).toNat = n.toNat % d.toNat)

/-- Floating loads (R299): an operand that is not reserved goes into the accumulator, f and g with its exact value,
zero as all zeros, gf rounded; and every floating operation leaves a normal form of its precision (R310, R311, R314):
24 bits for f, gf and floatf, 53 for fg, g and floatg. Operands are read by the F and G layout of D34 (log 43). -/
def Obligations.CopFloatNormal : Prop :=
  ∀ (i : Instr) (o : CopOp) (r : CopResult) (ra rb rc : RegField) (s : State) (a b : Word),
    trapClass i = .cop o r ra rb → destination i = some rc → s.hist.last.copBusy = false →
    (a, b) = s.copOperands o ra rb → copTraps o r s.cp a b = false →
    ∃ cp, copYields i s rc r cp ∧
      (o = .loadFloat .f → floatNormal 24 cp.ac ∧ accumulatorRat cp.ac = fRat a) ∧
      (o = .loadFloat .g → floatNormal 53 cp.ac ∧ accumulatorRat cp.ac = gRat (a ++ b)) ∧
      (o = .loadFloat .gf → floatNormal 24 cp.ac) ∧
      (∀ fn m, o = .float fn m → floatNormal m.precision cp.ac) ∧
      (o = .floatf → floatNormal 24 cp.ac) ∧ (o = .floatg → floatNormal 53 cp.ac)

/-- Floating results are correct to one unit of their precision (R310, R311, R299, R314): the accumulator's new value
differs from the exact one by less than one unit in the last place, is exactly it where the precision can represent
it, and is all zero for 0. So for the six arithmetic functions, for a gf load, and for floatf and floatg of a
fixed-point number. Where `FP_OP` is D29's default an inexact result goes to the nearest neighbour, and of two equally
near to the larger in magnitude; else which one it goes to is open (R312, log 44). Exponents that do not fit 16
bits are left out (log 62); operands are read by the F and G layout of D34 (log 43). -/
def Obligations.FloatRounding : Prop :=
  ∀ (i : Instr) (o : CopOp) (r : CopResult) (ra rb rc : RegField) (s : State) (a b : Word) (p : Nat) (y : ℚ),
    trapClass i = .cop o r ra rb → destination i = some rc → s.hist.last.copBusy = false →
    (a, b) = s.copOperands o ra rb → copTraps o r s.cp a b = false →
    (∃ fn m, o = .float fn m ∧ p = m.precision ∧
        y = exactRat fn (accumulatorRat s.cp.ac) (if m.inputG then gRat (a ++ b) else fRat a)) ∨
      (o = .loadFloat .gf ∧ p = 24 ∧ y = gRat (a ++ b)) ∨
      (((o = .floatf ∧ p = 24) ∨ (o = .floatg ∧ p = 53)) ∧ y = ((a ++ b).toInt : ℚ) / 2 ^ 32) →
    (y ≠ 0 → (2 : ℚ) ^ (-32000 : ℤ) < |y| ∧ |y| < (2 : ℚ) ^ (32000 : ℤ)) →
    ∃ cp, copYields i s rc r cp ∧ (y = 0 → cp.ac = Accumulator.zero) ∧
      (y ≠ 0 → |accumulatorRat cp.ac - y| < (2 : ℚ) ^ (cp.ac.exp.toInt - p)) ∧
      (y ≠ 0 → s.lay.fpOp = .nearestAway →
        2 * |accumulatorRat cp.ac - y| ≤ (2 : ℚ) ^ (cp.ac.exp.toInt - p) ∧
        (2 * |accumulatorRat cp.ac - y| = (2 : ℚ) ^ (cp.ac.exp.toInt - p) → |y| < |accumulatorRat cp.ac|)) ∧
      (representable p y → accumulatorRat cp.ac = y)

/-- scale, ldExp and nop (R315 to R317): the exponent register takes the sum with, or the low half of, ra; nop changes
nothing. fix (R313): the fraction shifted right to an integer, negated with the sign set; sign and exponent stay (log
46). wrSign (R322): the sign from bit 31, rsvOp and noDiv at the places that the layout of log 42 gives them; rdTod (R323). wrInt (R324) and wrTod (R326) in kernel
mode: the interval time, and the request cleared; the time of day, and an interrupt requested; in user mode they are
ignored whatever prv is. An exponent above 63 leaves a free fraction (U28, log 45). abort is cleared as by every
coprocessor instruction. -/
def Obligations.CopFixAndTimers : Prop :=
  ∀ (r : CopResult) (ra rb rc : RegField) (s : State) (a b : Word) (st : BitVec 31), copReady s r → a = s.readA ra →
    b = s.readB rb → st = s.lay.copStatus.get (a.extractLsb' 0 31) →
    copYields (.copScale r ra rb rc) s rc r
      { s.cp with abort := false, ac := { s.cp.ac with exp := s.cp.ac.exp + a.extractLsb' 0 16 } } ∧
    copYields (.copLdExp r ra rb rc) s rc r
      { s.cp with abort := false, ac := { s.cp.ac with exp := a.extractLsb' 0 16 } } ∧
    copYields (.copNop r ra rb rc) s rc r { s.cp with abort := false } ∧
    (∃ f, copYields (.copFix r ra rb rc) s rc r { s.cp with abort := false, ac := { s.cp.ac with frac := f } } ∧
      (s.cp.ac.exp.toInt ≤ 63 → f = BitVec.ofInt 64 ((if s.cp.ac.sign then -1 else 1) *
        (s.cp.ac.frac.toNat / 2 ^ (63 - s.cp.ac.exp.toInt).toNat : Nat)))) ∧
    copYields (.copWrSign r ra rb rc) s rc r
      { s.cp with abort := false, ac := { s.cp.ac with sign := a.getLsbD 31 }, rsvOp := st.getLsbD 26,
                  noDiv := st.getLsbD 25 } ∧
    copYields (.copRdTod r ra rb rc) s rc r { s.cp with abort := false, ac := { s.cp.ac with frac := s.cp.tod } } ∧
    (s.eff.krn = false → ∀ i ∈ [Instr.copWrInt r ra rb rc, .copWrTod r ra rb rc],
      copYields i s rc r { s.cp with abort := false }) ∧
    (s.eff.krn = true →
      (∃ cp, copYields (.copWrInt r ra rb rc) s rc r cp ∧ cp.itime = a ++ b ∧ cp.intPending = false ∧
        cp.tod = s.cp.tod ∧ cp.ac = s.cp.ac ∧
        (1 ≤ ((a ++ b) - s.cp.tod).toNat → ((a ++ b) - s.cp.tod).toNat ≤ 2 ^ 19 - 1 → cp.timer = .armed)) ∧
      ∃ cp, copYields (.copWrTod r ra rb rc) s rc r cp ∧ cp.tod = a ++ b ∧ cp.intPending = true ∧ cp.ac = s.cp.ac)

/-- The clock and the interval timer (R325, R327): a step whose environment lists nothing, with memory's refresh
running, counts one cycle (log 48); an armed timer requests its interrupt when the time of day has reached the
interval time, and not before; the request stays, and its age counts the cycles since; one that has waited less than
2^19 cycles keeps the time of day running, an older one leaves it open. The clock of a halted processor stands still
(R365). -/
def Obligations.ClockAndInterval : Prop :=
  (∀ s : State, s.inputs = [] → s.csm.nsStopped = none →
    environment s = .next { s with cp := if s.frozen then s.cp else copClock s.cp 1 s.fresh, cycles := s.cycles + 1,
                                   dirtyEvicted := false, busInst := none, busData := none, fresh := s.fresh + 1 }) ∧
  (∀ (cp : Coprocessor) (n f : Nat), (copClock cp n f).ac = cp.ac ∧ (copClock cp n f).itime = cp.itime ∧
    (cp.intPending = true → (copClock cp n f).intPending = true ∧ (copClock cp n f).intAge = cp.intAge + n) ∧
    (n < 2 ^ 19 → (cp.intPending = true → cp.intAge + n < 2 ^ 19) →
      (copClock cp n f).tod = cp.tod + BitVec.ofNat 64 n)) ∧
  ∀ (cp : Coprocessor) (n : Nat) (f : Nat → Nat), cp.timer = .armed → cp.intPending = false →
    1 ≤ (cp.itime - cp.tod).toNat → (cp.itime - cp.tod).toNat ≤ 2 ^ 19 - 1 → n < 2 ^ 19 →
    ∀ late, late = (List.range n).foldl (fun c k => copClock c 1 (f k)) cp →
      late.tod = cp.tod + BitVec.ofNat 64 n ∧
      (late.intPending = true ↔ (cp.itime - cp.tod).toNat ≤ n) ∧
      (late.intPending = true → late.intAge = n - (cp.itime - cp.tod).toNat)

/-! ## The whole instruction set -/

/-- What no instruction changes (R21, R23, R156, R233), for every instruction whose execution gives a next state: a
general register, or its parity, only if it is the instruction's destination, and never through the field 0; main
memory only by a flush (a store reaches the data cache); the Boot-Prom never; a cache only by a flush, and the data
cache by a load or store too, in the line of its own address alone; translation buffers and adaptors only by a special;
the coprocessor only by a coprocessor instruction; the memory controller only by a special, or by a load or store that
misses and whose own line's read meets an error. -/
def Obligations.InstructionFrame : Prop :=
  ∀ (i : Instr) (s t : State), exec i s = .next t →
    (∀ j, t.reg j ≠ s.reg j ∨ t.mark j ≠ s.mark j → ∃ n, destination i = some n ∧ n ≠ 0#6 ∧ j = s.raIndex n) ∧
    (kind i ≠ .flush → mainMemoryKept s t) ∧ (∀ a, readByte t.prom a = readByte s.prom a) ∧
    t.populated = s.populated ∧ (kind i ≠ .flush → t.icache = s.icache) ∧
    (kind i ≠ .flush → kind i ≠ .load → kind i ≠ .store → t.dcache = s.dcache) ∧
    (kind i ≠ .special → translationKept s t ∧ t.slots = s.slots) ∧ (kind i ≠ .coprocessor → t.cp = s.cp) ∧
    (kind i ≠ .special → kind i ≠ .load → kind i ≠ .store → t.mc = s.mc) ∧
    ∀ (ra rb : RegField) (disp : BitVec 16),
      ∀ p ∈ [(Instr.load ra rb disp, false), (.store ra rb disp, true)], i = p.1 →
      ∀ ref, ref = dataReference s.dtlb s.eff ((s.readB rb >>> 2) + disp.signExtend 32) p.2 →
        ((∀ rwa, ref ≠ .real rwa) → t.dcache = s.dcache ∧ t.mc = s.mc) ∧
        ∀ rwa l, ref = .real rwa → l = lineOf rwa →
          (∀ k, k ≠ l.toNat → mapGet t.dcache k = mapGet s.dcache k) ∧
          (t.mc ≠ s.mc → s.hasDataLine l = false ∧ inBootProm s.eff.rom l = false ∧
            (isPopulated s.populated l = false ∨
              ∃ e rest, s.ecc = some e :: rest ∧ (e.even ≠ none ∨ e.odd ≠ none)))

/-- What user mode without prv cannot do (R360, R362, R345, R99): whatever word stands at pc, after it both
translation buffers, the adaptors, main memory, the Boot-Prom, the instruction cache, the memory controller's control
registers and the clock and interval timer are as before, no PSW write is under way, the processor is not halted (a
parity error may halt it, R367), and the PSW is as before unless a trap has set kernel mode and sent control to real
address 0. -/
def Obligations.UserIsolation : Prop :=
  ∀ (w : Word) (s t : State), s.eff.krn = false → s.eff.prv = false → s.pend1 = none → s.pend2 = none →
    s.pend3 = none → parityHalts (decodeWord w) s = false → runWord w s = .next t →
    translationKept s t ∧ t.slots = s.slots ∧ mainMemoryKept s t ∧ (∀ a, readByte t.prom a = readByte s.prom a) ∧
    t.icache = s.icache ∧ t.mc.ioSel = s.mc.ioSel ∧ t.mc.ioAddress = s.mc.ioAddress ∧
    t.mc.ioReadData = s.mc.ioReadData ∧ t.mc.ack = s.mc.ack ∧ t.mc.ioWriteData = s.mc.ioWriteData ∧
    t.mc.slot = s.mc.slot ∧ t.mc.enable = s.mc.enable ∧ t.mc.lock = s.mc.lock ∧
    t.cp.tod = s.cp.tod ∧ t.cp.itime = s.cp.itime ∧ t.cp.timer = s.cp.timer ∧ t.cp.intPending = s.cp.intPending ∧
    t.pend1 = none ∧ t.pend2 = none ∧ t.pend3 = none ∧ t.halted = s.halted ∧
    (t.psw = s.psw ∨
      (t.pc = 0x00000000#32 ∧ t.npc = 0x00000004#32 ∧ t.psw.krn = true ∧ t.psw.pre = true ∧ t.psw.imp = true ∧
        t.psw.dmp = true ∧ t.psw.prv = s.psw.prv ∧ t.psw.pid = s.psw.pid))

end
end

