-- ==== Sys2Proof/Laws/State.lean ====
section
/-!
SUPPORT. One lemma for each field of State under each update of Machine/: what the update leaves, and what it sets.
-/
namespace Sys2Proof.Machine

/-! ## State.writeA -/

@[simp] theorem State_writeA_pc (s : State) (n : RegField) (v : Word) :
    (s.writeA n v).pc = s.pc := by unfold State.writeA; split <;> rfl
@[simp] theorem State_writeA_npc (s : State) (n : RegField) (v : Word) :
    (s.writeA n v).npc = s.npc := by unfold State.writeA; split <;> rfl
@[simp] theorem State_writeA_pc1 (s : State) (n : RegField) (v : Word) :
    (s.writeA n v).pc1 = s.pc1 := by unfold State.writeA; split <;> rfl
@[simp] theorem State_writeA_pc2 (s : State) (n : RegField) (v : Word) :
    (s.writeA n v).pc2 = s.pc2 := by unfold State.writeA; split <;> rfl
@[simp] theorem State_writeA_rr (s : State) (n : RegField) (v : Word) :
    (s.writeA n v).rr = s.rr := by unfold State.writeA; split <;> rfl
@[simp] theorem State_writeA_psw (s : State) (n : RegField) (v : Word) :
    (s.writeA n v).psw = s.psw := by unfold State.writeA; split <;> rfl
@[simp] theorem State_writeA_pend1 (s : State) (n : RegField) (v : Word) :
    (s.writeA n v).pend1 = s.pend1 := by unfold State.writeA; split <;> rfl
@[simp] theorem State_writeA_pend2 (s : State) (n : RegField) (v : Word) :
    (s.writeA n v).pend2 = s.pend2 := by unfold State.writeA; split <;> rfl
@[simp] theorem State_writeA_pend3 (s : State) (n : RegField) (v : Word) :
    (s.writeA n v).pend3 = s.pend3 := by unfold State.writeA; split <;> rfl
@[simp] theorem State_writeA_itfr (s : State) (n : RegField) (v : Word) :
    (s.writeA n v).itfr = s.itfr := by unfold State.writeA; split <;> rfl
@[simp] theorem State_writeA_dtfr (s : State) (n : RegField) (v : Word) :
    (s.writeA n v).dtfr = s.dtfr := by unfold State.writeA; split <;> rfl
@[simp] theorem State_writeA_itlb (s : State) (n : RegField) (v : Word) :
    (s.writeA n v).itlb = s.itlb := by unfold State.writeA; split <;> rfl
@[simp] theorem State_writeA_dtlb (s : State) (n : RegField) (v : Word) :
    (s.writeA n v).dtlb = s.dtlb := by unfold State.writeA; split <;> rfl
@[simp] theorem State_writeA_icache (s : State) (n : RegField) (v : Word) :
    (s.writeA n v).icache = s.icache := by unfold State.writeA; split <;> rfl
@[simp] theorem State_writeA_dcache (s : State) (n : RegField) (v : Word) :
    (s.writeA n v).dcache = s.dcache := by unfold State.writeA; split <;> rfl
@[simp] theorem State_writeA_halted (s : State) (n : RegField) (v : Word) :
    (s.writeA n v).halted = s.halted := by unfold State.writeA; split <;> rfl
@[simp] theorem State_writeA_stalled (s : State) (n : RegField) (v : Word) :
    (s.writeA n v).stalled = s.stalled := by unfold State.writeA; split <;> rfl
@[simp] theorem State_writeA_hist (s : State) (n : RegField) (v : Word) :
    (s.writeA n v).hist = s.hist := by unfold State.writeA; split <;> rfl
@[simp] theorem State_writeA_icar (s : State) (n : RegField) (v : Word) :
    (s.writeA n v).icar = s.icar := by unfold State.writeA; split <;> rfl
@[simp] theorem State_writeA_cp (s : State) (n : RegField) (v : Word) :
    (s.writeA n v).cp = s.cp := by unfold State.writeA; split <;> rfl
@[simp] theorem State_writeA_mc (s : State) (n : RegField) (v : Word) :
    (s.writeA n v).mc = s.mc := by unfold State.writeA; split <;> rfl
@[simp] theorem State_writeA_mem (s : State) (n : RegField) (v : Word) :
    (s.writeA n v).mem = s.mem := by unfold State.writeA; split <;> rfl
@[simp] theorem State_writeA_prom (s : State) (n : RegField) (v : Word) :
    (s.writeA n v).prom = s.prom := by unfold State.writeA; split <;> rfl
@[simp] theorem State_writeA_populated (s : State) (n : RegField) (v : Word) :
    (s.writeA n v).populated = s.populated := by unfold State.writeA; split <;> rfl
@[simp] theorem State_writeA_slots (s : State) (n : RegField) (v : Word) :
    (s.writeA n v).slots = s.slots := by unfold State.writeA; split <;> rfl
@[simp] theorem State_writeA_csm (s : State) (n : RegField) (v : Word) :
    (s.writeA n v).csm = s.csm := by unfold State.writeA; split <;> rfl
@[simp] theorem State_writeA_enc (s : State) (n : RegField) (v : Word) :
    (s.writeA n v).enc = s.enc := by unfold State.writeA; split <;> rfl
@[simp] theorem State_writeA_lay (s : State) (n : RegField) (v : Word) :
    (s.writeA n v).lay = s.lay := by unfold State.writeA; split <;> rfl
@[simp] theorem State_writeA_inputs (s : State) (n : RegField) (v : Word) :
    (s.writeA n v).inputs = s.inputs := by unfold State.writeA; split <;> rfl
@[simp] theorem State_writeA_ecc (s : State) (n : RegField) (v : Word) :
    (s.writeA n v).ecc = s.ecc := by unfold State.writeA; split <;> rfl
@[simp] theorem State_writeA_cycles (s : State) (n : RegField) (v : Word) :
    (s.writeA n v).cycles = s.cycles := by unfold State.writeA; split <;> rfl
@[simp] theorem State_writeA_dirtyEvicted (s : State) (n : RegField) (v : Word) :
    (s.writeA n v).dirtyEvicted = s.dirtyEvicted := by unfold State.writeA; split <;> rfl
@[simp] theorem State_writeA_busInst (s : State) (n : RegField) (v : Word) :
    (s.writeA n v).busInst = s.busInst := by unfold State.writeA; split <;> rfl
@[simp] theorem State_writeA_busData (s : State) (n : RegField) (v : Word) :
    (s.writeA n v).busData = s.busData := by unfold State.writeA; split <;> rfl
@[simp] theorem State_writeA_fresh (s : State) (n : RegField) (v : Word) :
    (s.writeA n v).fresh = s.fresh := by unfold State.writeA; split <;> rfl

/-! ## State.result -/

@[simp] theorem State_result_regs (s : State) (n : RegField) (v : Word) :
    (s.result n v).regs = (s.writeA n v).regs := by unfold State.result; simp
@[simp] theorem State_result_marks (s : State) (n : RegField) (v : Word) :
    (s.result n v).marks = (s.writeA n v).marks := by unfold State.result; simp
@[simp] theorem State_result_pc (s : State) (n : RegField) (v : Word) :
    (s.result n v).pc = s.pc := by unfold State.result; simp
@[simp] theorem State_result_npc (s : State) (n : RegField) (v : Word) :
    (s.result n v).npc = s.npc := by unfold State.result; simp
@[simp] theorem State_result_pc1 (s : State) (n : RegField) (v : Word) :
    (s.result n v).pc1 = s.pc1 := by unfold State.result; simp
@[simp] theorem State_result_pc2 (s : State) (n : RegField) (v : Word) :
    (s.result n v).pc2 = s.pc2 := by unfold State.result; simp
@[simp] theorem State_result_rr (s : State) (n : RegField) (v : Word) :
    (s.result n v).rr = some v := by unfold State.result; simp
@[simp] theorem State_result_psw (s : State) (n : RegField) (v : Word) :
    (s.result n v).psw = s.psw := by unfold State.result; simp
@[simp] theorem State_result_pend1 (s : State) (n : RegField) (v : Word) :
    (s.result n v).pend1 = s.pend1 := by unfold State.result; simp
@[simp] theorem State_result_pend2 (s : State) (n : RegField) (v : Word) :
    (s.result n v).pend2 = s.pend2 := by unfold State.result; simp
@[simp] theorem State_result_pend3 (s : State) (n : RegField) (v : Word) :
    (s.result n v).pend3 = s.pend3 := by unfold State.result; simp
@[simp] theorem State_result_itfr (s : State) (n : RegField) (v : Word) :
    (s.result n v).itfr = s.itfr := by unfold State.result; simp
@[simp] theorem State_result_dtfr (s : State) (n : RegField) (v : Word) :
    (s.result n v).dtfr = s.dtfr := by unfold State.result; simp
@[simp] theorem State_result_itlb (s : State) (n : RegField) (v : Word) :
    (s.result n v).itlb = s.itlb := by unfold State.result; simp
@[simp] theorem State_result_dtlb (s : State) (n : RegField) (v : Word) :
    (s.result n v).dtlb = s.dtlb := by unfold State.result; simp
@[simp] theorem State_result_icache (s : State) (n : RegField) (v : Word) :
    (s.result n v).icache = s.icache := by unfold State.result; simp
@[simp] theorem State_result_dcache (s : State) (n : RegField) (v : Word) :
    (s.result n v).dcache = s.dcache := by unfold State.result; simp
@[simp] theorem State_result_halted (s : State) (n : RegField) (v : Word) :
    (s.result n v).halted = s.halted := by unfold State.result; simp
@[simp] theorem State_result_stalled (s : State) (n : RegField) (v : Word) :
    (s.result n v).stalled = s.stalled := by unfold State.result; simp
@[simp] theorem State_result_hist (s : State) (n : RegField) (v : Word) :
    (s.result n v).hist = s.hist := by unfold State.result; simp
@[simp] theorem State_result_icar (s : State) (n : RegField) (v : Word) :
    (s.result n v).icar = s.icar := by unfold State.result; simp
@[simp] theorem State_result_cp (s : State) (n : RegField) (v : Word) :
    (s.result n v).cp = s.cp := by unfold State.result; simp
@[simp] theorem State_result_mc (s : State) (n : RegField) (v : Word) :
    (s.result n v).mc = s.mc := by unfold State.result; simp
@[simp] theorem State_result_mem (s : State) (n : RegField) (v : Word) :
    (s.result n v).mem = s.mem := by unfold State.result; simp
@[simp] theorem State_result_prom (s : State) (n : RegField) (v : Word) :
    (s.result n v).prom = s.prom := by unfold State.result; simp
@[simp] theorem State_result_populated (s : State) (n : RegField) (v : Word) :
    (s.result n v).populated = s.populated := by unfold State.result; simp
@[simp] theorem State_result_slots (s : State) (n : RegField) (v : Word) :
    (s.result n v).slots = s.slots := by unfold State.result; simp
@[simp] theorem State_result_csm (s : State) (n : RegField) (v : Word) :
    (s.result n v).csm = s.csm := by unfold State.result; simp
@[simp] theorem State_result_enc (s : State) (n : RegField) (v : Word) :
    (s.result n v).enc = s.enc := by unfold State.result; simp
@[simp] theorem State_result_lay (s : State) (n : RegField) (v : Word) :
    (s.result n v).lay = s.lay := by unfold State.result; simp
@[simp] theorem State_result_inputs (s : State) (n : RegField) (v : Word) :
    (s.result n v).inputs = s.inputs := by unfold State.result; simp
@[simp] theorem State_result_ecc (s : State) (n : RegField) (v : Word) :
    (s.result n v).ecc = s.ecc := by unfold State.result; simp
@[simp] theorem State_result_cycles (s : State) (n : RegField) (v : Word) :
    (s.result n v).cycles = s.cycles := by unfold State.result; simp
@[simp] theorem State_result_dirtyEvicted (s : State) (n : RegField) (v : Word) :
    (s.result n v).dirtyEvicted = s.dirtyEvicted := by unfold State.result; simp
@[simp] theorem State_result_busInst (s : State) (n : RegField) (v : Word) :
    (s.result n v).busInst = s.busInst := by unfold State.result; simp
@[simp] theorem State_result_busData (s : State) (n : RegField) (v : Word) :
    (s.result n v).busData = s.busData := by unfold State.result; simp
@[simp] theorem State_result_fresh (s : State) (n : RegField) (v : Word) :
    (s.result n v).fresh = s.fresh := by unfold State.result; simp

/-! ## State.selectControl -/

@[simp] theorem State_selectControl_regs (s : State) (rb : RegField) : (s.selectControl rb).regs = s.regs := rfl
@[simp] theorem State_selectControl_marks (s : State) (rb : RegField) : (s.selectControl rb).marks = s.marks := rfl
@[simp] theorem State_selectControl_pc (s : State) (rb : RegField) : (s.selectControl rb).pc = s.pc := rfl
@[simp] theorem State_selectControl_npc (s : State) (rb : RegField) : (s.selectControl rb).npc = s.npc := rfl
@[simp] theorem State_selectControl_pc1 (s : State) (rb : RegField) : (s.selectControl rb).pc1 = s.pc1 := rfl
@[simp] theorem State_selectControl_pc2 (s : State) (rb : RegField) : (s.selectControl rb).pc2 = s.pc2 := rfl
@[simp] theorem State_selectControl_rr (s : State) (rb : RegField) : (s.selectControl rb).rr = s.rr := rfl
@[simp] theorem State_selectControl_psw (s : State) (rb : RegField) : (s.selectControl rb).psw = s.psw := rfl
@[simp] theorem State_selectControl_pend1 (s : State) (rb : RegField) : (s.selectControl rb).pend1 = s.pend1 := rfl
@[simp] theorem State_selectControl_pend2 (s : State) (rb : RegField) : (s.selectControl rb).pend2 = s.pend2 := rfl
@[simp] theorem State_selectControl_pend3 (s : State) (rb : RegField) : (s.selectControl rb).pend3 = s.pend3 := rfl
@[simp] theorem State_selectControl_itfr (s : State) (rb : RegField) : (s.selectControl rb).itfr = s.itfr := rfl
@[simp] theorem State_selectControl_dtfr (s : State) (rb : RegField) : (s.selectControl rb).dtfr = s.dtfr := rfl
@[simp] theorem State_selectControl_itlb (s : State) (rb : RegField) : (s.selectControl rb).itlb = s.itlb := rfl
@[simp] theorem State_selectControl_dtlb (s : State) (rb : RegField) : (s.selectControl rb).dtlb = s.dtlb := rfl
@[simp] theorem State_selectControl_icache (s : State) (rb : RegField) : (s.selectControl rb).icache = s.icache := rfl
@[simp] theorem State_selectControl_dcache (s : State) (rb : RegField) : (s.selectControl rb).dcache = s.dcache := rfl
@[simp] theorem State_selectControl_halted (s : State) (rb : RegField) : (s.selectControl rb).halted = s.halted := rfl
@[simp] theorem State_selectControl_stalled (s : State) (rb : RegField) :
    (s.selectControl rb).stalled = s.stalled := rfl
@[simp] theorem State_selectControl_hist (s : State) (rb : RegField) : (s.selectControl rb).hist = s.hist := rfl
@[simp] theorem State_selectControl_icar (s : State) (rb : RegField) : (s.selectControl rb).icar = s.icar := rfl
@[simp] theorem State_selectControl_cp (s : State) (rb : RegField) : (s.selectControl rb).cp = s.cp := rfl
@[simp] theorem State_selectControl_mc (s : State) (rb : RegField) :
    (s.selectControl rb).mc = { s.mc with ioSel := rb } := rfl
@[simp] theorem State_selectControl_mem (s : State) (rb : RegField) : (s.selectControl rb).mem = s.mem := rfl
@[simp] theorem State_selectControl_prom (s : State) (rb : RegField) : (s.selectControl rb).prom = s.prom := rfl
@[simp] theorem State_selectControl_populated (s : State) (rb : RegField) :
    (s.selectControl rb).populated = s.populated := rfl
@[simp] theorem State_selectControl_slots (s : State) (rb : RegField) : (s.selectControl rb).slots = s.slots := rfl
@[simp] theorem State_selectControl_csm (s : State) (rb : RegField) : (s.selectControl rb).csm = s.csm := rfl
@[simp] theorem State_selectControl_enc (s : State) (rb : RegField) : (s.selectControl rb).enc = s.enc := rfl
@[simp] theorem State_selectControl_lay (s : State) (rb : RegField) : (s.selectControl rb).lay = s.lay := rfl
@[simp] theorem State_selectControl_inputs (s : State) (rb : RegField) : (s.selectControl rb).inputs = s.inputs := rfl
@[simp] theorem State_selectControl_ecc (s : State) (rb : RegField) : (s.selectControl rb).ecc = s.ecc := rfl
@[simp] theorem State_selectControl_cycles (s : State) (rb : RegField) : (s.selectControl rb).cycles = s.cycles := rfl
@[simp] theorem State_selectControl_dirtyEvicted (s : State) (rb : RegField) :
    (s.selectControl rb).dirtyEvicted = s.dirtyEvicted := rfl
@[simp] theorem State_selectControl_busInst (s : State) (rb : RegField) :
    (s.selectControl rb).busInst = s.busInst := rfl
@[simp] theorem State_selectControl_busData (s : State) (rb : RegField) :
    (s.selectControl rb).busData = s.busData := rfl
@[simp] theorem State_selectControl_fresh (s : State) (rb : RegField) : (s.selectControl rb).fresh = s.fresh := rfl

/-! ## State.advancePsw -/

@[simp] theorem State_advancePsw_regs (s : State) (w : Option Word) :
    (s.advancePsw w).regs = s.regs := by unfold State.advancePsw; dsimp only; split <;> rfl
@[simp] theorem State_advancePsw_marks (s : State) (w : Option Word) :
    (s.advancePsw w).marks = s.marks := by unfold State.advancePsw; dsimp only; split <;> rfl
@[simp] theorem State_advancePsw_pc (s : State) (w : Option Word) :
    (s.advancePsw w).pc = s.pc := by unfold State.advancePsw; dsimp only; split <;> rfl
@[simp] theorem State_advancePsw_npc (s : State) (w : Option Word) :
    (s.advancePsw w).npc = s.npc := by unfold State.advancePsw; dsimp only; split <;> rfl
@[simp] theorem State_advancePsw_rr (s : State) (w : Option Word) :
    (s.advancePsw w).rr = s.rr := by unfold State.advancePsw; dsimp only; split <;> rfl
@[simp] theorem State_advancePsw_pend1 (s : State) (w : Option Word) :
    (s.advancePsw w).pend1 = w := by unfold State.advancePsw; dsimp only; split <;> rfl
@[simp] theorem State_advancePsw_pend2 (s : State) (w : Option Word) :
    (s.advancePsw w).pend2 = s.pend1 := by unfold State.advancePsw; dsimp only; split <;> rfl
@[simp] theorem State_advancePsw_pend3 (s : State) (w : Option Word) :
    (s.advancePsw w).pend3 = s.pend2 := by unfold State.advancePsw; dsimp only; split <;> rfl
@[simp] theorem State_advancePsw_itlb (s : State) (w : Option Word) :
    (s.advancePsw w).itlb = s.itlb := by unfold State.advancePsw; dsimp only; split <;> rfl
@[simp] theorem State_advancePsw_dtlb (s : State) (w : Option Word) :
    (s.advancePsw w).dtlb = s.dtlb := by unfold State.advancePsw; dsimp only; split <;> rfl
@[simp] theorem State_advancePsw_icache (s : State) (w : Option Word) :
    (s.advancePsw w).icache = s.icache := by unfold State.advancePsw; dsimp only; split <;> rfl
@[simp] theorem State_advancePsw_dcache (s : State) (w : Option Word) :
    (s.advancePsw w).dcache = s.dcache := by unfold State.advancePsw; dsimp only; split <;> rfl
@[simp] theorem State_advancePsw_halted (s : State) (w : Option Word) :
    (s.advancePsw w).halted = s.halted := by unfold State.advancePsw; dsimp only; split <;> rfl
@[simp] theorem State_advancePsw_stalled (s : State) (w : Option Word) :
    (s.advancePsw w).stalled = s.stalled := by unfold State.advancePsw; dsimp only; split <;> rfl
@[simp] theorem State_advancePsw_hist (s : State) (w : Option Word) :
    (s.advancePsw w).hist = s.hist := by unfold State.advancePsw; dsimp only; split <;> rfl
@[simp] theorem State_advancePsw_icar (s : State) (w : Option Word) :
    (s.advancePsw w).icar = s.icar := by unfold State.advancePsw; dsimp only; split <;> rfl
@[simp] theorem State_advancePsw_cp (s : State) (w : Option Word) :
    (s.advancePsw w).cp = s.cp := by unfold State.advancePsw; dsimp only; split <;> rfl
@[simp] theorem State_advancePsw_mc (s : State) (w : Option Word) :
    (s.advancePsw w).mc = s.mc := by unfold State.advancePsw; dsimp only; split <;> rfl
@[simp] theorem State_advancePsw_mem (s : State) (w : Option Word) :
    (s.advancePsw w).mem = s.mem := by unfold State.advancePsw; dsimp only; split <;> rfl
@[simp] theorem State_advancePsw_prom (s : State) (w : Option Word) :
    (s.advancePsw w).prom = s.prom := by unfold State.advancePsw; dsimp only; split <;> rfl
@[simp] theorem State_advancePsw_populated (s : State) (w : Option Word) :
    (s.advancePsw w).populated = s.populated := by unfold State.advancePsw; dsimp only; split <;> rfl
@[simp] theorem State_advancePsw_slots (s : State) (w : Option Word) :
    (s.advancePsw w).slots = s.slots := by unfold State.advancePsw; dsimp only; split <;> rfl
@[simp] theorem State_advancePsw_csm (s : State) (w : Option Word) :
    (s.advancePsw w).csm = s.csm := by unfold State.advancePsw; dsimp only; split <;> rfl
@[simp] theorem State_advancePsw_enc (s : State) (w : Option Word) :
    (s.advancePsw w).enc = s.enc := by unfold State.advancePsw; dsimp only; split <;> rfl
@[simp] theorem State_advancePsw_lay (s : State) (w : Option Word) :
    (s.advancePsw w).lay = s.lay := by unfold State.advancePsw; dsimp only; split <;> rfl
@[simp] theorem State_advancePsw_inputs (s : State) (w : Option Word) :
    (s.advancePsw w).inputs = s.inputs := by unfold State.advancePsw; dsimp only; split <;> rfl
@[simp] theorem State_advancePsw_ecc (s : State) (w : Option Word) :
    (s.advancePsw w).ecc = s.ecc := by unfold State.advancePsw; dsimp only; split <;> rfl
@[simp] theorem State_advancePsw_cycles (s : State) (w : Option Word) :
    (s.advancePsw w).cycles = s.cycles := by unfold State.advancePsw; dsimp only; split <;> rfl
@[simp] theorem State_advancePsw_dirtyEvicted (s : State) (w : Option Word) :
    (s.advancePsw w).dirtyEvicted = s.dirtyEvicted := by unfold State.advancePsw; dsimp only; split <;> rfl
@[simp] theorem State_advancePsw_busInst (s : State) (w : Option Word) :
    (s.advancePsw w).busInst = s.busInst := by unfold State.advancePsw; dsimp only; split <;> rfl
@[simp] theorem State_advancePsw_busData (s : State) (w : Option Word) :
    (s.advancePsw w).busData = s.busData := by unfold State.advancePsw; dsimp only; split <;> rfl
@[simp] theorem State_advancePsw_fresh (s : State) (w : Option Word) :
    (s.advancePsw w).fresh = s.fresh := by unfold State.advancePsw; dsimp only; split <;> rfl

/-! ## State.retireWith -/

@[simp] theorem State_retireWith_regs (s : State) (d : Did) (n : Word) (i : IcarPhase) (w : Option Word) :
    (s.retireWith d n i w).regs = s.regs := by unfold State.retireWith; simp
@[simp] theorem State_retireWith_marks (s : State) (d : Did) (n : Word) (i : IcarPhase) (w : Option Word) :
    (s.retireWith d n i w).marks = s.marks := by unfold State.retireWith; simp
@[simp] theorem State_retireWith_pc (s : State) (d : Did) (n : Word) (i : IcarPhase) (w : Option Word) :
    (s.retireWith d n i w).pc = s.npc := by unfold State.retireWith; simp
@[simp] theorem State_retireWith_npc (s : State) (d : Did) (n : Word) (i : IcarPhase) (w : Option Word) :
    (s.retireWith d n i w).npc = n := by unfold State.retireWith; simp
@[simp] theorem State_retireWith_rr (s : State) (d : Did) (n : Word) (i : IcarPhase) (w : Option Word) :
    (s.retireWith d n i w).rr = s.rr := by unfold State.retireWith; simp
@[simp] theorem State_retireWith_pend1 (s : State) (d : Did) (n : Word) (i : IcarPhase) (w : Option Word) :
    (s.retireWith d n i w).pend1 = w := by unfold State.retireWith; simp
@[simp] theorem State_retireWith_pend2 (s : State) (d : Did) (n : Word) (i : IcarPhase) (w : Option Word) :
    (s.retireWith d n i w).pend2 = s.pend1 := by unfold State.retireWith; simp
@[simp] theorem State_retireWith_pend3 (s : State) (d : Did) (n : Word) (i : IcarPhase) (w : Option Word) :
    (s.retireWith d n i w).pend3 = s.pend2 := by unfold State.retireWith; simp
@[simp] theorem State_retireWith_itlb (s : State) (d : Did) (n : Word) (i : IcarPhase) (w : Option Word) :
    (s.retireWith d n i w).itlb = s.itlb := by unfold State.retireWith; simp
@[simp] theorem State_retireWith_dtlb (s : State) (d : Did) (n : Word) (i : IcarPhase) (w : Option Word) :
    (s.retireWith d n i w).dtlb = s.dtlb := by unfold State.retireWith; simp
@[simp] theorem State_retireWith_icache (s : State) (d : Did) (n : Word) (i : IcarPhase) (w : Option Word) :
    (s.retireWith d n i w).icache = s.icache := by unfold State.retireWith; simp
@[simp] theorem State_retireWith_dcache (s : State) (d : Did) (n : Word) (i : IcarPhase) (w : Option Word) :
    (s.retireWith d n i w).dcache = s.dcache := by unfold State.retireWith; simp
@[simp] theorem State_retireWith_halted (s : State) (d : Did) (n : Word) (i : IcarPhase) (w : Option Word) :
    (s.retireWith d n i w).halted = s.halted := by unfold State.retireWith; simp
@[simp] theorem State_retireWith_stalled (s : State) (d : Did) (n : Word) (i : IcarPhase) (w : Option Word) :
    (s.retireWith d n i w).stalled = s.stalled := by unfold State.retireWith; simp
@[simp] theorem State_retireWith_hist (s : State) (d : Did) (n : Word) (i : IcarPhase) (w : Option Word) :
    (s.retireWith d n i w).hist = s.hist.after d := by unfold State.retireWith; simp
@[simp] theorem State_retireWith_icar (s : State) (d : Did) (n : Word) (i : IcarPhase) (w : Option Word) :
    (s.retireWith d n i w).icar = i := by unfold State.retireWith; simp
@[simp] theorem State_retireWith_cp (s : State) (d : Did) (n : Word) (i : IcarPhase) (w : Option Word) :
    (s.retireWith d n i w).cp = s.cp := by unfold State.retireWith; simp
@[simp] theorem State_retireWith_mc (s : State) (d : Did) (n : Word) (i : IcarPhase) (w : Option Word) :
    (s.retireWith d n i w).mc = s.mc := by unfold State.retireWith; simp
@[simp] theorem State_retireWith_mem (s : State) (d : Did) (n : Word) (i : IcarPhase) (w : Option Word) :
    (s.retireWith d n i w).mem = s.mem := by unfold State.retireWith; simp
@[simp] theorem State_retireWith_prom (s : State) (d : Did) (n : Word) (i : IcarPhase) (w : Option Word) :
    (s.retireWith d n i w).prom = s.prom := by unfold State.retireWith; simp
@[simp] theorem State_retireWith_populated (s : State) (d : Did) (n : Word) (i : IcarPhase) (w : Option Word) :
    (s.retireWith d n i w).populated = s.populated := by unfold State.retireWith; simp
@[simp] theorem State_retireWith_slots (s : State) (d : Did) (n : Word) (i : IcarPhase) (w : Option Word) :
    (s.retireWith d n i w).slots = s.slots := by unfold State.retireWith; simp
@[simp] theorem State_retireWith_csm (s : State) (d : Did) (n : Word) (i : IcarPhase) (w : Option Word) :
    (s.retireWith d n i w).csm = s.csm := by unfold State.retireWith; simp
@[simp] theorem State_retireWith_enc (s : State) (d : Did) (n : Word) (i : IcarPhase) (w : Option Word) :
    (s.retireWith d n i w).enc = s.enc := by unfold State.retireWith; simp
@[simp] theorem State_retireWith_lay (s : State) (d : Did) (n : Word) (i : IcarPhase) (w : Option Word) :
    (s.retireWith d n i w).lay = s.lay := by unfold State.retireWith; simp
@[simp] theorem State_retireWith_inputs (s : State) (d : Did) (n : Word) (i : IcarPhase) (w : Option Word) :
    (s.retireWith d n i w).inputs = s.inputs := by unfold State.retireWith; simp
@[simp] theorem State_retireWith_ecc (s : State) (d : Did) (n : Word) (i : IcarPhase) (w : Option Word) :
    (s.retireWith d n i w).ecc = s.ecc := by unfold State.retireWith; simp
@[simp] theorem State_retireWith_cycles (s : State) (d : Did) (n : Word) (i : IcarPhase) (w : Option Word) :
    (s.retireWith d n i w).cycles = s.cycles := by unfold State.retireWith; simp
@[simp] theorem State_retireWith_dirtyEvicted (s : State) (d : Did) (n : Word) (i : IcarPhase) (w : Option Word) :
    (s.retireWith d n i w).dirtyEvicted = s.dirtyEvicted := by unfold State.retireWith; simp
@[simp] theorem State_retireWith_busInst (s : State) (d : Did) (n : Word) (i : IcarPhase) (w : Option Word) :
    (s.retireWith d n i w).busInst = s.busInst := by unfold State.retireWith; simp
@[simp] theorem State_retireWith_busData (s : State) (d : Did) (n : Word) (i : IcarPhase) (w : Option Word) :
    (s.retireWith d n i w).busData = s.busData := by unfold State.retireWith; simp
@[simp] theorem State_retireWith_fresh (s : State) (d : Did) (n : Word) (i : IcarPhase) (w : Option Word) :
    (s.retireWith d n i w).fresh = s.fresh := by unfold State.retireWith; simp

/-! ## State.retire -/

@[simp] theorem State_retire_regs (s : State) (d : Did) : (s.retire d).regs = s.regs := by unfold State.retire; simp
@[simp] theorem State_retire_marks (s : State) (d : Did) : (s.retire d).marks = s.marks := by unfold State.retire; simp
@[simp] theorem State_retire_pc (s : State) (d : Did) : (s.retire d).pc = s.npc := by unfold State.retire; simp
@[simp] theorem State_retire_npc (s : State) (d : Did) : (s.retire d).npc = s.npc + 4#32 := by unfold State.retire; simp
@[simp] theorem State_retire_rr (s : State) (d : Did) : (s.retire d).rr = s.rr := by unfold State.retire; simp
@[simp] theorem State_retire_pend1 (s : State) (d : Did) : (s.retire d).pend1 = none := by unfold State.retire; simp
@[simp] theorem State_retire_pend2 (s : State) (d : Did) : (s.retire d).pend2 = s.pend1 := by unfold State.retire; simp
@[simp] theorem State_retire_pend3 (s : State) (d : Did) : (s.retire d).pend3 = s.pend2 := by unfold State.retire; simp
@[simp] theorem State_retire_itlb (s : State) (d : Did) : (s.retire d).itlb = s.itlb := by unfold State.retire; simp
@[simp] theorem State_retire_dtlb (s : State) (d : Did) : (s.retire d).dtlb = s.dtlb := by unfold State.retire; simp
@[simp] theorem State_retire_icache (s : State) (d : Did) :
    (s.retire d).icache = s.icache := by unfold State.retire; simp
@[simp] theorem State_retire_dcache (s : State) (d : Did) :
    (s.retire d).dcache = s.dcache := by unfold State.retire; simp
@[simp] theorem State_retire_halted (s : State) (d : Did) :
    (s.retire d).halted = s.halted := by unfold State.retire; simp
@[simp] theorem State_retire_stalled (s : State) (d : Did) :
    (s.retire d).stalled = s.stalled := by unfold State.retire; simp
@[simp] theorem State_retire_hist (s : State) (d : Did) :
    (s.retire d).hist = s.hist.after d := by unfold State.retire; simp
@[simp] theorem State_retire_icar (s : State) (d : Did) :
    (s.retire d).icar = s.icar.advance := by unfold State.retire; simp
@[simp] theorem State_retire_cp (s : State) (d : Did) : (s.retire d).cp = s.cp := by unfold State.retire; simp
@[simp] theorem State_retire_mc (s : State) (d : Did) : (s.retire d).mc = s.mc := by unfold State.retire; simp
@[simp] theorem State_retire_mem (s : State) (d : Did) : (s.retire d).mem = s.mem := by unfold State.retire; simp
@[simp] theorem State_retire_prom (s : State) (d : Did) : (s.retire d).prom = s.prom := by unfold State.retire; simp
@[simp] theorem State_retire_populated (s : State) (d : Did) :
    (s.retire d).populated = s.populated := by unfold State.retire; simp
@[simp] theorem State_retire_slots (s : State) (d : Did) : (s.retire d).slots = s.slots := by unfold State.retire; simp
@[simp] theorem State_retire_csm (s : State) (d : Did) : (s.retire d).csm = s.csm := by unfold State.retire; simp
@[simp] theorem State_retire_enc (s : State) (d : Did) : (s.retire d).enc = s.enc := by unfold State.retire; simp
@[simp] theorem State_retire_lay (s : State) (d : Did) : (s.retire d).lay = s.lay := by unfold State.retire; simp
@[simp] theorem State_retire_inputs (s : State) (d : Did) :
    (s.retire d).inputs = s.inputs := by unfold State.retire; simp
@[simp] theorem State_retire_ecc (s : State) (d : Did) : (s.retire d).ecc = s.ecc := by unfold State.retire; simp
@[simp] theorem State_retire_cycles (s : State) (d : Did) :
    (s.retire d).cycles = s.cycles := by unfold State.retire; simp
@[simp] theorem State_retire_dirtyEvicted (s : State) (d : Did) :
    (s.retire d).dirtyEvicted = s.dirtyEvicted := by unfold State.retire; simp
@[simp] theorem State_retire_busInst (s : State) (d : Did) :
    (s.retire d).busInst = s.busInst := by unfold State.retire; simp
@[simp] theorem State_retire_busData (s : State) (d : Did) :
    (s.retire d).busData = s.busData := by unfold State.retire; simp
@[simp] theorem State_retire_fresh (s : State) (d : Did) : (s.retire d).fresh = s.fresh := by unfold State.retire; simp

/-! ## State.retireTo -/

@[simp] theorem State_retireTo_regs (s : State) (d : Did) (t : Word) :
    (s.retireTo d t).regs = s.regs := by unfold State.retireTo; simp
@[simp] theorem State_retireTo_marks (s : State) (d : Did) (t : Word) :
    (s.retireTo d t).marks = s.marks := by unfold State.retireTo; simp
@[simp] theorem State_retireTo_pc (s : State) (d : Did) (t : Word) :
    (s.retireTo d t).pc = s.npc := by unfold State.retireTo; simp
@[simp] theorem State_retireTo_npc (s : State) (d : Did) (t : Word) :
    (s.retireTo d t).npc = t := by unfold State.retireTo; simp
@[simp] theorem State_retireTo_rr (s : State) (d : Did) (t : Word) :
    (s.retireTo d t).rr = s.rr := by unfold State.retireTo; simp
@[simp] theorem State_retireTo_pend1 (s : State) (d : Did) (t : Word) :
    (s.retireTo d t).pend1 = none := by unfold State.retireTo; simp
@[simp] theorem State_retireTo_pend2 (s : State) (d : Did) (t : Word) :
    (s.retireTo d t).pend2 = s.pend1 := by unfold State.retireTo; simp
@[simp] theorem State_retireTo_pend3 (s : State) (d : Did) (t : Word) :
    (s.retireTo d t).pend3 = s.pend2 := by unfold State.retireTo; simp
@[simp] theorem State_retireTo_itlb (s : State) (d : Did) (t : Word) :
    (s.retireTo d t).itlb = s.itlb := by unfold State.retireTo; simp
@[simp] theorem State_retireTo_dtlb (s : State) (d : Did) (t : Word) :
    (s.retireTo d t).dtlb = s.dtlb := by unfold State.retireTo; simp
@[simp] theorem State_retireTo_icache (s : State) (d : Did) (t : Word) :
    (s.retireTo d t).icache = s.icache := by unfold State.retireTo; simp
@[simp] theorem State_retireTo_dcache (s : State) (d : Did) (t : Word) :
    (s.retireTo d t).dcache = s.dcache := by unfold State.retireTo; simp
@[simp] theorem State_retireTo_halted (s : State) (d : Did) (t : Word) :
    (s.retireTo d t).halted = s.halted := by unfold State.retireTo; simp
@[simp] theorem State_retireTo_stalled (s : State) (d : Did) (t : Word) :
    (s.retireTo d t).stalled = s.stalled := by unfold State.retireTo; simp
@[simp] theorem State_retireTo_hist (s : State) (d : Did) (t : Word) :
    (s.retireTo d t).hist = s.hist.after d := by unfold State.retireTo; simp
@[simp] theorem State_retireTo_icar (s : State) (d : Did) (t : Word) :
    (s.retireTo d t).icar = s.icar.advance := by unfold State.retireTo; simp
@[simp] theorem State_retireTo_cp (s : State) (d : Did) (t : Word) :
    (s.retireTo d t).cp = s.cp := by unfold State.retireTo; simp
@[simp] theorem State_retireTo_mc (s : State) (d : Did) (t : Word) :
    (s.retireTo d t).mc = s.mc := by unfold State.retireTo; simp
@[simp] theorem State_retireTo_mem (s : State) (d : Did) (t : Word) :
    (s.retireTo d t).mem = s.mem := by unfold State.retireTo; simp
@[simp] theorem State_retireTo_prom (s : State) (d : Did) (t : Word) :
    (s.retireTo d t).prom = s.prom := by unfold State.retireTo; simp
@[simp] theorem State_retireTo_populated (s : State) (d : Did) (t : Word) :
    (s.retireTo d t).populated = s.populated := by unfold State.retireTo; simp
@[simp] theorem State_retireTo_slots (s : State) (d : Did) (t : Word) :
    (s.retireTo d t).slots = s.slots := by unfold State.retireTo; simp
@[simp] theorem State_retireTo_csm (s : State) (d : Did) (t : Word) :
    (s.retireTo d t).csm = s.csm := by unfold State.retireTo; simp
@[simp] theorem State_retireTo_enc (s : State) (d : Did) (t : Word) :
    (s.retireTo d t).enc = s.enc := by unfold State.retireTo; simp
@[simp] theorem State_retireTo_lay (s : State) (d : Did) (t : Word) :
    (s.retireTo d t).lay = s.lay := by unfold State.retireTo; simp
@[simp] theorem State_retireTo_inputs (s : State) (d : Did) (t : Word) :
    (s.retireTo d t).inputs = s.inputs := by unfold State.retireTo; simp
@[simp] theorem State_retireTo_ecc (s : State) (d : Did) (t : Word) :
    (s.retireTo d t).ecc = s.ecc := by unfold State.retireTo; simp
@[simp] theorem State_retireTo_cycles (s : State) (d : Did) (t : Word) :
    (s.retireTo d t).cycles = s.cycles := by unfold State.retireTo; simp
@[simp] theorem State_retireTo_dirtyEvicted (s : State) (d : Did) (t : Word) :
    (s.retireTo d t).dirtyEvicted = s.dirtyEvicted := by unfold State.retireTo; simp
@[simp] theorem State_retireTo_busInst (s : State) (d : Did) (t : Word) :
    (s.retireTo d t).busInst = s.busInst := by unfold State.retireTo; simp
@[simp] theorem State_retireTo_busData (s : State) (d : Did) (t : Word) :
    (s.retireTo d t).busData = s.busData := by unfold State.retireTo; simp
@[simp] theorem State_retireTo_fresh (s : State) (d : Did) (t : Word) :
    (s.retireTo d t).fresh = s.fresh := by unfold State.retireTo; simp

/-! ## State.retireDisturbed -/

@[simp] theorem State_retireDisturbed_regs (s : State) (d : Did) :
    (s.retireDisturbed d).regs = s.regs := by unfold State.retireDisturbed; simp
@[simp] theorem State_retireDisturbed_marks (s : State) (d : Did) :
    (s.retireDisturbed d).marks = s.marks := by unfold State.retireDisturbed; simp
@[simp] theorem State_retireDisturbed_pc (s : State) (d : Did) :
    (s.retireDisturbed d).pc = s.npc := by unfold State.retireDisturbed; simp
@[simp] theorem State_retireDisturbed_npc (s : State) (d : Did) :
    (s.retireDisturbed d).npc = s.npc + 4#32 := by unfold State.retireDisturbed; simp
@[simp] theorem State_retireDisturbed_rr (s : State) (d : Did) :
    (s.retireDisturbed d).rr = s.rr := by unfold State.retireDisturbed; simp
@[simp] theorem State_retireDisturbed_pend1 (s : State) (d : Did) :
    (s.retireDisturbed d).pend1 = none := by unfold State.retireDisturbed; simp
@[simp] theorem State_retireDisturbed_pend2 (s : State) (d : Did) :
    (s.retireDisturbed d).pend2 = s.pend1 := by unfold State.retireDisturbed; simp
@[simp] theorem State_retireDisturbed_pend3 (s : State) (d : Did) :
    (s.retireDisturbed d).pend3 = s.pend2 := by unfold State.retireDisturbed; simp
@[simp] theorem State_retireDisturbed_itlb (s : State) (d : Did) :
    (s.retireDisturbed d).itlb = s.itlb := by unfold State.retireDisturbed; simp
@[simp] theorem State_retireDisturbed_dtlb (s : State) (d : Did) :
    (s.retireDisturbed d).dtlb = s.dtlb := by unfold State.retireDisturbed; simp
@[simp] theorem State_retireDisturbed_icache (s : State) (d : Did) :
    (s.retireDisturbed d).icache = s.icache := by unfold State.retireDisturbed; simp
@[simp] theorem State_retireDisturbed_dcache (s : State) (d : Did) :
    (s.retireDisturbed d).dcache = s.dcache := by unfold State.retireDisturbed; simp
@[simp] theorem State_retireDisturbed_halted (s : State) (d : Did) :
    (s.retireDisturbed d).halted = s.halted := by unfold State.retireDisturbed; simp
@[simp] theorem State_retireDisturbed_stalled (s : State) (d : Did) :
    (s.retireDisturbed d).stalled = s.stalled := by unfold State.retireDisturbed; simp
@[simp] theorem State_retireDisturbed_hist (s : State) (d : Did) :
    (s.retireDisturbed d).hist = s.hist.after d := by unfold State.retireDisturbed; simp
@[simp] theorem State_retireDisturbed_icar (s : State) (d : Did) :
    (s.retireDisturbed d).icar = s.disturbed := by unfold State.retireDisturbed; simp
@[simp] theorem State_retireDisturbed_cp (s : State) (d : Did) :
    (s.retireDisturbed d).cp = s.cp := by unfold State.retireDisturbed; simp
@[simp] theorem State_retireDisturbed_mc (s : State) (d : Did) :
    (s.retireDisturbed d).mc = s.mc := by unfold State.retireDisturbed; simp
@[simp] theorem State_retireDisturbed_mem (s : State) (d : Did) :
    (s.retireDisturbed d).mem = s.mem := by unfold State.retireDisturbed; simp
@[simp] theorem State_retireDisturbed_prom (s : State) (d : Did) :
    (s.retireDisturbed d).prom = s.prom := by unfold State.retireDisturbed; simp
@[simp] theorem State_retireDisturbed_populated (s : State) (d : Did) :
    (s.retireDisturbed d).populated = s.populated := by unfold State.retireDisturbed; simp
@[simp] theorem State_retireDisturbed_slots (s : State) (d : Did) :
    (s.retireDisturbed d).slots = s.slots := by unfold State.retireDisturbed; simp
@[simp] theorem State_retireDisturbed_csm (s : State) (d : Did) :
    (s.retireDisturbed d).csm = s.csm := by unfold State.retireDisturbed; simp
@[simp] theorem State_retireDisturbed_enc (s : State) (d : Did) :
    (s.retireDisturbed d).enc = s.enc := by unfold State.retireDisturbed; simp
@[simp] theorem State_retireDisturbed_lay (s : State) (d : Did) :
    (s.retireDisturbed d).lay = s.lay := by unfold State.retireDisturbed; simp
@[simp] theorem State_retireDisturbed_inputs (s : State) (d : Did) :
    (s.retireDisturbed d).inputs = s.inputs := by unfold State.retireDisturbed; simp
@[simp] theorem State_retireDisturbed_ecc (s : State) (d : Did) :
    (s.retireDisturbed d).ecc = s.ecc := by unfold State.retireDisturbed; simp
@[simp] theorem State_retireDisturbed_cycles (s : State) (d : Did) :
    (s.retireDisturbed d).cycles = s.cycles := by unfold State.retireDisturbed; simp
@[simp] theorem State_retireDisturbed_dirtyEvicted (s : State) (d : Did) :
    (s.retireDisturbed d).dirtyEvicted = s.dirtyEvicted := by unfold State.retireDisturbed; simp
@[simp] theorem State_retireDisturbed_busInst (s : State) (d : Did) :
    (s.retireDisturbed d).busInst = s.busInst := by unfold State.retireDisturbed; simp
@[simp] theorem State_retireDisturbed_busData (s : State) (d : Did) :
    (s.retireDisturbed d).busData = s.busData := by unfold State.retireDisturbed; simp
@[simp] theorem State_retireDisturbed_fresh (s : State) (d : Did) :
    (s.retireDisturbed d).fresh = s.fresh := by unfold State.retireDisturbed; simp

/-! ## State.halt -/

@[simp] theorem State_halt_regs (s : State) (c : HaltCause) (ar br : Word) : (s.halt c ar br).regs = s.regs := rfl
@[simp] theorem State_halt_marks (s : State) (c : HaltCause) (ar br : Word) : (s.halt c ar br).marks = s.marks := rfl
@[simp] theorem State_halt_pc (s : State) (c : HaltCause) (ar br : Word) : (s.halt c ar br).pc = s.pc := rfl
@[simp] theorem State_halt_npc (s : State) (c : HaltCause) (ar br : Word) : (s.halt c ar br).npc = s.npc := rfl
@[simp] theorem State_halt_pc1 (s : State) (c : HaltCause) (ar br : Word) : (s.halt c ar br).pc1 = s.pc1 := rfl
@[simp] theorem State_halt_pc2 (s : State) (c : HaltCause) (ar br : Word) : (s.halt c ar br).pc2 = s.pc2 := rfl
@[simp] theorem State_halt_rr (s : State) (c : HaltCause) (ar br : Word) : (s.halt c ar br).rr = s.rr := rfl
@[simp] theorem State_halt_psw (s : State) (c : HaltCause) (ar br : Word) : (s.halt c ar br).psw = s.psw := rfl
@[simp] theorem State_halt_pend1 (s : State) (c : HaltCause) (ar br : Word) : (s.halt c ar br).pend1 = s.pend1 := rfl
@[simp] theorem State_halt_pend2 (s : State) (c : HaltCause) (ar br : Word) : (s.halt c ar br).pend2 = s.pend2 := rfl
@[simp] theorem State_halt_pend3 (s : State) (c : HaltCause) (ar br : Word) : (s.halt c ar br).pend3 = s.pend3 := rfl
@[simp] theorem State_halt_itfr (s : State) (c : HaltCause) (ar br : Word) : (s.halt c ar br).itfr = s.itfr := rfl
@[simp] theorem State_halt_dtfr (s : State) (c : HaltCause) (ar br : Word) : (s.halt c ar br).dtfr = s.dtfr := rfl
@[simp] theorem State_halt_itlb (s : State) (c : HaltCause) (ar br : Word) : (s.halt c ar br).itlb = s.itlb := rfl
@[simp] theorem State_halt_dtlb (s : State) (c : HaltCause) (ar br : Word) : (s.halt c ar br).dtlb = s.dtlb := rfl
@[simp] theorem State_halt_icache (s : State) (c : HaltCause) (ar br : Word) : (s.halt c ar br).icache = s.icache := rfl
@[simp] theorem State_halt_dcache (s : State) (c : HaltCause) (ar br : Word) : (s.halt c ar br).dcache = s.dcache := rfl
@[simp] theorem State_halt_halted (s : State) (c : HaltCause) (ar br : Word) :
    (s.halt c ar br).halted = some { cause := c, pc := s.pc, npc := s.npc, ar := ar, br := br } := rfl
@[simp] theorem State_halt_stalled (s : State) (c : HaltCause) (ar br : Word) :
    (s.halt c ar br).stalled = s.stalled := rfl
@[simp] theorem State_halt_hist (s : State) (c : HaltCause) (ar br : Word) : (s.halt c ar br).hist = s.hist := rfl
@[simp] theorem State_halt_icar (s : State) (c : HaltCause) (ar br : Word) : (s.halt c ar br).icar = s.icar := rfl
@[simp] theorem State_halt_cp (s : State) (c : HaltCause) (ar br : Word) : (s.halt c ar br).cp = s.cp := rfl
@[simp] theorem State_halt_mc (s : State) (c : HaltCause) (ar br : Word) : (s.halt c ar br).mc = s.mc := rfl
@[simp] theorem State_halt_mem (s : State) (c : HaltCause) (ar br : Word) : (s.halt c ar br).mem = s.mem := rfl
@[simp] theorem State_halt_prom (s : State) (c : HaltCause) (ar br : Word) : (s.halt c ar br).prom = s.prom := rfl
@[simp] theorem State_halt_populated (s : State) (c : HaltCause) (ar br : Word) :
    (s.halt c ar br).populated = s.populated := rfl
@[simp] theorem State_halt_slots (s : State) (c : HaltCause) (ar br : Word) : (s.halt c ar br).slots = s.slots := rfl
@[simp] theorem State_halt_csm (s : State) (c : HaltCause) (ar br : Word) : (s.halt c ar br).csm = s.csm := rfl
@[simp] theorem State_halt_enc (s : State) (c : HaltCause) (ar br : Word) : (s.halt c ar br).enc = s.enc := rfl
@[simp] theorem State_halt_lay (s : State) (c : HaltCause) (ar br : Word) : (s.halt c ar br).lay = s.lay := rfl
@[simp] theorem State_halt_inputs (s : State) (c : HaltCause) (ar br : Word) : (s.halt c ar br).inputs = s.inputs := rfl
@[simp] theorem State_halt_ecc (s : State) (c : HaltCause) (ar br : Word) : (s.halt c ar br).ecc = s.ecc := rfl
@[simp] theorem State_halt_cycles (s : State) (c : HaltCause) (ar br : Word) : (s.halt c ar br).cycles = s.cycles := rfl
@[simp] theorem State_halt_dirtyEvicted (s : State) (c : HaltCause) (ar br : Word) :
    (s.halt c ar br).dirtyEvicted = s.dirtyEvicted := rfl
@[simp] theorem State_halt_busInst (s : State) (c : HaltCause) (ar br : Word) :
    (s.halt c ar br).busInst = s.busInst := rfl
@[simp] theorem State_halt_busData (s : State) (c : HaltCause) (ar br : Word) :
    (s.halt c ar br).busData = s.busData := rfl
@[simp] theorem State_halt_fresh (s : State) (c : HaltCause) (ar br : Word) : (s.halt c ar br).fresh = s.fresh := rfl

/-! ## State.haltFields -/

@[simp] theorem State_haltFields_regs (s : State) (c : HaltCause) (ra rb : RegField) :
    (s.haltFields c ra rb).regs = s.regs := rfl
@[simp] theorem State_haltFields_marks (s : State) (c : HaltCause) (ra rb : RegField) :
    (s.haltFields c ra rb).marks = s.marks := rfl
@[simp] theorem State_haltFields_pc (s : State) (c : HaltCause) (ra rb : RegField) :
    (s.haltFields c ra rb).pc = s.pc := rfl
@[simp] theorem State_haltFields_npc (s : State) (c : HaltCause) (ra rb : RegField) :
    (s.haltFields c ra rb).npc = s.npc := rfl
@[simp] theorem State_haltFields_pc1 (s : State) (c : HaltCause) (ra rb : RegField) :
    (s.haltFields c ra rb).pc1 = s.pc1 := rfl
@[simp] theorem State_haltFields_pc2 (s : State) (c : HaltCause) (ra rb : RegField) :
    (s.haltFields c ra rb).pc2 = s.pc2 := rfl
@[simp] theorem State_haltFields_rr (s : State) (c : HaltCause) (ra rb : RegField) :
    (s.haltFields c ra rb).rr = s.rr := rfl
@[simp] theorem State_haltFields_psw (s : State) (c : HaltCause) (ra rb : RegField) :
    (s.haltFields c ra rb).psw = s.psw := rfl
@[simp] theorem State_haltFields_pend1 (s : State) (c : HaltCause) (ra rb : RegField) :
    (s.haltFields c ra rb).pend1 = s.pend1 := rfl
@[simp] theorem State_haltFields_pend2 (s : State) (c : HaltCause) (ra rb : RegField) :
    (s.haltFields c ra rb).pend2 = s.pend2 := rfl
@[simp] theorem State_haltFields_pend3 (s : State) (c : HaltCause) (ra rb : RegField) :
    (s.haltFields c ra rb).pend3 = s.pend3 := rfl
@[simp] theorem State_haltFields_itfr (s : State) (c : HaltCause) (ra rb : RegField) :
    (s.haltFields c ra rb).itfr = s.itfr := rfl
@[simp] theorem State_haltFields_dtfr (s : State) (c : HaltCause) (ra rb : RegField) :
    (s.haltFields c ra rb).dtfr = s.dtfr := rfl
@[simp] theorem State_haltFields_itlb (s : State) (c : HaltCause) (ra rb : RegField) :
    (s.haltFields c ra rb).itlb = s.itlb := rfl
@[simp] theorem State_haltFields_dtlb (s : State) (c : HaltCause) (ra rb : RegField) :
    (s.haltFields c ra rb).dtlb = s.dtlb := rfl
@[simp] theorem State_haltFields_icache (s : State) (c : HaltCause) (ra rb : RegField) :
    (s.haltFields c ra rb).icache = s.icache := rfl
@[simp] theorem State_haltFields_dcache (s : State) (c : HaltCause) (ra rb : RegField) :
    (s.haltFields c ra rb).dcache = s.dcache := rfl
@[simp] theorem State_haltFields_stalled (s : State) (c : HaltCause) (ra rb : RegField) :
    (s.haltFields c ra rb).stalled = s.stalled := rfl
@[simp] theorem State_haltFields_hist (s : State) (c : HaltCause) (ra rb : RegField) :
    (s.haltFields c ra rb).hist = s.hist := rfl
@[simp] theorem State_haltFields_icar (s : State) (c : HaltCause) (ra rb : RegField) :
    (s.haltFields c ra rb).icar = s.icar := rfl
@[simp] theorem State_haltFields_cp (s : State) (c : HaltCause) (ra rb : RegField) :
    (s.haltFields c ra rb).cp = s.cp := rfl
@[simp] theorem State_haltFields_mc (s : State) (c : HaltCause) (ra rb : RegField) :
    (s.haltFields c ra rb).mc = s.mc := rfl
@[simp] theorem State_haltFields_mem (s : State) (c : HaltCause) (ra rb : RegField) :
    (s.haltFields c ra rb).mem = s.mem := rfl
@[simp] theorem State_haltFields_prom (s : State) (c : HaltCause) (ra rb : RegField) :
    (s.haltFields c ra rb).prom = s.prom := rfl
@[simp] theorem State_haltFields_populated (s : State) (c : HaltCause) (ra rb : RegField) :
    (s.haltFields c ra rb).populated = s.populated := rfl
@[simp] theorem State_haltFields_slots (s : State) (c : HaltCause) (ra rb : RegField) :
    (s.haltFields c ra rb).slots = s.slots := rfl
@[simp] theorem State_haltFields_csm (s : State) (c : HaltCause) (ra rb : RegField) :
    (s.haltFields c ra rb).csm = s.csm := rfl
@[simp] theorem State_haltFields_enc (s : State) (c : HaltCause) (ra rb : RegField) :
    (s.haltFields c ra rb).enc = s.enc := rfl
@[simp] theorem State_haltFields_lay (s : State) (c : HaltCause) (ra rb : RegField) :
    (s.haltFields c ra rb).lay = s.lay := rfl
@[simp] theorem State_haltFields_inputs (s : State) (c : HaltCause) (ra rb : RegField) :
    (s.haltFields c ra rb).inputs = s.inputs := rfl
@[simp] theorem State_haltFields_ecc (s : State) (c : HaltCause) (ra rb : RegField) :
    (s.haltFields c ra rb).ecc = s.ecc := rfl
@[simp] theorem State_haltFields_cycles (s : State) (c : HaltCause) (ra rb : RegField) :
    (s.haltFields c ra rb).cycles = s.cycles := rfl
@[simp] theorem State_haltFields_dirtyEvicted (s : State) (c : HaltCause) (ra rb : RegField) :
    (s.haltFields c ra rb).dirtyEvicted = s.dirtyEvicted := rfl
@[simp] theorem State_haltFields_busInst (s : State) (c : HaltCause) (ra rb : RegField) :
    (s.haltFields c ra rb).busInst = s.busInst := rfl
@[simp] theorem State_haltFields_busData (s : State) (c : HaltCause) (ra rb : RegField) :
    (s.haltFields c ra rb).busData = s.busData := rfl
@[simp] theorem State_haltFields_fresh (s : State) (c : HaltCause) (ra rb : RegField) :
    (s.haltFields c ra rb).fresh = s.fresh := rfl

/-! ## State.haltPlain -/

@[simp] theorem State_haltPlain_regs (s : State) (c : HaltCause) : (s.haltPlain c).regs = s.regs := rfl
@[simp] theorem State_haltPlain_marks (s : State) (c : HaltCause) : (s.haltPlain c).marks = s.marks := rfl
@[simp] theorem State_haltPlain_pc (s : State) (c : HaltCause) : (s.haltPlain c).pc = s.pc := rfl
@[simp] theorem State_haltPlain_npc (s : State) (c : HaltCause) : (s.haltPlain c).npc = s.npc := rfl
@[simp] theorem State_haltPlain_pc1 (s : State) (c : HaltCause) : (s.haltPlain c).pc1 = s.pc1 := rfl
@[simp] theorem State_haltPlain_pc2 (s : State) (c : HaltCause) : (s.haltPlain c).pc2 = s.pc2 := rfl
@[simp] theorem State_haltPlain_rr (s : State) (c : HaltCause) : (s.haltPlain c).rr = s.rr := rfl
@[simp] theorem State_haltPlain_psw (s : State) (c : HaltCause) : (s.haltPlain c).psw = s.psw := rfl
@[simp] theorem State_haltPlain_pend1 (s : State) (c : HaltCause) : (s.haltPlain c).pend1 = s.pend1 := rfl
@[simp] theorem State_haltPlain_pend2 (s : State) (c : HaltCause) : (s.haltPlain c).pend2 = s.pend2 := rfl
@[simp] theorem State_haltPlain_pend3 (s : State) (c : HaltCause) : (s.haltPlain c).pend3 = s.pend3 := rfl
@[simp] theorem State_haltPlain_itfr (s : State) (c : HaltCause) : (s.haltPlain c).itfr = s.itfr := rfl
@[simp] theorem State_haltPlain_dtfr (s : State) (c : HaltCause) : (s.haltPlain c).dtfr = s.dtfr := rfl
@[simp] theorem State_haltPlain_itlb (s : State) (c : HaltCause) : (s.haltPlain c).itlb = s.itlb := rfl
@[simp] theorem State_haltPlain_dtlb (s : State) (c : HaltCause) : (s.haltPlain c).dtlb = s.dtlb := rfl
@[simp] theorem State_haltPlain_icache (s : State) (c : HaltCause) : (s.haltPlain c).icache = s.icache := rfl
@[simp] theorem State_haltPlain_dcache (s : State) (c : HaltCause) : (s.haltPlain c).dcache = s.dcache := rfl
@[simp] theorem State_haltPlain_stalled (s : State) (c : HaltCause) : (s.haltPlain c).stalled = s.stalled := rfl
@[simp] theorem State_haltPlain_hist (s : State) (c : HaltCause) : (s.haltPlain c).hist = s.hist := rfl
@[simp] theorem State_haltPlain_icar (s : State) (c : HaltCause) : (s.haltPlain c).icar = s.icar := rfl
@[simp] theorem State_haltPlain_cp (s : State) (c : HaltCause) : (s.haltPlain c).cp = s.cp := rfl
@[simp] theorem State_haltPlain_mc (s : State) (c : HaltCause) : (s.haltPlain c).mc = s.mc := rfl
@[simp] theorem State_haltPlain_mem (s : State) (c : HaltCause) : (s.haltPlain c).mem = s.mem := rfl
@[simp] theorem State_haltPlain_prom (s : State) (c : HaltCause) : (s.haltPlain c).prom = s.prom := rfl
@[simp] theorem State_haltPlain_populated (s : State) (c : HaltCause) : (s.haltPlain c).populated = s.populated := rfl
@[simp] theorem State_haltPlain_slots (s : State) (c : HaltCause) : (s.haltPlain c).slots = s.slots := rfl
@[simp] theorem State_haltPlain_csm (s : State) (c : HaltCause) : (s.haltPlain c).csm = s.csm := rfl
@[simp] theorem State_haltPlain_enc (s : State) (c : HaltCause) : (s.haltPlain c).enc = s.enc := rfl
@[simp] theorem State_haltPlain_lay (s : State) (c : HaltCause) : (s.haltPlain c).lay = s.lay := rfl
@[simp] theorem State_haltPlain_inputs (s : State) (c : HaltCause) : (s.haltPlain c).inputs = s.inputs := rfl
@[simp] theorem State_haltPlain_ecc (s : State) (c : HaltCause) : (s.haltPlain c).ecc = s.ecc := rfl
@[simp] theorem State_haltPlain_cycles (s : State) (c : HaltCause) : (s.haltPlain c).cycles = s.cycles := rfl
@[simp] theorem State_haltPlain_dirtyEvicted (s : State) (c : HaltCause) :
    (s.haltPlain c).dirtyEvicted = s.dirtyEvicted := rfl
@[simp] theorem State_haltPlain_busInst (s : State) (c : HaltCause) : (s.haltPlain c).busInst = s.busInst := rfl
@[simp] theorem State_haltPlain_busData (s : State) (c : HaltCause) : (s.haltPlain c).busData = s.busData := rfl
@[simp] theorem State_haltPlain_fresh (s : State) (c : HaltCause) : (s.haltPlain c).fresh = s.fresh := rfl

/-! ## trapState -/

@[simp] theorem trapState_regs (s : State) (t : TrapInfo) : (trapState s t).regs = s.regs := rfl
@[simp] theorem trapState_marks (s : State) (t : TrapInfo) : (trapState s t).marks = s.marks := rfl
@[simp] theorem trapState_pc (s : State) (t : TrapInfo) : (trapState s t).pc = 0x00000000#32 := rfl
@[simp] theorem trapState_npc (s : State) (t : TrapInfo) : (trapState s t).npc = 0x00000004#32 := rfl
@[simp] theorem trapState_pc1 (s : State) (t : TrapInfo) : (trapState s t).pc1 = s.npc := rfl
@[simp] theorem trapState_pc2 (s : State) (t : TrapInfo) : (trapState s t).pc2 = s.pc := rfl
@[simp] theorem trapState_rr (s : State) (t : TrapInfo) : (trapState s t).rr = none := rfl
@[simp] theorem trapState_psw (s : State) (t : TrapInfo) : (trapState s t).psw = trapPsw s t := rfl
@[simp] theorem trapState_pend1 (s : State) (t : TrapInfo) : (trapState s t).pend1 = s.pend1 := rfl
@[simp] theorem trapState_pend2 (s : State) (t : TrapInfo) : (trapState s t).pend2 = s.pend2 := rfl
@[simp] theorem trapState_pend3 (s : State) (t : TrapInfo) : (trapState s t).pend3 = s.pend3 := rfl
@[simp] theorem trapState_itfr (s : State) (t : TrapInfo) : (trapState s t).itfr = if t.itf
    then t.instPage else Config.invalidItfr s.fresh := rfl
@[simp] theorem trapState_dtfr (s : State) (t : TrapInfo) : (trapState s t).dtfr = if t.dtf || t.wpv
    then t.dataPage else Config.invalidDtfr s.fresh := rfl
@[simp] theorem trapState_itlb (s : State) (t : TrapInfo) : (trapState s t).itlb = s.itlb := rfl
@[simp] theorem trapState_dtlb (s : State) (t : TrapInfo) : (trapState s t).dtlb = s.dtlb := rfl
@[simp] theorem trapState_icache (s : State) (t : TrapInfo) : (trapState s t).icache = s.icache := rfl
@[simp] theorem trapState_dcache (s : State) (t : TrapInfo) : (trapState s t).dcache = s.dcache := rfl
@[simp] theorem trapState_halted (s : State) (t : TrapInfo) : (trapState s t).halted = s.halted := rfl
@[simp] theorem trapState_stalled (s : State) (t : TrapInfo) : (trapState s t).stalled = s.stalled := rfl
@[simp] theorem trapState_hist (s : State) (t : TrapInfo) : (trapState s t).hist = History.empty := rfl
@[simp] theorem trapState_icar (s : State) (t : TrapInfo) : (trapState s t).icar = s.icar := rfl
@[simp] theorem trapState_cp (s : State) (t : TrapInfo) : (trapState s t).cp = s.cp := rfl
@[simp] theorem trapState_mc (s : State) (t : TrapInfo) : (trapState s t).mc = s.mc := rfl
@[simp] theorem trapState_mem (s : State) (t : TrapInfo) : (trapState s t).mem = s.mem := rfl
@[simp] theorem trapState_prom (s : State) (t : TrapInfo) : (trapState s t).prom = s.prom := rfl
@[simp] theorem trapState_populated (s : State) (t : TrapInfo) : (trapState s t).populated = s.populated := rfl
@[simp] theorem trapState_slots (s : State) (t : TrapInfo) : (trapState s t).slots = s.slots := rfl
@[simp] theorem trapState_csm (s : State) (t : TrapInfo) : (trapState s t).csm = s.csm := rfl
@[simp] theorem trapState_enc (s : State) (t : TrapInfo) : (trapState s t).enc = s.enc := rfl
@[simp] theorem trapState_lay (s : State) (t : TrapInfo) : (trapState s t).lay = s.lay := rfl
@[simp] theorem trapState_inputs (s : State) (t : TrapInfo) : (trapState s t).inputs = s.inputs := rfl
@[simp] theorem trapState_ecc (s : State) (t : TrapInfo) : (trapState s t).ecc = s.ecc := rfl
@[simp] theorem trapState_cycles (s : State) (t : TrapInfo) : (trapState s t).cycles = s.cycles := rfl
@[simp] theorem trapState_dirtyEvicted (s : State) (t : TrapInfo) : (trapState s t).dirtyEvicted = s.dirtyEvicted := rfl
@[simp] theorem trapState_busInst (s : State) (t : TrapInfo) : (trapState s t).busInst = s.busInst := rfl
@[simp] theorem trapState_busData (s : State) (t : TrapInfo) : (trapState s t).busData = s.busData := rfl
@[simp] theorem trapState_fresh (s : State) (t : TrapInfo) : (trapState s t).fresh = s.fresh := rfl

/-! ## State.putDataWord -/

@[simp] theorem State_putDataWord_regs (s : State) (a v : Word) : (s.putDataWord a v).regs = s.regs := rfl
@[simp] theorem State_putDataWord_marks (s : State) (a v : Word) : (s.putDataWord a v).marks = s.marks := rfl
@[simp] theorem State_putDataWord_pc (s : State) (a v : Word) : (s.putDataWord a v).pc = s.pc := rfl
@[simp] theorem State_putDataWord_npc (s : State) (a v : Word) : (s.putDataWord a v).npc = s.npc := rfl
@[simp] theorem State_putDataWord_pc1 (s : State) (a v : Word) : (s.putDataWord a v).pc1 = s.pc1 := rfl
@[simp] theorem State_putDataWord_pc2 (s : State) (a v : Word) : (s.putDataWord a v).pc2 = s.pc2 := rfl
@[simp] theorem State_putDataWord_rr (s : State) (a v : Word) : (s.putDataWord a v).rr = s.rr := rfl
@[simp] theorem State_putDataWord_psw (s : State) (a v : Word) : (s.putDataWord a v).psw = s.psw := rfl
@[simp] theorem State_putDataWord_pend1 (s : State) (a v : Word) : (s.putDataWord a v).pend1 = s.pend1 := rfl
@[simp] theorem State_putDataWord_pend2 (s : State) (a v : Word) : (s.putDataWord a v).pend2 = s.pend2 := rfl
@[simp] theorem State_putDataWord_pend3 (s : State) (a v : Word) : (s.putDataWord a v).pend3 = s.pend3 := rfl
@[simp] theorem State_putDataWord_itfr (s : State) (a v : Word) : (s.putDataWord a v).itfr = s.itfr := rfl
@[simp] theorem State_putDataWord_dtfr (s : State) (a v : Word) : (s.putDataWord a v).dtfr = s.dtfr := rfl
@[simp] theorem State_putDataWord_itlb (s : State) (a v : Word) : (s.putDataWord a v).itlb = s.itlb := rfl
@[simp] theorem State_putDataWord_dtlb (s : State) (a v : Word) : (s.putDataWord a v).dtlb = s.dtlb := rfl
@[simp] theorem State_putDataWord_icache (s : State) (a v : Word) : (s.putDataWord a v).icache = s.icache := rfl
@[simp] theorem State_putDataWord_halted (s : State) (a v : Word) : (s.putDataWord a v).halted = s.halted := rfl
@[simp] theorem State_putDataWord_stalled (s : State) (a v : Word) : (s.putDataWord a v).stalled = s.stalled := rfl
@[simp] theorem State_putDataWord_hist (s : State) (a v : Word) : (s.putDataWord a v).hist = s.hist := rfl
@[simp] theorem State_putDataWord_icar (s : State) (a v : Word) : (s.putDataWord a v).icar = s.icar := rfl
@[simp] theorem State_putDataWord_cp (s : State) (a v : Word) : (s.putDataWord a v).cp = s.cp := rfl
@[simp] theorem State_putDataWord_mc (s : State) (a v : Word) : (s.putDataWord a v).mc = s.mc := rfl
@[simp] theorem State_putDataWord_mem (s : State) (a v : Word) : (s.putDataWord a v).mem = s.mem := rfl
@[simp] theorem State_putDataWord_prom (s : State) (a v : Word) : (s.putDataWord a v).prom = s.prom := rfl
@[simp] theorem State_putDataWord_populated (s : State) (a v : Word) :
    (s.putDataWord a v).populated = s.populated := rfl
@[simp] theorem State_putDataWord_slots (s : State) (a v : Word) : (s.putDataWord a v).slots = s.slots := rfl
@[simp] theorem State_putDataWord_csm (s : State) (a v : Word) : (s.putDataWord a v).csm = s.csm := rfl
@[simp] theorem State_putDataWord_enc (s : State) (a v : Word) : (s.putDataWord a v).enc = s.enc := rfl
@[simp] theorem State_putDataWord_lay (s : State) (a v : Word) : (s.putDataWord a v).lay = s.lay := rfl
@[simp] theorem State_putDataWord_inputs (s : State) (a v : Word) : (s.putDataWord a v).inputs = s.inputs := rfl
@[simp] theorem State_putDataWord_ecc (s : State) (a v : Word) : (s.putDataWord a v).ecc = s.ecc := rfl
@[simp] theorem State_putDataWord_cycles (s : State) (a v : Word) : (s.putDataWord a v).cycles = s.cycles := rfl
@[simp] theorem State_putDataWord_dirtyEvicted (s : State) (a v : Word) :
    (s.putDataWord a v).dirtyEvicted = s.dirtyEvicted := rfl
@[simp] theorem State_putDataWord_busInst (s : State) (a v : Word) : (s.putDataWord a v).busInst = s.busInst := rfl
@[simp] theorem State_putDataWord_busData (s : State) (a v : Word) : (s.putDataWord a v).busData = s.busData := rfl
@[simp] theorem State_putDataWord_fresh (s : State) (a v : Word) : (s.putDataWord a v).fresh = s.fresh := rfl

/-! ## State.evictInst -/

@[simp] theorem State_evictInst_regs (s : State) (l : LineAddr) : (s.evictInst l).regs = s.regs := rfl
@[simp] theorem State_evictInst_marks (s : State) (l : LineAddr) : (s.evictInst l).marks = s.marks := rfl
@[simp] theorem State_evictInst_pc (s : State) (l : LineAddr) : (s.evictInst l).pc = s.pc := rfl
@[simp] theorem State_evictInst_npc (s : State) (l : LineAddr) : (s.evictInst l).npc = s.npc := rfl
@[simp] theorem State_evictInst_pc1 (s : State) (l : LineAddr) : (s.evictInst l).pc1 = s.pc1 := rfl
@[simp] theorem State_evictInst_pc2 (s : State) (l : LineAddr) : (s.evictInst l).pc2 = s.pc2 := rfl
@[simp] theorem State_evictInst_rr (s : State) (l : LineAddr) : (s.evictInst l).rr = s.rr := rfl
@[simp] theorem State_evictInst_psw (s : State) (l : LineAddr) : (s.evictInst l).psw = s.psw := rfl
@[simp] theorem State_evictInst_pend1 (s : State) (l : LineAddr) : (s.evictInst l).pend1 = s.pend1 := rfl
@[simp] theorem State_evictInst_pend2 (s : State) (l : LineAddr) : (s.evictInst l).pend2 = s.pend2 := rfl
@[simp] theorem State_evictInst_pend3 (s : State) (l : LineAddr) : (s.evictInst l).pend3 = s.pend3 := rfl
@[simp] theorem State_evictInst_itfr (s : State) (l : LineAddr) : (s.evictInst l).itfr = s.itfr := rfl
@[simp] theorem State_evictInst_dtfr (s : State) (l : LineAddr) : (s.evictInst l).dtfr = s.dtfr := rfl
@[simp] theorem State_evictInst_itlb (s : State) (l : LineAddr) : (s.evictInst l).itlb = s.itlb := rfl
@[simp] theorem State_evictInst_dtlb (s : State) (l : LineAddr) : (s.evictInst l).dtlb = s.dtlb := rfl
@[simp] theorem State_evictInst_icache (s : State) (l : LineAddr) :
    (s.evictInst l).icache = mapErase s.icache l.toNat := rfl
@[simp] theorem State_evictInst_dcache (s : State) (l : LineAddr) : (s.evictInst l).dcache = s.dcache := rfl
@[simp] theorem State_evictInst_halted (s : State) (l : LineAddr) : (s.evictInst l).halted = s.halted := rfl
@[simp] theorem State_evictInst_stalled (s : State) (l : LineAddr) : (s.evictInst l).stalled = s.stalled := rfl
@[simp] theorem State_evictInst_hist (s : State) (l : LineAddr) : (s.evictInst l).hist = s.hist := rfl
@[simp] theorem State_evictInst_icar (s : State) (l : LineAddr) : (s.evictInst l).icar = s.icar := rfl
@[simp] theorem State_evictInst_cp (s : State) (l : LineAddr) : (s.evictInst l).cp = s.cp := rfl
@[simp] theorem State_evictInst_mc (s : State) (l : LineAddr) : (s.evictInst l).mc = s.mc := rfl
@[simp] theorem State_evictInst_mem (s : State) (l : LineAddr) : (s.evictInst l).mem = s.mem := rfl
@[simp] theorem State_evictInst_prom (s : State) (l : LineAddr) : (s.evictInst l).prom = s.prom := rfl
@[simp] theorem State_evictInst_populated (s : State) (l : LineAddr) : (s.evictInst l).populated = s.populated := rfl
@[simp] theorem State_evictInst_slots (s : State) (l : LineAddr) : (s.evictInst l).slots = s.slots := rfl
@[simp] theorem State_evictInst_csm (s : State) (l : LineAddr) : (s.evictInst l).csm = s.csm := rfl
@[simp] theorem State_evictInst_enc (s : State) (l : LineAddr) : (s.evictInst l).enc = s.enc := rfl
@[simp] theorem State_evictInst_lay (s : State) (l : LineAddr) : (s.evictInst l).lay = s.lay := rfl
@[simp] theorem State_evictInst_inputs (s : State) (l : LineAddr) : (s.evictInst l).inputs = s.inputs := rfl
@[simp] theorem State_evictInst_ecc (s : State) (l : LineAddr) : (s.evictInst l).ecc = s.ecc := rfl
@[simp] theorem State_evictInst_cycles (s : State) (l : LineAddr) : (s.evictInst l).cycles = s.cycles := rfl
@[simp] theorem State_evictInst_dirtyEvicted (s : State) (l : LineAddr) :
    (s.evictInst l).dirtyEvicted = s.dirtyEvicted := rfl
@[simp] theorem State_evictInst_busInst (s : State) (l : LineAddr) : (s.evictInst l).busInst = s.busInst := rfl
@[simp] theorem State_evictInst_busData (s : State) (l : LineAddr) : (s.evictInst l).busData = s.busData := rfl
@[simp] theorem State_evictInst_fresh (s : State) (l : LineAddr) : (s.evictInst l).fresh = s.fresh := rfl

/-! ## State.evictData -/

@[simp] theorem State_evictData_regs (s : State) (l : LineAddr) : (s.evictData l).regs = s.regs := by
  unfold State.evictData; split <;> (try split) <;> rfl
@[simp] theorem State_evictData_marks (s : State) (l : LineAddr) : (s.evictData l).marks = s.marks := by
  unfold State.evictData; split <;> (try split) <;> rfl
@[simp] theorem State_evictData_pc (s : State) (l : LineAddr) : (s.evictData l).pc = s.pc := by
  unfold State.evictData; split <;> (try split) <;> rfl
@[simp] theorem State_evictData_npc (s : State) (l : LineAddr) : (s.evictData l).npc = s.npc := by
  unfold State.evictData; split <;> (try split) <;> rfl
@[simp] theorem State_evictData_pc1 (s : State) (l : LineAddr) : (s.evictData l).pc1 = s.pc1 := by
  unfold State.evictData; split <;> (try split) <;> rfl
@[simp] theorem State_evictData_pc2 (s : State) (l : LineAddr) : (s.evictData l).pc2 = s.pc2 := by
  unfold State.evictData; split <;> (try split) <;> rfl
@[simp] theorem State_evictData_rr (s : State) (l : LineAddr) : (s.evictData l).rr = s.rr := by
  unfold State.evictData; split <;> (try split) <;> rfl
@[simp] theorem State_evictData_psw (s : State) (l : LineAddr) : (s.evictData l).psw = s.psw := by
  unfold State.evictData; split <;> (try split) <;> rfl
@[simp] theorem State_evictData_pend1 (s : State) (l : LineAddr) : (s.evictData l).pend1 = s.pend1 := by
  unfold State.evictData; split <;> (try split) <;> rfl
@[simp] theorem State_evictData_pend2 (s : State) (l : LineAddr) : (s.evictData l).pend2 = s.pend2 := by
  unfold State.evictData; split <;> (try split) <;> rfl
@[simp] theorem State_evictData_pend3 (s : State) (l : LineAddr) : (s.evictData l).pend3 = s.pend3 := by
  unfold State.evictData; split <;> (try split) <;> rfl
@[simp] theorem State_evictData_itfr (s : State) (l : LineAddr) : (s.evictData l).itfr = s.itfr := by
  unfold State.evictData; split <;> (try split) <;> rfl
@[simp] theorem State_evictData_dtfr (s : State) (l : LineAddr) : (s.evictData l).dtfr = s.dtfr := by
  unfold State.evictData; split <;> (try split) <;> rfl
@[simp] theorem State_evictData_itlb (s : State) (l : LineAddr) : (s.evictData l).itlb = s.itlb := by
  unfold State.evictData; split <;> (try split) <;> rfl
@[simp] theorem State_evictData_dtlb (s : State) (l : LineAddr) : (s.evictData l).dtlb = s.dtlb := by
  unfold State.evictData; split <;> (try split) <;> rfl
@[simp] theorem State_evictData_icache (s : State) (l : LineAddr) : (s.evictData l).icache = s.icache := by
  unfold State.evictData; split <;> (try split) <;> rfl
@[simp] theorem State_evictData_stalled (s : State) (l : LineAddr) : (s.evictData l).stalled = s.stalled := by
  unfold State.evictData; split <;> (try split) <;> rfl
@[simp] theorem State_evictData_hist (s : State) (l : LineAddr) : (s.evictData l).hist = s.hist := by
  unfold State.evictData; split <;> (try split) <;> rfl
@[simp] theorem State_evictData_icar (s : State) (l : LineAddr) : (s.evictData l).icar = s.icar := by
  unfold State.evictData; split <;> (try split) <;> rfl
@[simp] theorem State_evictData_cp (s : State) (l : LineAddr) : (s.evictData l).cp = s.cp := by
  unfold State.evictData; split <;> (try split) <;> rfl
@[simp] theorem State_evictData_mc (s : State) (l : LineAddr) : (s.evictData l).mc = s.mc := by
  unfold State.evictData; split <;> (try split) <;> rfl
@[simp] theorem State_evictData_prom (s : State) (l : LineAddr) : (s.evictData l).prom = s.prom := by
  unfold State.evictData; split <;> (try split) <;> rfl
@[simp] theorem State_evictData_populated (s : State) (l : LineAddr) : (s.evictData l).populated = s.populated := by
  unfold State.evictData; split <;> (try split) <;> rfl
@[simp] theorem State_evictData_slots (s : State) (l : LineAddr) : (s.evictData l).slots = s.slots := by
  unfold State.evictData; split <;> (try split) <;> rfl
@[simp] theorem State_evictData_csm (s : State) (l : LineAddr) : (s.evictData l).csm = s.csm := by
  unfold State.evictData; split <;> (try split) <;> rfl
@[simp] theorem State_evictData_enc (s : State) (l : LineAddr) : (s.evictData l).enc = s.enc := by
  unfold State.evictData; split <;> (try split) <;> rfl
@[simp] theorem State_evictData_lay (s : State) (l : LineAddr) : (s.evictData l).lay = s.lay := by
  unfold State.evictData; split <;> (try split) <;> rfl
@[simp] theorem State_evictData_inputs (s : State) (l : LineAddr) : (s.evictData l).inputs = s.inputs := by
  unfold State.evictData; split <;> (try split) <;> rfl
@[simp] theorem State_evictData_ecc (s : State) (l : LineAddr) : (s.evictData l).ecc = s.ecc := by
  unfold State.evictData; split <;> (try split) <;> rfl
@[simp] theorem State_evictData_cycles (s : State) (l : LineAddr) : (s.evictData l).cycles = s.cycles := by
  unfold State.evictData; split <;> (try split) <;> rfl
@[simp] theorem State_evictData_busInst (s : State) (l : LineAddr) : (s.evictData l).busInst = s.busInst := by
  unfold State.evictData; split <;> (try split) <;> rfl
@[simp] theorem State_evictData_busData (s : State) (l : LineAddr) : (s.evictData l).busData = s.busData := by
  unfold State.evictData; split <;> (try split) <;> rfl
@[simp] theorem State_evictData_fresh (s : State) (l : LineAddr) : (s.evictData l).fresh = s.fresh := by
  unfold State.evictData; split <;> (try split) <;> rfl

/-! ## State.writeRealLine -/

@[simp] theorem State_writeRealLine_regs (s : State) (l : LineAddr) (v : Line) :
    (s.writeRealLine l v).regs = s.regs := rfl
@[simp] theorem State_writeRealLine_marks (s : State) (l : LineAddr) (v : Line) :
    (s.writeRealLine l v).marks = s.marks := rfl
@[simp] theorem State_writeRealLine_pc (s : State) (l : LineAddr) (v : Line) : (s.writeRealLine l v).pc = s.pc := rfl
@[simp] theorem State_writeRealLine_npc (s : State) (l : LineAddr) (v : Line) : (s.writeRealLine l v).npc = s.npc := rfl
@[simp] theorem State_writeRealLine_pc1 (s : State) (l : LineAddr) (v : Line) : (s.writeRealLine l v).pc1 = s.pc1 := rfl
@[simp] theorem State_writeRealLine_pc2 (s : State) (l : LineAddr) (v : Line) : (s.writeRealLine l v).pc2 = s.pc2 := rfl
@[simp] theorem State_writeRealLine_rr (s : State) (l : LineAddr) (v : Line) : (s.writeRealLine l v).rr = s.rr := rfl
@[simp] theorem State_writeRealLine_psw (s : State) (l : LineAddr) (v : Line) : (s.writeRealLine l v).psw = s.psw := rfl
@[simp] theorem State_writeRealLine_pend1 (s : State) (l : LineAddr) (v : Line) :
    (s.writeRealLine l v).pend1 = s.pend1 := rfl
@[simp] theorem State_writeRealLine_pend2 (s : State) (l : LineAddr) (v : Line) :
    (s.writeRealLine l v).pend2 = s.pend2 := rfl
@[simp] theorem State_writeRealLine_pend3 (s : State) (l : LineAddr) (v : Line) :
    (s.writeRealLine l v).pend3 = s.pend3 := rfl
@[simp] theorem State_writeRealLine_itfr (s : State) (l : LineAddr) (v : Line) :
    (s.writeRealLine l v).itfr = s.itfr := rfl
@[simp] theorem State_writeRealLine_dtfr (s : State) (l : LineAddr) (v : Line) :
    (s.writeRealLine l v).dtfr = s.dtfr := rfl
@[simp] theorem State_writeRealLine_itlb (s : State) (l : LineAddr) (v : Line) :
    (s.writeRealLine l v).itlb = s.itlb := rfl
@[simp] theorem State_writeRealLine_dtlb (s : State) (l : LineAddr) (v : Line) :
    (s.writeRealLine l v).dtlb = s.dtlb := rfl
@[simp] theorem State_writeRealLine_icache (s : State) (l : LineAddr) (v : Line) :
    (s.writeRealLine l v).icache = s.icache := rfl
@[simp] theorem State_writeRealLine_dcache (s : State) (l : LineAddr) (v : Line) :
    (s.writeRealLine l v).dcache = s.dcache := rfl
@[simp] theorem State_writeRealLine_halted (s : State) (l : LineAddr) (v : Line) :
    (s.writeRealLine l v).halted = s.halted := rfl
@[simp] theorem State_writeRealLine_stalled (s : State) (l : LineAddr) (v : Line) :
    (s.writeRealLine l v).stalled = s.stalled := rfl
@[simp] theorem State_writeRealLine_hist (s : State) (l : LineAddr) (v : Line) :
    (s.writeRealLine l v).hist = s.hist := rfl
@[simp] theorem State_writeRealLine_icar (s : State) (l : LineAddr) (v : Line) :
    (s.writeRealLine l v).icar = s.icar := rfl
@[simp] theorem State_writeRealLine_cp (s : State) (l : LineAddr) (v : Line) : (s.writeRealLine l v).cp = s.cp := rfl
@[simp] theorem State_writeRealLine_mc (s : State) (l : LineAddr) (v : Line) : (s.writeRealLine l v).mc = s.mc := rfl
@[simp] theorem State_writeRealLine_mem (s : State) (l : LineAddr) (v : Line) :
    (s.writeRealLine l v).mem = physWriteLine s.populated s.mem l v := rfl
@[simp] theorem State_writeRealLine_prom (s : State) (l : LineAddr) (v : Line) :
    (s.writeRealLine l v).prom = s.prom := rfl
@[simp] theorem State_writeRealLine_populated (s : State) (l : LineAddr) (v : Line) :
    (s.writeRealLine l v).populated = s.populated := rfl
@[simp] theorem State_writeRealLine_slots (s : State) (l : LineAddr) (v : Line) :
    (s.writeRealLine l v).slots = s.slots := rfl
@[simp] theorem State_writeRealLine_csm (s : State) (l : LineAddr) (v : Line) : (s.writeRealLine l v).csm = s.csm := rfl
@[simp] theorem State_writeRealLine_enc (s : State) (l : LineAddr) (v : Line) : (s.writeRealLine l v).enc = s.enc := rfl
@[simp] theorem State_writeRealLine_lay (s : State) (l : LineAddr) (v : Line) : (s.writeRealLine l v).lay = s.lay := rfl
@[simp] theorem State_writeRealLine_inputs (s : State) (l : LineAddr) (v : Line) :
    (s.writeRealLine l v).inputs = s.inputs := rfl
@[simp] theorem State_writeRealLine_ecc (s : State) (l : LineAddr) (v : Line) : (s.writeRealLine l v).ecc = s.ecc := rfl
@[simp] theorem State_writeRealLine_cycles (s : State) (l : LineAddr) (v : Line) :
    (s.writeRealLine l v).cycles = s.cycles := rfl
@[simp] theorem State_writeRealLine_dirtyEvicted (s : State) (l : LineAddr) (v : Line) :
    (s.writeRealLine l v).dirtyEvicted = s.dirtyEvicted := rfl
@[simp] theorem State_writeRealLine_busInst (s : State) (l : LineAddr) (v : Line) :
    (s.writeRealLine l v).busInst = s.busInst := rfl
@[simp] theorem State_writeRealLine_busData (s : State) (l : LineAddr) (v : Line) :
    (s.writeRealLine l v).busData = s.busData := rfl
@[simp] theorem State_writeRealLine_fresh (s : State) (l : LineAddr) (v : Line) :
    (s.writeRealLine l v).fresh = s.fresh := rfl

/-! ## State.flushFrom -/

@[simp] theorem State_flushFrom_regs (s : State) (ea : Word) : (s.flushFrom ea).regs = s.regs := rfl
@[simp] theorem State_flushFrom_marks (s : State) (ea : Word) : (s.flushFrom ea).marks = s.marks := rfl
@[simp] theorem State_flushFrom_pc (s : State) (ea : Word) : (s.flushFrom ea).pc = s.pc := rfl
@[simp] theorem State_flushFrom_npc (s : State) (ea : Word) : (s.flushFrom ea).npc = s.npc := rfl
@[simp] theorem State_flushFrom_pc1 (s : State) (ea : Word) : (s.flushFrom ea).pc1 = s.pc1 := rfl
@[simp] theorem State_flushFrom_pc2 (s : State) (ea : Word) : (s.flushFrom ea).pc2 = s.pc2 := rfl
@[simp] theorem State_flushFrom_rr (s : State) (ea : Word) : (s.flushFrom ea).rr = s.rr := rfl
@[simp] theorem State_flushFrom_psw (s : State) (ea : Word) : (s.flushFrom ea).psw = s.psw := rfl
@[simp] theorem State_flushFrom_pend1 (s : State) (ea : Word) : (s.flushFrom ea).pend1 = s.pend1 := rfl
@[simp] theorem State_flushFrom_pend2 (s : State) (ea : Word) : (s.flushFrom ea).pend2 = s.pend2 := rfl
@[simp] theorem State_flushFrom_pend3 (s : State) (ea : Word) : (s.flushFrom ea).pend3 = s.pend3 := rfl
@[simp] theorem State_flushFrom_itfr (s : State) (ea : Word) : (s.flushFrom ea).itfr = s.itfr := rfl
@[simp] theorem State_flushFrom_dtfr (s : State) (ea : Word) : (s.flushFrom ea).dtfr = s.dtfr := rfl
@[simp] theorem State_flushFrom_itlb (s : State) (ea : Word) : (s.flushFrom ea).itlb = s.itlb := rfl
@[simp] theorem State_flushFrom_dtlb (s : State) (ea : Word) : (s.flushFrom ea).dtlb = s.dtlb := rfl
@[simp] theorem State_flushFrom_icache (s : State) (ea : Word) :
    (s.flushFrom ea).icache = s.icache.filter (fun e => !flushCovers ea e.1) := rfl
@[simp] theorem State_flushFrom_dcache (s : State) (ea : Word) :
    (s.flushFrom ea).dcache = s.dcache.filter (fun e => !flushCovers ea e.1) := rfl
@[simp] theorem State_flushFrom_halted (s : State) (ea : Word) : (s.flushFrom ea).halted = s.halted := rfl
@[simp] theorem State_flushFrom_stalled (s : State) (ea : Word) : (s.flushFrom ea).stalled = s.stalled := rfl
@[simp] theorem State_flushFrom_hist (s : State) (ea : Word) : (s.flushFrom ea).hist = s.hist := rfl
@[simp] theorem State_flushFrom_icar (s : State) (ea : Word) : (s.flushFrom ea).icar = s.icar := rfl
@[simp] theorem State_flushFrom_cp (s : State) (ea : Word) : (s.flushFrom ea).cp = s.cp := rfl
@[simp] theorem State_flushFrom_mc (s : State) (ea : Word) : (s.flushFrom ea).mc = s.mc := rfl
@[simp] theorem State_flushFrom_mem (s : State) (ea : Word) :
    (s.flushFrom ea).mem = writeBack s.populated ea s.dcache s.mem := rfl
@[simp] theorem State_flushFrom_prom (s : State) (ea : Word) : (s.flushFrom ea).prom = s.prom := rfl
@[simp] theorem State_flushFrom_populated (s : State) (ea : Word) : (s.flushFrom ea).populated = s.populated := rfl
@[simp] theorem State_flushFrom_slots (s : State) (ea : Word) : (s.flushFrom ea).slots = s.slots := rfl
@[simp] theorem State_flushFrom_csm (s : State) (ea : Word) : (s.flushFrom ea).csm = s.csm := rfl
@[simp] theorem State_flushFrom_enc (s : State) (ea : Word) : (s.flushFrom ea).enc = s.enc := rfl
@[simp] theorem State_flushFrom_lay (s : State) (ea : Word) : (s.flushFrom ea).lay = s.lay := rfl
@[simp] theorem State_flushFrom_inputs (s : State) (ea : Word) : (s.flushFrom ea).inputs = s.inputs := rfl
@[simp] theorem State_flushFrom_ecc (s : State) (ea : Word) : (s.flushFrom ea).ecc = s.ecc := rfl
@[simp] theorem State_flushFrom_cycles (s : State) (ea : Word) : (s.flushFrom ea).cycles = s.cycles := rfl
@[simp] theorem State_flushFrom_dirtyEvicted (s : State) (ea : Word) :
    (s.flushFrom ea).dirtyEvicted = s.dirtyEvicted := rfl
@[simp] theorem State_flushFrom_busInst (s : State) (ea : Word) : (s.flushFrom ea).busInst = s.busInst := rfl
@[simp] theorem State_flushFrom_busData (s : State) (ea : Word) : (s.flushFrom ea).busData = s.busData := rfl
@[simp] theorem State_flushFrom_fresh (s : State) (ea : Word) : (s.flushFrom ea).fresh = s.fresh := rfl

/-! ## State.tick -/

@[simp] theorem State_tick_regs (s : State) (n : Nat) : (s.tick n).regs = s.regs := rfl
@[simp] theorem State_tick_marks (s : State) (n : Nat) : (s.tick n).marks = s.marks := rfl
@[simp] theorem State_tick_pc (s : State) (n : Nat) : (s.tick n).pc = s.pc := rfl
@[simp] theorem State_tick_npc (s : State) (n : Nat) : (s.tick n).npc = s.npc := rfl
@[simp] theorem State_tick_pc1 (s : State) (n : Nat) : (s.tick n).pc1 = s.pc1 := rfl
@[simp] theorem State_tick_pc2 (s : State) (n : Nat) : (s.tick n).pc2 = s.pc2 := rfl
@[simp] theorem State_tick_rr (s : State) (n : Nat) : (s.tick n).rr = s.rr := rfl
@[simp] theorem State_tick_psw (s : State) (n : Nat) : (s.tick n).psw = s.psw := rfl
@[simp] theorem State_tick_pend1 (s : State) (n : Nat) : (s.tick n).pend1 = s.pend1 := rfl
@[simp] theorem State_tick_pend2 (s : State) (n : Nat) : (s.tick n).pend2 = s.pend2 := rfl
@[simp] theorem State_tick_pend3 (s : State) (n : Nat) : (s.tick n).pend3 = s.pend3 := rfl
@[simp] theorem State_tick_itfr (s : State) (n : Nat) : (s.tick n).itfr = s.itfr := rfl
@[simp] theorem State_tick_dtfr (s : State) (n : Nat) : (s.tick n).dtfr = s.dtfr := rfl
@[simp] theorem State_tick_itlb (s : State) (n : Nat) : (s.tick n).itlb = s.itlb := rfl
@[simp] theorem State_tick_dtlb (s : State) (n : Nat) : (s.tick n).dtlb = s.dtlb := rfl
@[simp] theorem State_tick_icache (s : State) (n : Nat) : (s.tick n).icache = s.icache := rfl
@[simp] theorem State_tick_dcache (s : State) (n : Nat) : (s.tick n).dcache = s.dcache := rfl
@[simp] theorem State_tick_halted (s : State) (n : Nat) : (s.tick n).halted = s.halted := rfl
@[simp] theorem State_tick_stalled (s : State) (n : Nat) : (s.tick n).stalled = s.stalled := rfl
@[simp] theorem State_tick_hist (s : State) (n : Nat) : (s.tick n).hist = s.hist := rfl
@[simp] theorem State_tick_icar (s : State) (n : Nat) : (s.tick n).icar = s.icar := rfl
@[simp] theorem State_tick_cp (s : State) (n : Nat) : (s.tick n).cp = if s.frozen
    then s.cp else copClock s.cp n s.fresh := rfl
@[simp] theorem State_tick_mc (s : State) (n : Nat) : (s.tick n).mc = s.mc := rfl
@[simp] theorem State_tick_mem (s : State) (n : Nat) : (s.tick n).mem = s.memoryAfter n := rfl
@[simp] theorem State_tick_prom (s : State) (n : Nat) : (s.tick n).prom = s.prom := rfl
@[simp] theorem State_tick_populated (s : State) (n : Nat) : (s.tick n).populated = s.populated := rfl
@[simp] theorem State_tick_slots (s : State) (n : Nat) : (s.tick n).slots = s.slots := rfl
@[simp] theorem State_tick_csm (s : State) (n : Nat) : (s.tick n).csm = s.csm := rfl
@[simp] theorem State_tick_enc (s : State) (n : Nat) : (s.tick n).enc = s.enc := rfl
@[simp] theorem State_tick_lay (s : State) (n : Nat) : (s.tick n).lay = s.lay := rfl
@[simp] theorem State_tick_inputs (s : State) (n : Nat) : (s.tick n).inputs = s.inputs := rfl
@[simp] theorem State_tick_ecc (s : State) (n : Nat) : (s.tick n).ecc = s.ecc := rfl
@[simp] theorem State_tick_cycles (s : State) (n : Nat) : (s.tick n).cycles = s.cycles + n := rfl
@[simp] theorem State_tick_dirtyEvicted (s : State) (n : Nat) : (s.tick n).dirtyEvicted = s.dirtyEvicted := rfl
@[simp] theorem State_tick_busInst (s : State) (n : Nat) : (s.tick n).busInst = s.busInst := rfl
@[simp] theorem State_tick_busData (s : State) (n : Nat) : (s.tick n).busData = s.busData := rfl
@[simp] theorem State_tick_fresh (s : State) (n : Nat) : (s.tick n).fresh = s.fresh + 1 := rfl

/-! ## State.newStep -/

@[simp] theorem State_newStep_regs (s : State)  : (s.newStep).regs = s.regs := rfl
@[simp] theorem State_newStep_marks (s : State)  : (s.newStep).marks = s.marks := rfl
@[simp] theorem State_newStep_pc (s : State)  : (s.newStep).pc = s.pc := rfl
@[simp] theorem State_newStep_npc (s : State)  : (s.newStep).npc = s.npc := rfl
@[simp] theorem State_newStep_pc1 (s : State)  : (s.newStep).pc1 = s.pc1 := rfl
@[simp] theorem State_newStep_pc2 (s : State)  : (s.newStep).pc2 = s.pc2 := rfl
@[simp] theorem State_newStep_rr (s : State)  : (s.newStep).rr = s.rr := rfl
@[simp] theorem State_newStep_psw (s : State)  : (s.newStep).psw = s.psw := rfl
@[simp] theorem State_newStep_pend1 (s : State)  : (s.newStep).pend1 = s.pend1 := rfl
@[simp] theorem State_newStep_pend2 (s : State)  : (s.newStep).pend2 = s.pend2 := rfl
@[simp] theorem State_newStep_pend3 (s : State)  : (s.newStep).pend3 = s.pend3 := rfl
@[simp] theorem State_newStep_itfr (s : State)  : (s.newStep).itfr = s.itfr := rfl
@[simp] theorem State_newStep_dtfr (s : State)  : (s.newStep).dtfr = s.dtfr := rfl
@[simp] theorem State_newStep_itlb (s : State)  : (s.newStep).itlb = s.itlb := rfl
@[simp] theorem State_newStep_dtlb (s : State)  : (s.newStep).dtlb = s.dtlb := rfl
@[simp] theorem State_newStep_icache (s : State)  : (s.newStep).icache = s.icache := rfl
@[simp] theorem State_newStep_dcache (s : State)  : (s.newStep).dcache = s.dcache := rfl
@[simp] theorem State_newStep_halted (s : State)  : (s.newStep).halted = s.halted := rfl
@[simp] theorem State_newStep_stalled (s : State)  : (s.newStep).stalled = s.stalled := rfl
@[simp] theorem State_newStep_hist (s : State)  : (s.newStep).hist = s.hist := rfl
@[simp] theorem State_newStep_icar (s : State)  : (s.newStep).icar = s.icar := rfl
@[simp] theorem State_newStep_cp (s : State)  : (s.newStep).cp = s.cp := rfl
@[simp] theorem State_newStep_mc (s : State)  : (s.newStep).mc = s.mc := rfl
@[simp] theorem State_newStep_mem (s : State)  : (s.newStep).mem = s.mem := rfl
@[simp] theorem State_newStep_prom (s : State)  : (s.newStep).prom = s.prom := rfl
@[simp] theorem State_newStep_populated (s : State)  : (s.newStep).populated = s.populated := rfl
@[simp] theorem State_newStep_slots (s : State)  : (s.newStep).slots = s.slots := rfl
@[simp] theorem State_newStep_csm (s : State)  : (s.newStep).csm = s.csm := rfl
@[simp] theorem State_newStep_enc (s : State)  : (s.newStep).enc = s.enc := rfl
@[simp] theorem State_newStep_lay (s : State)  : (s.newStep).lay = s.lay := rfl
@[simp] theorem State_newStep_inputs (s : State)  : (s.newStep).inputs = s.inputs := rfl
@[simp] theorem State_newStep_ecc (s : State)  : (s.newStep).ecc = s.ecc := rfl
@[simp] theorem State_newStep_cycles (s : State)  : (s.newStep).cycles = s.cycles := rfl
@[simp] theorem State_newStep_dirtyEvicted (s : State)  : (s.newStep).dirtyEvicted = false := rfl
@[simp] theorem State_newStep_busInst (s : State)  : (s.newStep).busInst = none := rfl
@[simp] theorem State_newStep_busData (s : State)  : (s.newStep).busData = none := rfl
@[simp] theorem State_newStep_fresh (s : State)  : (s.newStep).fresh = s.fresh := rfl

/-! ## State.adaptorActs -/

@[simp] theorem State_adaptorActs_regs (s : State) (n : BitVec 3) (e : Event) : (s.adaptorActs n e).regs = s.regs := by
  unfold State.adaptorActs; split <;> rfl
@[simp] theorem State_adaptorActs_marks (s : State) (n : BitVec 3) (e : Event) :
    (s.adaptorActs n e).marks = s.marks := by
  unfold State.adaptorActs; split <;> rfl
@[simp] theorem State_adaptorActs_pc (s : State) (n : BitVec 3) (e : Event) : (s.adaptorActs n e).pc = s.pc := by
  unfold State.adaptorActs; split <;> rfl
@[simp] theorem State_adaptorActs_npc (s : State) (n : BitVec 3) (e : Event) : (s.adaptorActs n e).npc = s.npc := by
  unfold State.adaptorActs; split <;> rfl
@[simp] theorem State_adaptorActs_pc1 (s : State) (n : BitVec 3) (e : Event) : (s.adaptorActs n e).pc1 = s.pc1 := by
  unfold State.adaptorActs; split <;> rfl
@[simp] theorem State_adaptorActs_pc2 (s : State) (n : BitVec 3) (e : Event) : (s.adaptorActs n e).pc2 = s.pc2 := by
  unfold State.adaptorActs; split <;> rfl
@[simp] theorem State_adaptorActs_rr (s : State) (n : BitVec 3) (e : Event) : (s.adaptorActs n e).rr = s.rr := by
  unfold State.adaptorActs; split <;> rfl
@[simp] theorem State_adaptorActs_psw (s : State) (n : BitVec 3) (e : Event) : (s.adaptorActs n e).psw = s.psw := by
  unfold State.adaptorActs; split <;> rfl
@[simp] theorem State_adaptorActs_pend1 (s : State) (n : BitVec 3) (e : Event) :
    (s.adaptorActs n e).pend1 = s.pend1 := by
  unfold State.adaptorActs; split <;> rfl
@[simp] theorem State_adaptorActs_pend2 (s : State) (n : BitVec 3) (e : Event) :
    (s.adaptorActs n e).pend2 = s.pend2 := by
  unfold State.adaptorActs; split <;> rfl
@[simp] theorem State_adaptorActs_pend3 (s : State) (n : BitVec 3) (e : Event) :
    (s.adaptorActs n e).pend3 = s.pend3 := by
  unfold State.adaptorActs; split <;> rfl
@[simp] theorem State_adaptorActs_itfr (s : State) (n : BitVec 3) (e : Event) : (s.adaptorActs n e).itfr = s.itfr := by
  unfold State.adaptorActs; split <;> rfl
@[simp] theorem State_adaptorActs_dtfr (s : State) (n : BitVec 3) (e : Event) : (s.adaptorActs n e).dtfr = s.dtfr := by
  unfold State.adaptorActs; split <;> rfl
@[simp] theorem State_adaptorActs_itlb (s : State) (n : BitVec 3) (e : Event) : (s.adaptorActs n e).itlb = s.itlb := by
  unfold State.adaptorActs; split <;> rfl
@[simp] theorem State_adaptorActs_dtlb (s : State) (n : BitVec 3) (e : Event) : (s.adaptorActs n e).dtlb = s.dtlb := by
  unfold State.adaptorActs; split <;> rfl
@[simp] theorem State_adaptorActs_icache (s : State) (n : BitVec 3) (e : Event) :
    (s.adaptorActs n e).icache = s.icache := by
  unfold State.adaptorActs; split <;> rfl
@[simp] theorem State_adaptorActs_dcache (s : State) (n : BitVec 3) (e : Event) :
    (s.adaptorActs n e).dcache = s.dcache := by
  unfold State.adaptorActs; split <;> rfl
@[simp] theorem State_adaptorActs_halted (s : State) (n : BitVec 3) (e : Event) :
    (s.adaptorActs n e).halted = s.halted := by
  unfold State.adaptorActs; split <;> rfl
@[simp] theorem State_adaptorActs_stalled (s : State) (n : BitVec 3) (e : Event) :
    (s.adaptorActs n e).stalled = s.stalled := by
  unfold State.adaptorActs; split <;> rfl
@[simp] theorem State_adaptorActs_hist (s : State) (n : BitVec 3) (e : Event) : (s.adaptorActs n e).hist = s.hist := by
  unfold State.adaptorActs; split <;> rfl
@[simp] theorem State_adaptorActs_icar (s : State) (n : BitVec 3) (e : Event) : (s.adaptorActs n e).icar = s.icar := by
  unfold State.adaptorActs; split <;> rfl
@[simp] theorem State_adaptorActs_cp (s : State) (n : BitVec 3) (e : Event) : (s.adaptorActs n e).cp = s.cp := by
  unfold State.adaptorActs; split <;> rfl
@[simp] theorem State_adaptorActs_mc (s : State) (n : BitVec 3) (e : Event) : (s.adaptorActs n e).mc = s.mc := by
  unfold State.adaptorActs; split <;> rfl
@[simp] theorem State_adaptorActs_mem (s : State) (n : BitVec 3) (e : Event) : (s.adaptorActs n e).mem = s.mem := by
  unfold State.adaptorActs; split <;> rfl
@[simp] theorem State_adaptorActs_prom (s : State) (n : BitVec 3) (e : Event) : (s.adaptorActs n e).prom = s.prom := by
  unfold State.adaptorActs; split <;> rfl
@[simp] theorem State_adaptorActs_populated (s : State) (n : BitVec 3) (e : Event) :
    (s.adaptorActs n e).populated = s.populated := by
  unfold State.adaptorActs; split <;> rfl
@[simp] theorem State_adaptorActs_csm (s : State) (n : BitVec 3) (e : Event) : (s.adaptorActs n e).csm = s.csm := by
  unfold State.adaptorActs; split <;> rfl
@[simp] theorem State_adaptorActs_enc (s : State) (n : BitVec 3) (e : Event) : (s.adaptorActs n e).enc = s.enc := by
  unfold State.adaptorActs; split <;> rfl
@[simp] theorem State_adaptorActs_lay (s : State) (n : BitVec 3) (e : Event) : (s.adaptorActs n e).lay = s.lay := by
  unfold State.adaptorActs; split <;> rfl
@[simp] theorem State_adaptorActs_inputs (s : State) (n : BitVec 3) (e : Event) :
    (s.adaptorActs n e).inputs = s.inputs := by
  unfold State.adaptorActs; split <;> rfl
@[simp] theorem State_adaptorActs_ecc (s : State) (n : BitVec 3) (e : Event) : (s.adaptorActs n e).ecc = s.ecc := by
  unfold State.adaptorActs; split <;> rfl
@[simp] theorem State_adaptorActs_cycles (s : State) (n : BitVec 3) (e : Event) :
    (s.adaptorActs n e).cycles = s.cycles := by
  unfold State.adaptorActs; split <;> rfl
@[simp] theorem State_adaptorActs_dirtyEvicted (s : State) (n : BitVec 3) (e : Event) :
    (s.adaptorActs n e).dirtyEvicted = s.dirtyEvicted := by
  unfold State.adaptorActs; split <;> rfl
@[simp] theorem State_adaptorActs_busInst (s : State) (n : BitVec 3) (e : Event) :
    (s.adaptorActs n e).busInst = s.busInst := by
  unfold State.adaptorActs; split <;> rfl
@[simp] theorem State_adaptorActs_busData (s : State) (n : BitVec 3) (e : Event) :
    (s.adaptorActs n e).busData = s.busData := by
  unfold State.adaptorActs; split <;> rfl
@[simp] theorem State_adaptorActs_fresh (s : State) (n : BitVec 3) (e : Event) :
    (s.adaptorActs n e).fresh = s.fresh := by
  unfold State.adaptorActs; split <;> rfl

/-! ## State.setBusy -/

@[simp] theorem State_setBusy_regs (s : State) (n : BitVec 3) (b : Bool) : (s.setBusy n b).regs = s.regs := by
  unfold State.setBusy; split <;> rfl
@[simp] theorem State_setBusy_marks (s : State) (n : BitVec 3) (b : Bool) : (s.setBusy n b).marks = s.marks := by
  unfold State.setBusy; split <;> rfl
@[simp] theorem State_setBusy_pc (s : State) (n : BitVec 3) (b : Bool) : (s.setBusy n b).pc = s.pc := by
  unfold State.setBusy; split <;> rfl
@[simp] theorem State_setBusy_npc (s : State) (n : BitVec 3) (b : Bool) : (s.setBusy n b).npc = s.npc := by
  unfold State.setBusy; split <;> rfl
@[simp] theorem State_setBusy_pc1 (s : State) (n : BitVec 3) (b : Bool) : (s.setBusy n b).pc1 = s.pc1 := by
  unfold State.setBusy; split <;> rfl
@[simp] theorem State_setBusy_pc2 (s : State) (n : BitVec 3) (b : Bool) : (s.setBusy n b).pc2 = s.pc2 := by
  unfold State.setBusy; split <;> rfl
@[simp] theorem State_setBusy_rr (s : State) (n : BitVec 3) (b : Bool) : (s.setBusy n b).rr = s.rr := by
  unfold State.setBusy; split <;> rfl
@[simp] theorem State_setBusy_psw (s : State) (n : BitVec 3) (b : Bool) : (s.setBusy n b).psw = s.psw := by
  unfold State.setBusy; split <;> rfl
@[simp] theorem State_setBusy_pend1 (s : State) (n : BitVec 3) (b : Bool) : (s.setBusy n b).pend1 = s.pend1 := by
  unfold State.setBusy; split <;> rfl
@[simp] theorem State_setBusy_pend2 (s : State) (n : BitVec 3) (b : Bool) : (s.setBusy n b).pend2 = s.pend2 := by
  unfold State.setBusy; split <;> rfl
@[simp] theorem State_setBusy_pend3 (s : State) (n : BitVec 3) (b : Bool) : (s.setBusy n b).pend3 = s.pend3 := by
  unfold State.setBusy; split <;> rfl
@[simp] theorem State_setBusy_itfr (s : State) (n : BitVec 3) (b : Bool) : (s.setBusy n b).itfr = s.itfr := by
  unfold State.setBusy; split <;> rfl
@[simp] theorem State_setBusy_dtfr (s : State) (n : BitVec 3) (b : Bool) : (s.setBusy n b).dtfr = s.dtfr := by
  unfold State.setBusy; split <;> rfl
@[simp] theorem State_setBusy_itlb (s : State) (n : BitVec 3) (b : Bool) : (s.setBusy n b).itlb = s.itlb := by
  unfold State.setBusy; split <;> rfl
@[simp] theorem State_setBusy_dtlb (s : State) (n : BitVec 3) (b : Bool) : (s.setBusy n b).dtlb = s.dtlb := by
  unfold State.setBusy; split <;> rfl
@[simp] theorem State_setBusy_icache (s : State) (n : BitVec 3) (b : Bool) : (s.setBusy n b).icache = s.icache := by
  unfold State.setBusy; split <;> rfl
@[simp] theorem State_setBusy_dcache (s : State) (n : BitVec 3) (b : Bool) : (s.setBusy n b).dcache = s.dcache := by
  unfold State.setBusy; split <;> rfl
@[simp] theorem State_setBusy_halted (s : State) (n : BitVec 3) (b : Bool) : (s.setBusy n b).halted = s.halted := by
  unfold State.setBusy; split <;> rfl
@[simp] theorem State_setBusy_stalled (s : State) (n : BitVec 3) (b : Bool) : (s.setBusy n b).stalled = s.stalled := by
  unfold State.setBusy; split <;> rfl
@[simp] theorem State_setBusy_hist (s : State) (n : BitVec 3) (b : Bool) : (s.setBusy n b).hist = s.hist := by
  unfold State.setBusy; split <;> rfl
@[simp] theorem State_setBusy_icar (s : State) (n : BitVec 3) (b : Bool) : (s.setBusy n b).icar = s.icar := by
  unfold State.setBusy; split <;> rfl
@[simp] theorem State_setBusy_cp (s : State) (n : BitVec 3) (b : Bool) : (s.setBusy n b).cp = s.cp := by
  unfold State.setBusy; split <;> rfl
@[simp] theorem State_setBusy_mc (s : State) (n : BitVec 3) (b : Bool) : (s.setBusy n b).mc = s.mc := by
  unfold State.setBusy; split <;> rfl
@[simp] theorem State_setBusy_mem (s : State) (n : BitVec 3) (b : Bool) : (s.setBusy n b).mem = s.mem := by
  unfold State.setBusy; split <;> rfl
@[simp] theorem State_setBusy_prom (s : State) (n : BitVec 3) (b : Bool) : (s.setBusy n b).prom = s.prom := by
  unfold State.setBusy; split <;> rfl
@[simp] theorem State_setBusy_populated (s : State) (n : BitVec 3) (b : Bool) :
    (s.setBusy n b).populated = s.populated := by
  unfold State.setBusy; split <;> rfl
@[simp] theorem State_setBusy_csm (s : State) (n : BitVec 3) (b : Bool) : (s.setBusy n b).csm = s.csm := by
  unfold State.setBusy; split <;> rfl
@[simp] theorem State_setBusy_enc (s : State) (n : BitVec 3) (b : Bool) : (s.setBusy n b).enc = s.enc := by
  unfold State.setBusy; split <;> rfl
@[simp] theorem State_setBusy_lay (s : State) (n : BitVec 3) (b : Bool) : (s.setBusy n b).lay = s.lay := by
  unfold State.setBusy; split <;> rfl
@[simp] theorem State_setBusy_inputs (s : State) (n : BitVec 3) (b : Bool) : (s.setBusy n b).inputs = s.inputs := by
  unfold State.setBusy; split <;> rfl
@[simp] theorem State_setBusy_ecc (s : State) (n : BitVec 3) (b : Bool) : (s.setBusy n b).ecc = s.ecc := by
  unfold State.setBusy; split <;> rfl
@[simp] theorem State_setBusy_cycles (s : State) (n : BitVec 3) (b : Bool) : (s.setBusy n b).cycles = s.cycles := by
  unfold State.setBusy; split <;> rfl
@[simp] theorem State_setBusy_dirtyEvicted (s : State) (n : BitVec 3) (b : Bool) :
    (s.setBusy n b).dirtyEvicted = s.dirtyEvicted := by
  unfold State.setBusy; split <;> rfl
@[simp] theorem State_setBusy_busInst (s : State) (n : BitVec 3) (b : Bool) : (s.setBusy n b).busInst = s.busInst := by
  unfold State.setBusy; split <;> rfl
@[simp] theorem State_setBusy_busData (s : State) (n : BitVec 3) (b : Bool) : (s.setBusy n b).busData = s.busData := by
  unfold State.setBusy; split <;> rfl
@[simp] theorem State_setBusy_fresh (s : State) (n : BitVec 3) (b : Bool) : (s.setBusy n b).fresh = s.fresh := by
  unfold State.setBusy; split <;> rfl

/-! ## State.busError -/

@[simp] theorem State_busError_regs (s : State) (k : Nat) : (s.busError k).regs = s.regs := by
  unfold State.busError; split <;> rfl
@[simp] theorem State_busError_marks (s : State) (k : Nat) : (s.busError k).marks = s.marks := by
  unfold State.busError; split <;> rfl
@[simp] theorem State_busError_pc (s : State) (k : Nat) : (s.busError k).pc = s.pc := by
  unfold State.busError; split <;> rfl
@[simp] theorem State_busError_npc (s : State) (k : Nat) : (s.busError k).npc = s.npc := by
  unfold State.busError; split <;> rfl
@[simp] theorem State_busError_pc1 (s : State) (k : Nat) : (s.busError k).pc1 = s.pc1 := by
  unfold State.busError; split <;> rfl
@[simp] theorem State_busError_pc2 (s : State) (k : Nat) : (s.busError k).pc2 = s.pc2 := by
  unfold State.busError; split <;> rfl
@[simp] theorem State_busError_rr (s : State) (k : Nat) : (s.busError k).rr = s.rr := by
  unfold State.busError; split <;> rfl
@[simp] theorem State_busError_psw (s : State) (k : Nat) : (s.busError k).psw = s.psw := by
  unfold State.busError; split <;> rfl
@[simp] theorem State_busError_pend1 (s : State) (k : Nat) : (s.busError k).pend1 = s.pend1 := by
  unfold State.busError; split <;> rfl
@[simp] theorem State_busError_pend2 (s : State) (k : Nat) : (s.busError k).pend2 = s.pend2 := by
  unfold State.busError; split <;> rfl
@[simp] theorem State_busError_pend3 (s : State) (k : Nat) : (s.busError k).pend3 = s.pend3 := by
  unfold State.busError; split <;> rfl
@[simp] theorem State_busError_itfr (s : State) (k : Nat) : (s.busError k).itfr = s.itfr := by
  unfold State.busError; split <;> rfl
@[simp] theorem State_busError_dtfr (s : State) (k : Nat) : (s.busError k).dtfr = s.dtfr := by
  unfold State.busError; split <;> rfl
@[simp] theorem State_busError_itlb (s : State) (k : Nat) : (s.busError k).itlb = s.itlb := by
  unfold State.busError; split <;> rfl
@[simp] theorem State_busError_dtlb (s : State) (k : Nat) : (s.busError k).dtlb = s.dtlb := by
  unfold State.busError; split <;> rfl
@[simp] theorem State_busError_icache (s : State) (k : Nat) : (s.busError k).icache = s.icache := by
  unfold State.busError; split <;> rfl
@[simp] theorem State_busError_dcache (s : State) (k : Nat) : (s.busError k).dcache = s.dcache := by
  unfold State.busError; split <;> rfl
@[simp] theorem State_busError_halted (s : State) (k : Nat) : (s.busError k).halted = s.halted := by
  unfold State.busError; split <;> rfl
@[simp] theorem State_busError_stalled (s : State) (k : Nat) : (s.busError k).stalled = s.stalled := by
  unfold State.busError; split <;> rfl
@[simp] theorem State_busError_hist (s : State) (k : Nat) : (s.busError k).hist = s.hist := by
  unfold State.busError; split <;> rfl
@[simp] theorem State_busError_icar (s : State) (k : Nat) : (s.busError k).icar = s.icar := by
  unfold State.busError; split <;> rfl
@[simp] theorem State_busError_cp (s : State) (k : Nat) : (s.busError k).cp = s.cp := by
  unfold State.busError; split <;> rfl
@[simp] theorem State_busError_mem (s : State) (k : Nat) : (s.busError k).mem = s.mem := by
  unfold State.busError; split <;> rfl
@[simp] theorem State_busError_prom (s : State) (k : Nat) : (s.busError k).prom = s.prom := by
  unfold State.busError; split <;> rfl
@[simp] theorem State_busError_populated (s : State) (k : Nat) : (s.busError k).populated = s.populated := by
  unfold State.busError; split <;> rfl
@[simp] theorem State_busError_slots (s : State) (k : Nat) : (s.busError k).slots = s.slots := by
  unfold State.busError; split <;> rfl
@[simp] theorem State_busError_csm (s : State) (k : Nat) : (s.busError k).csm = s.csm := by
  unfold State.busError; split <;> rfl
@[simp] theorem State_busError_enc (s : State) (k : Nat) : (s.busError k).enc = s.enc := by
  unfold State.busError; split <;> rfl
@[simp] theorem State_busError_lay (s : State) (k : Nat) : (s.busError k).lay = s.lay := by
  unfold State.busError; split <;> rfl
@[simp] theorem State_busError_inputs (s : State) (k : Nat) : (s.busError k).inputs = s.inputs := by
  unfold State.busError; split <;> rfl
@[simp] theorem State_busError_ecc (s : State) (k : Nat) : (s.busError k).ecc = s.ecc := by
  unfold State.busError; split <;> rfl
@[simp] theorem State_busError_cycles (s : State) (k : Nat) : (s.busError k).cycles = s.cycles := by
  unfold State.busError; split <;> rfl
@[simp] theorem State_busError_dirtyEvicted (s : State) (k : Nat) : (s.busError k).dirtyEvicted = s.dirtyEvicted := by
  unfold State.busError; split <;> rfl
@[simp] theorem State_busError_busInst (s : State) (k : Nat) : (s.busError k).busInst = s.busInst := by
  unfold State.busError; split <;> rfl
@[simp] theorem State_busError_busData (s : State) (k : Nat) : (s.busError k).busData = s.busData := by
  unfold State.busError; split <;> rfl
@[simp] theorem State_busError_fresh (s : State) (k : Nat) : (s.busError k).fresh = s.fresh := by
  unfold State.busError; split <;> rfl

/-! ## State.dmaDone -/

@[simp] theorem State_dmaDone_regs (s : State) (i : Fin 7) (r : DmaRequest) (v : Line) :
    (s.dmaDone i r v).regs = s.regs := rfl
@[simp] theorem State_dmaDone_marks (s : State) (i : Fin 7) (r : DmaRequest) (v : Line) :
    (s.dmaDone i r v).marks = s.marks := rfl
@[simp] theorem State_dmaDone_pc (s : State) (i : Fin 7) (r : DmaRequest) (v : Line) :
    (s.dmaDone i r v).pc = s.pc := rfl
@[simp] theorem State_dmaDone_npc (s : State) (i : Fin 7) (r : DmaRequest) (v : Line) :
    (s.dmaDone i r v).npc = s.npc := rfl
@[simp] theorem State_dmaDone_pc1 (s : State) (i : Fin 7) (r : DmaRequest) (v : Line) :
    (s.dmaDone i r v).pc1 = s.pc1 := rfl
@[simp] theorem State_dmaDone_pc2 (s : State) (i : Fin 7) (r : DmaRequest) (v : Line) :
    (s.dmaDone i r v).pc2 = s.pc2 := rfl
@[simp] theorem State_dmaDone_rr (s : State) (i : Fin 7) (r : DmaRequest) (v : Line) :
    (s.dmaDone i r v).rr = s.rr := rfl
@[simp] theorem State_dmaDone_psw (s : State) (i : Fin 7) (r : DmaRequest) (v : Line) :
    (s.dmaDone i r v).psw = s.psw := rfl
@[simp] theorem State_dmaDone_pend1 (s : State) (i : Fin 7) (r : DmaRequest) (v : Line) :
    (s.dmaDone i r v).pend1 = s.pend1 := rfl
@[simp] theorem State_dmaDone_pend2 (s : State) (i : Fin 7) (r : DmaRequest) (v : Line) :
    (s.dmaDone i r v).pend2 = s.pend2 := rfl
@[simp] theorem State_dmaDone_pend3 (s : State) (i : Fin 7) (r : DmaRequest) (v : Line) :
    (s.dmaDone i r v).pend3 = s.pend3 := rfl
@[simp] theorem State_dmaDone_itfr (s : State) (i : Fin 7) (r : DmaRequest) (v : Line) :
    (s.dmaDone i r v).itfr = s.itfr := rfl
@[simp] theorem State_dmaDone_dtfr (s : State) (i : Fin 7) (r : DmaRequest) (v : Line) :
    (s.dmaDone i r v).dtfr = s.dtfr := rfl
@[simp] theorem State_dmaDone_itlb (s : State) (i : Fin 7) (r : DmaRequest) (v : Line) :
    (s.dmaDone i r v).itlb = s.itlb := rfl
@[simp] theorem State_dmaDone_dtlb (s : State) (i : Fin 7) (r : DmaRequest) (v : Line) :
    (s.dmaDone i r v).dtlb = s.dtlb := rfl
@[simp] theorem State_dmaDone_icache (s : State) (i : Fin 7) (r : DmaRequest) (v : Line) :
    (s.dmaDone i r v).icache = s.icache := rfl
@[simp] theorem State_dmaDone_dcache (s : State) (i : Fin 7) (r : DmaRequest) (v : Line) :
    (s.dmaDone i r v).dcache = s.dcache := rfl
@[simp] theorem State_dmaDone_halted (s : State) (i : Fin 7) (r : DmaRequest) (v : Line) :
    (s.dmaDone i r v).halted = s.halted := rfl
@[simp] theorem State_dmaDone_stalled (s : State) (i : Fin 7) (r : DmaRequest) (v : Line) :
    (s.dmaDone i r v).stalled = s.stalled := rfl
@[simp] theorem State_dmaDone_hist (s : State) (i : Fin 7) (r : DmaRequest) (v : Line) :
    (s.dmaDone i r v).hist = s.hist := rfl
@[simp] theorem State_dmaDone_icar (s : State) (i : Fin 7) (r : DmaRequest) (v : Line) :
    (s.dmaDone i r v).icar = s.icar := rfl
@[simp] theorem State_dmaDone_cp (s : State) (i : Fin 7) (r : DmaRequest) (v : Line) :
    (s.dmaDone i r v).cp = s.cp := rfl
@[simp] theorem State_dmaDone_mc (s : State) (i : Fin 7) (r : DmaRequest) (v : Line) :
    (s.dmaDone i r v).mc = s.mc := rfl
@[simp] theorem State_dmaDone_mem (s : State) (i : Fin 7) (r : DmaRequest) (v : Line) :
    (s.dmaDone i r v).mem = s.mem := rfl
@[simp] theorem State_dmaDone_prom (s : State) (i : Fin 7) (r : DmaRequest) (v : Line) :
    (s.dmaDone i r v).prom = s.prom := rfl
@[simp] theorem State_dmaDone_populated (s : State) (i : Fin 7) (r : DmaRequest) (v : Line) :
    (s.dmaDone i r v).populated = s.populated := rfl
@[simp] theorem State_dmaDone_csm (s : State) (i : Fin 7) (r : DmaRequest) (v : Line) :
    (s.dmaDone i r v).csm = s.csm := rfl
@[simp] theorem State_dmaDone_enc (s : State) (i : Fin 7) (r : DmaRequest) (v : Line) :
    (s.dmaDone i r v).enc = s.enc := rfl
@[simp] theorem State_dmaDone_lay (s : State) (i : Fin 7) (r : DmaRequest) (v : Line) :
    (s.dmaDone i r v).lay = s.lay := rfl
@[simp] theorem State_dmaDone_inputs (s : State) (i : Fin 7) (r : DmaRequest) (v : Line) :
    (s.dmaDone i r v).inputs = s.inputs := rfl
@[simp] theorem State_dmaDone_ecc (s : State) (i : Fin 7) (r : DmaRequest) (v : Line) :
    (s.dmaDone i r v).ecc = s.ecc := rfl
@[simp] theorem State_dmaDone_cycles (s : State) (i : Fin 7) (r : DmaRequest) (v : Line) :
    (s.dmaDone i r v).cycles = s.cycles := rfl
@[simp] theorem State_dmaDone_dirtyEvicted (s : State) (i : Fin 7) (r : DmaRequest) (v : Line) :
    (s.dmaDone i r v).dirtyEvicted = s.dirtyEvicted := rfl
@[simp] theorem State_dmaDone_busInst (s : State) (i : Fin 7) (r : DmaRequest) (v : Line) :
    (s.dmaDone i r v).busInst = s.busInst := rfl
@[simp] theorem State_dmaDone_busData (s : State) (i : Fin 7) (r : DmaRequest) (v : Line) :
    (s.dmaDone i r v).busData = s.busData := rfl
@[simp] theorem State_dmaDone_fresh (s : State) (i : Fin 7) (r : DmaRequest) (v : Line) :
    (s.dmaDone i r v).fresh = s.fresh := rfl

/-! ## State.csmFinish -/

@[simp] theorem State_csmFinish_regs (s : State) (p : CsmPacket) : (s.csmFinish p).regs = s.regs := rfl
@[simp] theorem State_csmFinish_marks (s : State) (p : CsmPacket) : (s.csmFinish p).marks = s.marks := rfl
@[simp] theorem State_csmFinish_pc (s : State) (p : CsmPacket) : (s.csmFinish p).pc = s.pc := rfl
@[simp] theorem State_csmFinish_npc (s : State) (p : CsmPacket) : (s.csmFinish p).npc = s.npc := rfl
@[simp] theorem State_csmFinish_pc1 (s : State) (p : CsmPacket) : (s.csmFinish p).pc1 = s.pc1 := rfl
@[simp] theorem State_csmFinish_pc2 (s : State) (p : CsmPacket) : (s.csmFinish p).pc2 = s.pc2 := rfl
@[simp] theorem State_csmFinish_rr (s : State) (p : CsmPacket) : (s.csmFinish p).rr = s.rr := rfl
@[simp] theorem State_csmFinish_psw (s : State) (p : CsmPacket) : (s.csmFinish p).psw = s.psw := rfl
@[simp] theorem State_csmFinish_pend1 (s : State) (p : CsmPacket) : (s.csmFinish p).pend1 = s.pend1 := rfl
@[simp] theorem State_csmFinish_pend2 (s : State) (p : CsmPacket) : (s.csmFinish p).pend2 = s.pend2 := rfl
@[simp] theorem State_csmFinish_pend3 (s : State) (p : CsmPacket) : (s.csmFinish p).pend3 = s.pend3 := rfl
@[simp] theorem State_csmFinish_itfr (s : State) (p : CsmPacket) : (s.csmFinish p).itfr = s.itfr := rfl
@[simp] theorem State_csmFinish_dtfr (s : State) (p : CsmPacket) : (s.csmFinish p).dtfr = s.dtfr := rfl
@[simp] theorem State_csmFinish_itlb (s : State) (p : CsmPacket) : (s.csmFinish p).itlb = s.itlb := rfl
@[simp] theorem State_csmFinish_dtlb (s : State) (p : CsmPacket) : (s.csmFinish p).dtlb = s.dtlb := rfl
@[simp] theorem State_csmFinish_icache (s : State) (p : CsmPacket) : (s.csmFinish p).icache = s.icache := rfl
@[simp] theorem State_csmFinish_dcache (s : State) (p : CsmPacket) : (s.csmFinish p).dcache = s.dcache := rfl
@[simp] theorem State_csmFinish_halted (s : State) (p : CsmPacket) : (s.csmFinish p).halted = s.halted := rfl
@[simp] theorem State_csmFinish_hist (s : State) (p : CsmPacket) : (s.csmFinish p).hist = s.hist := rfl
@[simp] theorem State_csmFinish_icar (s : State) (p : CsmPacket) : (s.csmFinish p).icar = s.icar := rfl
@[simp] theorem State_csmFinish_cp (s : State) (p : CsmPacket) : (s.csmFinish p).cp = s.cp := rfl
@[simp] theorem State_csmFinish_mc (s : State) (p : CsmPacket) : (s.csmFinish p).mc = s.mc := rfl
@[simp] theorem State_csmFinish_mem (s : State) (p : CsmPacket) : (s.csmFinish p).mem = s.mem := rfl
@[simp] theorem State_csmFinish_prom (s : State) (p : CsmPacket) : (s.csmFinish p).prom = s.prom := rfl
@[simp] theorem State_csmFinish_populated (s : State) (p : CsmPacket) : (s.csmFinish p).populated = s.populated := rfl
@[simp] theorem State_csmFinish_slots (s : State) (p : CsmPacket) : (s.csmFinish p).slots = s.slots := rfl
@[simp] theorem State_csmFinish_csm (s : State) (p : CsmPacket) : (s.csmFinish p).csm = s.csmAfter p := rfl
@[simp] theorem State_csmFinish_enc (s : State) (p : CsmPacket) : (s.csmFinish p).enc = s.enc := rfl
@[simp] theorem State_csmFinish_lay (s : State) (p : CsmPacket) : (s.csmFinish p).lay = s.lay := rfl
@[simp] theorem State_csmFinish_inputs (s : State) (p : CsmPacket) : (s.csmFinish p).inputs = s.inputs := rfl
@[simp] theorem State_csmFinish_ecc (s : State) (p : CsmPacket) : (s.csmFinish p).ecc = s.ecc := rfl
@[simp] theorem State_csmFinish_cycles (s : State) (p : CsmPacket) : (s.csmFinish p).cycles = s.cycles := rfl
@[simp] theorem State_csmFinish_dirtyEvicted (s : State) (p : CsmPacket) :
    (s.csmFinish p).dirtyEvicted = s.dirtyEvicted := rfl
@[simp] theorem State_csmFinish_busInst (s : State) (p : CsmPacket) : (s.csmFinish p).busInst = s.busInst := rfl
@[simp] theorem State_csmFinish_busData (s : State) (p : CsmPacket) : (s.csmFinish p).busData = s.busData := rfl
@[simp] theorem State_csmFinish_fresh (s : State) (p : CsmPacket) : (s.csmFinish p).fresh = s.fresh := rfl

/-! ## pseudoCallState -/

@[simp] theorem pseudoCallState_regs (s : State) (ea : Word) : (pseudoCallState s ea).regs = s.regs := rfl
@[simp] theorem pseudoCallState_marks (s : State) (ea : Word) : (pseudoCallState s ea).marks = s.marks := rfl
@[simp] theorem pseudoCallState_pc (s : State) (ea : Word) : (pseudoCallState s ea).pc = s.pc := rfl
@[simp] theorem pseudoCallState_npc (s : State) (ea : Word) : (pseudoCallState s ea).npc = s.npc := rfl
@[simp] theorem pseudoCallState_pc1 (s : State) (ea : Word) :
    (pseudoCallState s ea).pc1 = (pseudoCallQueue s ea).2 := rfl
@[simp] theorem pseudoCallState_pc2 (s : State) (ea : Word) :
    (pseudoCallState s ea).pc2 = (pseudoCallQueue s ea).1 := rfl
@[simp] theorem pseudoCallState_rr (s : State) (ea : Word) : (pseudoCallState s ea).rr = none := rfl
@[simp] theorem pseudoCallState_psw (s : State) (ea : Word) : (pseudoCallState s ea).psw = s.psw := rfl
@[simp] theorem pseudoCallState_pend1 (s : State) (ea : Word) : (pseudoCallState s ea).pend1 = s.pend1 := rfl
@[simp] theorem pseudoCallState_pend2 (s : State) (ea : Word) : (pseudoCallState s ea).pend2 = s.pend2 := rfl
@[simp] theorem pseudoCallState_pend3 (s : State) (ea : Word) : (pseudoCallState s ea).pend3 = s.pend3 := rfl
@[simp] theorem pseudoCallState_itfr (s : State) (ea : Word) : (pseudoCallState s ea).itfr = s.itfr := rfl
@[simp] theorem pseudoCallState_dtfr (s : State) (ea : Word) : (pseudoCallState s ea).dtfr = s.dtfr := rfl
@[simp] theorem pseudoCallState_itlb (s : State) (ea : Word) : (pseudoCallState s ea).itlb = s.itlb := rfl
@[simp] theorem pseudoCallState_dtlb (s : State) (ea : Word) : (pseudoCallState s ea).dtlb = s.dtlb := rfl
@[simp] theorem pseudoCallState_icache (s : State) (ea : Word) : (pseudoCallState s ea).icache = s.icache := rfl
@[simp] theorem pseudoCallState_dcache (s : State) (ea : Word) : (pseudoCallState s ea).dcache = s.dcache := rfl
@[simp] theorem pseudoCallState_halted (s : State) (ea : Word) : (pseudoCallState s ea).halted = s.halted := rfl
@[simp] theorem pseudoCallState_stalled (s : State) (ea : Word) : (pseudoCallState s ea).stalled = s.stalled := rfl
@[simp] theorem pseudoCallState_hist (s : State) (ea : Word) : (pseudoCallState s ea).hist = s.hist := rfl
@[simp] theorem pseudoCallState_icar (s : State) (ea : Word) : (pseudoCallState s ea).icar = s.icar := rfl
@[simp] theorem pseudoCallState_cp (s : State) (ea : Word) : (pseudoCallState s ea).cp = s.cp := rfl
@[simp] theorem pseudoCallState_mc (s : State) (ea : Word) : (pseudoCallState s ea).mc = s.mc := rfl
@[simp] theorem pseudoCallState_mem (s : State) (ea : Word) : (pseudoCallState s ea).mem = s.mem := rfl
@[simp] theorem pseudoCallState_prom (s : State) (ea : Word) : (pseudoCallState s ea).prom = s.prom := rfl
@[simp] theorem pseudoCallState_populated (s : State) (ea : Word) :
    (pseudoCallState s ea).populated = s.populated := rfl
@[simp] theorem pseudoCallState_slots (s : State) (ea : Word) : (pseudoCallState s ea).slots = s.slots := rfl
@[simp] theorem pseudoCallState_csm (s : State) (ea : Word) : (pseudoCallState s ea).csm = s.csm := rfl
@[simp] theorem pseudoCallState_enc (s : State) (ea : Word) : (pseudoCallState s ea).enc = s.enc := rfl
@[simp] theorem pseudoCallState_lay (s : State) (ea : Word) : (pseudoCallState s ea).lay = s.lay := rfl
@[simp] theorem pseudoCallState_inputs (s : State) (ea : Word) : (pseudoCallState s ea).inputs = s.inputs := rfl
@[simp] theorem pseudoCallState_ecc (s : State) (ea : Word) : (pseudoCallState s ea).ecc = s.ecc := rfl
@[simp] theorem pseudoCallState_cycles (s : State) (ea : Word) : (pseudoCallState s ea).cycles = s.cycles := rfl
@[simp] theorem pseudoCallState_dirtyEvicted (s : State) (ea : Word) :
    (pseudoCallState s ea).dirtyEvicted = s.dirtyEvicted := rfl
@[simp] theorem pseudoCallState_busInst (s : State) (ea : Word) : (pseudoCallState s ea).busInst = s.busInst := rfl
@[simp] theorem pseudoCallState_busData (s : State) (ea : Word) : (pseudoCallState s ea).busData = s.busData := rfl
@[simp] theorem pseudoCallState_fresh (s : State) (ea : Word) : (pseudoCallState s ea).fresh = s.fresh := rfl

/-! ## State.copAbort -/

@[simp] theorem State_copAbort_regs (s : State) (k : CopOp) (ra rb : RegField) :
    (s.copAbort k ra rb).regs = s.regs := rfl
@[simp] theorem State_copAbort_marks (s : State) (k : CopOp) (ra rb : RegField) :
    (s.copAbort k ra rb).marks = s.marks := rfl
@[simp] theorem State_copAbort_pc (s : State) (k : CopOp) (ra rb : RegField) : (s.copAbort k ra rb).pc = s.pc := rfl
@[simp] theorem State_copAbort_npc (s : State) (k : CopOp) (ra rb : RegField) : (s.copAbort k ra rb).npc = s.npc := rfl
@[simp] theorem State_copAbort_pc1 (s : State) (k : CopOp) (ra rb : RegField) : (s.copAbort k ra rb).pc1 = s.pc1 := rfl
@[simp] theorem State_copAbort_pc2 (s : State) (k : CopOp) (ra rb : RegField) : (s.copAbort k ra rb).pc2 = s.pc2 := rfl
@[simp] theorem State_copAbort_rr (s : State) (k : CopOp) (ra rb : RegField) : (s.copAbort k ra rb).rr = s.rr := rfl
@[simp] theorem State_copAbort_psw (s : State) (k : CopOp) (ra rb : RegField) : (s.copAbort k ra rb).psw = s.psw := rfl
@[simp] theorem State_copAbort_pend1 (s : State) (k : CopOp) (ra rb : RegField) :
    (s.copAbort k ra rb).pend1 = s.pend1 := rfl
@[simp] theorem State_copAbort_pend2 (s : State) (k : CopOp) (ra rb : RegField) :
    (s.copAbort k ra rb).pend2 = s.pend2 := rfl
@[simp] theorem State_copAbort_pend3 (s : State) (k : CopOp) (ra rb : RegField) :
    (s.copAbort k ra rb).pend3 = s.pend3 := rfl
@[simp] theorem State_copAbort_itfr (s : State) (k : CopOp) (ra rb : RegField) :
    (s.copAbort k ra rb).itfr = s.itfr := rfl
@[simp] theorem State_copAbort_dtfr (s : State) (k : CopOp) (ra rb : RegField) :
    (s.copAbort k ra rb).dtfr = s.dtfr := rfl
@[simp] theorem State_copAbort_itlb (s : State) (k : CopOp) (ra rb : RegField) :
    (s.copAbort k ra rb).itlb = s.itlb := rfl
@[simp] theorem State_copAbort_dtlb (s : State) (k : CopOp) (ra rb : RegField) :
    (s.copAbort k ra rb).dtlb = s.dtlb := rfl
@[simp] theorem State_copAbort_icache (s : State) (k : CopOp) (ra rb : RegField) :
    (s.copAbort k ra rb).icache = s.icache := rfl
@[simp] theorem State_copAbort_dcache (s : State) (k : CopOp) (ra rb : RegField) :
    (s.copAbort k ra rb).dcache = s.dcache := rfl
@[simp] theorem State_copAbort_halted (s : State) (k : CopOp) (ra rb : RegField) :
    (s.copAbort k ra rb).halted = s.halted := rfl
@[simp] theorem State_copAbort_stalled (s : State) (k : CopOp) (ra rb : RegField) :
    (s.copAbort k ra rb).stalled = s.stalled := rfl
@[simp] theorem State_copAbort_hist (s : State) (k : CopOp) (ra rb : RegField) :
    (s.copAbort k ra rb).hist = s.hist := rfl
@[simp] theorem State_copAbort_icar (s : State) (k : CopOp) (ra rb : RegField) :
    (s.copAbort k ra rb).icar = s.icar := rfl
@[simp] theorem State_copAbort_cp (s : State) (k : CopOp) (ra rb : RegField) :
    (s.copAbort k ra rb).cp = copAborted k s.copNow (s.copOperands k ra rb).1 (s.copOperands k ra rb).2 := rfl
@[simp] theorem State_copAbort_mc (s : State) (k : CopOp) (ra rb : RegField) : (s.copAbort k ra rb).mc = s.mc := rfl
@[simp] theorem State_copAbort_mem (s : State) (k : CopOp) (ra rb : RegField) : (s.copAbort k ra rb).mem = s.mem := rfl
@[simp] theorem State_copAbort_prom (s : State) (k : CopOp) (ra rb : RegField) :
    (s.copAbort k ra rb).prom = s.prom := rfl
@[simp] theorem State_copAbort_populated (s : State) (k : CopOp) (ra rb : RegField) :
    (s.copAbort k ra rb).populated = s.populated := rfl
@[simp] theorem State_copAbort_slots (s : State) (k : CopOp) (ra rb : RegField) :
    (s.copAbort k ra rb).slots = s.slots := rfl
@[simp] theorem State_copAbort_csm (s : State) (k : CopOp) (ra rb : RegField) : (s.copAbort k ra rb).csm = s.csm := rfl
@[simp] theorem State_copAbort_enc (s : State) (k : CopOp) (ra rb : RegField) : (s.copAbort k ra rb).enc = s.enc := rfl
@[simp] theorem State_copAbort_lay (s : State) (k : CopOp) (ra rb : RegField) : (s.copAbort k ra rb).lay = s.lay := rfl
@[simp] theorem State_copAbort_inputs (s : State) (k : CopOp) (ra rb : RegField) :
    (s.copAbort k ra rb).inputs = s.inputs := rfl
@[simp] theorem State_copAbort_ecc (s : State) (k : CopOp) (ra rb : RegField) : (s.copAbort k ra rb).ecc = s.ecc := rfl
@[simp] theorem State_copAbort_cycles (s : State) (k : CopOp) (ra rb : RegField) :
    (s.copAbort k ra rb).cycles = s.cycles := rfl
@[simp] theorem State_copAbort_dirtyEvicted (s : State) (k : CopOp) (ra rb : RegField) :
    (s.copAbort k ra rb).dirtyEvicted = s.dirtyEvicted := rfl
@[simp] theorem State_copAbort_busInst (s : State) (k : CopOp) (ra rb : RegField) :
    (s.copAbort k ra rb).busInst = s.busInst := rfl
@[simp] theorem State_copAbort_busData (s : State) (k : CopOp) (ra rb : RegField) :
    (s.copAbort k ra rb).busData = s.busData := rfl
@[simp] theorem State_copAbort_fresh (s : State) (k : CopOp) (ra rb : RegField) :
    (s.copAbort k ra rb).fresh = s.fresh := rfl

/-! ## readRealLine: only the ECC queue and the memory controller change -/

@[simp] theorem readRealLine_regs (s : State) (rom dma : Bool) (l : LineAddr) :
    (readRealLine s rom dma l).2.regs = s.regs := by
  unfold readRealLine
  split
  · rfl
  · split
    · split <;> rfl
    · rfl
@[simp] theorem readRealLine_marks (s : State) (rom dma : Bool) (l : LineAddr) :
    (readRealLine s rom dma l).2.marks = s.marks := by
  unfold readRealLine
  split
  · rfl
  · split
    · split <;> rfl
    · rfl
@[simp] theorem readRealLine_pc (s : State) (rom dma : Bool) (l : LineAddr) :
    (readRealLine s rom dma l).2.pc = s.pc := by
  unfold readRealLine
  split
  · rfl
  · split
    · split <;> rfl
    · rfl
@[simp] theorem readRealLine_npc (s : State) (rom dma : Bool) (l : LineAddr) :
    (readRealLine s rom dma l).2.npc = s.npc := by
  unfold readRealLine
  split
  · rfl
  · split
    · split <;> rfl
    · rfl
@[simp] theorem readRealLine_pc1 (s : State) (rom dma : Bool) (l : LineAddr) :
    (readRealLine s rom dma l).2.pc1 = s.pc1 := by
  unfold readRealLine
  split
  · rfl
  · split
    · split <;> rfl
    · rfl
@[simp] theorem readRealLine_pc2 (s : State) (rom dma : Bool) (l : LineAddr) :
    (readRealLine s rom dma l).2.pc2 = s.pc2 := by
  unfold readRealLine
  split
  · rfl
  · split
    · split <;> rfl
    · rfl
@[simp] theorem readRealLine_rr (s : State) (rom dma : Bool) (l : LineAddr) :
    (readRealLine s rom dma l).2.rr = s.rr := by
  unfold readRealLine
  split
  · rfl
  · split
    · split <;> rfl
    · rfl
@[simp] theorem readRealLine_psw (s : State) (rom dma : Bool) (l : LineAddr) :
    (readRealLine s rom dma l).2.psw = s.psw := by
  unfold readRealLine
  split
  · rfl
  · split
    · split <;> rfl
    · rfl
@[simp] theorem readRealLine_pend1 (s : State) (rom dma : Bool) (l : LineAddr) :
    (readRealLine s rom dma l).2.pend1 = s.pend1 := by
  unfold readRealLine
  split
  · rfl
  · split
    · split <;> rfl
    · rfl
@[simp] theorem readRealLine_pend2 (s : State) (rom dma : Bool) (l : LineAddr) :
    (readRealLine s rom dma l).2.pend2 = s.pend2 := by
  unfold readRealLine
  split
  · rfl
  · split
    · split <;> rfl
    · rfl
@[simp] theorem readRealLine_pend3 (s : State) (rom dma : Bool) (l : LineAddr) :
    (readRealLine s rom dma l).2.pend3 = s.pend3 := by
  unfold readRealLine
  split
  · rfl
  · split
    · split <;> rfl
    · rfl
@[simp] theorem readRealLine_itfr (s : State) (rom dma : Bool) (l : LineAddr) :
    (readRealLine s rom dma l).2.itfr = s.itfr := by
  unfold readRealLine
  split
  · rfl
  · split
    · split <;> rfl
    · rfl
@[simp] theorem readRealLine_dtfr (s : State) (rom dma : Bool) (l : LineAddr) :
    (readRealLine s rom dma l).2.dtfr = s.dtfr := by
  unfold readRealLine
  split
  · rfl
  · split
    · split <;> rfl
    · rfl
@[simp] theorem readRealLine_itlb (s : State) (rom dma : Bool) (l : LineAddr) :
    (readRealLine s rom dma l).2.itlb = s.itlb := by
  unfold readRealLine
  split
  · rfl
  · split
    · split <;> rfl
    · rfl
@[simp] theorem readRealLine_dtlb (s : State) (rom dma : Bool) (l : LineAddr) :
    (readRealLine s rom dma l).2.dtlb = s.dtlb := by
  unfold readRealLine
  split
  · rfl
  · split
    · split <;> rfl
    · rfl
@[simp] theorem readRealLine_icache (s : State) (rom dma : Bool) (l : LineAddr) :
    (readRealLine s rom dma l).2.icache = s.icache := by
  unfold readRealLine
  split
  · rfl
  · split
    · split <;> rfl
    · rfl
@[simp] theorem readRealLine_dcache (s : State) (rom dma : Bool) (l : LineAddr) :
    (readRealLine s rom dma l).2.dcache = s.dcache := by
  unfold readRealLine
  split
  · rfl
  · split
    · split <;> rfl
    · rfl
@[simp] theorem readRealLine_halted (s : State) (rom dma : Bool) (l : LineAddr) :
    (readRealLine s rom dma l).2.halted = s.halted := by
  unfold readRealLine
  split
  · rfl
  · split
    · split <;> rfl
    · rfl
@[simp] theorem readRealLine_stalled (s : State) (rom dma : Bool) (l : LineAddr) :
    (readRealLine s rom dma l).2.stalled = s.stalled := by
  unfold readRealLine
  split
  · rfl
  · split
    · split <;> rfl
    · rfl
@[simp] theorem readRealLine_hist (s : State) (rom dma : Bool) (l : LineAddr) :
    (readRealLine s rom dma l).2.hist = s.hist := by
  unfold readRealLine
  split
  · rfl
  · split
    · split <;> rfl
    · rfl
@[simp] theorem readRealLine_icar (s : State) (rom dma : Bool) (l : LineAddr) :
    (readRealLine s rom dma l).2.icar = s.icar := by
  unfold readRealLine
  split
  · rfl
  · split
    · split <;> rfl
    · rfl
@[simp] theorem readRealLine_cp (s : State) (rom dma : Bool) (l : LineAddr) :
    (readRealLine s rom dma l).2.cp = s.cp := by
  unfold readRealLine
  split
  · rfl
  · split
    · split <;> rfl
    · rfl
@[simp] theorem readRealLine_mem (s : State) (rom dma : Bool) (l : LineAddr) :
    (readRealLine s rom dma l).2.mem = s.mem := by
  unfold readRealLine
  split
  · rfl
  · split
    · split <;> rfl
    · rfl
@[simp] theorem readRealLine_prom (s : State) (rom dma : Bool) (l : LineAddr) :
    (readRealLine s rom dma l).2.prom = s.prom := by
  unfold readRealLine
  split
  · rfl
  · split
    · split <;> rfl
    · rfl
@[simp] theorem readRealLine_populated (s : State) (rom dma : Bool) (l : LineAddr) :
    (readRealLine s rom dma l).2.populated = s.populated := by
  unfold readRealLine
  split
  · rfl
  · split
    · split <;> rfl
    · rfl
@[simp] theorem readRealLine_slots (s : State) (rom dma : Bool) (l : LineAddr) :
    (readRealLine s rom dma l).2.slots = s.slots := by
  unfold readRealLine
  split
  · rfl
  · split
    · split <;> rfl
    · rfl
@[simp] theorem readRealLine_csm (s : State) (rom dma : Bool) (l : LineAddr) :
    (readRealLine s rom dma l).2.csm = s.csm := by
  unfold readRealLine
  split
  · rfl
  · split
    · split <;> rfl
    · rfl
@[simp] theorem readRealLine_enc (s : State) (rom dma : Bool) (l : LineAddr) :
    (readRealLine s rom dma l).2.enc = s.enc := by
  unfold readRealLine
  split
  · rfl
  · split
    · split <;> rfl
    · rfl
@[simp] theorem readRealLine_lay (s : State) (rom dma : Bool) (l : LineAddr) :
    (readRealLine s rom dma l).2.lay = s.lay := by
  unfold readRealLine
  split
  · rfl
  · split
    · split <;> rfl
    · rfl
@[simp] theorem readRealLine_inputs (s : State) (rom dma : Bool) (l : LineAddr) :
    (readRealLine s rom dma l).2.inputs = s.inputs := by
  unfold readRealLine
  split
  · rfl
  · split
    · split <;> rfl
    · rfl
@[simp] theorem readRealLine_cycles (s : State) (rom dma : Bool) (l : LineAddr) :
    (readRealLine s rom dma l).2.cycles = s.cycles := by
  unfold readRealLine
  split
  · rfl
  · split
    · split <;> rfl
    · rfl
@[simp] theorem readRealLine_dirtyEvicted (s : State) (rom dma : Bool) (l : LineAddr) :
    (readRealLine s rom dma l).2.dirtyEvicted = s.dirtyEvicted := by
  unfold readRealLine
  split
  · rfl
  · split
    · split <;> rfl
    · rfl
@[simp] theorem readRealLine_busInst (s : State) (rom dma : Bool) (l : LineAddr) :
    (readRealLine s rom dma l).2.busInst = s.busInst := by
  unfold readRealLine
  split
  · rfl
  · split
    · split <;> rfl
    · rfl
@[simp] theorem readRealLine_busData (s : State) (rom dma : Bool) (l : LineAddr) :
    (readRealLine s rom dma l).2.busData = s.busData := by
  unfold readRealLine
  split
  · rfl
  · split
    · split <;> rfl
    · rfl
@[simp] theorem readRealLine_fresh (s : State) (rom dma : Bool) (l : LineAddr) :
    (readRealLine s rom dma l).2.fresh = s.fresh := by
  unfold readRealLine
  split
  · rfl
  · split
    · split <;> rfl
    · rfl

/-! ## What reads of the state see after an update -/

@[simp] theorem State_eff_result (s : State) (n : RegField) (v : Word) : (s.result n v).eff = s.eff := by
  unfold State.eff; simp
@[simp] theorem State_nextPsw_result (s : State) (n : RegField) (v : Word) : (s.result n v).nextPsw = s.nextPsw := by
  unfold State.nextPsw; simp
@[simp] theorem State_eff_selectControl (s : State) (n : RegField) : (s.selectControl n).eff = s.eff := rfl
@[simp] theorem State_nextPsw_selectControl (s : State) (n : RegField) : (s.selectControl n).nextPsw = s.nextPsw := rfl

/-- Where no PSW write comes into effect and krn does not rise, the fields that a rise would free are kept. -/
theorem State_advancePsw_kept (s : State) (w : Option Word) (h : s.psw.krn = true ∨ s.nextPsw.krn = false) :
    s.advancePsw w = { s with psw := s.nextPsw, pend3 := s.pend2, pend2 := s.pend1, pend1 := w } := by
  unfold State.advancePsw
  dsimp only
  rcases h with h | h <;> simp [h]

end Sys2Proof.Machine
end

