-- ==== Sys2Proof/Laws/Memory.lean ====
section
/-!
SUPPORT. The laws of sorted lists and of memory: a read after a write, writes elsewhere, and that every operation
keeps the canonical form.
-/
namespace Sys2Proof.Machine

variable {α : Type}

/-! ## Sorted lists -/

theorem mapGet_mapErase_same (m : List (Nat × α)) (k : Nat) : mapGet (mapErase m k) k = none := by
  induction m with
  | nil => rfl
  | cons e t ih =>
    by_cases h : e.1 = k
    · simpa [mapErase, h] using ih
    · simpa [mapErase, h, mapGet] using ih

theorem mapGet_filter (m : List (Nat × α)) (p : Nat → Bool) (k : Nat) :
    mapGet (m.filter (fun e => p e.1)) k = if p k then mapGet m k else none := by
  induction m with
  | nil => simp [mapGet]
  | cons e t ih =>
    by_cases h : e.1 = k
    · subst h
      by_cases hp : p e.1 <;> simp [hp, mapGet, ih]
    · by_cases hp : p e.1 <;> simp [hp, mapGet, ih, h]

theorem mapGet_mapErase_ne (m : List (Nat × α)) {k j : Nat} (h : j ≠ k) : mapGet (mapErase m k) j = mapGet m j := by
  have := mapGet_filter m (fun x => x != k) j
  simpa [mapErase, h] using this

theorem mapGet_mapPlace_ne (m : List (Nat × α)) {k j : Nat} (v : α) (h : j ≠ k) :
    mapGet (mapPlace m k v) j = mapGet m j := by
  induction m with
  | nil => simp [mapPlace, mapGet, Ne.symm h]
  | cons e t ih =>
    unfold mapPlace
    split
    · simp [mapGet, Ne.symm h]
    · simp [mapGet, ih]

theorem mapGet_mapPlace_same (m : List (Nat × α)) (k : Nat) (v : α) (h : mapGet m k = none) :
    mapGet (mapPlace m k v) k = some v := by
  induction m with
  | nil => simp [mapPlace, mapGet]
  | cons e t ih =>
    have hne : e.1 ≠ k := by
      intro heq
      simp [mapGet, heq] at h
    unfold mapPlace
    split
    · simp [mapGet]
    · simp only [mapGet, hne, if_false] at h ⊢
      exact ih h

/-- A read of the entry just written. -/
@[simp] theorem mapGet_mapSet_same (m : List (Nat × α)) (k : Nat) (v : α) : mapGet (mapSet m k v) k = some v :=
  mapGet_mapPlace_same _ _ _ (mapGet_mapErase_same m k)

/-- A write leaves every other entry. -/
theorem mapGet_mapSet_ne (m : List (Nat × α)) {k j : Nat} (v : α) (h : j ≠ k) :
    mapGet (mapSet m k v) j = mapGet m j := by
  rw [mapSet, mapGet_mapPlace_ne _ _ h, mapGet_mapErase_ne _ h]

theorem mapSorted_filter (m : List (Nat × α)) (p : Nat × α → Bool) (h : mapSorted m = true) :
    mapSorted (m.filter p) = true := by
  induction m with
  | nil => rfl
  | cons e t ih =>
    simp only [mapSorted, Bool.and_eq_true, List.all_eq_true, decide_eq_true_eq] at h
    by_cases hp : p e
    · simp only [List.filter_cons, hp, if_true, mapSorted, Bool.and_eq_true, List.all_eq_true, decide_eq_true_eq]
      exact ⟨fun x hx => h.1 x (List.mem_of_mem_filter hx), ih h.2⟩
    · simpa [List.filter_cons, hp] using ih h.2

theorem mapSorted_mapErase (m : List (Nat × α)) (k : Nat) (h : mapSorted m = true) : mapSorted (mapErase m k) = true :=
  mapSorted_filter m _ h

theorem mem_mapPlace (m : List (Nat × α)) (k : Nat) (v : α) (x : Nat × α) (h : x ∈ mapPlace m k v) :
    x = (k, v) ∨ x ∈ m := by
  induction m with
  | nil => simpa [mapPlace] using h
  | cons e t ih =>
    unfold mapPlace at h
    split at h
    · simpa using h
    · rcases List.mem_cons.mp h with h | h
      · exact .inr (by simp [h])
      · rcases ih h with h | h
        · exact .inl h
        · exact .inr (List.mem_cons_of_mem _ h)

theorem mapSorted_mapPlace (m : List (Nat × α)) (k : Nat) (v : α) (h : mapSorted m = true)
    (hk : ∀ e ∈ m, e.1 ≠ k) : mapSorted (mapPlace m k v) = true := by
  induction m with
  | nil => rfl
  | cons e t ih =>
    have hs := h
    simp only [mapSorted, Bool.and_eq_true, List.all_eq_true, decide_eq_true_eq] at h
    unfold mapPlace
    split
    · rename_i hlt
      simp only [mapSorted, List.all_cons, Bool.and_eq_true, List.all_eq_true, decide_eq_true_eq]
      exact ⟨⟨hlt, fun x hx => by have := h.1 x hx; omega⟩, h.1, h.2⟩
    · rename_i hge
      have hne := hk e (by simp)
      simp only [mapSorted, Bool.and_eq_true, List.all_eq_true, decide_eq_true_eq]
      refine ⟨fun x hx => ?_, ih h.2 (fun y hy => hk y (by simp [hy]))⟩
      rcases mem_mapPlace t k v x hx with hx | hx
      · subst hx; simp; omega
      · exact h.1 x hx

/-- A write keeps the list sorted. -/
theorem mapSorted_mapSet (m : List (Nat × α)) (k : Nat) (v : α) (h : mapSorted m = true) :
    mapSorted (mapSet m k v) = true := by
  refine mapSorted_mapPlace _ _ _ (mapSorted_mapErase m k h) ?_
  intro e he
  simpa [mapErase] using (List.mem_filter.mp he).2

/-! ## Bytes -/

/-- A read of the byte just written. -/
@[simp] theorem readByte_writeByte_same (m : Memory) (a : Nat) (b : Byte) : readByte (writeByte m a b) a = b := by
  unfold readByte writeByte
  split
  · rename_i h; simp [mapGet_mapErase_same, h]
  · simp

/-- A write leaves every other byte. -/
theorem readByte_writeByte_ne (m : Memory) {a c : Nat} (b : Byte) (h : c ≠ a) :
    readByte (writeByte m a b) c = readByte m c := by
  unfold readByte writeByte
  split
  · simp [mapGet_mapErase_ne _ h]
  · simp [mapGet_mapSet_ne _ _ h]

/-- The canonical form, spelled out. -/
theorem Memory_wf_iff (m : Memory) :
    Memory.wf m = true ↔ mapSorted m = true ∧ ∀ c ∈ m, c.2 ≠ memoryDefault := by
  simp [Memory.wf, Bool.and_eq_true, List.all_eq_true]

/-- A byte write keeps the canonical form. -/
theorem Memory_wf_writeByte (m : Memory) (a : Nat) (b : Byte) (h : Memory.wf m = true) :
    Memory.wf (writeByte m a b) = true := by
  rw [Memory_wf_iff] at h ⊢
  unfold writeByte
  split
  · exact ⟨mapSorted_mapErase m a h.1, fun c hc => h.2 c (List.mem_of_mem_filter hc)⟩
  · rename_i hb
    refine ⟨mapSorted_mapSet m a b h.1, fun c hc => ?_⟩
    rcases mem_mapPlace _ _ _ _ hc with hc | hc
    · simpa [hc] using hb
    · exact h.2 c (List.mem_of_mem_filter hc)

theorem Memory_wf_writeWord (m : Memory) (w : Nat) (v : Word) (h : Memory.wf m = true) :
    Memory.wf (writeWord m w v) = true :=
  Memory_wf_writeByte _ _ _ (Memory_wf_writeByte _ _ _ (Memory_wf_writeByte _ _ _ (Memory_wf_writeByte _ _ _ h)))

theorem Memory_wf_writeLine (m : Memory) (l : Nat) (v : Line) (h : Memory.wf m = true) :
    Memory.wf (writeLine m l v) = true :=
  Memory_wf_writeWord _ _ _ (Memory_wf_writeWord _ _ _ (Memory_wf_writeWord _ _ _ (Memory_wf_writeWord _ _ _ h)))

theorem Memory_wf_physWriteLine (p : BitVec 4) (m : Memory) (l : LineAddr) (v : Line) (h : Memory.wf m = true) :
    Memory.wf (physWriteLine p m l v) = true := by
  unfold physWriteLine
  split
  · exact Memory_wf_writeLine m _ v h
  · exact h

theorem Memory_wf_writeBack (p : BitVec 4) (ea : Word) (d : DataCache) (m : Memory) (h : Memory.wf m = true) :
    Memory.wf (writeBack p ea d m) = true := by
  induction d generalizing m with
  | nil => exact h
  | cons e t ih =>
    unfold writeBack
    apply ih
    split
    · exact Memory_wf_physWriteLine p m _ _ h
    · exact h

/-- Reset memory has the canonical form. -/
theorem Memory_wf_reset : Memory.wf State.reset.mem = true := rfl

/-! ## Words and lines -/

/-- The four bytes of a word put together again. -/
@[simp] theorem wordOfBytes_bytes (v : Word) :
    wordOfBytes (v.extractLsb' 24 8) (v.extractLsb' 16 8) (v.extractLsb' 8 8) (v.extractLsb' 0 8) = v := by
  unfold wordOfBytes
  ext i hi
  simp only [BitVec.getElem_append, BitVec.getElem_extractLsb']
  split
  · simp [BitVec.getLsbD_eq_getElem hi]
  · split
    · simp only [← BitVec.getLsbD_eq_getElem hi]; congr 1; omega
    · split
      · simp only [← BitVec.getLsbD_eq_getElem hi]; congr 1; omega
      · simp only [← BitVec.getLsbD_eq_getElem hi]; congr 1; omega

/-- A read of one byte after a write of one byte. -/
theorem readByte_writeByte (m : Memory) (a c : Nat) (b : Byte) :
    readByte (writeByte m a b) c = if c = a then b else readByte m c := by
  split
  · rename_i h; subst h; simp
  · rename_i h; exact readByte_writeByte_ne m b h

/-- A read of the word just written. -/
@[simp] theorem readWord_writeWord_same (m : Memory) (w : Nat) (v : Word) : readWord (writeWord m w v) w = v := by
  simp [readWord, writeWord, readByte_writeByte]

/-- A word write leaves every byte outside its four. -/
theorem readByte_writeWord_ne (m : Memory) (w : Nat) (v : Word) (a : Nat) (h : a / 4 ≠ w) :
    readByte (writeWord m w v) a = readByte m a := by
  unfold writeWord
  rw [readByte_writeByte_ne _ _ (by omega), readByte_writeByte_ne _ _ (by omega),
    readByte_writeByte_ne _ _ (by omega), readByte_writeByte_ne _ _ (by omega)]

/-- A word write leaves every other word. -/
theorem readWord_writeWord_ne (m : Memory) (w u : Nat) (v : Word) (h : u ≠ w) :
    readWord (writeWord m w v) u = readWord m u := by
  unfold readWord
  rw [readByte_writeWord_ne _ _ _ _ (by omega), readByte_writeWord_ne _ _ _ _ (by omega),
    readByte_writeWord_ne _ _ _ _ (by omega), readByte_writeWord_ne _ _ _ _ (by omega)]

/-- A read of one word after a write of one word. -/
theorem readWord_writeWord (m : Memory) (w u : Nat) (v : Word) :
    readWord (writeWord m w v) u = if u = w then v else readWord m u := by
  split
  · rename_i h; subst h; simp
  · rename_i h; exact readWord_writeWord_ne m w u v h

/-- A read of the line just written. -/
@[simp] theorem readLine_writeLine_same (m : Memory) (l : Nat) (v : Line) : readLine (writeLine m l v) l = v := by
  simp [readLine, writeLine, readWord_writeWord]

/-- A line write leaves every word outside its four. -/
theorem readWord_writeLine_ne (m : Memory) (l u : Nat) (v : Line) (h : u / 4 ≠ l) :
    readWord (writeLine m l v) u = readWord m u := by
  unfold writeLine
  rw [readWord_writeWord_ne _ _ _ _ (by omega), readWord_writeWord_ne _ _ _ _ (by omega),
    readWord_writeWord_ne _ _ _ _ (by omega), readWord_writeWord_ne _ _ _ _ (by omega)]

/-- A line write leaves every other line. -/
theorem readLine_writeLine_ne (m : Memory) (l k : Nat) (v : Line) (h : k ≠ l) :
    readLine (writeLine m l v) k = readLine m k := by
  unfold readLine
  rw [readWord_writeLine_ne _ _ _ _ (by omega), readWord_writeLine_ne _ _ _ _ (by omega),
    readWord_writeLine_ne _ _ _ _ (by omega), readWord_writeLine_ne _ _ _ _ (by omega)]

/-- A read of the word of a line just written. -/
@[simp] theorem lineGet_lineSet_same (v : Line) (k : BitVec 2) (x : Word) : lineGet (lineSet v k x) k = x := by
  unfold lineGet lineSet
  split <;> simp_all

/-- Writing one word of a line leaves the others. -/
theorem lineGet_lineSet_ne (v : Line) (k j : BitVec 2) (x : Word) (h : j ≠ k) :
    lineGet (lineSet v k x) j = lineGet v j := by
  revert h
  have hk : k = 0#2 ∨ k = 1#2 ∨ k = 2#2 ∨ k = 3#2 := by
    revert k; decide
  have hj : j = 0#2 ∨ j = 1#2 ∨ j = 2#2 ∨ j = 3#2 := by
    revert j; decide
  rcases hk with rfl | rfl | rfl | rfl <;> rcases hj with rfl | rfl | rfl | rfl <;> intro h <;>
    first | exact absurd rfl h | rfl

/-! ## Lines and the words in them -/

/-- A real word address is its line and its word in the line (R80). -/
theorem line_word_split (wa : Word) : 4 * (lineOf wa).toNat + (wordInLine wa).toNat = wa.toNat := by
  simp only [lineOf, wordInLine, BitVec.extractLsb'_toNat, Nat.shiftRight_eq_div_pow]
  have := wa.isLt
  omega

/-- The words of a line as memory holds them. -/
theorem lineGet_readLine (m : Memory) (l : Nat) (k : BitVec 2) :
    lineGet (readLine m l) k = readWord m (4 * l + k.toNat) := by
  have hk : k = 0#2 ∨ k = 1#2 ∨ k = 2#2 ∨ k = 3#2 := by
    revert k; decide
  rcases hk with rfl | rfl | rfl | rfl <;> rfl

/-- The word of its line in the Boot-Prom (R104). -/
theorem lineGet_prom (m : Memory) (wa : Word) :
    lineGet (readLine m (lineOf wa).toNat) (wordInLine wa) = readWord m wa.toNat := by
  rw [lineGet_readLine, line_word_split]

/-- The word of its line in main memory, whose 25-bit physical address drops the high bits (R91). -/
theorem lineGet_physical (m : Memory) (wa : Word) :
    lineGet (readLine m (physicalLine (lineOf wa))) (wordInLine wa) = readWord m (wa.toNat % 2 ^ 25) := by
  rw [lineGet_readLine]
  congr 1
  have h := line_word_split wa
  have hk := (wordInLine wa).isLt
  simp only [physicalLine]
  omega

end Sys2Proof.Machine
end

