-- ==== Sys2Proof/Laws/Ops.lean ====
section
/-!
SUPPORT. What each shared operation of Machine/Ops.lean, Operands.lean and Special.lean does, said once: a later proof
cites these and unfolds none of them.
-/
namespace Sys2Proof.Machine

/-! ## Registers -/

theorem reg_of_regs_eq {s t : State} (h : t.regs = s.regs) (i : RegIndex) : t.reg i = s.reg i := by
  simp [State.reg, h]

/-- A register after a write through the bank PSW.ra. -/
theorem reg_writeA (s : State) (n : RegField) (v : Word) (i : RegIndex) :
    (s.writeA n v).reg i = if n ≠ 0#6 ∧ i = s.raIndex n then v else s.reg i := by
  unfold State.writeA
  by_cases h : n = 0#6
  · simp [h]
  · simp only [h, if_false, State.reg, ne_eq, not_false_eq_true, true_and]
    by_cases hi : i = s.raIndex n
    · subst hi; simp
    · have : (s.raIndex n).toNat ≠ i.toNat := fun e => hi (BitVec.eq_of_toNat_eq e.symm)
      simp [hi, this]

theorem mark_of_marks_eq {s t : State} (h : t.marks = s.marks) (i : RegIndex) : t.mark i = s.mark i := by
  simp [State.mark, h]

/-- The parity of a register after a write through the bank PSW.ra (R24). -/
theorem mark_writeA (s : State) (n : RegField) (v : Word) (i : RegIndex) :
    (s.writeA n v).mark i = if n ≠ 0#6 ∧ i = s.raIndex n then .good else s.mark i := by
  unfold State.writeA
  by_cases h : n = 0#6
  · simp [h]
  · simp only [h, if_false, State.mark, ne_eq, not_false_eq_true, true_and]
    by_cases hi : i = s.raIndex n
    · subst hi; simp
    · have : (s.raIndex n).toNat ≠ i.toNat := fun e => hi (BitVec.eq_of_toNat_eq e.symm)
      simp [hi, this]

/-- Registers and parities as before. -/
theorem regsKept_of {s t : State} (hr : t.regs = s.regs) (hm : t.marks = s.marks) : regsKept s t :=
  fun i => ⟨reg_of_regs_eq hr i, mark_of_marks_eq hm i⟩

/-- A state with the registers and parities of a result: the result is written. -/
theorem regWritten_of {s t u : State} {n : RegField} {v : Word} (hr : t.regs = (u.writeA n v).regs)
    (hm : t.marks = (u.writeA n v).marks) (ur : u.regs = s.regs) (um : u.marks = s.marks)
    (hi : u.raIndex n = s.raIndex n) : regWritten s t n v := by
  intro i
  rw [reg_of_regs_eq hr, mark_of_marks_eq hm, reg_writeA, mark_writeA, hi, reg_of_regs_eq ur, mark_of_marks_eq um]
  exact ⟨rfl, rfl⟩

theorem reg_result (s : State) (n : RegField) (v : Word) (i : RegIndex) :
    (s.result n v).reg i = if n ≠ 0#6 ∧ i = s.raIndex n then v else s.reg i := reg_writeA s n v i

theorem mark_result (s : State) (n : RegField) (v : Word) (i : RegIndex) :
    (s.result n v).mark i = if n ≠ 0#6 ∧ i = s.raIndex n then .good else s.mark i := mark_writeA s n v i

@[simp] theorem reg_retireWith (s : State) (d : Did) (n : Word) (i : IcarPhase) (w : Option Word) (j : RegIndex) :
    (s.retireWith d n i w).reg j = s.reg j := reg_of_regs_eq (by simp) j

@[simp] theorem reg_retire (s : State) (d : Did) (j : RegIndex) : (s.retire d).reg j = s.reg j :=
  reg_of_regs_eq (by simp) j

@[simp] theorem reg_retireTo (s : State) (d : Did) (n : Word) (j : RegIndex) : (s.retireTo d n).reg j = s.reg j :=
  reg_of_regs_eq (by simp) j

@[simp] theorem reg_retireDisturbed (s : State) (d : Did) (j : RegIndex) : (s.retireDisturbed d).reg j = s.reg j :=
  reg_of_regs_eq (by simp) j

@[simp] theorem mark_retireWith (s : State) (d : Did) (n : Word) (i : IcarPhase) (w : Option Word) (j : RegIndex) :
    (s.retireWith d n i w).mark j = s.mark j := mark_of_marks_eq (by simp) j

@[simp] theorem mark_retire (s : State) (d : Did) (j : RegIndex) : (s.retire d).mark j = s.mark j :=
  mark_of_marks_eq (by simp) j

@[simp] theorem mark_retireTo (s : State) (d : Did) (n : Word) (j : RegIndex) : (s.retireTo d n).mark j = s.mark j :=
  mark_of_marks_eq (by simp) j

@[simp] theorem mark_retireDisturbed (s : State) (d : Did) (j : RegIndex) :
    (s.retireDisturbed d).mark j = s.mark j := mark_of_marks_eq (by simp) j

/-- A write of r0 is discarded. -/
@[simp] theorem writeA_zero (s : State) (v : Word) : s.writeA 0#6 v = s := rfl

/-! ## Retiring where no PSW write takes effect -/

theorem nextPsw_of_none {s : State} (h : s.pend3 = none) : s.nextPsw = s.psw := by simp [State.nextPsw, h]

theorem eff_of_none {s : State} (h : s.pend3 = none) : s.eff = s.psw := by simp [State.eff, h]

/-- krn does not depend on a PSW write that has reached its third instruction (R184). -/
@[simp] theorem eff_krn (s : State) : s.eff.krn = s.psw.krn := by
  unfold State.eff
  split <;> rfl

theorem retireWith_psw {s : State} (d : Did) (n : Word) (i : IcarPhase) (w : Option Word) (h : s.pend3 = none) :
    (s.retireWith d n i w).psw = s.psw := by
  unfold State.retireWith State.advancePsw
  simp [nextPsw_of_none h]

theorem retireWith_pc1 {s : State} (d : Did) (n : Word) (i : IcarPhase) (w : Option Word) (h : s.pend3 = none) :
    (s.retireWith d n i w).pc1 = s.pc1 := by
  unfold State.retireWith State.advancePsw
  simp [nextPsw_of_none h]

theorem retireWith_pc2 {s : State} (d : Did) (n : Word) (i : IcarPhase) (w : Option Word) (h : s.pend3 = none) :
    (s.retireWith d n i w).pc2 = s.pc2 := by
  unfold State.retireWith State.advancePsw
  simp [nextPsw_of_none h]

theorem retireWith_itfr {s : State} (d : Did) (n : Word) (i : IcarPhase) (w : Option Word) (h : s.pend3 = none) :
    (s.retireWith d n i w).itfr = s.itfr := by
  unfold State.retireWith State.advancePsw
  simp [nextPsw_of_none h]

theorem retireWith_dtfr {s : State} (d : Did) (n : Word) (i : IcarPhase) (w : Option Word) (h : s.pend3 = none) :
    (s.retireWith d n i w).dtfr = s.dtfr := by
  unfold State.retireWith State.advancePsw
  simp [nextPsw_of_none h]

/-! ## Retiring in kernel mode, and krn -/

/-- krn after an instruction is that of the PSW that holds for the next (R184). -/
theorem retireWith_krn (s : State) (d : Did) (n : Word) (i : IcarPhase) (w : Option Word) :
    (s.retireWith d n i w).psw.krn = s.nextPsw.krn := by
  unfold State.retireWith State.advancePsw
  cases h : (!s.psw.krn && s.nextPsw.krn)
  · rfl
  · simp [State.freezeUserState]

/-- In kernel mode nothing is frozen: PSW, pc-queue and fault registers after an instruction (R29, R45, R184). -/
theorem retireWith_kernel {s : State} (d : Did) (n : Word) (i : IcarPhase) (w : Option Word) (h : s.psw.krn = true) :
    (s.retireWith d n i w).psw = s.nextPsw ∧ (s.retireWith d n i w).pc1 = s.pc1 ∧
    (s.retireWith d n i w).pc2 = s.pc2 ∧ (s.retireWith d n i w).itfr = s.itfr ∧
    (s.retireWith d n i w).dtfr = s.dtfr := by
  unfold State.retireWith State.advancePsw
  simp [h]

/-! ## Frames compose from equal fields -/

theorem memoryKept_of {s t : State} (hm : t.mem = s.mem) (hp : t.prom = s.prom) (hq : t.populated = s.populated)
    (hi : t.icache = s.icache) (hd : t.dcache = s.dcache) : memoryKept s t :=
  ⟨fun a => by rw [hm], fun a => by rw [hp], hq, hi, hd⟩

/-- The system frame of a retirement with no PSW write of its own. -/
theorem systemKept_retireWith {s u : State} (d : Did) (n : Word) (i : IcarPhase) (h1 : u.pend1 = s.pend1)
    (h2 : u.pend2 = s.pend2) (h3 : u.pend3 = s.pend3) (hp : u.psw = s.psw) (hi : u.itfr = s.itfr)
    (hd : u.dtfr = s.dtfr) : systemKept s (u.retireWith d n i none) :=
  ⟨by simp, by simp [h1], by simp [h2], fun h => by rw [retireWith_psw _ _ _ _ (h3.trans h), hp],
    fun h => by rw [retireWith_itfr _ _ _ _ (h3.trans h), hi],
    fun h => by rw [retireWith_dtfr _ _ _ _ (h3.trans h), hd]⟩

/-- The queue frame of a retirement. -/
theorem queueKept_retireWith {s u : State} (d : Did) (n : Word) (i : IcarPhase) (w : Option Word)
    (h3 : u.pend3 = s.pend3) (h1 : u.pc1 = s.pc1) (h2 : u.pc2 = s.pc2) : queueKept s (u.retireWith d n i w) :=
  fun h => ⟨by rw [retireWith_pc1 _ _ _ _ (h3.trans h), h1], by rw [retireWith_pc2 _ _ _ _ (h3.trans h), h2]⟩

/-- The frame of a retirement from a state that differs from the start in registers and RR alone. -/
theorem restKept_retireWith {s u : State} (d : Did) (n : Word) (i : IcarPhase)
    (hu : ∃ r m q, u = { s with regs := r, marks := m, rr := q }) : restKept s (u.retireWith d n i none) := by
  obtain ⟨r, m, q, rfl⟩ := hu
  refine ⟨memoryKept_of ?_ ?_ ?_ ?_ ?_, ⟨?_, ?_⟩, ⟨?_, ?_⟩, ?_, systemKept_retireWith _ _ _ ?_ ?_ ?_ ?_ ?_ ?_,
    queueKept_retireWith _ _ _ _ ?_ ?_ ?_, ⟨?_, ?_, ?_, ?_, ?_, ?_, ?_, ?_, ?_, ?_, ?_, ?_⟩⟩ <;> simp

/-- A register write and RR are all that a result changes. -/
theorem result_shape (s : State) (n : RegField) (v : Word) :
    ∃ r m q, s.result n v = { s with regs := r, marks := m, rr := q } := by
  unfold State.result State.writeA
  by_cases h : n = 0#6
  · exact ⟨s.regs, s.marks, some v, by simp [h]⟩
  · exact ⟨s.regs.set (s.raIndex n).toNat v (s.raIndex n).isLt,
      s.marks.set (s.raIndex n).toNat .good (s.raIndex n).isLt, some v, by simp [h]⟩

/-- What `finish` does (R30): the result in RR and the register, and the sequential advance. -/
theorem finish_spec (s : State) (n : RegField) (v : Word) :
    ∃ t, finish s n v = .next t ∧ resultOnly s t n v (s.npc + 4#32) :=
  ⟨_, rfl, fun i => ⟨by rw [reg_retire, reg_result], by rw [mark_retire, mark_result]⟩, by simp, ⟨by simp, by simp⟩,
    restKept_retireWith _ _ _ (result_shape s n v)⟩

/-! ## Traps and halts -/

/-- What trap entry does (R345). -/
theorem enterTrap_spec (s : State) (c : TrapInfo) (h : s.inFlight = false)
    (hu : s.afterUserSpecial = false) : ∃ t, enterTrap c s = .next t ∧ trapped s t c := by
  refine ⟨trapState s c, by simp [enterTrap, h, hu], ?_⟩
  constructor
  all_goals first
    | rfl
    | exact ⟨rfl, rfl, rfl, rfl, rfl⟩
    | exact ⟨rfl, rfl, rfl, rfl, rfl, rfl⟩
    | exact ⟨rfl, rfl, rfl, rfl⟩
    | exact ⟨rfl, rfl⟩
    | exact memoryKept_of rfl rfl rfl rfl rfl
    | exact regsKept_of rfl rfl
    | exact ⟨rfl, rfl, rfl, rfl, rfl, rfl, rfl, rfl, rfl, rfl, rfl, rfl⟩
    | (intro hc; simp [trapState, trapPsw, hc])

/-- A trap while something is in flight, or right after a special in user mode, is refused (U29, U15). -/
theorem enterTrap_inFlight (s : State) (c : TrapInfo) (h : s.inFlight = true ∨ s.afterUserSpecial = true) :
    enterTrap c s = .refused .trapInFlight := by
  unfold enterTrap
  rcases h with h | h <;> simp [h]

/-- A next state of trap entry is the trap state. -/
theorem enterTrap_next {s t : State} {c : TrapInfo} (h : enterTrap c s = .next t) :
    (s.inFlight = false ∧ s.afterUserSpecial = false) ∧ t = trapState s c := by
  unfold enterTrap at h
  split at h
  · simp at h
  · rename_i hf
    exact ⟨by simpa using hf, by simpa using h.symm⟩

/-- What a halt does (R365). -/
theorem halt_spec (s : State) (cause : HaltCause) (ra rb : RegField) :
    haltedBy s (s.haltFields cause ra rb) cause ra rb := rfl

/-- A privileged instruction where it may have its effect. -/
theorem privileged_effect {s : State} (r : Result) (h : s.mayPrivileged) : privileged s r = r := by
  have : s.eff.unprivileged = false := h
  simp [privileged, this]

/-- A privileged instruction where it traps. -/
theorem privileged_trap {s : State} (r : Result) (h : s.eff.unprivileged = true) :
    privileged s r = enterTrap illegalTrap s := by simp [privileged, h]

/-- A next state of a privileged instruction: its effect's, or the illegal instruction trap's. -/
theorem privileged_next {s t : State} {r : Result} (h : privileged s r = .next t) :
    (s.eff.unprivileged = false ∧ r = .next t) ∨
    (s.eff.unprivileged = true ∧ (s.inFlight = false ∧ s.afterUserSpecial = false) ∧ t = trapState s illegalTrap) := by
  unfold privileged at h
  split at h
  · rename_i hu
    exact .inr ⟨hu, enterTrap_next h⟩
  · rename_i hu
    exact .inl ⟨by simpa using hu, h⟩

/-- A next state of an instruction that traps or halts. -/
theorem trapOrHalt_next {s t : State} {c : TrapInfo} {cause : HaltCause} {ra rb : RegField}
    (h : trapOrHalt s c cause ra rb = .next t) :
    (s.eff.krn = true ∧ t = s.haltFields cause ra rb) ∨
    (s.eff.krn = false ∧ (s.inFlight = false ∧ s.afterUserSpecial = false) ∧ t = trapState s c) := by
  unfold trapOrHalt at h
  split at h
  · rename_i hk
    exact .inl ⟨hk, by simpa using h.symm⟩
  · rename_i hk
    exact .inr ⟨by simpa using hk, enterTrap_next h⟩

/-! ## Specials -/

/-- The frame of a special that changes registers, RR and the I/O control address alone. -/
theorem specialRead_spec (s : State) (ra rb : RegField) (v : Word) :
    ∃ t, specialRead s ra rb v = .next t ∧ regWritten s t ra v ∧ t.rr = some v ∧ specialKept s t rb ∧
      translationKept s t ∧ systemKept s t ∧ queueKept s t := by
  refine ⟨_, rfl, regWritten_of (u := s.selectControl rb) ?_ ?_ ?_ ?_ rfl, by simp, ⟨⟨by simp, by simp⟩,
    memoryKept_of ?_ ?_ ?_ ?_ ?_, ⟨?_, ?_⟩, ?_, ⟨?_, ?_, ?_, ?_, ?_, ?_, ?_, ?_, ?_, ?_, ?_, ?_⟩⟩,
    ⟨?_, ?_⟩, systemKept_retireWith _ _ _ ?_ ?_ ?_ ?_ ?_ ?_, queueKept_retireWith _ _ _ _ ?_ ?_ ?_⟩
  all_goals simp

/-- The same for a special that disturbs the ICAR. -/
theorem specialReadDisturbed_spec (s : State) (ra rb : RegField) (v : Word) :
    ∃ t, specialReadDisturbed s ra rb v = .next t ∧ regWritten s t ra v ∧ t.rr = some v ∧ specialKept s t rb ∧
      translationKept s t ∧ systemKept s t ∧ queueKept s t := by
  refine ⟨_, rfl, regWritten_of (u := s.selectControl rb) ?_ ?_ ?_ ?_ rfl, by simp, ⟨⟨by simp, by simp⟩,
    memoryKept_of ?_ ?_ ?_ ?_ ?_, ⟨?_, ?_⟩, ?_, ⟨?_, ?_, ?_, ?_, ?_, ?_, ?_, ?_, ?_, ?_, ?_, ?_⟩⟩,
    ⟨?_, ?_⟩, systemKept_retireWith _ _ _ ?_ ?_ ?_ ?_ ?_ ?_, queueKept_retireWith _ _ _ _ ?_ ?_ ?_⟩
  all_goals simp

/-! ## Operands -/

/-- RR as a special uses it is what the instruction before loaded (R30, R196). -/
theorem resultRegister_of {s : State} {v : Word} (h : s.loadedResult = some v) : s.resultRegister = v := by
  simp [State.resultRegister, h]

/-- The same of an I/O special that is not adjacent to another (R217). -/
theorem ioOperand_of {s : State} {v : Word} (h : s.loadedResult = some v) (hi : s.hist.last.io = false) :
    s.ioOperand = v := by
  simp [State.ioOperand, hi, resultRegister_of h]

/-- The fetch in an instruction's EX stage does not open a line outside the places that R477 forbids. -/
theorem missesInEx_eq_false {s : State} :
    s.missesInEx = false ↔ s.pc.extractLsb' 2 2 ≠ 2#2 ∧ (s.npc + 4#32).extractLsb' 2 2 ≠ 0#2 := by
  simp [State.missesInEx]

/-- A write of the data buffer that is well placed takes RR (R195, R198). -/
theorem dataEntryWord_of {s : State} (h : s.missesInEx = false) : s.dataEntryWord = s.resultRegister := by
  simp [State.dataEntryWord, h]

/-- A base without a hazard is the register. -/
theorem baseNoInterlock_eq {s : State} {rb : RegField} {afterStore : Bool}
    (h1 : s.hist.last.wrote ≠ some (s.rbIndex rb))
    (h2 : s.hist.last.store = false) : s.baseNoInterlock rb afterStore = s.readB rb := by
  unfold State.baseNoInterlock
  rw [if_neg]
  simp [h1, h2]

end Sys2Proof.Machine
end

