-- ==== Sys2Proof/Laws/Access.lean ====
section
/-!
SUPPORT. What bringing a line into the data cache does, and what the data side sees of memory before and after.
-/
namespace Sys2Proof.Machine

/-- A line that is there stays. -/
theorem fillData_hit {s : State} {l : LineAddr} (h : s.hasDataLine l = true) : s.fillData l = some s := by
  simp [State.fillData, h]

/-- A line that is absent waits for a memory controller that does nothing (R368, R439). -/
theorem fillData_stalled {s : State} {l : LineAddr} (h : s.hasDataLine l = false) (hm : s.mcDown = true) :
    s.fillData l = none := by
  simp [State.fillData, h, hm]

theorem mapGet_of_hasDataLine {s : State} {l : LineAddr} (h : s.hasDataLine l = false) :
    mapGet s.dcache l.toNat = none := by
  simpa [State.hasDataLine] using h

/-- A line read changes the memory controller and the ECC input alone. -/
theorem readRealLine_shape (s : State) (rom dma : Bool) (l : LineAddr) :
    (readRealLine s rom dma l).2 =
      { s with mc := (readRealLine s rom dma l).2.mc, ecc := (readRealLine s rom dma l).2.ecc } := by
  unfold readRealLine
  split
  · rfl
  · split
    · split <;> rfl
    · rfl

/-- A line that is absent comes in as the memory controller reads it and the bus carries it; beside the data cache only
the error record and the ECC input change. -/
theorem fillData_miss {s : State} {l : LineAddr} (h : s.hasDataLine l = false) (hm : s.mcDown = false) :
    s.fillData l = some { s with
      dcache := mapSet s.dcache l.toNat (DataLine.arrived s.busData (readRealLine s s.eff.rom false l).1),
      mc := (readRealLine s s.eff.rom false l).2.mc, ecc := (readRealLine s s.eff.rom false l).2.ecc } := by
  simp only [State.fillData, h, hm, Bool.false_eq_true, if_false, Option.some.injEq]
  generalize DataLine.arrived s.busData (readRealLine s s.eff.rom false l).1 = d
  exact congrArg (fun u : State => { u with dcache := mapSet u.dcache l.toNat d })
    (readRealLine_shape s s.eff.rom false l)

/-- A line that arrives without an error on the bus. -/
@[simp] theorem arrived_none (v : Line) :
    DataLine.arrived none v = { line := v, dirty := false, bad := 0#4, tagBad := false } := rfl

/-- A line read without an error: the line that the data side sees, and no other change. -/
theorem readRealLine_clean {s : State} {l : LineAddr} (h : mapGet s.dcache l.toNat = none)
    (hr : (inBootProm s.eff.rom l = true ∧ s.dirtyEvicted = false) ∨
      (inBootProm s.eff.rom l = false ∧ isPopulated s.populated l = true ∧ s.ecc = [])) :
    readRealLine s s.eff.rom false l = (seenLine s s.eff.rom l, s) := by
  unfold readRealLine seenLine
  rw [h]
  rcases hr with ⟨hb, -⟩ | ⟨hb, hp, he⟩
  · simp [hb]
  · simp [hb, hp, he]

/-- A ready line is no dirty miss that reads the Boot-Prom. -/
theorem dirtyPromMiss_of_ready {s : State} {l : LineAddr} (h : s.lineReady l) : s.dirtyPromMiss l = false := by
  unfold State.dirtyPromMiss
  rcases h with h | ⟨-, -, ⟨-, h⟩ | ⟨h, -⟩⟩ <;> simp [h]

/-! ## Line reads that meet errors -/

/-- What logging memory errors does (R58 to R61, R64, R121). -/
theorem logMemoryError_spec (mc : MemCtl) (e : EccError) (l : LineAddr) (w : Bool) :
    errorNoted mc (logMemoryError mc e l w) (e.has false) (e.has true) e.count l w ∧
    (logMemoryError mc e l w).synHi = halfSyndrome e.even ∧ (logMemoryError mc e l w).synLo = halfSyndrome e.odd := by
  unfold logMemoryError noteMemoryError raiseError
  cases h1 : e.has false <;> cases h2 : e.has true <;>
    exact ⟨⟨by simp, rfl, rfl, rfl, by simp, rfl⟩, rfl, rfl⟩

/-- What the read of a vacant module logs (R92). -/
theorem logVacantRead_spec (mc : MemCtl) (l : LineAddr) (w : Bool) (fresh : Nat) :
    errorNoted mc (logVacantRead mc l w fresh) true false 1 l w := by
  unfold logVacantRead noteMemoryError raiseError
  exact ⟨by simp, rfl, rfl, rfl, by simp, rfl⟩

/-- The two words of a half line as the memory controller delivers them (R121). -/
theorem deliverHalf_spec (x y : Word) (h : Option HalfError) (correct : Bool) (free : Word × Word) :
    halfDelivered correct h (x, y) (deliverHalf x y h correct free) := by
  unfold halfDelivered deliverHalf
  split <;> trivial

/-- A line read is as R92, R104 and R121 say. -/
theorem readRealLine_spec (s : State) (rom dma : Bool) (l : LineAddr) :
    lineRead s rom dma l (readRealLine s rom dma l).1 (readRealLine s rom dma l).2.mc
      (readRealLine s rom dma l).2.ecc := by
  unfold readRealLine
  cases hr : inBootProm rom l
  · cases hp : isPopulated s.populated l
    · refine ⟨by simp [hr], fun _ _ => ⟨rfl, ?_, rfl⟩, by simp [hp], by simp [hp]⟩
      exact logVacantRead_spec s.mc l dma s.fresh
    · rcases he : s.ecc with _ | ⟨_ | e, t⟩
      · exact ⟨by simp [hr], by simp [hp], by simp [he], by simp [he]⟩
      · exact ⟨by simp [hr], by simp [hp], by simp [he], by simp [he]⟩
      · refine ⟨by simp [hr], by simp [hp], by simp [he], fun _ _ e' h' => ?_⟩
        have hee : e = e' := by simpa [he] using h'
        subst hee
        refine ⟨by simp [he], deliverHalf_spec _ _ _ _ _, deliverHalf_spec _ _ _ _ _, fun h1 h2 => ?_, fun h12 => ?_⟩
        · simp [EccError.count, h1, h2]
        · have hc : e.count ≠ 0 := by
            unfold EccError.count
            rcases h12 with h | h
            · obtain ⟨x, hx⟩ := Option.ne_none_iff_exists'.1 h; simp [hx]
            · obtain ⟨x, hx⟩ := Option.ne_none_iff_exists'.1 h; simp [hx]
          have := logMemoryError_spec s.mc e l dma
          simp only [hc, if_false]
          exact this
  · exact ⟨fun _ => by simp, by simp [hr], by simp [hr], by simp [hr]⟩

/-- Bringing in a ready line: at most one clean line more. -/
theorem fillData_ready {s : State} {l : LineAddr} (h : s.lineReady l) :
    ∃ c, s.fillData l = some { s with dcache := c } ∧ (s.hasDataLine l = true → c = s.dcache) ∧
      (s.hasDataLine l = false →
        c = mapSet s.dcache l.toNat
          { line := seenLine s s.eff.rom l, dirty := false, bad := 0#4, tagBad := false }) := by
  cases hl : s.hasDataLine l
  · rcases h with h | ⟨hm, hb, hr⟩
    · simp [hl] at h
    · refine ⟨mapSet s.dcache l.toNat { line := seenLine s s.eff.rom l, dirty := false, bad := 0#4, tagBad := false },
        ?_, by simp, by simp⟩
      have ha : ∀ v, DataLine.arrived s.busData v = { line := v, dirty := false, bad := 0#4, tagBad := false } :=
        fun v => by rw [hb, arrived_none]
      rw [fillData_miss hl hm, readRealLine_clean (mapGet_of_hasDataLine hl) hr, ha]
  · exact ⟨s.dcache, by rw [fillData_hit hl], by simp, by simp⟩

/-- The line of a word in the cache is the line the data side sees. -/
theorem seenLine_of_mapGet {s : State} {l : LineAddr} {d : DataLine} (rom : Bool)
    (h : mapGet s.dcache l.toNat = some d) :
    seenLine s rom l = d.line := by
  simp [seenLine, h]

theorem dataLine_eq_seenLine {s : State} {l : LineAddr} (rom : Bool) (h : s.hasDataLine l = true) :
    s.dataLine l = seenLine s rom l := by
  unfold State.hasDataLine at h
  unfold State.dataLine seenLine
  cases hg : mapGet s.dcache l.toNat with
  | none => simp [hg] at h
  | some d => rfl

/-- The state of a data cache that has taken in one clean line as the data side sees it shows the same memory. -/
theorem seenLine_fill (s : State) (l k : LineAddr) (rom : Bool) :
    seenLine { s with
      dcache := mapSet s.dcache l.toNat { line := seenLine s rom l, dirty := false, bad := 0#4, tagBad := false } }
        rom k =
      seenLine s rom k := by
  by_cases h : k = l
  · subst h
    simp [seenLine, mapGet_mapSet_same]
  · have hn : k.toNat ≠ l.toNat := fun e => h (BitVec.eq_of_toNat_eq e)
    simp [seenLine, mapGet_mapSet_ne _ _ hn]

/-- What a ready line's arrival does. -/
theorem fillData_seen {s : State} {l : LineAddr} (h : s.lineReady l) :
    ∃ c, s.fillData l = some { s with dcache := c } ∧ (s.hasDataLine l = true → c = s.dcache) ∧
      (s.hasDataLine l = false →
        c = mapSet s.dcache l.toNat { line := seenLine s s.eff.rom l, dirty := false, bad := 0#4, tagBad := false }) ∧
      (∀ k, k ≠ l.toNat → mapGet c k = mapGet s.dcache k) ∧ ({ s with dcache := c } : State).hasDataLine l = true ∧
      ({ s with dcache := c } : State).dataLine l = seenLine s s.eff.rom l ∧
      ∀ k, seenLine { s with dcache := c } s.eff.rom k = seenLine s s.eff.rom k := by
  obtain ⟨c, hf, h1, h2⟩ := fillData_ready h
  refine ⟨c, hf, h1, h2, ?_⟩
  cases hl : s.hasDataLine l
  · have hc := h2 hl
    subst hc
    refine ⟨fun k hk => mapGet_mapSet_ne _ _ hk, by simp [State.hasDataLine], by simp [State.dataLine],
      fun k => seenLine_fill s l k _⟩
  · have hc := h1 hl
    subst hc
    exact ⟨fun _ _ => rfl, hl, dataLine_eq_seenLine _ hl, fun _ => rfl⟩

/-- What the data side sees depends on the data cache, the Boot-Prom, the populated modules and main memory alone. -/
theorem seenWord_congr {s t : State} (rom : Bool) (a : Word) (hd : t.dcache = s.dcache) (hp : t.prom = s.prom)
    (hq : t.populated = s.populated) (hm : t.mem = s.mem) : seenWord t rom a = seenWord s rom a := by
  unfold seenWord seenLine
  rw [hd, hp, hq, hm]

/-- A word address is its line and its place in it. -/
theorem word_eq_of {a b : Word} (h1 : lineOf a = lineOf b) (h2 : wordInLine a = wordInLine b) : a = b := by
  have ha := line_word_split a
  have hb := line_word_split b
  rw [h1, h2] at ha
  exact BitVec.eq_of_toNat_eq (by omega)

/-- What the data side sees after a word is put into a line that is there. -/
theorem seenWord_put {s : State} (rom : Bool) (rwa v : Word) (h : s.hasDataLine (lineOf rwa) = true) (a : Word) :
    seenWord (s.putDataWord rwa v) rom a = if a = rwa then v else seenWord s rom a := by
  unfold seenWord
  by_cases hl : lineOf a = lineOf rwa
  · have hg : mapGet (s.putDataWord rwa v).dcache (lineOf rwa).toNat =
        some { line := lineSet (s.dataLine (lineOf rwa)) (wordInLine rwa) v, dirty := true,
               bad := clearMark (s.dataBad (lineOf rwa)) (wordInLine rwa), tagBad := s.dataTagBad (lineOf rwa) } :=
      mapGet_mapSet_same _ _ _
    rw [hl, seenLine_of_mapGet rom hg, dataLine_eq_seenLine rom h]
    by_cases hw : wordInLine a = wordInLine rwa
    · rw [if_pos (word_eq_of hl hw), hw, lineGet_lineSet_same]
    · rw [if_neg (fun e => hw (by rw [e])), lineGet_lineSet_ne _ _ _ _ hw]
  · have hn : (lineOf a).toNat ≠ (lineOf rwa).toNat := fun e => hl (BitVec.eq_of_toNat_eq e)
    have hg : mapGet (s.putDataWord rwa v).dcache (lineOf a).toNat = mapGet s.dcache (lineOf a).toNat :=
      mapGet_mapSet_ne _ _ hn
    rw [if_neg (fun e => hl (by rw [e]))]
    congr 1
    unfold seenLine
    rw [hg]
    rfl

end Sys2Proof.Machine
end

