-- ==== Sys2Proof/Laws/Inv.lean ====
section
/-!
SUPPORT. Each shared operation keeps the invariant State.Inv of Safety.lean.
-/
namespace Sys2Proof.Machine

/-! ## Aligned addresses -/

theorem aligned_iff (a : Word) : aligned a ↔ a.getLsbD 0 = false ∧ a.getLsbD 1 = false := by
  unfold aligned
  constructor
  · intro h
    have h0 := congrArg (fun x => x.getLsbD 0) h
    have h1 := congrArg (fun x => x.getLsbD 1) h
    simpa [BitVec.getLsbD_extractLsb'] using And.intro h0 h1
  · rintro ⟨h0, h1⟩
    apply BitVec.eq_of_getLsbD_eq
    intro i hi
    have : i = 0 ∨ i = 1 := by omega
    rcases this with rfl | rfl <;> simp_all

/-- A word address shifted to a byte address is aligned. -/
theorem aligned_shift (a : Word) : aligned (a <<< 2) := by
  rw [aligned_iff]; simp

theorem aligned_jumpTarget (b : Word) (d : BitVec 16) : aligned (jumpTarget b d) := aligned_shift _

/-- Two zero bits below a word address. -/
theorem aligned_append (a : BitVec 30) : aligned (a ++ 0#2) := by
  rw [aligned_iff, BitVec.getLsbD_append, BitVec.getLsbD_append]
  simp

/-- The trap entry and its successor. -/
theorem aligned_entry : aligned 0x00000000#32 ∧ aligned 0x00000004#32 := by
  unfold aligned; decide

/-- The reset entry and its successor. -/
theorem aligned_reset : aligned 0x00001000#32 ∧ aligned 0x00001004#32 := by
  unfold aligned; decide

/-- The next word's address. -/
theorem aligned_add4 {a : Word} (h : aligned a) : aligned (a + 4#32) := by
  have h1 := congrArg BitVec.toNat h
  unfold aligned
  apply BitVec.eq_of_toNat_eq
  simp only [BitVec.extractLsb'_toNat, BitVec.toNat_add, BitVec.toNat_ofNat, Nat.shiftRight_zero] at h1 ⊢
  omega

/-! ## Retiring -/

/-- The PSW after an instruction keeps krn the shadow of pre. -/
theorem nextPsw_krn {s : State} (h : s.psw.krn = s.psw.pre) : s.nextPsw.krn = s.nextPsw.pre := by
  unfold State.nextPsw
  split
  · exact h
  · rfl

/-- The PSW pipeline keeps the invariant. -/
theorem Inv_advancePsw {s : State} (h : s.Inv) (w : Option Word) : (s.advancePsw w).Inv := by
  have hk := nextPsw_krn h.krn
  unfold State.advancePsw
  dsimp only
  split
  · exact ⟨h.pc, h.npc, aligned_append _, aligned_append _, hk, h.mem, h.prom, h.icache, h.dcache, h.enc, h.lay⟩
  · exact ⟨h.pc, h.npc, h.pc1, h.pc2, hk, h.mem, h.prom, h.icache, h.dcache, h.enc, h.lay⟩

/-- Retiring keeps the invariant if the address after the next is aligned. -/
theorem Inv_retireWith {s : State} (h : s.Inv) (d : Did) {n : Word} (hn : aligned n) (i : IcarPhase) (w : Option Word) :
    (s.retireWith d n i w).Inv := by
  have ha := Inv_advancePsw h w
  exact ⟨h.npc, hn, ha.pc1, ha.pc2, ha.krn, ha.mem, ha.prom, ha.icache, ha.dcache, ha.enc, ha.lay⟩

theorem Inv_retire {s : State} (h : s.Inv) (d : Did) : (s.retire d).Inv := Inv_retireWith h d (aligned_add4 h.npc) _ _

theorem Inv_retireTo {s : State} (h : s.Inv) (d : Did) {n : Word} (hn : aligned n) : (s.retireTo d n).Inv :=
  Inv_retireWith h d hn _ _

theorem Inv_retireDisturbed {s : State} (h : s.Inv) (d : Did) : (s.retireDisturbed d).Inv :=
  Inv_retireWith h d (aligned_add4 h.npc) _ _

/-! ## Results, traps, halts -/

theorem Inv_result {s : State} (h : s.Inv) (n : RegField) (v : Word) : (s.result n v).Inv := by
  constructor <;> simp [h.pc, h.npc, h.pc1, h.pc2, h.krn, h.mem, h.prom, h.icache, h.dcache, h.enc, h.lay]

theorem Inv_finish {s t : State} {n : RegField} {v : Word} (h : s.Inv) (ht : finish s n v = .next t) : t.Inv := by
  simp only [finish, Host.Outcome.next.injEq] at ht
  subst ht
  exact Inv_retire (Inv_result h n v) _

theorem Inv_trapState {s : State} (h : s.Inv) (c : TrapInfo) : (trapState s c).Inv :=
  ⟨aligned_entry.1, aligned_entry.2, h.npc, h.pc, rfl, h.mem, h.prom, h.icache, h.dcache, h.enc, h.lay⟩

theorem Inv_enterTrap {s t : State} {c : TrapInfo} (h : s.Inv) (ht : enterTrap c s = .next t) : t.Inv := by
  obtain ⟨-, rfl⟩ := enterTrap_next ht
  exact Inv_trapState h c

theorem Inv_halt {s : State} (h : s.Inv) (cause : HaltCause) (ar br : Word) : (s.halt cause ar br).Inv :=
  ⟨h.pc, h.npc, h.pc1, h.pc2, h.krn, h.mem, h.prom, h.icache, h.dcache, h.enc, h.lay⟩

theorem Inv_privileged {s t : State} {r : Result} (h : s.Inv) (hr : r = .next t → t.Inv)
    (ht : privileged s r = .next t) : t.Inv := by
  rcases privileged_next ht with ⟨-, h1⟩ | ⟨-, -, rfl⟩
  · exact hr h1
  · exact Inv_trapState h _

theorem Inv_trapOrHalt {s t : State} {c : TrapInfo} {cause : HaltCause} {ra rb : RegField} (h : s.Inv)
    (ht : trapOrHalt s c cause ra rb = .next t) : t.Inv := by
  rcases trapOrHalt_next ht with ⟨-, rfl⟩ | ⟨-, -, rfl⟩
  · exact Inv_halt h _ _ _
  · exact Inv_trapState h _

/-! ## Memory controller and caches -/

theorem Inv_readRealLine {s : State} (h : s.Inv) (rom dma : Bool) (l : LineAddr) :
    (readRealLine s rom dma l).2.Inv := by
  constructor <;> simp [h.pc, h.npc, h.pc1, h.pc2, h.krn, h.mem, h.prom, h.icache, h.dcache, h.enc, h.lay]

theorem Inv_fillData {s t : State} {l : LineAddr} (h : s.Inv) (ht : s.fillData l = some t) : t.Inv := by
  unfold State.fillData at ht
  split at ht
  · simpa [← Option.some.inj ht] using h
  · split at ht
    · simp at ht
    · have hr := Inv_readRealLine h s.eff.rom false l
      rw [← Option.some.inj ht]
      exact ⟨hr.pc, hr.npc, hr.pc1, hr.pc2, hr.krn, hr.mem, hr.prom, hr.icache, mapSorted_mapSet _ _ _ hr.dcache,
        hr.enc, hr.lay⟩

theorem Inv_fillInst {s t : State} {l : LineAddr} (h : s.Inv) (ht : s.fillInst l = some t) : t.Inv := by
  unfold State.fillInst at ht
  split at ht
  · simpa [← Option.some.inj ht] using h
  · split at ht
    · simp at ht
    · have hr := Inv_readRealLine h s.psw.rom false l
      rw [← Option.some.inj ht]
      exact ⟨hr.pc, hr.npc, hr.pc1, hr.pc2, hr.krn, hr.mem, hr.prom, mapSorted_mapSet _ _ _ hr.icache, hr.dcache,
        hr.enc, hr.lay⟩

theorem Inv_putDataWord {s : State} (h : s.Inv) (rwa v : Word) : (s.putDataWord rwa v).Inv :=
  ⟨h.pc, h.npc, h.pc1, h.pc2, h.krn, h.mem, h.prom, h.icache, mapSorted_mapSet _ _ _ h.dcache, h.enc, h.lay⟩

theorem Inv_evictData {s : State} (h : s.Inv) (l : LineAddr) : (s.evictData l).Inv := by
  unfold State.evictData
  split
  · exact h
  · split
    · exact Inv_halt h _ _ _
    · refine ⟨h.pc, h.npc, h.pc1, h.pc2, h.krn, ?_, h.prom, h.icache, mapSorted_mapErase _ _ h.dcache,
        h.enc, h.lay⟩
      dsimp only
      split
      · exact Memory_wf_physWriteLine _ _ _ _ h.mem
      · exact h.mem

theorem Inv_flushFrom {s : State} (h : s.Inv) (ea : Word) : (s.flushFrom ea).Inv :=
  ⟨h.pc, h.npc, h.pc1, h.pc2, h.krn, Memory_wf_writeBack _ _ _ _ h.mem, h.prom, mapSorted_filter _ _ h.icache,
    mapSorted_filter _ _ h.dcache, h.enc, h.lay⟩

theorem Inv_resetWith {s : State} (h : s.Inv) (u : Unspecified) : (s.resetWith u).Inv :=
  ⟨aligned_reset.1, aligned_reset.2, aligned_append _, aligned_append _, rfl, h.mem, h.prom, rfl, rfl,
    h.enc, h.lay⟩

end Sys2Proof.Machine
end

