-- ==== Sys2Proof/Laws/Alu.lean ====
section
/-!
SUPPORT. What the adder, the comparisons, the field extraction and the jump target compute.
-/
namespace Sys2Proof.Machine

/-- The sum of the adder, modulo 2^32 (R267). -/
theorem adderSum_eq (x y : Word) (c : Bool) : adderSum x y c = x + y + (BitVec.ofBool c).setWidth 32 := by
  unfold adderSum adder
  rw [BitVec.setWidth_add _ _ (by omega), BitVec.setWidth_add _ _ (by omega)]
  cases c <;> simp

/-- A number plus the complement of another plus 1 is the difference (R267). -/
theorem add_not_one (x y : Word) : x + ~~~y + 1#32 = x - y := by
  rw [BitVec.sub_eq_add_neg, BitVec.neg_eq_not_add, BitVec.add_assoc]

/-- Without the carry in, the difference less 1 (R268). -/
theorem add_not (x y : Word) : x + ~~~y = x - y - 1#32 := by
  rw [← add_not_one x y]; generalize x + ~~~y = z; bv_omega

/-- The adder is exact in 33 bits. -/
theorem adder_toNat (x y : Word) (c : Bool) : (adder x y c).toNat = x.toNat + y.toNat + c.toNat := by
  unfold adder
  cases c <;> simp <;> omega

/-- The carry out says that the sum reaches 2^32. -/
theorem adderCarry_eq (x y : Word) (c : Bool) : adderCarry x y c = decide (2^32 ≤ x.toNat + y.toNat + c.toNat) := by
  unfold adderCarry
  rw [BitVec.msb_eq_decide, adder_toNat]

/-- The sum as a number. -/
theorem adderSum_toNat (x y : Word) (c : Bool) : (adderSum x y c).toNat = (x.toNat + y.toNat + c.toNat) % 2^32 := by
  unfold adderSum
  rw [BitVec.toNat_setWidth, adder_toNat]

/-- The sign that an unsigned comparison delivers (R272). -/
theorem trueSign_unsigned (x y : Word) (c : Bool) :
    trueSign x y c true = if c then decide (x.toNat < y.toNat) else decide (x.toNat ≤ y.toNat) := by
  simp only [trueSign, if_true, adderCarry_eq, BitVec.toNat_not]
  have := y.isLt
  cases c <;> simp only [Bool.toNat_true, Bool.toNat_false, if_true, Bool.false_eq_true, if_false, ← decide_not,
      decide_eq_decide] <;> omega

/-- The sign that a signed comparison delivers (R272). -/
theorem trueSign_signed (x y : Word) (c : Bool) :
    trueSign x y c false = if c then decide (x.toInt < y.toInt) else decide (x.toInt ≤ y.toInt) := by
  simp only [trueSign, Bool.false_eq_true, if_false, adderCarry_eq, BitVec.toNat_not]
  have hx := x.isLt
  have hy := y.isLt
  simp only [BitVec.msb_eq_decide, adderSum_toNat, BitVec.toNat_not, BitVec.toInt_eq_toNat_cond]
  cases c <;> simp only [Bool.toNat_true, Bool.toNat_false, if_true, Bool.false_eq_true, if_false] <;> split <;>
      (rename_i h; simp at h; simp only [decide_eq_decide]; split <;> split <;> omega)

/-- The sign bit of a comparison result (R272). -/
theorem compareResult_msb (ts : Bool) (f : Nat) : (compareResult ts f).msb = ts := by
  unfold compareResult
  rw [BitVec.msb_append]; cases ts <;> simp

/-- A field of a pair, bit by bit (R260). -/
theorem fieldOf_getLsbD (a b : Word) (sh m : Nat) (i : Nat) (hi : i < 32) :
    (fieldOf a b sh m).getLsbD i = (decide (i < m) && (a ++ b).getLsbD (sh + i)) := by
  unfold fieldOf pair
  have h64 : i < 64 := by omega
  simp only [BitVec.getLsbD_setWidth, hi, decide_true, Bool.true_and, BitVec.getLsbD_and,
      BitVec.getLsbD_ushiftRight, BitVec.getLsbD_ofNat, h64, Nat.testBit_two_pow_sub_one]
  rw [Bool.and_comm]

/-- The target of an aligned address plus a displacement in words (R255). -/
theorem jumpTarget_eq (a : Word) (d : BitVec 16) (h : aligned a) : jumpTarget a d = a + 4#32 * d.signExtend 32 := by
  unfold jumpTarget
  apply BitVec.eq_of_toNat_eq
  have := congrArg BitVec.toNat h
  simp only [BitVec.extractLsb'_toNat, BitVec.toNat_shiftLeft, BitVec.toNat_add, BitVec.toNat_mul,
      BitVec.toNat_ushiftRight, BitVec.toNat_ofNat, Nat.shiftLeft_eq, Nat.shiftRight_eq_div_pow] at this ⊢
  have := a.isLt
  omega

/-- Displacement 0 leads to the address itself. -/
theorem jumpTarget_zero {a : Word} (h : aligned a) : jumpTarget a 0#16 = a := by
  rw [aligned_iff] at h
  unfold jumpTarget
  apply BitVec.eq_of_getLsbD_eq
  intro i hi
  have hz : (0#16).signExtend 32 = 0#32 := rfl
  rw [hz, BitVec.add_zero]
  simp only [BitVec.getLsbD_shiftLeft, BitVec.getLsbD_ushiftRight, hi, decide_true, Bool.true_and]
  by_cases h2 : i < 2
  · interval_cases i
    · simp; simpa using h.1.symm
    · simp; simpa using h.2.symm
  · simp [h2]; congr 1; omega

end Sys2Proof.Machine
end

