-- ==== Sys2Proof/Laws/Codec.lean ====
section
/-!
SUPPORT. A valid layout or code is one to one: what is put is got back.
-/
namespace Sys2Proof

@[simp] theorem Places_get_standard {n : Nat} (w : BitVec n) : (Places.standard : Places n).get w = w := rfl
@[simp] theorem Places_put_standard {n : Nat} (w : BitVec n) : (Places.standard : Places n).put w = w := rfl
@[simp] theorem Codes_get_standard {k : Nat} (w : BitVec k) : (Codes.standard : Codes k).get w = w := rfl
@[simp] theorem Codes_put_standard {k : Nat} (w : BitVec k) : (Codes.standard : Codes k).put w = w := rfl

/-- The places of a valid layout are distinct. -/
theorem placed_injective {n : Nat} {p : Vector (Fin n) n} (h : (Places.placed p).valid = true) :
    Function.Injective (fun i : Fin n => p[i]) := by
  simp only [Places.valid, decide_eq_true_eq] at h
  intro i j hij
  have := (List.Nodup.getElem_inj_iff h (i := i.val) (j := j.val) (hi := by simp) (hj := by simp)).mp
    (by simpa using hij)
  exact Fin.ext this

/-- What a valid layout puts, it gets back. -/
theorem Places_get_put {n : Nat} {c : Places n} (h : c.valid = true) (v : BitVec n) : c.get (c.put v) = v := by
  cases c with
  | standard => rfl
  | placed p =>
    have inj := placed_injective h
    apply BitVec.eq_of_getLsbD_eq
    intro i hi
    simp only [Places.get, Places.put, BitVec.getLsbD_ofFnLE, hi, dite_true]
    simp only [Fin.is_lt, dite_true, Fin.eta]
    rw [Bool.eq_iff_iff, List.any_eq_true]
    constructor
    · rintro ⟨j, -, hj⟩
      simp only [Bool.and_eq_true, beq_iff_eq] at hj
      have := inj hj.1
      subst this
      exact hj.2
    · intro hv
      exact ⟨⟨i, hi⟩, List.mem_finRange _, by simpa using hv⟩

/-- What a valid layout gets, it puts back. -/
theorem Places_put_get {n : Nat} {c : Places n} (h : c.valid = true) (w : BitVec n) : c.put (c.get w) = w := by
  cases c with
  | standard => rfl
  | placed p =>
    have inj := placed_injective h
    have surj := Finite.surjective_of_injective inj
    apply BitVec.eq_of_getLsbD_eq
    intro j hj
    obtain ⟨i, hi⟩ := surj ⟨j, hj⟩
    simp only [Places.get, Places.put, BitVec.getLsbD_ofFnLE, hj, dite_true]
    rw [Bool.eq_iff_iff, List.any_eq_true]
    dsimp only at hi
    constructor
    · rintro ⟨k, -, hk⟩
      simp only [Bool.and_eq_true, beq_iff_eq, Fin.is_lt, dite_true, Fin.eta] at hk
      rw [hk.1] at hk
      exact hk.2
    · intro hw
      exact ⟨i, List.mem_finRange _, by simp [hi, hw]⟩

/-- What a valid code puts, it gets back. -/
theorem Codes_get_put {k : Nat} {c : Codes k} (h : c.valid = true) (v : BitVec k) : c.get (c.put v) = v := by
  cases c with
  | standard => rfl
  | coded t =>
    simp only [Codes.valid, decide_eq_true_eq] at h
    have := List.Nodup.idxOf_getElem h v.toNat (by simpa using v.isLt)
    rw [Vector.getElem_toList] at this
    simp only [Codes.get, Codes.put, this, BitVec.ofNat_toNat, BitVec.setWidth_eq]

/-! ## The parts of an instruction word -/

theorem low_append {m n : Nat} (a : BitVec m) (b : BitVec n) : (a ++ b).extractLsb' 0 n = b :=
  BitVec.extractLsb'_append_eq_right

theorem high_append {m n : Nat} (a : BitVec m) (b : BitVec n) : (a ++ b).extractLsb' n m = a :=
  BitVec.extractLsb'_append_eq_left

/-- A vector is its high part before its low part. -/
theorem append_parts {m n : Nat} (x : BitVec (m + n)) : x.extractLsb' n m ++ x.extractLsb' 0 n = x := by
  apply BitVec.eq_of_getLsbD_eq
  intro i hi
  rw [BitVec.getLsbD_append]
  split <;> rename_i h
  · simp [h]
  · rw [BitVec.getLsbD_extractLsb']
    have : i - n < m := by omega
    simp only [this, decide_true, Bool.true_and]
    congr 1; omega

/-! ## Words of which only the low bits have lost their places -/

@[simp] theorem Places_getBelow_standard {n k : Nat} (w : BitVec (n + k)) :
    (Places.standard : Places k).getBelow w = w := append_parts w
@[simp] theorem Places_putBelow_standard {n k : Nat} (v : BitVec (n + k)) :
    (Places.standard : Places k).putBelow v = v := append_parts v

/-- The low bits of the stored word. -/
theorem Places_putBelow_low {n k : Nat} (c : Places k) (v : BitVec (n + k)) :
    (c.putBelow v).extractLsb' 0 k = c.put (v.extractLsb' 0 k) := low_append _ _

/-- The bits above keep their places in the stored word. -/
theorem Places_putBelow_high {n k : Nat} (c : Places k) (v : BitVec (n + k)) :
    (c.putBelow v).extractLsb' k n = v.extractLsb' k n := high_append _ _

/-- The low bits of the default image. -/
theorem Places_getBelow_low {n k : Nat} (c : Places k) (w : BitVec (n + k)) :
    (c.getBelow w).extractLsb' 0 k = c.get (w.extractLsb' 0 k) := low_append _ _

/-- The bits above keep their places in the default image. -/
theorem Places_getBelow_high {n k : Nat} (c : Places k) (w : BitVec (n + k)) :
    (c.getBelow w).extractLsb' k n = w.extractLsb' k n := high_append _ _

/-- A bit above keeps its place in the stored word. -/
theorem Places_putBelow_getLsbD {n k i : Nat} (c : Places k) (v : BitVec (n + k)) (h : k ≤ i) :
    (c.putBelow v).getLsbD i = v.getLsbD i := by
  have := congrArg (·.getLsbD (i - k)) (Places_putBelow_high c v)
  by_cases hi : i < n + k
  · simpa [show i - k < n by omega, show k + (i - k) = i by omega] using this
  · rw [BitVec.getLsbD_of_ge _ _ (by omega), BitVec.getLsbD_of_ge _ _ (by omega)]

/-- A bit above keeps its place in the default image. -/
theorem Places_getBelow_getLsbD {n k i : Nat} (c : Places k) (w : BitVec (n + k)) (h : k ≤ i) :
    (c.getBelow w).getLsbD i = w.getLsbD i := by
  have := congrArg (·.getLsbD (i - k)) (Places_getBelow_high c w)
  by_cases hi : i < n + k
  · simpa [show i - k < n by omega, show k + (i - k) = i by omega] using this
  · rw [BitVec.getLsbD_of_ge _ _ (by omega), BitVec.getLsbD_of_ge _ _ (by omega)]

/-- What a valid layout puts below, it gets back. -/
theorem Places_getBelow_putBelow {n k : Nat} {c : Places k} (h : c.valid = true) (v : BitVec (n + k)) :
    c.getBelow (c.putBelow v) = v := by
  unfold Places.getBelow
  rw [Places_putBelow_high, Places_putBelow_low, Places_get_put h]
  exact append_parts v

theorem mapMisc_mapMisc (f g : BitVec 10 → BitVec 10) (h : ∀ m, f (g m) = m) (x : BitVec 16) :
    mapMisc f (mapMisc g x) = x := by
  unfold mapMisc
  rw [low_append, high_append, h]
  exact append_parts (m := 6) (n := 10) x

theorem mapSpecialMisc_mapSpecialMisc (f g : BitVec 6 → BitVec 6) (h : ∀ m, f (g m) = m) (x : BitVec 16) :
    mapSpecialMisc f (mapSpecialMisc g x) = x := by
  by_cases hc : cacheReadFunction x = true
  · have h1 : mapSpecialMisc g x = x.extractLsb' 6 10 ++ g (x.extractLsb' 0 6) := by simp [mapSpecialMisc, hc]
    have h2 : cacheReadFunction (x.extractLsb' 6 10 ++ g (x.extractLsb' 0 6)) = true := by
      unfold cacheReadFunction at hc ⊢
      rwa [high_append]
    rw [h1, mapSpecialMisc, if_pos h2, low_append, high_append, h]
    exact append_parts (m := 10) (n := 6) x
  · rw [mapSpecialMisc, mapSpecialMisc, if_neg hc, if_neg hc]

theorem sh_append (a : BitVec 3) (b : BitVec 7) : (a ++ b).getLsbD 8 = a.getLsbD 1 := by
  rw [BitVec.getLsbD_append]; rfl

theorem mapFunction_mapFunction (f f' g g' : BitVec 7 → BitVec 7) (h : ∀ m, f (f' m) = m) (h' : ∀ m, g (g' m) = m)
    (x : BitVec 10) : mapFunction f g (mapFunction f' g' x) = x := by
  have h1 : ∀ y : BitVec 7, (x.extractLsb' 7 3 ++ y).getLsbD 8 = x.getLsbD 8 := by
    intro y
    rw [sh_append, BitVec.getLsbD_extractLsb']
    rfl
  unfold mapFunction
  rw [h1, high_append, low_append]
  split
  · rw [h]; exact append_parts (m := 3) (n := 7) x
  · rw [h']; exact append_parts (m := 3) (n := 7) x

/-- The parts of valid parameters. -/
theorem Encoding_valid_parts {e : Encoding} (h : e.valid = true) :
    e.opc.valid = true ∧ e.formatR.valid = true ∧ e.aluBits.valid = true ∧ e.aluFunctions.valid = true ∧
    e.extractCodec.valid = true ∧ e.vextCodec.valid = true ∧ e.copBits.valid = true ∧ e.trapLit.valid = true ∧
    e.specialMisc.valid = true ∧ e.cjumpLow.valid = true := by
  simp only [Encoding.valid, Bool.and_eq_true] at h
  obtain ⟨⟨⟨⟨⟨⟨⟨⟨⟨⟨h1, h2⟩, h3⟩, h4⟩, h5⟩, h6⟩, h7⟩, h8⟩, h9⟩, h10⟩, -⟩ := h
  exact ⟨h1, h2, h3, h4, h5, h6, h7, h8, h9, h10⟩

theorem lowGet_other {e : Encoding} {op : BitVec 4} (h1 : op ≠ 0x1#4) (h9 : op ≠ 0x9#4) (hA : op ≠ 0xA#4)
    (hB : op ≠ 0xB#4) (x : BitVec 16) : e.lowGet op x = x := by
  unfold Encoding.lowGet
  split <;> first | rfl | bv_omega

theorem lowPut_other {e : Encoding} {op : BitVec 4} (h1 : op ≠ 0x1#4) (h9 : op ≠ 0x9#4) (hA : op ≠ 0xA#4)
    (hB : op ≠ 0xB#4) (x : BitVec 16) : e.lowPut op x = x := by
  unfold Encoding.lowPut
  split <;> first | rfl | bv_omega

theorem lowGet_lowPut {e : Encoding} (h : e.valid = true) (op : BitVec 4) (x : BitVec 16) :
    e.lowGet op (e.lowPut op x) = x := by
  obtain ⟨-, hr, ha, hf, hx, hv, hc, -, hs, -⟩ := Encoding_valid_parts h
  by_cases h1 : op = 0x1#4
  · subst h1
    exact mapSpecialMisc_mapSpecialMisc _ _ (Codes_get_put hs) x
  by_cases h9 : op = 0x9#4
  · subst h9
    show mapMisc e.extractCodec.get (e.formatR.get (e.formatR.put (mapMisc e.extractCodec.put x))) = x
    rw [Places_get_put hr]; exact mapMisc_mapMisc _ _ (Codes_get_put hx) x
  by_cases hA : op = 0xA#4
  · subst hA
    show mapMisc (fun m => mapFunction e.vextCodec.get e.aluFunctions.get (e.aluBits.get m)) (e.formatR.get
      (e.formatR.put (mapMisc (fun m => e.aluBits.put (mapFunction e.vextCodec.put e.aluFunctions.put m)) x))) = x
    rw [Places_get_put hr]
    refine mapMisc_mapMisc _ _ (fun m => ?_) x
    rw [Places_get_put ha]; exact mapFunction_mapFunction _ _ _ _ (Codes_get_put hv) (Codes_get_put hf) m
  by_cases hB : op = 0xB#4
  · subst hB
    show mapMisc e.copBits.get (e.formatR.get (e.formatR.put (mapMisc e.copBits.put x))) = x
    rw [Places_get_put hr]; exact mapMisc_mapMisc _ _ (Places_get_put hc) x
  · rw [lowPut_other h1 h9 hA hB, lowGet_other h1 h9 hA hB]

theorem opField_append (op : BitVec 4) (b : BitVec 28) : opField (op ++ b) = op := high_append op b

theorem dispField_append (op : BitVec 4) (r : BitVec 12) (x : BitVec 16) : dispField (op ++ (r ++ x)) = x := by
  apply BitVec.eq_of_getLsbD_eq
  intro i hi
  simp only [dispField, BitVec.getLsbD_extractLsb', BitVec.getLsbD_append, hi, decide_true, Bool.true_and]
  simp (disch := omega) only [if_pos]
  congr 1; omega

theorem middle_append (op : BitVec 4) (r : BitVec 12) (x : BitVec 16) : (op ++ (r ++ x)).extractLsb' 16 12 = r := by
  apply BitVec.eq_of_getLsbD_eq
  intro i hi
  simp only [BitVec.getLsbD_extractLsb', BitVec.getLsbD_append, hi, decide_true, Bool.true_and]
  simp (disch := omega) only [if_pos, if_neg]
  congr 1; omega

/-- A word is its operation, its two register fields and its low half. -/
theorem word_parts (w : Word) : opField w ++ (w.extractLsb' 16 12 ++ dispField w) = w := by
  apply BitVec.eq_of_getLsbD_eq
  intro i hi
  simp only [opField, dispField, BitVec.getLsbD_append, BitVec.getLsbD_extractLsb']
  split
  · split
    · rename_i h1 h2; simp [h2]
    · rename_i h1 h2
      have : i - 16 < 12 := by omega
      simp only [this, decide_true, Bool.true_and]; congr 1; omega
  · rename_i h1
    have : i - (12 + 16) < 4 := by omega
    simp only [this, decide_true, Bool.true_and]; congr 1; omega

theorem word_parts28 (w : Word) : opField w ++ w.extractLsb' 0 28 = w := append_parts (m := 4) (n := 28) w

/-- A stored word comes back in the default arrangement, under any valid parameters. -/
theorem canonical_stored {e : Encoding} (h : e.valid = true) (v : Word) : e.canonical (e.stored v) = v := by
  obtain ⟨ho, -, -, -, -, -, -, ht, -, -⟩ := Encoding_valid_parts h
  by_cases hc : opField v = 0xC#4
  · have h1 : e.stored v = e.opc.put (opField v) ++ e.trapLit.put (v.extractLsb' 0 28) := by
      simp only [Encoding.stored, if_pos hc]
    have h2 : e.opc.get (opField (e.stored v)) = opField v := by rw [h1, opField_append, Codes_get_put ho]
    have h3 : e.canonical (e.stored v) = opField v ++ e.trapLit.get ((e.stored v).extractLsb' 0 28) := by
      unfold Encoding.canonical; dsimp only; rw [h2, if_pos hc]
    rw [h3, h1, low_append, Places_get_put ht, word_parts28]
  · have h1 : e.stored v =
        e.opc.put (opField v) ++ (v.extractLsb' 16 12 ++ e.lowPut (opField v) (dispField v)) := by
      simp only [Encoding.stored, if_neg hc]
    have h2 : e.opc.get (opField (e.stored v)) = opField v := by rw [h1, opField_append, Codes_get_put ho]
    have h3 : e.canonical (e.stored v) =
        opField v ++ ((e.stored v).extractLsb' 16 12 ++ e.lowGet (opField v) (dispField (e.stored v))) := by
      unfold Encoding.canonical; dsimp only; rw [h2, if_neg hc]
    rw [h3, h1, middle_append, dispField_append, lowGet_lowPut h, word_parts]

theorem mapMisc_id (x : BitVec 16) : mapMisc (fun m => m) x = x := append_parts (m := 6) (n := 10) x

theorem mapFunction_id (x : BitVec 10) : mapFunction (fun m => m) (fun m => m) x = x := by
  unfold mapFunction
  rw [ite_self]
  exact append_parts (m := 3) (n := 7) x

theorem mapSpecialMisc_id (x : BitVec 16) : mapSpecialMisc (fun m => m) x = x := by
  unfold mapSpecialMisc
  split
  · exact append_parts (m := 10) (n := 6) x
  · rfl

/-- Under the defaults the low half stays. -/
theorem lowGet_standard (op : BitVec 4) (x : BitVec 16) : Encoding.standard.lowGet op x = x := by
  unfold Encoding.lowGet
  split
  · exact mapSpecialMisc_id x
  · exact mapMisc_id x
  · exact (congrArg (fun f => mapMisc f x) (funext mapFunction_id)).trans (mapMisc_id x)
  · exact mapMisc_id x
  · rfl

/-- Under the defaults a stored word is in the default arrangement. -/
@[simp] theorem canonical_standard (w : Word) : Encoding.standard.canonical w = w := by
  have h1 : Encoding.standard.opc.get (opField w) = opField w := rfl
  have h2 : ∀ x, Encoding.standard.trapLit.get x = x := fun _ => rfl
  unfold Encoding.canonical
  dsimp only
  rw [h1, lowGet_standard, h2]
  split
  · exact word_parts28 w
  · exact word_parts w

/-- What the parameters of U9 and U24 settle concerns conditional jumps and the ALU alone. -/
theorem settle_other {e : Encoding} {v : Word} (h8 : opField v ≠ 0x8#4) (hA : opField v ≠ 0xA#4) : e.settle v = v := by
  simp [Encoding.settle, h8, hA]

/-- An ALU word in which sb does not stand alone is as it is (U24). -/
theorem settle_alu {e : Encoding} {v : Word} (h8 : opField v ≠ 0x8#4)
    (hs : (miscField v).extractLsb' 7 2 ≠ 0b01#2) : e.settle v = v := by
  simp [Encoding.settle, h8, hs]

/-- A word is its fields in format M (R132). -/
theorem packM_fields (v : Word) : packM (opField v) (raField v) (rbField v) (dispField v) = v := by
  apply BitVec.eq_of_getLsbD_eq
  intro i hi
  simp only [packM, opField, raField, rbField, dispField, BitVec.getLsbD_append, BitVec.getLsbD_extractLsb']
  split
  · rename_i h1; simp [h1]
  · split
    · rename_i h1 h2; simp only [h2, decide_true, Bool.true_and]; congr 1; omega
    · split
      · rename_i h1 h2 h3; simp only [h3, decide_true, Bool.true_and]; congr 1; omega
      · rename_i h1 h2 h3
        have : i - 16 - 6 - 6 < 4 := by omega
        simp only [this, decide_true, Bool.true_and]; congr 1; omega

/-- Under the defaults nothing is to be settled. -/
@[simp] theorem settle_standard (v : Word) : Encoding.standard.settle v = v := by
  unfold Encoding.settle
  split
  · rename_i h
    rw [← h]
    exact packM_fields v
  · simp [Encoding.standard]

/-- Under the defaults the decoder reads a stored word as it is. -/
@[simp] theorem read_standard (w : Word) : Encoding.standard.read w = w := by simp [Encoding.read]

end Sys2Proof
end

