-- ==== Sys2Proof/Laws/Decode.lean ====
section
/-!
SUPPORT. The fields of a packed word (R132, R133), and the decoder on the bytes of a word.
-/
namespace Sys2Proof

@[simp] theorem opField_packM (op : BitVec 4) (ra rb : RegField) (disp : BitVec 16) :
    opField (packM op ra rb disp) = op := by
  apply BitVec.eq_of_getLsbD_eq
  intro i hi
  simp only [opField, packM, BitVec.getLsbD_extractLsb', BitVec.getLsbD_append, hi, decide_true, Bool.true_and]
  simp (disch := omega) only [if_neg]
  congr 1; omega

@[simp] theorem raField_packM (op : BitVec 4) (ra rb : RegField) (disp : BitVec 16) :
    raField (packM op ra rb disp) = ra := by
  apply BitVec.eq_of_getLsbD_eq
  intro i hi
  simp only [raField, packM, BitVec.getLsbD_extractLsb', BitVec.getLsbD_append, hi, decide_true, Bool.true_and]
  simp (disch := omega) only [if_neg, if_pos]
  congr 1; omega

@[simp] theorem rbField_packM (op : BitVec 4) (ra rb : RegField) (disp : BitVec 16) :
    rbField (packM op ra rb disp) = rb := by
  apply BitVec.eq_of_getLsbD_eq
  intro i hi
  simp only [rbField, packM, BitVec.getLsbD_extractLsb', BitVec.getLsbD_append, hi, decide_true, Bool.true_and]
  simp (disch := omega) only [if_neg, if_pos]
  congr 1; omega

@[simp] theorem dispField_packM (op : BitVec 4) (ra rb : RegField) (disp : BitVec 16) :
    dispField (packM op ra rb disp) = disp := by
  apply BitVec.eq_of_getLsbD_eq
  intro i hi
  simp only [dispField, packM, BitVec.getLsbD_extractLsb', BitVec.getLsbD_append, hi, decide_true, Bool.true_and]
  simp (disch := omega) only [if_neg, if_pos]
  congr 1; omega

@[simp] theorem opField_packR (op : BitVec 4) (ra rb rc : RegField) (misc : BitVec 10) :
    opField (packR op ra rb rc misc) = op := by
  apply BitVec.eq_of_getLsbD_eq
  intro i hi
  simp only [opField, packR, BitVec.getLsbD_extractLsb', BitVec.getLsbD_append, hi, decide_true, Bool.true_and]
  simp (disch := omega) only [if_neg]
  congr 1; omega

@[simp] theorem raField_packR (op : BitVec 4) (ra rb rc : RegField) (misc : BitVec 10) :
    raField (packR op ra rb rc misc) = ra := by
  apply BitVec.eq_of_getLsbD_eq
  intro i hi
  simp only [raField, packR, BitVec.getLsbD_extractLsb', BitVec.getLsbD_append, hi, decide_true, Bool.true_and]
  simp (disch := omega) only [if_neg, if_pos]
  congr 1; omega

@[simp] theorem rbField_packR (op : BitVec 4) (ra rb rc : RegField) (misc : BitVec 10) :
    rbField (packR op ra rb rc misc) = rb := by
  apply BitVec.eq_of_getLsbD_eq
  intro i hi
  simp only [rbField, packR, BitVec.getLsbD_extractLsb', BitVec.getLsbD_append, hi, decide_true, Bool.true_and]
  simp (disch := omega) only [if_neg, if_pos]
  congr 1; omega

@[simp] theorem rcField_packR (op : BitVec 4) (ra rb rc : RegField) (misc : BitVec 10) :
    rcField (packR op ra rb rc misc) = rc := by
  apply BitVec.eq_of_getLsbD_eq
  intro i hi
  simp only [rcField, packR, BitVec.getLsbD_extractLsb', BitVec.getLsbD_append, hi, decide_true, Bool.true_and]
  simp (disch := omega) only [if_neg, if_pos]
  congr 1; omega

@[simp] theorem miscField_packR (op : BitVec 4) (ra rb rc : RegField) (misc : BitVec 10) :
    miscField (packR op ra rb rc misc) = misc := by
  apply BitVec.eq_of_getLsbD_eq
  intro i hi
  simp only [miscField, packR, BitVec.getLsbD_extractLsb', BitVec.getLsbD_append, hi, decide_true, Bool.true_and]
  simp (disch := omega) only [if_neg, if_pos]
  congr 1; omega

/-- The literal of a trap is the low end of the displacement field (R138). -/
@[simp] theorem literalField_packM (op : BitVec 4) (ra rb : RegField) (lit : BitVec 6) :
    literalField (packM op ra rb (0#10 ++ lit)) = lit := by
  apply BitVec.eq_of_getLsbD_eq
  intro i hi
  simp only [literalField, packM, BitVec.getLsbD_extractLsb', BitVec.getLsbD_append, hi, decide_true, Bool.true_and]
  simp (disch := omega) only [if_neg, if_pos]
  congr 1; omega

/-- The decoder on the four bytes of a word (R81). -/
theorem decodeWith_bytesOfWord (e : Encoding) (w : Word) (rest : List Byte) :
    decodeWith e (bytesOfWord w ++ rest) =
      match decodeWord (e.read w) with
      | .instr i => .ok i
      | .undescribed u => .error (.undescribed u) := by
  cases h : decodeWord (e.read w) <;>
    simp only [decodeWith, bytesOfWord, List.cons_append, List.nil_append, Machine.wordOfBytes_bytes, h]

/-! ## What the parameters of U9 and U24 leave as it is -/

/-- The eight listed codes keep their relation (R143, U9). -/
theorem settle_listed {c : CjumpLowBits} (h : c.valid = true) (cond : BitVec 6) (hc : cond.extractLsb' 0 3 = 0#3) :
    c.settle cond = cond := by
  cases c with
  | ignored => rfl
  | related t =>
    simp only [CjumpLowBits.valid, decide_eq_true_eq] at h
    have hcond : ∀ x : BitVec 6, x.extractLsb' 0 3 = 0#3 →
        x.toNat = 8 * (x.toNat / 8) ∧ BitVec.ofNat 3 (x.toNat / 8) ++ 0#3 = x := by decide
    have hk := h ⟨cond.toNat / 8, by have := cond.isLt; omega⟩
    have h1 := (hcond cond hc).1
    have h2 := (hcond cond hc).2
    have h3 : t[cond.toNat]'(cond.isLt) = BitVec.ofNat 3 (cond.toNat / 8) := by
      rw [← hk]
      exact getElem_congr_idx h1
    simp only [CjumpLowBits.settle, h3, hc]
    exact h2

/-- A conditional jump with one of the eight listed codes keeps it (R143, U9). -/
theorem settle_encodeCjump {e : Encoding} (h : e.valid = true) (ra : RegField) (cond : BitVec 6) (disp : BitVec 16)
    (hc : cond.extractLsb' 0 3 = 0#3) : e.settle (encodeCjump ra cond disp) = encodeCjump ra cond disp := by
  obtain ⟨-, -, -, -, -, -, -, -, -, hv⟩ := Encoding_valid_parts h
  have hop : opField (encodeCjump ra cond disp) = 0x8#4 := opField_packM _ _ _ _
  have hrb : rbField (encodeCjump ra cond disp) = cond := rbField_packM _ _ _ _
  unfold Encoding.settle
  rw [if_pos hop, hrb, settle_listed hv cond hc]
  simp [encodeCjump]

/-- An ALU function without sh and sb is as it is (U24). -/
theorem settle_encodeAlu {e : Encoding} (lit : Bool) (ra rb rc : RegField) (fn : BitVec 7) :
    e.settle (encodeAlu lit ra rb rc fn) = encodeAlu lit ra rb rc fn := by
  refine settle_alu ?_ ?_
  · simp [encodeAlu]
  · simp only [encodeAlu, miscField_packR]
    revert fn
    cases lit <;> decide +kernel

/-- The words of format M but conditional jumps are as they are. -/
theorem settle_packM {e : Encoding} (op : BitVec 4) (ra rb : RegField) (disp : BitVec 16) (h8 : op ≠ 0x8#4)
    (hA : op ≠ 0xA#4) : e.settle (packM op ra rb disp) = packM op ra rb disp :=
  settle_other (by simpa using h8) (by simpa using hA)

/-- The words of format R but the ALU's are as they are. -/
theorem settle_packR {e : Encoding} (op : BitVec 4) (ra rb rc : RegField) (misc : BitVec 10) (h8 : op ≠ 0x8#4)
    (hA : op ≠ 0xA#4) : e.settle (packR op ra rb rc misc) = packR op ra rb rc misc :=
  settle_other (by simpa using h8) (by simpa using hA)

/-- The extracts of the ALU are as they are: sh is set (U24). -/
theorem settle_aluSh {e : Encoding} (ra rb rc : RegField) (misc : BitVec 10) (h : misc.extractLsb' 7 2 ≠ 0b01#2) :
    e.settle (packR 0xA#4 ra rb rc misc) = packR 0xA#4 ra rb rc misc := by
  refine settle_alu ?_ ?_
  · simp
  · simpa using h

/-- What the encoder writes is as it is. -/
theorem settle_encode {e : Encoding} (h : e.valid = true) (i : Instr) : e.settle (encode i) = encode i := by
  cases i <;> simp only [encode, encodeSpecial, encodeCop]
  all_goals first
    | rw [settle_packM _ _ _ _ (by decide) (by decide)]
    | rw [settle_encodeAlu]
    | rw [settle_encodeCjump h _ _ _ (by decide)]
    | rw [settle_packR _ _ _ _ _ (by decide) (by decide)]
    | skip
  · rename_i lit ra rb rc size
    refine settle_aluSh _ _ _ _ ?_
    generalize BitVec.ofNat 5 size = n
    revert lit n
    decide +kernel
  · rename_i lit ra rb rc inv size
    refine settle_aluSh _ _ _ _ ?_
    generalize BitVec.ofNat 5 size = n
    revert lit inv n
    decide +kernel

/-- The decoder on the stored word of an instruction, under given parameters (R131). -/
theorem decodeWith_encodeWith {e : Encoding} (h : e.valid = true) (i : Instr) (rest : List Byte) :
    decodeWith e (bytesOfWord (encodeWith e i) ++ rest) =
      match decodeWord (encode i) with
      | .instr i => .ok i
      | .undescribed u => .error (.undescribed u) := by
  rw [decodeWith_bytesOfWord, encodeWith, Encoding.read, canonical_stored h, settle_encode h]

/-! ## The encoders of each family, decoded -/

/-- A special decodes by its function field (R135). -/
theorem decodeWord_encodeSpecial (ra rb : RegField) (fn : BitVec 16) :
    decodeWord (encodeSpecial ra rb fn) = decodeSpecial ra rb fn := by
  simp [decodeWord, encodeSpecial]

/-- A conditional jump decodes by its condition (R143). -/
theorem decodeWord_encodeCjump (ra : RegField) (cond : BitVec 6) (disp : BitVec 16) :
    decodeWord (encodeCjump ra cond disp) = decodeCjump ra cond disp := by
  simp [decodeWord, encodeCjump]

/-- The fields of the miscellaneous bits of an ALU instruction with sh = sb = 0 (R140). -/
theorem aluMisc_fields (lit : Bool) (fn : BitVec 7) :
    (BitVec.ofBool lit ++ (0#2 ++ fn)).getLsbD 9 = lit ∧ (BitVec.ofBool lit ++ (0#2 ++ fn)).getLsbD 8 = false ∧
    (BitVec.ofBool lit ++ (0#2 ++ fn)).extractLsb' 0 7 = fn := by
  revert lit fn
  decide +kernel

/-- An ALU instruction decodes by its function (R140). -/
theorem decodeWord_encodeAlu (lit : Bool) (ra rb rc : RegField) (fn : BitVec 7) :
    decodeWord (encodeAlu lit ra rb rc fn) = decodeAluFunction lit ra rb rc fn := by
  obtain ⟨h1, h2, h3⟩ := aluMisc_fields lit fn
  simp only [decodeWord, encodeAlu, opField_packR, raField_packR, rbField_packR, rcField_packR, miscField_packR]
  simp only [decodeAlu, h1, h2, h3]
  rfl

/-- The fields of the miscellaneous bits of a coprocessor instruction (R142). -/
theorem copMisc_fields (r : CopResult) (code : BitVec 7) :
    copResultOf ((copResultCode r ++ code).extractLsb' 7 3) = r ∧ (copResultCode r ++ code).extractLsb' 0 7 = code := by
  revert code
  cases r <;> decide +kernel

/-- The fields of the miscellaneous bits of a variable extract (R141). -/
theorem vextMisc_fields (lit : Bool) (b : BitVec 5) :
    (BitVec.ofBool lit ++ (0b1000#4 ++ b)).getLsbD 9 = lit ∧ (BitVec.ofBool lit ++ (0b1000#4 ++ b)).getLsbD 8 = true ∧
    (BitVec.ofBool lit ++ (0b1000#4 ++ b)).getLsbD 7 = false ∧
    ((BitVec.ofBool lit ++ (0b1000#4 ++ b)).extractLsb' 0 7).extractLsb' 5 2 = 0#2 ∧
    ((BitVec.ofBool lit ++ (0b1000#4 ++ b)).extractLsb' 0 7).extractLsb' 0 5 = b := by
  revert lit b
  decide +kernel

/-- A size of 1 to 32 comes back from its five bits (R139, R141). -/
theorem countOf_ofNat (n : Nat) (h : sizeOk n = true) : countOf (BitVec.ofNat 5 n) = n := by
  simp only [sizeOk, Bool.and_eq_true, decide_eq_true_eq] at h
  have key : ∀ n, n ≤ 32 → 1 ≤ n → countOf (BitVec.ofNat 5 n) = n := by decide
  exact key n h.2 h.1

end Sys2Proof
end

