-- ==== Sys2Proof/Laws/Float.lean ====
section
/-!
SUPPORT. The floating point operations of Machine/Float.lean against rational numbers: what the exact operations
compute, and what rounding to a number of bits does.
-/
namespace Sys2Proof.Machine

/-- The number that sign, mantissa and exponent stand for. -/
def exactRational (x : Exact) : ℚ := (if x.sign then -1 else 1) * (x.mant : ℚ) * (2 : ℚ) ^ x.exp

theorem two_zpow_pos (e : ℤ) : (0 : ℚ) < (2 : ℚ) ^ e := zpow_pos (by norm_num) e

theorem two_zpow_add (a b : ℤ) : (2 : ℚ) ^ (a + b) = (2 : ℚ) ^ a * (2 : ℚ) ^ b := zpow_add₀ (by norm_num) a b

theorem two_zpow_natCast (n : Nat) : (2 : ℚ) ^ (n : ℤ) = ((2 ^ n : Nat) : ℚ) := by
  rw [zpow_natCast]; push_cast; rfl

theorem accumulatorValue_rational (ac : Accumulator) : exactRational (accumulatorValue ac) = accumulatorRat ac := rfl

theorem operandF_rational (a : Word) : exactRational (operandF a) = fRat a := by
  unfold operandF fRat exactRational
  split <;> simp

theorem operandG_rational (x : Dword) : exactRational (operandG x) = gRat x := by
  unfold operandG gRat exactRational
  split <;> simp

theorem floatOperand_rational (m : FloatFormat) (a b : Word) :
    exactRational (floatOperand m a b) = if m.inputG then gRat (a ++ b) else fRat a := by
  unfold floatOperand
  cases m.inputG
  · exact operandF_rational a
  · exact operandG_rational (a ++ b)

theorem exactNeg_rational (x : Exact) : exactRational (exactNeg x) = -exactRational x := by
  unfold exactNeg exactRational
  cases x.sign <;> simp

theorem exactMul_rational (x y : Exact) : exactRational (exactMul x y) = exactRational x * exactRational y := by
  unfold exactMul exactRational
  simp only [two_zpow_add]
  push_cast
  cases x.sign <;> cases y.sign <;> simp <;> ring

theorem scaledTo_rational (x : Exact) (e : ℤ) (h : e ≤ x.exp) : (scaledTo x e : ℚ) * (2 : ℚ) ^ e = exactRational x := by
  have h1 : (((2 ^ (x.exp - e).toNat : Nat) : ℤ) : ℚ) = (2 : ℚ) ^ (x.exp - e) := by
    have : ((x.exp - e).toNat : ℤ) = x.exp - e := Int.toNat_of_nonneg (by omega)
    rw [← this, two_zpow_natCast]; push_cast; rfl
  have h2 : (2 : ℚ) ^ x.exp = (2 : ℚ) ^ (x.exp - e) * (2 : ℚ) ^ e := by rw [← two_zpow_add]; congr 1; omega
  unfold scaledTo exactRational
  rw [h2, ← h1]
  cases x.sign <;> simp <;> ring

/-- A sum of integers by sign and magnitude. -/
theorem signed_natAbs (m n : ℤ) (k : ℚ) :
    (if decide (m + n < 0) then -1 else 1) * ((m + n).natAbs : ℚ) * k = (m : ℚ) * k + (n : ℚ) * k := by
  rw [← add_mul]
  congr 1
  by_cases h : m + n < 0
  · have : ((m + n).natAbs : ℚ) = -((m + n : ℤ) : ℚ) := by
      rw [Nat.cast_natAbs, abs_of_neg h]; push_cast; ring
    simp [h, this]
  · have : ((m + n).natAbs : ℚ) = ((m + n : ℤ) : ℚ) := by
      rw [Nat.cast_natAbs, abs_of_nonneg (by omega)]
    simp [h, this]

theorem exactAdd_rational (x y : Exact) : exactRational (exactAdd x y) = exactRational x + exactRational y := by
  rw [← scaledTo_rational x (min x.exp y.exp) (min_le_left _ _),
    ← scaledTo_rational y (min x.exp y.exp) (min_le_right _ _)]
  exact signed_natAbs _ _ _

/-- Rounding a magnitude (R310, R311): `z` is the exact magnitude, `mant * 2^exp` or, where it was cut, less than one
unit more. The mantissa has exactly `p` bits; the result is less than one unit of it away from `z`, and is `z` where
`p` bits represent it. -/
theorem roundMagnitude_spec {p mant : Nat} {exp : ℤ} {cut up : Bool} {z : ℚ} (hp : 0 < p) (hm : 0 < mant)
    (hexact : cut = false → z = (mant : ℚ) * (2 : ℚ) ^ exp)
    (hcut : cut = true → p < Nat.log2 mant + 1 ∧ (mant : ℚ) * (2 : ℚ) ^ exp < z ∧
      z < ((mant : ℚ) + 1) * (2 : ℚ) ^ exp) :
    2 ^ (p - 1) ≤ (roundMagnitude p mant exp cut up).1 ∧ (roundMagnitude p mant exp cut up).1 < 2 ^ p ∧
    |((roundMagnitude p mant exp cut up).1 : ℚ) * (2 : ℚ) ^ ((roundMagnitude p mant exp cut up).2 - p) - z| <
      (2 : ℚ) ^ ((roundMagnitude p mant exp cut up).2 - p) ∧
    (representable p z →
      ((roundMagnitude p mant exp cut up).1 : ℚ) * (2 : ℚ) ^ ((roundMagnitude p mant exp cut up).2 - p) = z) := by
  have hlo : 2 ^ Nat.log2 mant ≤ mant := Nat.log2_self_le (by omega)
  have hhi : mant < 2 ^ (Nat.log2 mant + 1) := Nat.lt_log2_self
  unfold roundMagnitude
  generalize hlen : Nat.log2 mant + 1 = len at *
  have hlo' : 2 ^ (len - 1) ≤ mant := by rw [← hlen]; exact hlo
  simp only
  by_cases hle : len ≤ p
  · have hc : cut = false := by
      cases cut
      · rfl
      · have := (hcut rfl).1; omega
    rw [if_pos hle]
    have e1 : (((mant * 2 ^ (p - len) : Nat) : ℚ)) * (2 : ℚ) ^ (exp + len - p) = z := by
      have h2 : (2 : ℚ) ^ exp = (2 : ℚ) ^ (((p - len : Nat)) : ℤ) * (2 : ℚ) ^ (exp + len - p) := by
        rw [← two_zpow_add]; congr 1; omega
      rw [hexact hc, h2, two_zpow_natCast]; push_cast; ring
    refine ⟨?_, ?_, ?_, fun _ => e1⟩
    · calc 2 ^ (p - 1) = 2 ^ (len - 1) * 2 ^ (p - len) := by rw [← pow_add]; congr 1; omega
        _ ≤ mant * 2 ^ (p - len) := Nat.mul_le_mul_right _ hlo'
    · calc mant * 2 ^ (p - len) < 2 ^ len * 2 ^ (p - len) := Nat.mul_lt_mul_of_pos_right hhi (by positivity)
        _ = 2 ^ p := by rw [← pow_add]; congr 1; omega
    · simp only [e1, sub_self, abs_zero]; exact two_zpow_pos _
  · rw [if_neg hle]
    set d := 2 ^ (len - p) with hd
    have hdpos : 0 < d := by positivity
    set q := mant / d with hq
    set u := (2 : ℚ) ^ (exp + len - p) with hu
    have hupos : 0 < u := two_zpow_pos _
    have hue : u = (d : ℚ) * (2 : ℚ) ^ exp := by
      rw [hu, hd, ← two_zpow_natCast, ← two_zpow_add]; congr 1; omega
    have hqlo : 2 ^ (p - 1) ≤ q := by
      rw [hq, Nat.le_div_iff_mul_le hdpos]
      calc 2 ^ (p - 1) * d = 2 ^ (len - 1) := by rw [hd, ← pow_add]; congr 1; omega
        _ ≤ mant := hlo'
    have hqhi : q < 2 ^ p := by
      rw [hq, Nat.div_lt_iff_lt_mul hdpos]
      calc mant < 2 ^ len := hhi
        _ = 2 ^ p * d := by rw [hd, ← pow_add]; congr 1; omega
    have hqm : q * d ≤ mant := Nat.div_mul_le_self _ _
    have hqm' : mant + 1 ≤ (q + 1) * d := by
      have := Nat.lt_div_mul_add (a := mant) hdpos
      have e : (q + 1) * d = mant / d * d + d := by rw [hq]; ring
      omega
    have hepos := two_zpow_pos exp
    have hzlo : (q : ℚ) * u ≤ z := by
      have h1 : ((q * d : Nat) : ℚ) ≤ (mant : ℚ) := by exact_mod_cast hqm
      push_cast at h1
      have h2 : (mant : ℚ) * (2 : ℚ) ^ exp ≤ z := by
        cases cut
        · exact (hexact rfl).ge
        · exact (hcut rfl).2.1.le
      calc (q : ℚ) * u = ((q : ℚ) * d) * (2 : ℚ) ^ exp := by rw [hue]; ring
        _ ≤ (mant : ℚ) * (2 : ℚ) ^ exp := mul_le_mul_of_nonneg_right h1 hepos.le
        _ ≤ z := h2
    have hzhi : z < ((q : ℚ) + 1) * u := by
      have h1 : (mant : ℚ) + 1 ≤ ((q : ℚ) + 1) * d := by exact_mod_cast hqm'
      have h2 : z < ((mant : ℚ) + 1) * (2 : ℚ) ^ exp := by
        cases cut
        · rw [hexact rfl]; nlinarith
        · exact (hcut rfl).2.2
      calc z < ((mant : ℚ) + 1) * (2 : ℚ) ^ exp := h2
        _ ≤ (((q : ℚ) + 1) * d) * (2 : ℚ) ^ exp := mul_le_mul_of_nonneg_right h1 hepos.le
        _ = ((q : ℚ) + 1) * u := by rw [hue]; ring
    have hin : (cut || q * d != mant) = false → z = (q : ℚ) * u := by
      intro h
      simp at h
      rw [hexact h.1, hue, ← h.2]; push_cast; ring
    have hin' : (cut || q * d != mant) = true → (q : ℚ) * u < z := by
      intro h
      cases hc : cut
      · have hne : q * d < mant := by
          have : q * d ≠ mant := by simpa [hc] using h
          omega
        have : ((q * d : Nat) : ℚ) < (mant : ℚ) := by exact_mod_cast hne
        push_cast at this
        rw [hexact hc, hue]; nlinarith
      · have h1 : ((q * d : Nat) : ℚ) ≤ (mant : ℚ) := by exact_mod_cast hqm
        push_cast at h1
        have := (hcut hc).2.1
        rw [hue]; nlinarith
    have hrep : representable p z → (q : ℚ) * u = z := by
      rintro ⟨m, k, hmp, hz⟩
      by_contra hne
      have hlt : (q : ℚ) * u < z := lt_of_le_of_ne hzlo hne
      have hzpos : 0 < z := lt_of_le_of_lt (by positivity) hlt
      have hmpos : 0 < m := by
        by_contra hm0
        have : (m : ℚ) ≤ 0 := by exact_mod_cast not_lt.mp hm0
        have := mul_nonpos_of_nonpos_of_nonneg this (two_zpow_pos k).le
        rw [← hz] at this; linarith
      rw [abs_of_pos hmpos] at hmp
      by_cases hk : exp + len - p ≤ k
      · have e : (2 : ℚ) ^ k = ((2 ^ (k - (exp + len - p)).toNat : Nat) : ℚ) * u := by
          rw [hu, ← two_zpow_natCast, ← two_zpow_add]; congr 1
          have := Int.toNat_of_nonneg (show 0 ≤ k - (exp + len - p) by omega)
          omega
        set j : ℤ := m * (2 ^ (k - (exp + len - p)).toNat : Nat) with hj
        have hz' : z = (j : ℚ) * u := by rw [hz, e, hj]; push_cast; ring
        rw [hz'] at hlt hzhi
        have a1 : (q : ℚ) < (j : ℚ) := lt_of_mul_lt_mul_right hlt hupos.le
        have a2 : (j : ℚ) < (q : ℚ) + 1 := lt_of_mul_lt_mul_right hzhi hupos.le
        have b1 : (q : ℤ) < j := by exact_mod_cast a1
        have b2 : j < (q : ℤ) + 1 := by exact_mod_cast a2
        omega
      · have e : (2 : ℚ) ^ p * (2 : ℚ) ^ k ≤ (2 : ℚ) ^ (p - 1 : Nat) * u := by
          rw [hu, ← zpow_natCast, ← zpow_natCast, ← two_zpow_add, ← two_zpow_add]
          exact zpow_le_zpow_right₀ (by norm_num) (by omega)
        have h1 : (m : ℚ) < (2 : ℚ) ^ p := by exact_mod_cast hmp
        have h2 : z < (2 : ℚ) ^ p * (2 : ℚ) ^ k := by rw [hz]; exact mul_lt_mul_of_pos_right h1 (two_zpow_pos k)
        have h3 : ((2 : ℚ) ^ (p - 1 : Nat)) ≤ (q : ℚ) := by exact_mod_cast hqlo
        have h4 : (2 : ℚ) ^ (p - 1 : Nat) * u ≤ (q : ℚ) * u := mul_le_mul_of_nonneg_right h3 hupos.le
        linarith
    have hpow : 2 ^ p = 2 * 2 ^ (p - 1) := by rw [← pow_succ']; congr 1; omega
    have hu1 : (2 : ℚ) ^ (exp + len + 1 - p) = 2 * u := by
      rw [hu, show exp + (len : ℤ) + 1 - p = 1 + (exp + len - p) by ring, two_zpow_add]; norm_num
    have habs : ∀ x : ℚ, (x = (q : ℚ) * u ∨ ((q : ℚ) * u < z ∧ x = ((q : ℚ) + 1) * u)) → |x - z| < u := by
      intro x hx
      rw [abs_lt]
      rcases hx with rfl | ⟨h1, rfl⟩
      · constructor <;> nlinarith
      · constructor <;> nlinarith
    have hval : representable p z → ∀ x : ℚ, (x = (q : ℚ) * u ∨ ((q : ℚ) * u < z ∧ x = ((q : ℚ) + 1) * u)) → x = z := by
      intro hr x hx
      have := hrep hr
      rcases hx with rfl | ⟨h1, rfl⟩
      · exact this
      · linarith
    by_cases hb : ((cut || q * d != mant) && up) = true
    · have hlt := hin' (by simp only [Bool.and_eq_true] at hb; exact hb.1)
      rw [if_pos hb]
      by_cases hc : q + 1 = 2 ^ p
      · rw [if_pos hc]
        have hx : (((2 ^ (p - 1) : Nat)) : ℚ) * (2 : ℚ) ^ (exp + len + 1 - p) = ((q : ℚ) + 1) * u := by
          have : ((q : ℚ) + 1) = 2 * (((2 ^ (p - 1) : Nat)) : ℚ) := by
            have h1 : ((q + 1 : Nat) : ℚ) = ((2 * 2 ^ (p - 1) : Nat) : ℚ) := by rw [hc, hpow]
            push_cast at h1 ⊢; linarith
          rw [hu1, this]; ring
        refine ⟨le_refl _, by rw [hpow]; have : 0 < 2 ^ (p - 1) := by positivity
                              omega, ?_, fun hr => ?_⟩
        · show |_ * _ - z| < _
          rw [hx, hu1]
          have := habs _ (Or.inr ⟨hlt, rfl⟩)
          linarith
        · simp only [hx]; exact hval hr _ (Or.inr ⟨hlt, rfl⟩)
      · rw [if_neg hc]
        have hx : (((q + 1 : Nat)) : ℚ) * (2 : ℚ) ^ (exp + len - p) = ((q : ℚ) + 1) * u := by rw [← hu]; push_cast; ring
        refine ⟨by simp only; omega, by simp only; omega, ?_, fun hr => ?_⟩
        · simp only [hx]; exact habs _ (Or.inr ⟨hlt, rfl⟩)
        · simp only [hx]; exact hval hr _ (Or.inr ⟨hlt, rfl⟩)
    · rw [if_neg hb, if_neg (by omega)]
      refine ⟨hqlo, hqhi, ?_, fun hr => ?_⟩
      · simp only [← hu]; exact habs _ (Or.inl rfl)
      · simp only [← hu]; exact hval hr _ (Or.inl rfl)

/-- Rounding to nearest with ties away (R312, D29): the result is at most half a unit of its last place away from the
exact magnitude `z`, and above it where it is just half a unit away. -/
theorem roundMagnitude_nearest {p mant : Nat} {exp : ℤ} {cut : Bool} {z x u : ℚ} (hp : 0 < p)
    (hexact : cut = false → z = (mant : ℚ) * (2 : ℚ) ^ exp)
    (hcut : cut = true → p < Nat.log2 mant + 1 ∧ (mant : ℚ) * (2 : ℚ) ^ exp < z ∧
      z < ((mant : ℚ) + 1) * (2 : ℚ) ^ exp)
    (hx : x = ((roundMagnitude p mant exp cut (halfWay p mant)).1 : ℚ) * u)
    (hu : u = (2 : ℚ) ^ ((roundMagnitude p mant exp cut (halfWay p mant)).2 - p)) :
    2 * |x - z| ≤ u ∧ (2 * |x - z| = u → z < x) := by
  have hupos : 0 < u := hu ▸ two_zpow_pos _
  have hzero : x = z → 2 * |x - z| ≤ u ∧ (2 * |x - z| = u → z < x) := by
    rintro rfl
    refine ⟨by simpa using hupos.le, fun h => absurd h (by simpa using hupos.ne)⟩
  have hw := two_zpow_pos exp
  unfold roundMagnitude at hx hu
  by_cases hle : Nat.log2 mant + 1 ≤ p
  · have hc : cut = false := by
      cases cut
      · rfl
      · have := (hcut rfl).1; omega
    simp only [if_pos hle] at hx hu
    apply hzero
    have h2 : (2 : ℚ) ^ exp = (2 : ℚ) ^ (((p - (Nat.log2 mant + 1) : Nat)) : ℤ) * u := by
      rw [hu, ← two_zpow_add]; congr 1; omega
    rw [hx, hexact hc, h2, two_zpow_natCast]; push_cast; ring
  · simp only [if_neg hle] at hx hu
    have hup : halfWay p mant = true ↔ 2 ^ (Nat.log2 mant - p) ≤ mant % 2 ^ (Nat.log2 mant + 1 - p) := by
      simp [halfWay]
    have hr2 : mant % 2 ^ (Nat.log2 mant + 1 - p) < 2 ^ (Nat.log2 mant + 1 - p) := Nat.mod_lt _ (by positivity)
    have hq : mant / 2 ^ (Nat.log2 mant + 1 - p) < 2 ^ p := by
      rw [Nat.div_lt_iff_lt_mul (by positivity), ← pow_add,
        show p + (Nat.log2 mant + 1 - p) = Nat.log2 mant + 1 by omega]
      exact Nat.lt_log2_self
    generalize halfWay p mant = up at *
    have hd : 2 ^ (Nat.log2 mant + 1 - p) = 2 * 2 ^ (Nat.log2 mant - p) := by rw [← pow_succ']; congr 1; omega
    have hv : (2 : ℚ) ^ (exp + ((Nat.log2 mant + 1 : Nat) : ℤ) - p) =
        ((2 ^ (Nat.log2 mant + 1 - p) : Nat) : ℚ) * (2 : ℚ) ^ exp := by
      rw [← two_zpow_natCast, ← two_zpow_add]; congr 1; omega
    have hv' : (2 : ℚ) ^ (exp + ((Nat.log2 mant + 1 : Nat) : ℤ) + 1 - p) =
        2 * (2 : ℚ) ^ (exp + ((Nat.log2 mant + 1 : Nat) : ℤ) - p) := by
      rw [show exp + ((Nat.log2 mant + 1 : Nat) : ℤ) + 1 - p = 1 + (exp + ((Nat.log2 mant + 1 : Nat) : ℤ) - p) by ring,
        two_zpow_add]
      norm_num
    have hm : mant = mant / 2 ^ (Nat.log2 mant + 1 - p) * 2 ^ (Nat.log2 mant + 1 - p) +
        mant % 2 ^ (Nat.log2 mant + 1 - p) := (Nat.div_add_mod' _ _).symm
    have hlast : 0 < 2 ^ (Nat.log2 mant - p) := by positivity
    generalize 2 ^ (Nat.log2 mant - p) = h at *
    generalize mant / 2 ^ (Nat.log2 mant + 1 - p) = q at *
    generalize mant % 2 ^ (Nat.log2 mant + 1 - p) = r at *
    generalize 2 ^ (Nat.log2 mant + 1 - p) = d at *
    subst hd
    have hmq : (mant : ℚ) = (q : ℚ) * (2 * h) + r := by
      have : ((mant : Nat) : ℚ) = ((q * (2 * h) + r : Nat) : ℚ) := congrArg _ hm
      push_cast at this; exact this
    rw [show ((2 * h : Nat) : ℚ) = 2 * (h : ℚ) by push_cast; rfl] at hv
    have hh : (0 : ℚ) < h := by exact_mod_cast hlast
    have hzlo : (mant : ℚ) * (2 : ℚ) ^ exp ≤ z := by
      cases cut
      · exact (hexact rfl).ge
      · exact (hcut rfl).2.1.le
    have hr3 : (r : ℚ) + 1 ≤ 2 * h := by exact_mod_cast hr2
    have hz1 : z < ((mant : ℚ) + 1) * (2 : ℚ) ^ exp := by
      cases hc : cut
      · rw [hexact hc]; nlinarith
      · exact (hcut hc).2.2
    have hrw3 := mul_le_mul_of_nonneg_right hr3 hw.le
    by_cases hb : ((cut || q * (2 * h) != mant) && up) = true
    · have hr : (h : ℚ) ≤ (r : ℚ) := by
        simp only [Bool.and_eq_true] at hb
        exact_mod_cast hup.1 hb.2
      simp only [hb, if_true] at hx hu
      have hxv : x = ((q : ℚ) + 1) * (2 * h * (2 : ℚ) ^ exp) ∧ 2 * h * (2 : ℚ) ^ exp ≤ u := by
        by_cases hc : q + 1 = 2 ^ p
        · simp only [hc, if_true] at hx hu
          have h1 : ((q + 1 : Nat) : ℚ) = ((2 * 2 ^ (p - 1) : Nat) : ℚ) := by
            rw [hc, ← pow_succ']; congr 2; omega
          push_cast at h1 hx
          rw [hv', hv] at hu
          exact ⟨by rw [hx, hu, h1]; ring, by rw [hu]; nlinarith [mul_pos hh hw]⟩
        · simp only [hc, if_false] at hx hu
          push_cast at hx
          rw [hv] at hu
          exact ⟨by rw [hx, hu], hu.ge⟩
      have hrw := mul_le_mul_of_nonneg_right hr hw.le
      have hhw := mul_pos hh hw
      have hzhi : z < x := by rw [hxv.1]; rw [hmq] at hz1; nlinarith
      rw [abs_of_pos (by linarith)]
      have hlow : 2 * (x - z) ≤ 2 * h * (2 : ℚ) ^ exp := by
        rw [hxv.1]; rw [hmq] at hzlo; nlinarith
      exact ⟨by linarith, fun _ => hzhi⟩
    · simp only [if_neg hb, if_neg hq.ne] at hx hu
      rw [hv] at hu
      cases hi : (cut || q * (2 * h) != mant)
      · apply hzero
        simp only [Bool.or_eq_false_iff, bne_eq_false_iff_eq] at hi
        have : ((q * (2 * h) : Nat) : ℚ) = (mant : ℚ) := by exact_mod_cast hi.2
        push_cast at this
        rw [hx, hu, hexact hi.1, ← this]; ring
      · have hr : (r : ℚ) + 1 ≤ h := by
          have : ¬h ≤ r := fun hle' => hb (by rw [hi, hup.2 hle']; rfl)
          exact_mod_cast (by omega : r + 1 ≤ h)
        have hrw := mul_le_mul_of_nonneg_right hr hw.le
        have hlow : z - x < h * (2 : ℚ) ^ exp := by rw [hx, hu]; rw [hmq] at hz1; nlinarith
        have hle' : x ≤ z := by
          have h0 : (0 : ℚ) ≤ (r : ℚ) * (2 : ℚ) ^ exp := by positivity
          rw [hx, hu]; rw [hmq] at hzlo; nlinarith
        rw [abs_of_nonpos (by linarith)]
        exact ⟨by rw [hu]; linarith, fun h' => absurd h' (by rw [hu]; linarith)⟩

/-- The sign as a factor. -/
def signFactor (s : Bool) : ℚ := if s then -1 else 1

theorem signFactor_abs (s : Bool) : |signFactor s| = 1 := by cases s <;> simp [signFactor]

theorem exponentRegister_fits {k : FloatKey} {e : ℤ} (h : -32768 ≤ e ∧ e ≤ 32767) :
    (exponentRegister k e).toInt = e := by
  unfold exponentRegister
  rw [if_pos h, BitVec.toInt_ofInt]
  exact Int.bmod_eq_of_le (by norm_num; omega) (by norm_num; omega)

/-- A floating result (R298, R310, R311) of exact magnitude `z`: a normal form with the sign of the exact value;
within one unit of the last place of the exact value, within half of one where `FP_OP` is the default, and equal to it
where the precision represents it, if the exponent is no larger than 32000 either way. -/
theorem floatResult_spec {k : FloatKey} {p : Nat} {v : Exact} {cut : Bool} {z : ℚ} (hp : 2 ≤ p) (hp' : p ≤ 63)
    (hm : 0 < v.mant) (hexact : cut = false → z = (v.mant : ℚ) * (2 : ℚ) ^ v.exp)
    (hcut : cut = true →
      p < Nat.log2 v.mant + 1 ∧ (v.mant : ℚ) * (2 : ℚ) ^ v.exp < z ∧ z < ((v.mant : ℚ) + 1) * (2 : ℚ) ^ v.exp) :
    floatNormal p (floatResult k p v cut) ∧
    ((2 : ℚ) ^ (-32000 : ℤ) < z → z < (2 : ℚ) ^ (32000 : ℤ) →
      |accumulatorRat (floatResult k p v cut) - signFactor v.sign * z| <
        (2 : ℚ) ^ ((floatResult k p v cut).exp.toInt - p) ∧
      (representable p z → accumulatorRat (floatResult k p v cut) = signFactor v.sign * z) ∧
      (k.fpOp = .nearestAway →
        2 * |accumulatorRat (floatResult k p v cut) - signFactor v.sign * z| ≤
          (2 : ℚ) ^ ((floatResult k p v cut).exp.toInt - p) ∧
        (2 * |accumulatorRat (floatResult k p v cut) - signFactor v.sign * z| =
          (2 : ℚ) ^ ((floatResult k p v cut).exp.toInt - p) →
            z < |accumulatorRat (floatResult k p v cut)|))) := by
  obtain ⟨h1, h2, h3, h4⟩ := roundMagnitude_spec (up := k.roundsUp p v.mant) (by omega) hm hexact hcut
  have h5 : k.fpOp = .nearestAway → _ := fun hk =>
    roundMagnitude_nearest (mant := v.mant) (by omega : 0 < p) hexact hcut rfl rfl
  have h6 : k.fpOp = .nearestAway → k.roundsUp p v.mant = halfWay p v.mant := fun hk => by
    unfold FloatKey.roundsUp; rw [hk]
  unfold floatResult
  rw [if_neg (by omega)]
  generalize k.roundsUp p v.mant = up at *
  replace h5 : k.fpOp = .nearestAway → _ := fun hk => by rw [← h6 hk] at h5; exact h5 hk
  clear h6
  generalize roundMagnitude p v.mant v.exp cut up = r at *
  obtain ⟨q, e⟩ := r
  simp only at *
  have hfr : (BitVec.ofNat 64 (q * 2 ^ (63 - p))).toNat = q * 2 ^ (63 - p) := by
    rw [BitVec.toNat_ofNat]
    apply Nat.mod_eq_of_lt
    calc q * 2 ^ (63 - p) < 2 ^ p * 2 ^ (63 - p) := Nat.mul_lt_mul_of_pos_right h2 (by positivity)
      _ = 2 ^ 63 := by rw [← pow_add]; congr 1; omega
      _ < 2 ^ 64 := by norm_num
  refine ⟨.inr ⟨?_, ?_, ?_⟩, fun hlo hhi => ?_⟩
  · rw [hfr]
    calc 2 ^ 62 = 2 ^ (p - 1) * 2 ^ (63 - p) := by rw [← pow_add]; congr 1; omega
      _ ≤ q * 2 ^ (63 - p) := Nat.mul_le_mul_right _ h1
  · rw [hfr]
    calc q * 2 ^ (63 - p) < 2 ^ p * 2 ^ (63 - p) := Nat.mul_lt_mul_of_pos_right h2 (by positivity)
      _ = 2 ^ 63 := by rw [← pow_add]; congr 1; omega
  · rw [hfr]; exact Dvd.intro_left _ rfl
  · rw [abs_lt] at h3
    have hu := two_zpow_pos (e - p)
    have hq2 : (q : ℚ) + 1 ≤ (2 : ℚ) ^ (p : ℤ) := by rw [two_zpow_natCast]; exact_mod_cast h2
    have hq1 : (2 : ℚ) ^ (((p - 1 : Nat)) : ℤ) ≤ (q : ℚ) := by rw [two_zpow_natCast]; exact_mod_cast h1
    have hp1 : (2 : ℚ) ^ (((p - 1 : Nat)) : ℤ) = 2 * (2 : ℚ) ^ ((p : ℤ) - 2) := by
      rw [show (((p - 1 : Nat)) : ℤ) = 1 + ((p : ℤ) - 2) by omega, two_zpow_add]; norm_num
    have hp2 : (1 : ℚ) ≤ (2 : ℚ) ^ ((p : ℤ) - 2) := one_le_zpow₀ (by norm_num) (by omega)
    have hfit : -32768 ≤ e ∧ e ≤ 32767 := by
      constructor
      · by_contra hc
        have a1 : z < (2 : ℚ) ^ e := by
          have : (2 : ℚ) ^ e = (2 : ℚ) ^ (p : ℤ) * (2 : ℚ) ^ (e - p) := by
            rw [← two_zpow_add]; congr 1; ring
          rw [this]; nlinarith
        have a2 : (2 : ℚ) ^ e ≤ (2 : ℚ) ^ (-32000 : ℤ) := zpow_le_zpow_right₀ (by norm_num) (by omega)
        linarith
      · by_contra hc
        have a1 : (2 : ℚ) ^ (e - 2) < z := by
          have : (2 : ℚ) ^ (e - 2) = (2 : ℚ) ^ ((p : ℤ) - 2) * (2 : ℚ) ^ (e - p) := by
            rw [← two_zpow_add]; congr 1; ring
          rw [this]; nlinarith
        have a2 : (2 : ℚ) ^ (32000 : ℤ) ≤ (2 : ℚ) ^ (e - 2) := zpow_le_zpow_right₀ (by norm_num) (by omega)
        linarith
    rw [exponentRegister_fits hfit]
    have hval : accumulatorRat
        { sign := v.sign, exp := exponentRegister k e, frac := BitVec.ofNat 64 (q * 2 ^ (63 - p)) } =
        signFactor v.sign * ((q : ℚ) * (2 : ℚ) ^ (e - p)) := by
      unfold accumulatorRat signFactor
      simp only [hfr, exponentRegister_fits hfit]
      have : (2 : ℚ) ^ (e - p) = ((2 ^ (63 - p) : Nat) : ℚ) * (2 : ℚ) ^ (e - 63) := by
        rw [← two_zpow_natCast, ← two_zpow_add]; congr 1; omega
      rw [this]; push_cast; ring
    rw [hval, ← mul_sub, abs_mul, signFactor_abs, one_mul]
    refine ⟨abs_lt.2 h3, fun hr => by rw [h4 hr], fun hk => ⟨(h5 hk).1, fun he => ?_⟩⟩
    have := (h5 hk).2 he
    rw [abs_mul, signFactor_abs, one_mul]
    exact lt_of_lt_of_le this (le_abs_self _)

/-- A cut quotient lies below the exact one by less than one unit, and not at all where it was not cut. -/
theorem quotient_spec {x y : Exact} (hy : 0 < y.mant) :
    (quotientCut x y = false →
      (x.mant : ℚ) / y.mant * (2 : ℚ) ^ (x.exp - y.exp) = ((quotient x y).mant : ℚ) * (2 : ℚ) ^ (quotient x y).exp) ∧
    (quotientCut x y = true →
      ((quotient x y).mant : ℚ) * (2 : ℚ) ^ (quotient x y).exp < (x.mant : ℚ) / y.mant * (2 : ℚ) ^ (x.exp - y.exp) ∧
      (x.mant : ℚ) / y.mant * (2 : ℚ) ^ (x.exp - y.exp) <
        (((quotient x y).mant : ℚ) + 1) * (2 : ℚ) ^ (quotient x y).exp) := by
  have hy' : (0 : ℚ) < (y.mant : ℚ) := by exact_mod_cast hy
  have hu := two_zpow_pos (x.exp - y.exp - 128)
  have he : (2 : ℚ) ^ (x.exp - y.exp) = (2 : ℚ) ^ (128 : ℤ) * (2 : ℚ) ^ (x.exp - y.exp - 128) := by
    rw [← two_zpow_add]; congr 1; ring
  have h128 : (2 : ℚ) ^ (128 : ℤ) = ((2 ^ 128 : Nat) : ℚ) := two_zpow_natCast 128
  have hz : (x.mant : ℚ) / y.mant * (2 : ℚ) ^ (x.exp - y.exp) =
      ((x.mant * 2 ^ 128 : Nat) : ℚ) / y.mant * (2 : ℚ) ^ (x.exp - y.exp - 128) := by
    rw [he, h128]; push_cast; ring
  rw [hz]
  unfold quotient quotientCut
  simp only
  generalize x.mant * 2 ^ 128 = n
  have hn : ((n / y.mant : Nat) : ℚ) * y.mant + ((n % y.mant : Nat) : ℚ) = (n : ℚ) := by
    exact_mod_cast Nat.div_add_mod' n y.mant
  have hr : ((n % y.mant : Nat) : ℚ) < (y.mant : ℚ) := by exact_mod_cast Nat.mod_lt n hy
  constructor
  · intro h
    have h0 : n % y.mant = 0 := by simpa using h
    rw [h0] at hn
    congr 1
    rw [div_eq_iff hy'.ne', ← hn]; simp
  · intro h
    have h0 : n % y.mant ≠ 0 := by simpa using h
    have h1 : (0 : ℚ) < ((n % y.mant : Nat) : ℚ) := by exact_mod_cast Nat.pos_of_ne_zero h0
    constructor
    · apply mul_lt_mul_of_pos_right _ hu
      rw [lt_div_iff₀ hy']; linarith
    · apply mul_lt_mul_of_pos_right _ hu
      rw [div_lt_iff₀ hy']; nlinarith

end Sys2Proof.Machine
end

