-- ==== Sys2Proof/Laws/Cop.lean ====
section
/-!
SUPPORT. What a coprocessor instruction does, said once for all of them.
-/
namespace Sys2Proof.Machine

/-- Every coprocessor instruction is the one shape with its own operation (R290), and writes its rc field. -/
theorem exec_cop {i : Instr} {o : CopOp} {r : CopResult} {ra rb rc : RegField} (h : trapClass i = .cop o r ra rb)
    (hd : destination i = some rc) (s : State) : exec i s = copInstr o r ra rb rc s := by
  have key : ∀ (o' : CopOp) (r' : CopResult) (ra' rb' rc' : RegField),
      destination i = some rc' → exec i s = copInstr o' r' ra' rb' rc' s →
      TrapClass.cop o' r' ra' rb' = .cop o r ra rb → exec i s = copInstr o r ra rb rc s := by
    intro o' r' ra' rb' rc' he hx hc
    injection hc with h1 h2 h3 h4
    subst h1 h2 h3 h4
    rw [hx, Option.some.inj (he.symm.trans hd)]
  cases i
  all_goals first
    | exact TrapClass.noConfusion h
    | exact key _ _ _ _ _ rfl rfl h

/-- The system frame of a coprocessor instruction. -/
theorem copKept_retire {s u : State} (d : Did)
    (hu : ∃ r m q c, u = { s with regs := r, marks := m, rr := q, cp := c }) :
    copKept s (u.retire d) := by
  obtain ⟨r, m, q, c, rfl⟩ := hu
  refine ⟨⟨?_, ?_⟩, memoryKept_of ?_ ?_ ?_ ?_ ?_, ⟨?_, ?_⟩, ⟨?_, ?_⟩, systemKept_retireWith _ _ _ ?_ ?_ ?_ ?_ ?_ ?_,
    queueKept_retireWith _ _ _ _ ?_ ?_ ?_, ⟨?_, ?_, ?_, ?_, ?_, ?_, ?_, ?_, ?_, ?_, ?_, ?_⟩⟩ <;> simp

/-- A coprocessor instruction that no trap condition stops (R290), whatever the instruction before it was. -/
theorem copInstr_goesOn {o : CopOp} {r : CopResult} {ra rb rc : RegField} {s : State}
    (ht : s.copAborts o r ra rb = false) :
    ∃ t, copInstr o r ra rb rc s = .next t ∧ regWritten s t rc (s.copDelivers r) ∧ t.rr = some (s.copDelivers r) ∧
      copKept s t ∧ t.cp = s.copAfter o ra rb := by
  unfold copInstr
  rw [if_neg (by simp [ht])]
  refine ⟨_, rfl, regWritten_of (u := { s with cp := s.copAfter o ra rb }) (by simp) (by simp) rfl rfl rfl, by simp,
    copKept_retire _ ?_, by simp⟩
  obtain ⟨q, m, x, hq⟩ := result_shape { s with cp := s.copAfter o ra rb } rc (s.copDelivers r)
  exact ⟨q, m, x, _, hq⟩

/-- A coprocessor instruction that no trap condition stops, after a completed operation: the coprocessor after it. -/
theorem copInstr_completes {o : CopOp} {r : CopResult} {ra rb rc : RegField} {s : State} {a b : Word}
    (hb : s.hist.last.copBusy = false) (hab : (a, b) = s.copOperands o ra rb) (ht : copTraps o r s.cp a b = false) :
    ∃ t, copInstr o r ra rb rc s = .next t ∧ regWritten s t rc (copResult s.lay r s.cp) ∧
      t.rr = some (copResult s.lay r s.cp) ∧ copKept s t ∧
      t.cp = copOperate s.lay.fpOp o { s.cp with abort := false } a b s.eff.krn s.fresh := by
  have hn : s.copNow = s.cp := by simp [State.copNow, hb]
  have hd : s.copDelivers r = copResult s.lay r s.cp := by simp [State.copDelivers, hb, hn]
  have ha : s.copAfter o ra rb = copOperate s.lay.fpOp o { s.cp with abort := false } a b s.eff.krn s.fresh := by
    simp [State.copAfter, hb, hn, ← hab]
  have := copInstr_goesOn (rc := rc) (s := s) (o := o) (r := r) (ra := ra) (rb := rb)
    (by rw [State.copAborts, hn, ← hab, ht])
  rwa [hd, ha] at this

/-- A coprocessor instruction that aborts in kernel mode goes on (R330). -/
theorem copInstr_aborts_kernel {o : CopOp} {r : CopResult} {ra rb rc : RegField} {s : State}
    (ht : s.copAborts o r ra rb = true) (hk : s.eff.krn = true) :
    ∃ t, copInstr o r ra rb rc s = .next t ∧ regsKept s t ∧ t.rr = none ∧ copKept s t ∧
      t.cp = copAborted o s.copNow (s.copOperands o ra rb).1 (s.copOperands o ra rb).2 := by
  unfold copInstr
  rw [if_pos ht, if_pos hk]
  exact ⟨_, rfl, regsKept_of (by simp) (by simp), by simp, copKept_retire _ ⟨_, _, _, _, rfl⟩,
      by simp [State.copAbort]⟩

/-- A coprocessor instruction that aborts in user mode traps (R330). -/
theorem copInstr_aborts_user {o : CopOp} {r : CopResult} {ra rb rc : RegField} {s : State}
    (ht : s.copAborts o r ra rb = true) (hk : s.eff.krn = false) :
    copInstr o r ra rb rc s = enterTrap arithTrap (s.copAbort o ra rb) := by
  unfold copInstr
  rw [if_pos ht, if_neg (by simp at hk; simp [hk])]

/-- Under the standard layout an operation reads its operands as the registers hold them (D34). -/
theorem copOperands_standard {s : State} (h : s.lay = Layout.standard) (o : CopOp) (ra rb : RegField) :
    s.copOperands o ra rb = (s.readA ra, s.readB rb) := by
  have hh : ∀ a b : Word, (pair a b).extractLsb' 32 32 = a ∧ (pair a b).extractLsb' 0 32 = b := by
    intro a b
    constructor <;>
    · apply BitVec.eq_of_getLsbD_eq; intro i hi
      simp only [pair, BitVec.getLsbD_extractLsb', BitVec.getLsbD_append, hi, decide_true, Bool.true_and]
      simp (disch := omega) only [if_neg, if_pos]
      congr 1; omega
  have hf : ∀ m (a b : Word), canonicalFloat Layout.standard m a b = (a, b) := by
    intro m a b
    obtain ⟨h1, h2⟩ := hh a b
    unfold canonicalFloat
    split
    · show ((pair a b).extractLsb' 32 32, (pair a b).extractLsb' 0 32) = _
      rw [h1, h2]
    · rfl
  have hw : ∀ a : Word, Layout.standard.copStatus.getBelow (n := 1) a = a :=
    fun a => Places_getBelow_standard (n := 1) (k := 31) a
  unfold State.copOperands canonicalOperands
  rw [h]
  cases o <;> first | rfl | exact hf _ _ _ | exact congrArg (·, _) (hw _)

/-- wrSign takes the sign from bit 31 in every layout, rsvOp and noDiv at the places of the layout (R293, R322). -/
theorem wrSign_operand (l : Layout) (a b : Word) :
    (canonicalOperands l .wrSign a b).1.getLsbD 31 = a.getLsbD 31 ∧
    (canonicalOperands l .wrSign a b).1.extractLsb' 0 31 = l.copStatus.get (a.extractLsb' 0 31) :=
  ⟨Places_getBelow_getLsbD (n := 1) l.copStatus a (by decide),
    Places_getBelow_low (n := 1) l.copStatus a⟩

/-- The result `sign` has neg in bit 31 in every layout, the other bits at its places (R293). -/
theorem copResult_sign (l : Layout) (cp : Coprocessor) :
    (copResult l .sign cp).getLsbD 31 = cp.ac.sign ∧
    (copResult l .sign cp).extractLsb' 0 31 = l.copStatus.put ((copStatus cp).extractLsb' 0 31) :=
  ⟨(Places_putBelow_getLsbD (n := 1) l.copStatus (copStatus cp) (by decide)).trans
      (by rw [copStatus, BitVec.getLsbD_append]; simp),
    Places_putBelow_low (n := 1) l.copStatus (copStatus cp)⟩

/-- The reserved operand check (R297, R332). -/
theorem reservedOperand_iff (m : FloatFormat) (a : Word) : reservedOperand m a = true ↔ reservedOperandP m a := by
  unfold reservedOperand reservedOperandP
  cases m.inputG <;> simp

/-- Which operations check their operand (R332). -/
theorem copReserved_iff (o : CopOp) (a : Word) :
    copReserved o a = true ↔ ∃ m, (o = .loadFloat m ∨ ∃ fn, o = .float fn m) ∧ reservedOperandP m a := by
  cases o <;> simp [copReserved, reservedOperand_iff]

/-- The exponent field of a G pair is in its first word (R297). -/
theorem pair_exponent (a b : Word) : (pair a b).extractLsb' 52 11 = a.extractLsb' 20 11 := by
  apply BitVec.eq_of_getLsbD_eq; intro i hi
  simp only [pair, BitVec.getLsbD_extractLsb', BitVec.getLsbD_append, hi, decide_true, Bool.true_and]
  simp (disch := omega) only [if_neg]
  congr 1; omega

/-- An operand is zero exactly if its exponent field is 0 (R297). -/
theorem floatOperand_zero (m : FloatFormat) (a b : Word) :
    (floatOperand m a b).mant = 0 ↔
      (if m.inputG then a.extractLsb' 20 11 = 0#11 else a.extractLsb' 23 8 = 0#8) := by
  unfold floatOperand
  cases m.inputG
  · simp only [Bool.false_eq_true, if_false]; unfold operandF; split <;> simp_all
  · simp only [if_true]; unfold operandG; rw [pair_exponent]; split <;> simp_all

/-- The division by zero check (R331). -/
theorem copDivideByZero_iff (o : CopOp) (ac : Accumulator) (a b : Word) :
    copDivideByZero o ac a b = true ↔
      ((∃ m, o = .float .divide m ∧ ¬reservedOperandP m a ∧
        (if m.inputG then a.extractLsb' 20 11 = 0#11 else a.extractLsb' 23 8 = 0#8)) ∨
      (∃ m, o = .float .rdivide m ∧ ac.frac = 0#64)) := by
  cases o with
  | float fn m => cases fn <;> simp [copDivideByZero, ← reservedOperand_iff, floatOperand_zero]
  | _ => simp [copDivideByZero]

/-- The range check of a floating result (R333). -/
theorem rangeError_iff (r : CopResult) (ac : Accumulator) : rangeError r ac = true ↔ (ac.frac ≠ 0#64 ∧
      ((r = .sp ∧ (ac.exp.toInt + 128 < 1 ∨ ac.exp.toInt + 128 > 255)) ∨
       ((r = .dph ∨ r = .dpl) ∧ (ac.exp.toInt + 1024 < 1 ∨ ac.exp.toInt + 1024 > 2047)))) := by
  cases r <;> simp [rangeError, fRange, gRange, outOfRange]

/-- No check stops an operation that checks nothing. -/
theorem copTraps_none {o : CopOp} {r} {s : State} {a b : Word} (hr : copReady s r) (h1 : copReserved o a = false)
    (h2 : copDivideByZero o s.cp.ac a b = false) : copTraps o r s.cp a b = false := by
  simp [copTraps, hr.2, h1, h2]

/-- A coprocessor instruction that no check stops completes (R290). -/
theorem copYields_of {i : Instr} {o : CopOp} {r ra rb rc} {s : State} {a b : Word} (hi : trapClass i = .cop o r ra rb)
    (hd : destination i = some rc) (hb : s.hist.last.copBusy = false) (hab : (a, b) = s.copOperands o ra rb)
    (ht : copTraps o r s.cp a b = false) :
    copYields i s rc r (copOperate s.lay.fpOp o { s.cp with abort := false } a b s.eff.krn s.fresh) := by
  obtain ⟨t, e1, e2, e3, e4, e5⟩ := copInstr_completes (rc := rc) hb hab ht
  exact ⟨t, by rw [exec_cop hi hd, e1], e2, e3, e4, e5⟩

/-- The integer divide step with its preconditions met (R304). -/
theorem divideStep_spec (n : Dword) (d low : Word) (h0 : low = 0#32) (h1 : 0 < d.toNat) (h2 : d.toNat < 2 ^ 31)
    (h3 : (n.extractLsb' 32 32).toNat < d.toNat) :
    ((divideStep n d low).extractLsb' 0 32).toNat = n.toNat / d.toNat ∧
          (if n.toNat / d.toNat % 2 = 0 ∧ (divideStep n d low).extractLsb' 32 32 ≠ 0#32
              then (divideStep n d low).extractLsb' 32 32 + d
            else (divideStep n d low).extractLsb' 32 32).toNat = n.toNat % d.toNat := by
  have hn : n.toNat / 2 ^ 32 < d.toNat := by
    have : (n.extractLsb' 32 32).toNat = n.toNat / 2 ^ 32 := by
      simp [BitVec.extractLsb'_toNat, Nat.shiftRight_eq_div_pow]; have := n.isLt; omega
    omega
  have hq : n.toNat / d.toNat < 2 ^ 32 := by
    rw [Nat.div_lt_iff_lt_mul h1]
    have : n.toNat < (n.toNat / 2 ^ 32 + 1) * 2 ^ 32 := by omega
    calc n.toNat < (n.toNat / 2 ^ 32 + 1) * 2 ^ 32 := this
      _ ≤ d.toNat * 2 ^ 32 := Nat.mul_le_mul_right _ (by omega)
      _ = 2 ^ 32 * d.toNat := by ring
  have hrem : n.toNat % d.toNat < d.toNat := Nat.mod_lt _ h1
  unfold divideStep
  rw [if_pos ⟨h0, h1, h2, h3⟩]
  simp only
  have hlo : ∀ h l : Word, (h ++ l : BitVec 64).extractLsb' 0 32 = l := by
    intro h l; apply BitVec.eq_of_getLsbD_eq; intro i hi
    simp only [BitVec.getLsbD_extractLsb', BitVec.getLsbD_append, hi, decide_true, Bool.true_and];
        simp (disch := omega) only [if_pos]; congr 1; omega
  have hhi : ∀ h l : Word, (h ++ l : BitVec 64).extractLsb' 32 32 = h := by
    intro h l; apply BitVec.eq_of_getLsbD_eq; intro i hi
    simp only [BitVec.getLsbD_extractLsb', BitVec.getLsbD_append, hi, decide_true, Bool.true_and];
        simp (disch := omega) only [if_neg]; congr 1; omega
  rw [hlo, hhi]
  refine ⟨by simp; omega, ?_⟩
  by_cases hodd : n.toNat / d.toNat % 2 = 1
  · rw [if_pos hodd, if_neg (by omega)]; simp; omega
  · rw [if_neg hodd]
    by_cases hr : n.toNat % d.toNat ≠ 0
    · rw [if_pos hr]
      have hne : BitVec.ofNat 32 (n.toNat % d.toNat) - d ≠ 0#32 := by
        intro e
        have : BitVec.ofNat 32 (n.toNat % d.toNat) = d := by bv_omega
        have := congrArg BitVec.toNat this; simp at this; omega
      rw [if_pos ⟨by omega, hne⟩]
      rw [BitVec.sub_add_cancel]; simp; omega
    · rw [if_neg hr]
      have hr0 : n.toNat % d.toNat = 0 := by omega
      rw [hr0]
      cases Config.divEvenZeroRem n d
      · simp
      · simp only [if_true]
        have hne : 0#32 - d ≠ 0#32 := by intro e; have : d = 0#32 := by bv_omega
                                         rw [this] at h1; simp at h1
        rw [if_pos ⟨by omega, hne⟩, BitVec.sub_add_cancel]; rfl

end Sys2Proof.Machine
end

