-- ==== Sys2Proof/Laws/Io.lean ====
section
/-!
SUPPORT. What an I/O transaction and a line fill may change.
-/
namespace Sys2Proof.Machine

/-- Slots 1 to 7 are the seven adaptors (R82). -/
theorem slotPosition_eq (n : BitVec 3) (k : Fin 7) (h : n.toNat = k.val + 1) : slotPosition n = some k := by
  unfold slotPosition
  rw [h]
  fin_cases k <;> rfl

/-- An IoRead leaves registers and their parity, memory, caches and coprocessor (R213). -/
theorem ioRead_keeps (s : State) (a : Word) : (s.ioRead a).regs = s.regs ∧ (s.ioRead a).mem = s.mem ∧
    (s.ioRead a).prom = s.prom ∧ (s.ioRead a).populated = s.populated ∧ (s.ioRead a).icache = s.icache ∧
    (s.ioRead a).dcache = s.dcache ∧ (s.ioRead a).cp = s.cp ∧
    (s.ioRead a).marks = s.marks := by
  unfold State.ioRead; split <;> exact ⟨rfl, rfl, rfl, rfl, rfl, rfl, rfl, rfl⟩

/-- An IoWrite leaves registers and their parity, memory, caches and coprocessor (R214). -/
theorem ioWrite_keeps (s : State) (a : Word) : (s.ioWrite a).regs = s.regs ∧ (s.ioWrite a).mem = s.mem ∧
    (s.ioWrite a).prom = s.prom ∧ (s.ioWrite a).populated = s.populated ∧ (s.ioWrite a).icache = s.icache ∧
    (s.ioWrite a).dcache = s.dcache ∧ (s.ioWrite a).cp = s.cp ∧
    (s.ioWrite a).marks = s.marks := by
  unfold State.ioWrite; split <;> exact ⟨rfl, rfl, rfl, rfl, rfl, rfl, rfl, rfl⟩

/-- A line read leaves the memory controller's registers but its error record (R60, R61, R121). -/
theorem readRealLine_mc (s : State) (rom dma : Bool) (l : LineAddr) :
    let m := (readRealLine s rom dma l).2.mc
    m.ioSel = s.mc.ioSel ∧ m.ioAddress = s.mc.ioAddress ∧ m.ioWriteData = s.mc.ioWriteData ∧ m.slot = s.mc.slot ∧
      m.enable = s.mc.enable ∧ m.lock = s.mc.lock ∧ m.ioReadData = s.mc.ioReadData ∧ m.ack = s.mc.ack := by
  have hn : ∀ (m : MemCtl) (a b : Bool) (c : Nat), errorNoted s.mc m a b c l dma → m.ioSel = s.mc.ioSel ∧
      m.ioAddress = s.mc.ioAddress ∧ m.ioWriteData = s.mc.ioWriteData ∧ m.slot = s.mc.slot ∧
      m.enable = s.mc.enable ∧ m.lock = s.mc.lock ∧ m.ioReadData = s.mc.ioReadData ∧ m.ack = s.mc.ack := by
    intro m a b c h
    rw [h.others]
    exact ⟨rfl, rfl, rfl, rfl, rfl, rfl, rfl, rfl⟩
  dsimp only
  unfold readRealLine
  split
  · exact ⟨rfl, rfl, rfl, rfl, rfl, rfl, rfl, rfl⟩
  · split
    · split
      · exact ⟨rfl, rfl, rfl, rfl, rfl, rfl, rfl, rfl⟩
      · exact ⟨rfl, rfl, rfl, rfl, rfl, rfl, rfl, rfl⟩
      · dsimp only
        split
        · exact ⟨rfl, rfl, rfl, rfl, rfl, rfl, rfl, rfl⟩
        · exact hn _ _ _ _ (logMemoryError_spec s.mc _ l dma).1
    · exact hn _ _ _ _ (logVacantRead_spec s.mc l dma s.fresh)

/-- A fill changes the data cache and, on an error, the error record of the memory controller (R112, R121). -/
theorem fillData_keeps {s u : State} {l} (h : s.fillData l = some u) :
    ∃ c m e, u = { s with dcache := c, mc := m, ecc := e } ∧
      (m.ioSel = s.mc.ioSel ∧ m.ioAddress = s.mc.ioAddress ∧ m.ioWriteData = s.mc.ioWriteData ∧ m.slot = s.mc.slot ∧
        m.enable = s.mc.enable ∧ m.lock = s.mc.lock ∧ m.ioReadData = s.mc.ioReadData ∧ m.ack = s.mc.ack) := by
  cases hl : s.hasDataLine l
  · cases hm : s.mcDown
    · rw [fillData_miss hl hm, Option.some.injEq] at h
      exact ⟨_, _, _, h.symm, readRealLine_mc s _ _ l⟩
    · simp [fillData_stalled hl hm] at h
  · rw [fillData_hit hl, Option.some.injEq] at h
    exact ⟨s.dcache, s.mc, s.ecc, h.symm, rfl, rfl, rfl, rfl, rfl, rfl, rfl, rfl⟩

end Sys2Proof.Machine
end

