-- ==== Sys2Proof/Laws/Kernel.lean ====
section
/-!
SUPPORT. What the translation buffer writes, the write-back of a flush and the base without interlock do.
-/
namespace Sys2Proof.Machine

/-- A pseudoCall that is well placed shifts the queue (R229). -/
theorem pseudoCallQueue_of {s : State} {ea : Word} (h : s.missesInEx = false) :
    pseudoCallQueue s ea = (s.pc1, ea <<< 2) := by
  simp [pseudoCallQueue, h]

/-- The base is the register where the instruction before did not write it (R476). -/
theorem baseNoInterlock_register {s : State} {rb : RegField} (h : s.hist.last.wrote ≠ some (s.rbIndex rb)) :
    s.baseNoInterlock rb false = s.readB rb := by
  unfold State.baseNoInterlock; rw [if_neg]; simp [h]

/-- The fields of a tag word (R189). -/
theorem tagHigh_bits (e : TlbEntry) (l : BitVec 9) : (tagHigh e ++ l).extractLsb' 24 8 = e.pid ∧
    (tagHigh e ++ l).extractLsb' 11 13 = e.tag ∧ (tagHigh e ++ l).getLsbD 10 = e.invalid ∧
    (tagHigh e ++ l).getLsbD 9 = e.writable := by
  unfold tagHigh
  refine ⟨BitVec.eq_of_getLsbD_eq fun i hi => ?_, BitVec.eq_of_getLsbD_eq fun i hi => ?_, ?_, ?_⟩
  iterate 2
    · simp only [BitVec.getLsbD_extractLsb', BitVec.getLsbD_append, hi, decide_true, Bool.true_and]
      simp (disch := omega) only [if_neg, if_pos]
      congr 1; omega
  · simp only [BitVec.getLsbD_append, BitVec.getLsbD_ofBool]; simp (disch := omega) only [if_neg]; simp
  · simp only [BitVec.getLsbD_append, BitVec.getLsbD_ofBool]; simp (disch := omega) only [if_neg, if_pos]; simp

/-- The real page number of a data word (R192). -/
theorem dataHigh_bits (e : BitVec 22) (l : BitVec 10) : (e ++ l).extractLsb' 10 22 = e := by
  apply BitVec.eq_of_getLsbD_eq
  intro i hi
  simp only [BitVec.getLsbD_extractLsb', BitVec.getLsbD_append]
  interval_cases i <;> simp

/-- Putting an entry writes that entry and no other (R194). -/
theorem tlbPut_written (t : Tlb) (col : Bool) (wa : Word) (pid : BitVec 8) (f : TlbEntry → TlbEntry) :
    tlbWritten t (tlbPut t col wa pid (f (tlbEntry t col wa pid))) col wa pid f := by
  have hr := tlbRow_lt wa pid
  constructor
  · cases col <;> simp [tlbEntry, tlbPut]
  · intro col' wa' pid' h
    cases col <;> cases col' <;> simp [tlbEntry, tlbPut] at h ⊢
    · rw [Vector.getElem_set_ne]; exact fun e => h e.symm
    · rw [Vector.getElem_set_ne]; exact fun e => h e.symm

/-- A write of the instruction side changes its buffer and the I/O control address, nothing else (R194). -/
theorem writeInstTlb_spec (s : State) (rb : RegField) (b : Tlb) : ∃ t, writeInstTlb s rb b = .next t ∧
    regsKept s t ∧ t.rr = s.rr ∧ specialKept s t rb ∧ systemKept s t ∧ queueKept s t ∧ t.dtlb = s.dtlb ∧
    t.itlb = b := by
  refine ⟨_, rfl, regsKept_of ?_ ?_, by simp, ⟨⟨by simp, by simp⟩, memoryKept_of ?_ ?_ ?_ ?_ ?_, ⟨?_, ?_⟩, ?_,
      ⟨?_, ?_, ?_, ?_, ?_, ?_, ?_, ?_, ?_, ?_, ?_, ?_⟩⟩, systemKept_retireWith _ _ _ ?_ ?_ ?_ ?_ ?_ ?_,
      queueKept_retireWith _ _ _ _ ?_ ?_ ?_, ?_, ?_⟩
  all_goals simp

/-- A write of the data side changes its buffer and the I/O control address, nothing else (R194). -/
theorem writeDataTlb_spec (s : State) (rb : RegField) (b : Tlb) : ∃ t, writeDataTlb s rb b = .next t ∧
    regsKept s t ∧ t.rr = s.rr ∧ specialKept s t rb ∧ systemKept s t ∧ queueKept s t ∧ t.itlb = s.itlb ∧
    t.dtlb = b := by
  refine ⟨_, rfl, regsKept_of ?_ ?_, by simp, ⟨⟨by simp, by simp⟩, memoryKept_of ?_ ?_ ?_ ?_ ?_, ⟨?_, ?_⟩, ?_,
      ⟨?_, ?_, ?_, ?_, ?_, ?_, ?_, ?_, ?_, ?_, ?_, ?_⟩⟩, systemKept_retireWith _ _ _ ?_ ?_ ?_ ?_ ?_ ?_,
      queueKept_retireWith _ _ _ _ ?_ ?_ ?_, ?_, ?_⟩
  all_goals simp

/-- A flush covers the lines from the effective address to the end of its page (R233). -/
theorem flushCovers_iff (ea : Word) (l : LineAddr) : flushCovers ea l.toNat = true ↔ (lineOf ea).toNat ≤ l.toNat ∧
    l.extractLsb' 8 22 = (lineOf ea).extractLsb' 8 22 := by
  have hor : ((lineOf ea) ||| 0xFF#30).toNat = (lineOf ea).toNat / 256 * 256 + 255 := by
    have e : (lineOf ea) ||| 0xFF#30 = (lineOf ea).extractLsb' 8 22 ++ 0xFF#8 := by
      apply BitVec.eq_of_getLsbD_eq; intro i hi
      simp only [BitVec.getLsbD_or, BitVec.getLsbD_append, BitVec.getLsbD_extractLsb']
      by_cases h : i < 8
      · simp only [h, if_true]; interval_cases i <;> simp
      · simp only [h, if_false]
        have : (0xFF#30).getLsbD i = false := by
          interval_cases i <;> first | omega | decide
        have h2 : i - 8 < 22 := by omega
        simp [this, h2]; congr 1; omega
    rw [e, BitVec.toNat_append]
    simp [BitVec.extractLsb'_toNat, Nat.shiftRight_eq_div_pow]
    rw [← Nat.shiftLeft_add_eq_or_of_lt (by norm_num)]
    have := (lineOf ea).isLt
    rw [Nat.shiftLeft_eq]; omega
  have hx : l.extractLsb' 8 22 = (lineOf ea).extractLsb' 8 22 ↔ l.toNat / 256 = (lineOf ea).toNat / 256 := by
    rw [BitVec.toNat_eq]; simp [BitVec.extractLsb'_toNat, Nat.shiftRight_eq_div_pow]
    have := l.isLt; have := (lineOf ea).isLt
    omega
  rw [hx]; unfold flushCovers; rw [hor]; simp; omega

/-- A line write leaves the bytes of other lines. -/
theorem readByte_writeLine_ne (m : Memory) (l : Nat) (v : Line) (a : Nat) (h : a / 16 ≠ l) :
    readByte (writeLine m l v) a = readByte m a := by
  unfold writeLine
  rw [readByte_writeWord_ne _ _ _ _ (by omega), readByte_writeWord_ne _ _ _ _ (by omega),
      readByte_writeWord_ne _ _ _ _ (by omega), readByte_writeWord_ne _ _ _ _ (by omega)]

/-- A line is read from its own bytes alone. -/
theorem readLine_congr (m m' : Memory) (l : Nat) (h : ∀ a, a / 16 = l → readByte m' a = readByte m a) :
    readLine m' l = readLine m l := by
  have hw : ∀ w, w / 4 = l → readWord m' w = readWord m w := by
    intro w hw; unfold readWord
    rw [h _ (by omega), h _ (by omega), h _ (by omega), h _ (by omega)]
  unfold readLine
  rw [hw _ (by omega), hw _ (by omega), hw _ (by omega), hw _ (by omega)]

/-- What a flush covers is a line address. -/
theorem flushCovers_lt {ea : Word} {k : Nat} (h : flushCovers ea k = true) : k < 2 ^ 30 := by
  unfold flushCovers at h; simp at h
  have := ((lineOf ea) ||| 0xFF#30).isLt
  simp at this; omega

/-- Two lines that a flush covers are two lines of main memory. -/
theorem flushCovers_ne {ea : Word} {l l' : LineAddr} (h : flushCovers ea l.toNat = true)
    (h' : flushCovers ea l'.toNat = true) (hn : l ≠ l') : physicalLine l ≠ physicalLine l' := by
  have a := ((flushCovers_iff ea l).1 h).2
  have b := ((flushCovers_iff ea l').1 h').2
  have e := a.trans b.symm
  rw [BitVec.toNat_eq] at e; simp [BitVec.extractLsb'_toNat, Nat.shiftRight_eq_div_pow] at e
  have hx : l.toNat ≠ l'.toNat := fun q => hn (BitVec.eq_of_toNat_eq q)
  have := l.isLt; have := l'.isLt
  unfold physicalLine; omega

/-- A key below every key of a list is absent. -/
theorem mapGet_below {α : Type} (t : List (Nat × α)) (k : Nat) (h : t.all (fun f => decide (k < f.1)) = true) :
    mapGet t k = none := by
  induction t with
  | nil => rfl
  | cons e t ih =>
    simp at h
    unfold mapGet
    rw [if_neg (by omega)]
    exact ih (by simp; exact h.2)

/-- Writing back what a flush covers: each dirty line of a populated module is in memory after, and every other byte
is as before (R92, R233). -/
theorem writeBack_spec (p : BitVec 4) (ea : Word) : ∀ (dc : DataCache) (m : Memory), mapSorted dc = true →
    (∀ (l : LineAddr) d, flushCovers ea l.toNat = true → mapGet dc l.toNat = some d → d.dirty = true →
        isPopulated p l = true →
          readLine (writeBack p ea dc m) (physicalLine l) = d.line) ∧
    (∀ a, (∀ (l : LineAddr) d, flushCovers ea l.toNat = true → mapGet dc l.toNat = some d → d.dirty = true →
            isPopulated p l = true → a / 16 ≠ physicalLine l) →
          readByte (writeBack p ea dc m) a = readByte m a) := by
  intro dc
  induction dc with
  | nil => intro m _; exact ⟨fun l d _ h => by simp [mapGet] at h, fun a _ => rfl⟩
  | cons e t ih =>
    intro m hs
    have hs2 : t.all (fun f => decide (e.1 < f.1)) = true ∧ mapSorted t = true := by simpa [mapSorted] using hs
    have hnone := mapGet_below t e.1 hs2.1
    have up : ∀ k d, mapGet t k = some d → mapGet (e :: t) k = some d := by
      intro k d h
      have : e.1 ≠ k := by rintro rfl; rw [hnone] at h; simp at h
      simp [mapGet, this, h]
    obtain ⟨i1, i2⟩ := ih (if flushCovers ea e.1 && e.2.dirty
        then physWriteLine p m (BitVec.ofNat 30 e.1) e.2.line else m) hs2.2
    constructor
    · intro l d hc hg hd hp
      by_cases hk : e.1 = l.toNat
      · have hde : e.2 = d := by simpa [mapGet, hk] using hg
        have hl : BitVec.ofNat 30 e.1 = l := by rw [hk]; simp
        show readLine (writeBack p ea t _) _ = _
        rw [readLine_congr _ _ _ (fun a ha => i2 a (fun l' d' hc' hg' hd' hp' => ?_))]
        · rw [hk, hc, hde, hd, ← hk, hl]; simp [physWriteLine, hp]
        · rw [ha]; apply flushCovers_ne hc hc'
          rintro rfl; rw [hk] at hnone; rw [hnone] at hg'; simp at hg'
      · exact i1 l d hc (by simpa [mapGet, hk] using hg) hd hp
    · intro a ha
      show readByte (writeBack p ea t _) a = _
      rw [i2 a (fun l d hc hg hd hp => ha l d hc (up _ _ hg) hd hp)]
      split
      · rename_i hcd
        simp at hcd
        have hlt := flushCovers_lt hcd.1
        unfold physWriteLine
        split
        · rename_i hp
          apply readByte_writeLine_ne
          have hn : (BitVec.ofNat 30 e.1).toNat = e.1 := by simp; omega
          exact ha _ e.2 (by rw [hn]; exact hcd.1) (by rw [hn]; simp [mapGet]) hcd.2 hp
        · rfl
      · rfl

end Sys2Proof.Machine
end

