-- ==== Sys2Proof/Laws/PerInstr.lean ====
section
/-!
SUPPORT. Per instruction: the opcodes that spec/30_encoding.md R156 names privileged (special, kernelExit, pseudoCall,
flush: 1 to 4) are those of the instructions that trapClass names privileged.
-/
namespace Sys2Proof.Laws.PrivilegedOpcode
open Sys2Proof.Machine

/-- The instruction's major opcode is 1, 2, 3 or 4 exactly if it is privileged (R134, R156). -/
def Statement (i : Instr) : Prop :=
  (opField (encode i) = 1#4 ∨ opField (encode i) = 2#4 ∨ opField (encode i) = 3#4 ∨ opField (encode i) = 4#4) ↔
    trapClass i = .privileged

/-- The class is the privileged one. -/
def isPrivilegedClass (c : TrapClass) : Bool :=
  match c with
  | .privileged => true
  | .never => false
  | .illegal => false
  | .user _ => false
  | .load _ _ => false
  | .store _ _ => false
  | .cop _ _ _ _ => false

theorem isPrivilegedClass_iff (c : TrapClass) : isPrivilegedClass c = true ↔ c = .privileged := by
  cases c <;> simp [isPrivilegedClass]

/-- From the opcode and the class. -/
theorem of_opcode {i : Instr} {op : BitVec 4} (h : opField (encode i) = op)
    (hc : decide (op = 1#4 ∨ op = 2#4 ∨ op = 3#4 ∨ op = 4#4) = isPrivilegedClass (trapClass i)) : Statement i := by
  unfold Statement
  rw [h, ← isPrivilegedClass_iff, ← hc, decide_eq_true_iff]

theorem abort (ra rb : RegField) (disp : BitVec 16) : Statement (.abort ra rb disp) :=
  of_opcode (opField_packM _ _ _ _) rfl
theorem readStatus (ra rb : RegField) : Statement (.readStatus ra rb) :=
  of_opcode (opField_packM _ _ _ _) rfl
theorem readPcQ (ra rb : RegField) : Statement (.readPcQ ra rb) :=
  of_opcode (opField_packM _ _ _ _) rfl
theorem writeStatus (ra rb : RegField) : Statement (.writeStatus ra rb) :=
  of_opcode (opField_packM _ _ _ _) rfl
theorem readInstTFR (ra rb : RegField) : Statement (.readInstTFR ra rb) :=
  of_opcode (opField_packM _ _ _ _) rfl
theorem readDataTFR (ra rb : RegField) : Statement (.readDataTFR ra rb) :=
  of_opcode (opField_packM _ _ _ _) rfl
theorem readInstTlbTag0 (ra rb : RegField) : Statement (.readInstTlbTag0 ra rb) :=
  of_opcode (opField_packM _ _ _ _) rfl
theorem readInstTlbTag1 (ra rb : RegField) : Statement (.readInstTlbTag1 ra rb) :=
  of_opcode (opField_packM _ _ _ _) rfl
theorem readDataTlbTag0 (ra rb : RegField) : Statement (.readDataTlbTag0 ra rb) :=
  of_opcode (opField_packM _ _ _ _) rfl
theorem readDataTlbTag1 (ra rb : RegField) : Statement (.readDataTlbTag1 ra rb) :=
  of_opcode (opField_packM _ _ _ _) rfl
theorem readInstTlbData0 (ra rb : RegField) : Statement (.readInstTlbData0 ra rb) :=
  of_opcode (opField_packM _ _ _ _) rfl
theorem readInstTlbData1 (ra rb : RegField) : Statement (.readInstTlbData1 ra rb) :=
  of_opcode (opField_packM _ _ _ _) rfl
theorem readDataTlbData0 (ra rb : RegField) : Statement (.readDataTlbData0 ra rb) :=
  of_opcode (opField_packM _ _ _ _) rfl
theorem readDataTlbData1 (ra rb : RegField) : Statement (.readDataTlbData1 ra rb) :=
  of_opcode (opField_packM _ _ _ _) rfl
theorem writeInstTlbTag0 (ra rb : RegField) : Statement (.writeInstTlbTag0 ra rb) :=
  of_opcode (opField_packM _ _ _ _) rfl
theorem writeInstTlbTag1 (ra rb : RegField) : Statement (.writeInstTlbTag1 ra rb) :=
  of_opcode (opField_packM _ _ _ _) rfl
theorem writeDataTlbTag0 (ra rb : RegField) : Statement (.writeDataTlbTag0 ra rb) :=
  of_opcode (opField_packM _ _ _ _) rfl
theorem writeDataTlbTag1 (ra rb : RegField) : Statement (.writeDataTlbTag1 ra rb) :=
  of_opcode (opField_packM _ _ _ _) rfl
theorem writeInstTlbData0 (ra rb : RegField) : Statement (.writeInstTlbData0 ra rb) :=
  of_opcode (opField_packM _ _ _ _) rfl
theorem writeInstTlbData1 (ra rb : RegField) : Statement (.writeInstTlbData1 ra rb) :=
  of_opcode (opField_packM _ _ _ _) rfl
theorem writeDataTlbData0 (ra rb : RegField) : Statement (.writeDataTlbData0 ra rb) :=
  of_opcode (opField_packM _ _ _ _) rfl
theorem writeDataTlbData1 (ra rb : RegField) : Statement (.writeDataTlbData1 ra rb) :=
  of_opcode (opField_packM _ _ _ _) rfl
theorem getCtl (ra rb : RegField) : Statement (.getCtl ra rb) :=
  of_opcode (opField_packM _ _ _ _) rfl
theorem setCtl (ra rb : RegField) : Statement (.setCtl ra rb) :=
  of_opcode (opField_packM _ _ _ _) rfl
theorem ioRead (ra rb : RegField) : Statement (.ioRead ra rb) :=
  of_opcode (opField_packM _ _ _ _) rfl
theorem ioWrite (ra rb : RegField) : Statement (.ioWrite ra rb) :=
  of_opcode (opField_packM _ _ _ _) rfl
theorem kernelExit (ra rb : RegField) (disp : BitVec 16) : Statement (.kernelExit ra rb disp) :=
  of_opcode (opField_packM _ _ _ _) rfl
theorem pseudoCall (ra rb : RegField) (disp : BitVec 16) : Statement (.pseudoCall ra rb disp) :=
  of_opcode (opField_packM _ _ _ _) rfl
theorem flush (ra rb : RegField) (disp : BitVec 16) : Statement (.flush ra rb disp) :=
  of_opcode (opField_packM _ _ _ _) rfl
theorem load (ra rb : RegField) (disp : BitVec 16) : Statement (.load ra rb disp) :=
  of_opcode (opField_packM _ _ _ _) rfl
theorem store (ra rb : RegField) (disp : BitVec 16) : Statement (.store ra rb disp) :=
  of_opcode (opField_packM _ _ _ _) rfl
theorem goto (ra rb : RegField) (disp : BitVec 16) : Statement (.goto ra rb disp) :=
  of_opcode (opField_packM _ _ _ _) rfl
theorem cjumpEq (ra : RegField) (disp : BitVec 16) : Statement (.cjumpEq ra disp) :=
  of_opcode (opField_packM _ _ _ _) rfl
theorem cjumpNe (ra : RegField) (disp : BitVec 16) : Statement (.cjumpNe ra disp) :=
  of_opcode (opField_packM _ _ _ _) rfl
theorem cjumpLt (ra : RegField) (disp : BitVec 16) : Statement (.cjumpLt ra disp) :=
  of_opcode (opField_packM _ _ _ _) rfl
theorem cjumpGe (ra : RegField) (disp : BitVec 16) : Statement (.cjumpGe ra disp) :=
  of_opcode (opField_packM _ _ _ _) rfl
theorem cjumpGt (ra : RegField) (disp : BitVec 16) : Statement (.cjumpGt ra disp) :=
  of_opcode (opField_packM _ _ _ _) rfl
theorem cjumpLe (ra : RegField) (disp : BitVec 16) : Statement (.cjumpLe ra disp) :=
  of_opcode (opField_packM _ _ _ _) rfl
theorem cjumpOdd (ra : RegField) (disp : BitVec 16) : Statement (.cjumpOdd ra disp) :=
  of_opcode (opField_packM _ _ _ _) rfl
theorem cjumpEven (ra : RegField) (disp : BitVec 16) : Statement (.cjumpEven ra disp) :=
  of_opcode (opField_packM _ _ _ _) rfl
theorem extract (ra rb rc : RegField) (shift mask : Nat) : Statement (.extract ra rb rc shift mask) :=
  of_opcode (opField_packR _ _ _ _ _) rfl
theorem aluAdd (lit : Bool) (ra rb rc : RegField) : Statement (.aluAdd lit ra rb rc) :=
  of_opcode (opField_packR _ _ _ _ _) rfl
theorem aluAdd1 (lit : Bool) (ra rb rc : RegField) : Statement (.aluAdd1 lit ra rb rc) :=
  of_opcode (opField_packR _ _ _ _ _) rfl
theorem aluRsub (lit : Bool) (ra rb rc : RegField) : Statement (.aluRsub lit ra rb rc) :=
  of_opcode (opField_packR _ _ _ _ _) rfl
theorem aluRsub1 (lit : Bool) (ra rb rc : RegField) : Statement (.aluRsub1 lit ra rb rc) :=
  of_opcode (opField_packR _ _ _ _ _) rfl
theorem aluSub (lit : Bool) (ra rb rc : RegField) : Statement (.aluSub lit ra rb rc) :=
  of_opcode (opField_packR _ _ _ _ _) rfl
theorem aluSub1 (lit : Bool) (ra rb rc : RegField) : Statement (.aluSub1 lit ra rb rc) :=
  of_opcode (opField_packR _ _ _ _ _) rfl
theorem aluNeg (lit : Bool) (ra rb rc : RegField) : Statement (.aluNeg lit ra rb rc) :=
  of_opcode (opField_packR _ _ _ _ _) rfl
theorem aluNegm1 (lit : Bool) (ra rb rc : RegField) : Statement (.aluNegm1 lit ra rb rc) :=
  of_opcode (opField_packR _ _ _ _ _) rfl
theorem aluGt (lit : Bool) (ra rb rc : RegField) : Statement (.aluGt lit ra rb rc) :=
  of_opcode (opField_packR _ _ _ _ _) rfl
theorem aluGtu (lit : Bool) (ra rb rc : RegField) : Statement (.aluGtu lit ra rb rc) :=
  of_opcode (opField_packR _ _ _ _ _) rfl
theorem aluGe (lit : Bool) (ra rb rc : RegField) : Statement (.aluGe lit ra rb rc) :=
  of_opcode (opField_packR _ _ _ _ _) rfl
theorem aluGeu (lit : Bool) (ra rb rc : RegField) : Statement (.aluGeu lit ra rb rc) :=
  of_opcode (opField_packR _ _ _ _ _) rfl
theorem aluLt (lit : Bool) (ra rb rc : RegField) : Statement (.aluLt lit ra rb rc) :=
  of_opcode (opField_packR _ _ _ _ _) rfl
theorem aluLtu (lit : Bool) (ra rb rc : RegField) : Statement (.aluLtu lit ra rb rc) :=
  of_opcode (opField_packR _ _ _ _ _) rfl
theorem aluLe (lit : Bool) (ra rb rc : RegField) : Statement (.aluLe lit ra rb rc) :=
  of_opcode (opField_packR _ _ _ _ _) rfl
theorem aluLeu (lit : Bool) (ra rb rc : RegField) : Statement (.aluLeu lit ra rb rc) :=
  of_opcode (opField_packR _ _ _ _ _) rfl
theorem aluEqv (lit : Bool) (ra rb rc : RegField) : Statement (.aluEqv lit ra rb rc) :=
  of_opcode (opField_packR _ _ _ _ _) rfl
theorem aluXor (lit : Bool) (ra rb rc : RegField) : Statement (.aluXor lit ra rb rc) :=
  of_opcode (opField_packR _ _ _ _ _) rfl
theorem aluOr (lit : Bool) (ra rb rc : RegField) : Statement (.aluOr lit ra rb rc) :=
  of_opcode (opField_packR _ _ _ _ _) rfl
theorem aluMovb (lit : Bool) (ra rb rc : RegField) : Statement (.aluMovb lit ra rb rc) :=
  of_opcode (opField_packR _ _ _ _ _) rfl
theorem aluNot (lit : Bool) (ra rb rc : RegField) : Statement (.aluNot lit ra rb rc) :=
  of_opcode (opField_packR _ _ _ _ _) rfl
theorem aluMova (lit : Bool) (ra rb rc : RegField) : Statement (.aluMova lit ra rb rc) :=
  of_opcode (opField_packR _ _ _ _ _) rfl
theorem aluAnd (lit : Bool) (ra rb rc : RegField) : Statement (.aluAnd lit ra rb rc) :=
  of_opcode (opField_packR _ _ _ _ _) rfl
theorem aluZero (lit : Bool) (ra rb rc : RegField) : Statement (.aluZero lit ra rb rc) :=
  of_opcode (opField_packR _ _ _ _ _) rfl
theorem aluVext (lit : Bool) (ra rb rc : RegField) (size : Nat) : Statement (.aluVext lit ra rb rc size) :=
  of_opcode (opField_packR _ _ _ _ _) rfl
theorem aluBext (lit : Bool) (ra rb rc : RegField) (inv : Bool) (size : Nat) :
    Statement (.aluBext lit ra rb rc inv size) :=
  of_opcode (opField_packR _ _ _ _ _) rfl
theorem copLoadI (result : CopResult) (ra rb rc : RegField) : Statement (.copLoadI result ra rb rc) :=
  of_opcode (opField_packR _ _ _ _ _) rfl
theorem copLoadF (result : CopResult) (ra rb rc : RegField) : Statement (.copLoadF result ra rb rc) :=
  of_opcode (opField_packR _ _ _ _ _) rfl
theorem copLoadGf (result : CopResult) (ra rb rc : RegField) : Statement (.copLoadGf result ra rb rc) :=
  of_opcode (opField_packR _ _ _ _ _) rfl
theorem copLoadG (result : CopResult) (ra rb rc : RegField) : Statement (.copLoadG result ra rb rc) :=
  of_opcode (opField_packR _ _ _ _ _) rfl
theorem copAddI (result : CopResult) (ra rb rc : RegField) : Statement (.copAddI result ra rb rc) :=
  of_opcode (opField_packR _ _ _ _ _) rfl
theorem copAddF (result : CopResult) (ra rb rc : RegField) : Statement (.copAddF result ra rb rc) :=
  of_opcode (opField_packR _ _ _ _ _) rfl
theorem copAddFg (result : CopResult) (ra rb rc : RegField) : Statement (.copAddFg result ra rb rc) :=
  of_opcode (opField_packR _ _ _ _ _) rfl
theorem copAddGf (result : CopResult) (ra rb rc : RegField) : Statement (.copAddGf result ra rb rc) :=
  of_opcode (opField_packR _ _ _ _ _) rfl
theorem copAddG (result : CopResult) (ra rb rc : RegField) : Statement (.copAddG result ra rb rc) :=
  of_opcode (opField_packR _ _ _ _ _) rfl
theorem copSubtractI (result : CopResult) (ra rb rc : RegField) : Statement (.copSubtractI result ra rb rc) :=
  of_opcode (opField_packR _ _ _ _ _) rfl
theorem copSubtractF (result : CopResult) (ra rb rc : RegField) : Statement (.copSubtractF result ra rb rc) :=
  of_opcode (opField_packR _ _ _ _ _) rfl
theorem copSubtractFg (result : CopResult) (ra rb rc : RegField) : Statement (.copSubtractFg result ra rb rc) :=
  of_opcode (opField_packR _ _ _ _ _) rfl
theorem copSubtractGf (result : CopResult) (ra rb rc : RegField) : Statement (.copSubtractGf result ra rb rc) :=
  of_opcode (opField_packR _ _ _ _ _) rfl
theorem copSubtractG (result : CopResult) (ra rb rc : RegField) : Statement (.copSubtractG result ra rb rc) :=
  of_opcode (opField_packR _ _ _ _ _) rfl
theorem copRsubtractI (result : CopResult) (ra rb rc : RegField) : Statement (.copRsubtractI result ra rb rc) :=
  of_opcode (opField_packR _ _ _ _ _) rfl
theorem copRsubtractF (result : CopResult) (ra rb rc : RegField) : Statement (.copRsubtractF result ra rb rc) :=
  of_opcode (opField_packR _ _ _ _ _) rfl
theorem copRsubtractFg (result : CopResult) (ra rb rc : RegField) : Statement (.copRsubtractFg result ra rb rc) :=
  of_opcode (opField_packR _ _ _ _ _) rfl
theorem copRsubtractGf (result : CopResult) (ra rb rc : RegField) : Statement (.copRsubtractGf result ra rb rc) :=
  of_opcode (opField_packR _ _ _ _ _) rfl
theorem copRsubtractG (result : CopResult) (ra rb rc : RegField) : Statement (.copRsubtractG result ra rb rc) :=
  of_opcode (opField_packR _ _ _ _ _) rfl
theorem copMultiplyI (result : CopResult) (ra rb rc : RegField) : Statement (.copMultiplyI result ra rb rc) :=
  of_opcode (opField_packR _ _ _ _ _) rfl
theorem copMultiplyF (result : CopResult) (ra rb rc : RegField) : Statement (.copMultiplyF result ra rb rc) :=
  of_opcode (opField_packR _ _ _ _ _) rfl
theorem copMultiplyFg (result : CopResult) (ra rb rc : RegField) : Statement (.copMultiplyFg result ra rb rc) :=
  of_opcode (opField_packR _ _ _ _ _) rfl
theorem copMultiplyGf (result : CopResult) (ra rb rc : RegField) : Statement (.copMultiplyGf result ra rb rc) :=
  of_opcode (opField_packR _ _ _ _ _) rfl
theorem copMultiplyG (result : CopResult) (ra rb rc : RegField) : Statement (.copMultiplyG result ra rb rc) :=
  of_opcode (opField_packR _ _ _ _ _) rfl
theorem copDivideI (result : CopResult) (ra rb rc : RegField) : Statement (.copDivideI result ra rb rc) :=
  of_opcode (opField_packR _ _ _ _ _) rfl
theorem copDivideF (result : CopResult) (ra rb rc : RegField) : Statement (.copDivideF result ra rb rc) :=
  of_opcode (opField_packR _ _ _ _ _) rfl
theorem copDivideFg (result : CopResult) (ra rb rc : RegField) : Statement (.copDivideFg result ra rb rc) :=
  of_opcode (opField_packR _ _ _ _ _) rfl
theorem copDivideGf (result : CopResult) (ra rb rc : RegField) : Statement (.copDivideGf result ra rb rc) :=
  of_opcode (opField_packR _ _ _ _ _) rfl
theorem copDivideG (result : CopResult) (ra rb rc : RegField) : Statement (.copDivideG result ra rb rc) :=
  of_opcode (opField_packR _ _ _ _ _) rfl
theorem copRdivideI (result : CopResult) (ra rb rc : RegField) : Statement (.copRdivideI result ra rb rc) :=
  of_opcode (opField_packR _ _ _ _ _) rfl
theorem copRdivideF (result : CopResult) (ra rb rc : RegField) : Statement (.copRdivideF result ra rb rc) :=
  of_opcode (opField_packR _ _ _ _ _) rfl
theorem copRdivideFg (result : CopResult) (ra rb rc : RegField) : Statement (.copRdivideFg result ra rb rc) :=
  of_opcode (opField_packR _ _ _ _ _) rfl
theorem copRdivideGf (result : CopResult) (ra rb rc : RegField) : Statement (.copRdivideGf result ra rb rc) :=
  of_opcode (opField_packR _ _ _ _ _) rfl
theorem copRdivideG (result : CopResult) (ra rb rc : RegField) : Statement (.copRdivideG result ra rb rc) :=
  of_opcode (opField_packR _ _ _ _ _) rfl
theorem copFix (result : CopResult) (ra rb rc : RegField) : Statement (.copFix result ra rb rc) :=
  of_opcode (opField_packR _ _ _ _ _) rfl
theorem copFloatf (result : CopResult) (ra rb rc : RegField) : Statement (.copFloatf result ra rb rc) :=
  of_opcode (opField_packR _ _ _ _ _) rfl
theorem copFloatg (result : CopResult) (ra rb rc : RegField) : Statement (.copFloatg result ra rb rc) :=
  of_opcode (opField_packR _ _ _ _ _) rfl
theorem copScale (result : CopResult) (ra rb rc : RegField) : Statement (.copScale result ra rb rc) :=
  of_opcode (opField_packR _ _ _ _ _) rfl
theorem copLdExp (result : CopResult) (ra rb rc : RegField) : Statement (.copLdExp result ra rb rc) :=
  of_opcode (opField_packR _ _ _ _ _) rfl
theorem copWrSign (result : CopResult) (ra rb rc : RegField) : Statement (.copWrSign result ra rb rc) :=
  of_opcode (opField_packR _ _ _ _ _) rfl
theorem copRdTod (result : CopResult) (ra rb rc : RegField) : Statement (.copRdTod result ra rb rc) :=
  of_opcode (opField_packR _ _ _ _ _) rfl
theorem copWrInt (result : CopResult) (ra rb rc : RegField) : Statement (.copWrInt result ra rb rc) :=
  of_opcode (opField_packR _ _ _ _ _) rfl
theorem copWrTod (result : CopResult) (ra rb rc : RegField) : Statement (.copWrTod result ra rb rc) :=
  of_opcode (opField_packR _ _ _ _ _) rfl
theorem copNop (result : CopResult) (ra rb rc : RegField) : Statement (.copNop result ra rb rc) :=
  of_opcode (opField_packR _ _ _ _ _) rfl
theorem trap (ra rb : RegField) (literal : BitVec 6) : Statement (.trap ra rb literal) :=
  of_opcode (opField_packM _ _ _ _) rfl
theorem loadAddress (ra rb : RegField) (disp : BitVec 16) : Statement (.loadAddress ra rb disp) :=
  of_opcode (opField_packM _ _ _ _) rfl
theorem undef1 (ra rb : RegField) (disp : BitVec 16) : Statement (.undef1 ra rb disp) :=
  of_opcode (opField_packM _ _ _ _) rfl
theorem undef2 (ra rb : RegField) (disp : BitVec 16) : Statement (.undef2 ra rb disp) :=
  of_opcode (opField_packM _ _ _ _) rfl

end Sys2Proof.Laws.PrivilegedOpcode
end

