-- ==== Sys2Proof/Tests/Slice0.lean ====
section
/-!
SUPPORT. Tests: ill-formed terms, decoded words of spec/95_test_vectors.md, single steps of its tables, and a witness
for the hypotheses of every obligation that has some. Expected values are those of spec/95_test_vectors.md unless
said.
-/
namespace Sys2Proof.Tests

set_option Elab.async false

open Sys2Proof Sys2Proof.Machine

/-! ## Well-formedness -/

/-- Shift 32 and sizes 0 and 33 are refused, the ends of the ranges are not (R139, R141). -/
theorem test_wellFormed_refuses :
    (Instr.extract 1#6 2#6 3#6 32 8).wellFormed = false ∧ (Instr.extract 1#6 2#6 3#6 0 0).wellFormed = false ∧
    (Instr.extract 1#6 2#6 3#6 0 33).wellFormed = false ∧ (Instr.aluVext true 1#6 2#6 3#6 0).wellFormed = false ∧
    (Instr.aluVext true 1#6 2#6 3#6 33).wellFormed = false ∧
    (Instr.aluBext true 1#6 2#6 3#6 true 0).wellFormed = false ∧
    (Instr.aluBext true 1#6 2#6 3#6 true 33).wellFormed = false ∧
    (Instr.extract 1#6 2#6 3#6 31 32).wellFormed = true ∧ (Instr.extract 1#6 2#6 3#6 0 1).wellFormed = true := by
  decide +kernel

/-! ## Decoding -/

/-- Too few bytes, and words of no row, are rejected by name (R157). -/
theorem test_decode_rejects :
    (decode [0x10#8, 0x40#8, 0x00#8]).toOption = none ∧
    decodeWord 0x10400001#32 = .undescribed (.special 1#6 0#6 1#16) ∧
    decodeWord 0xA0420C44#32 ≠ decodeWord 0xA0420C24#32 := by
  decide +kernel

/-- Words of spec/95_test_vectors.md B1 (R170 to R173). -/
theorem test_decode_trapping :
    ∀ p ∈ [
      (0x00810000#32, Instr.abort 2#6 1#6 0#16), (0xC0000005#32, Instr.trap 0#6 0#6 5#6),
      (0xC000003F#32, Instr.trap 0#6 0#6 63#6), (0xE0C40000#32, Instr.undef1 3#6 4#6 0#16),
      (0xF0C40000#32, Instr.undef2 3#6 4#6 0#16)],
      (decode (bytesOfWord p.1)).toOption = some p.2 ∧ encode p.2 = p.1 := by
  decide +kernel

/-- Words of spec/95_test_vectors.md B1 (R181 to R198, R211 to R214). -/
theorem test_decode_specials :
    ∀ p ∈ [
      (0x10400000#32, Instr.readStatus 1#6 0#6), (0x10400040#32, Instr.readPcQ 1#6 0#6),
      (0x10400280#32, Instr.writeStatus 1#6 0#6), (0x104000C3#32, Instr.readInstTFR 1#6 0#6),
      (0x10400103#32, Instr.readDataTFR 1#6 0#6), (0x108100C1#32, Instr.readInstTlbTag0 2#6 1#6),
      (0x108100D5#32, Instr.readInstTlbTag1 2#6 1#6), (0x10810101#32, Instr.readDataTlbTag0 2#6 1#6),
      (0x10810115#32, Instr.readDataTlbTag1 2#6 1#6), (0x108100C0#32, Instr.readInstTlbData0 2#6 1#6),
      (0x108100D4#32, Instr.readInstTlbData1 2#6 1#6), (0x10810100#32, Instr.readDataTlbData0 2#6 1#6),
      (0x10810114#32, Instr.readDataTlbData1 2#6 1#6), (0x10020207#32, Instr.writeInstTlbTag0 0#6 2#6),
      (0x1002020D#32, Instr.writeInstTlbTag1 0#6 2#6), (0x10020247#32, Instr.writeDataTlbTag0 0#6 2#6),
      (0x1002024D#32, Instr.writeDataTlbTag1 0#6 2#6), (0x1002020B#32, Instr.writeInstTlbData0 0#6 2#6),
      (0x1002020E#32, Instr.writeInstTlbData1 0#6 2#6), (0x1002024B#32, Instr.writeDataTlbData0 0#6 2#6),
      (0x1002024E#32, Instr.writeDataTlbData1 0#6 2#6), (0x10480080#32, Instr.getCtl 1#6 0x08#6),
      (0x11780080#32, Instr.getCtl 5#6 0x38#6), (0x102802C0#32, Instr.setCtl 0#6 0x28#6),
      (0x10300300#32, Instr.ioRead 0#6 0x30#6), (0x10300340#32, Instr.ioWrite 0#6 0x30#6)],
      (decode (bytesOfWord p.1)).toOption = some p.2 ∧ encode p.2 = p.1 := by
  decide +kernel

/-- Words of spec/95_test_vectors.md B1 (R225, R229, R233, R241 to R243, R250). -/
theorem test_decode_kernel_memory :
    ∀ p ∈ [
      (0x2000FFFF#32, Instr.kernelExit 0#6 0#6 0xFFFF#16), (0x300A0001#32, Instr.pseudoCall 0#6 10#6 1#16),
      (0x40010001#32, Instr.flush 0#6 1#6 1#16), (0x50C2FFFF#32, Instr.load 3#6 2#6 0xFFFF#16),
      (0x60C20004#32, Instr.store 3#6 2#6 4#16), (0xD0C08000#32, Instr.loadAddress 3#6 0#6 0x8000#16),
      (0x7F810000#32, Instr.goto 62#6 1#6 0#16), (0x703E0002#32, Instr.goto 0#6 62#6 2#16)],
      (decode (bytesOfWord p.1)).toOption = some p.2 ∧ encode p.2 = p.1 := by
  decide +kernel

/-- Words of spec/95_test_vectors.md B1 (R255, R256). -/
theorem test_decode_cjump :
    ∀ p ∈ [
      (0x81400003#32, Instr.cjumpEq 5#6 3#16), (0x81480003#32, Instr.cjumpNe 5#6 3#16),
      (0x81500003#32, Instr.cjumpLt 5#6 3#16), (0x81580003#32, Instr.cjumpGe 5#6 3#16),
      (0x81600003#32, Instr.cjumpGt 5#6 3#16), (0x81680003#32, Instr.cjumpLe 5#6 3#16),
      (0x81700003#32, Instr.cjumpOdd 5#6 3#16), (0x81780003#32, Instr.cjumpEven 5#6 3#16),
      (0x8150FFFC#32, Instr.cjumpLt 5#6 0xFFFC#16)],
      (decode (bytesOfWord p.1)).toOption = some p.2 ∧ encode p.2 = p.1 := by
  decide +kernel

/-- Words of spec/95_test_vectors.md B1 (R260, R139, R276, R278, R141). -/
theorem test_decode_extract :
    ∀ p ∈ [
      (0x90420F68#32, Instr.extract 1#6 2#6 3#6 4 8), (0x90420FE0#32, Instr.extract 1#6 2#6 3#6 0 32),
      (0x90420C01#32, Instr.extract 1#6 2#6 3#6 31 1), (0x9041079D#32, Instr.extract 1#6 1#6 1#6 3 29),
      (0xA0420D08#32, Instr.aluVext false 1#6 2#6 3#6 8), (0xA0420D00#32, Instr.aluVext false 1#6 2#6 3#6 32),
      (0xA6C20F08#32, Instr.aluVext true 27#6 2#6 3#6 8), (0xA0420D88#32, Instr.aluBext false 1#6 2#6 3#6 false 8),
      (0xA0420DA8#32, Instr.aluBext false 1#6 2#6 3#6 true 8),
      (0xA0820F90#32, Instr.aluBext true 2#6 2#6 3#6 false 16)],
      (decode (bytesOfWord p.1)).toOption = some p.2 ∧ encode p.2 = p.1 := by
  decide +kernel

/-- Words of spec/95_test_vectors.md B1 (R265 to R272). -/
theorem test_decode_alu :
    ∀ p ∈ [
      (0xA0420C24#32, Instr.aluAdd false 1#6 2#6 3#6), (0xA0420C30#32, Instr.aluSub false 1#6 2#6 3#6),
      (0xA0420C38#32, Instr.aluNeg false 1#6 2#6 3#6), (0xA0420C2A#32, Instr.aluGt false 1#6 2#6 3#6),
      (0xA0420C2B#32, Instr.aluGtu false 1#6 2#6 3#6), (0xA0420C2E#32, Instr.aluGe false 1#6 2#6 3#6),
      (0xA0420C2F#32, Instr.aluGeu false 1#6 2#6 3#6), (0xA0420C32#32, Instr.aluLt false 1#6 2#6 3#6),
      (0xA0420C33#32, Instr.aluLtu false 1#6 2#6 3#6), (0xA0420C36#32, Instr.aluLe false 1#6 2#6 3#6),
      (0xA0420C37#32, Instr.aluLeu false 1#6 2#6 3#6), (0xA0420C40#32, Instr.aluEqv false 1#6 2#6 3#6),
      (0xA0420C48#32, Instr.aluXor false 1#6 2#6 3#6), (0xA0420C50#32, Instr.aluOr false 1#6 2#6 3#6),
      (0xA0420C58#32, Instr.aluMovb false 1#6 2#6 3#6), (0xA0420C60#32, Instr.aluNot false 1#6 2#6 3#6),
      (0xA0420C68#32, Instr.aluMova false 1#6 2#6 3#6), (0xA0420C70#32, Instr.aluAnd false 1#6 2#6 3#6),
      (0xA0420C78#32, Instr.aluZero false 1#6 2#6 3#6), (0xA0420C20#32, Instr.aluAdd1 false 1#6 2#6 3#6),
      (0xA0420C28#32, Instr.aluRsub false 1#6 2#6 3#6), (0xA0420C2C#32, Instr.aluRsub1 false 1#6 2#6 3#6),
      (0xA0420C34#32, Instr.aluSub1 false 1#6 2#6 3#6), (0xA0420C3C#32, Instr.aluNegm1 false 1#6 2#6 3#6),
      (0xA1420E24#32, Instr.aluAdd true 5#6 2#6 3#6), (0xAFC00E68#32, Instr.aluMova true 63#6 0#6 3#6),
      (0xA0000268#32, Instr.aluMova true 0#6 0#6 0#6)],
      (decode (bytesOfWord p.1)).toOption = some p.2 ∧ encode p.2 = p.1 := by
  decide +kernel

/-- Words of spec/95_test_vectors.md B1 (R301 to R304, R310). -/
theorem test_decode_cop_arithmetic :
    ∀ p ∈ [
      (0xB0420380#32, Instr.copLoadI .null 1#6 2#6 0#6), (0xB04003C0#32, Instr.copLoadF .null 1#6 0#6 0#6),
      (0xB04203E0#32, Instr.copLoadGf .null 1#6 2#6 0#6), (0xB04203F0#32, Instr.copLoadG .null 1#6 2#6 0#6),
      (0xB0420382#32, Instr.copAddI .null 1#6 2#6 0#6), (0xB04203C2#32, Instr.copAddF .null 1#6 2#6 0#6),
      (0xB04203D2#32, Instr.copAddFg .null 1#6 2#6 0#6), (0xB04203E2#32, Instr.copAddGf .null 1#6 2#6 0#6),
      (0xB04203F2#32, Instr.copAddG .null 1#6 2#6 0#6), (0xB0420384#32, Instr.copSubtractI .null 1#6 2#6 0#6),
      (0xB04203C4#32, Instr.copSubtractF .null 1#6 2#6 0#6), (0xB04203D4#32, Instr.copSubtractFg .null 1#6 2#6 0#6),
      (0xB04203E4#32, Instr.copSubtractGf .null 1#6 2#6 0#6), (0xB04203F4#32, Instr.copSubtractG .null 1#6 2#6 0#6),
      (0xB0420386#32, Instr.copRsubtractI .null 1#6 2#6 0#6), (0xB04203C6#32, Instr.copRsubtractF .null 1#6 2#6 0#6),
      (0xB04203D6#32, Instr.copRsubtractFg .null 1#6 2#6 0#6),
      (0xB04203E6#32, Instr.copRsubtractGf .null 1#6 2#6 0#6),
      (0xB04203F6#32, Instr.copRsubtractG .null 1#6 2#6 0#6), (0xB042038A#32, Instr.copMultiplyI .null 1#6 2#6 0#6),
      (0xB04203CA#32, Instr.copMultiplyF .null 1#6 2#6 0#6), (0xB04203DA#32, Instr.copMultiplyFg .null 1#6 2#6 0#6),
      (0xB04203EA#32, Instr.copMultiplyGf .null 1#6 2#6 0#6), (0xB04203FA#32, Instr.copMultiplyG .null 1#6 2#6 0#6),
      (0xB042038C#32, Instr.copDivideI .null 1#6 2#6 0#6), (0xB04203CC#32, Instr.copDivideF .null 1#6 2#6 0#6),
      (0xB04203DC#32, Instr.copDivideFg .null 1#6 2#6 0#6), (0xB04203EC#32, Instr.copDivideGf .null 1#6 2#6 0#6),
      (0xB04203FC#32, Instr.copDivideG .null 1#6 2#6 0#6), (0xB042038E#32, Instr.copRdivideI .null 1#6 2#6 0#6),
      (0xB04203CE#32, Instr.copRdivideF .null 1#6 2#6 0#6), (0xB04203DE#32, Instr.copRdivideFg .null 1#6 2#6 0#6),
      (0xB04203EE#32, Instr.copRdivideGf .null 1#6 2#6 0#6), (0xB04203FE#32, Instr.copRdivideG .null 1#6 2#6 0#6)],
      (decode (bytesOfWord p.1)).toOption = some p.2 ∧ encode p.2 = p.1 := by
  decide +kernel

/-- Words of spec/95_test_vectors.md B1 (R292, R313 to R326). -/
theorem test_decode_cop_other :
    ∀ p ∈ [
      (0xB00003D0#32, Instr.copFix .null 0#6 0#6 0#6), (0xB04203C8#32, Instr.copFloatf .null 1#6 2#6 0#6),
      (0xB04203D8#32, Instr.copFloatg .null 1#6 2#6 0#6), (0xB04003E8#32, Instr.copScale .null 1#6 0#6 0#6),
      (0xB04003F8#32, Instr.copLdExp .null 1#6 0#6 0#6), (0xB0400388#32, Instr.copWrSign .null 1#6 0#6 0#6),
      (0xB0000398#32, Instr.copRdTod .null 0#6 0#6 0#6), (0xB04203B0#32, Instr.copWrInt .null 1#6 2#6 0#6),
      (0xB04203B8#32, Instr.copWrTod .null 1#6 2#6 0#6), (0xB0000C28#32, Instr.copNop .sign 0#6 0#6 3#6),
      (0xB0000CA8#32, Instr.copNop .exp 0#6 0#6 3#6), (0xB0000D28#32, Instr.copNop .inth 0#6 0#6 3#6),
      (0xB0000DA8#32, Instr.copNop .intl 0#6 0#6 3#6), (0xB0000E28#32, Instr.copNop .dph 0#6 0#6 3#6),
      (0xB0000EA8#32, Instr.copNop .dpl 0#6 0#6 3#6), (0xB0000F28#32, Instr.copNop .sp 0#6 0#6 3#6),
      (0xB0000FA8#32, Instr.copNop .null 0#6 0#6 3#6)],
      (decode (bytesOfWord p.1)).toOption = some p.2 ∧ encode p.2 = p.1 := by
  decide +kernel

/-! ## Single steps -/

/-- What a result says of the next state, `false` on a stop. -/
def after (r : Host.Outcome State Fault Refusal) (p : State → Bool) : Bool :=
  match r with
  | .next t => p t
  | _ => false

/-- A next state is an answer. -/
theorem next_of_after {r : Host.Outcome State Fault Refusal} {p : State → Bool} (h : after r p = true) :
    ∃ t, r = .next t ∧ p t = true := by
  cases r with
  | next t => exact ⟨t, rfl, h⟩
  | fault f => cases h
  | refused f => cases h

/-- A state with a general register set. -/
def put (s : State) (i : RegIndex) (v : Word) : State := { s with regs := s.regs.set i.toNat v i.isLt }

/-- User mode, mapping off: PSW 0x08006000 of B4. -/
def user : State := { State.reset with psw := { Psw.reset with rom := false, krn := false, pre := false } }

/-- User mode with prv. -/
def userPrv : State := { user with psw := { user.psw with prv := true } }

/-- Kernel mode, mapping off, without the Boot-Prom: PSW 0x68006000. -/
def kernel : State := { State.reset with psw := { Psw.reset with rom := false } }

/-- A translation buffer entry of B3: pid 0, tag 2, valid, real page 0x123. -/
def entry (writable : Bool) : TlbEntry :=
  { pid := 0#8, tag := 2#13, invalid := false, writable := writable, rpn := 0x123#22, tagParity := .good,
    dataParity := .good }

/-- The data buffer of B3: column 0, row 0. -/
def dataBuffer (writable : Bool) : Tlb := tlbPut Tlb.blank false 0x100000#32 0#8 (entry writable)

/-- User mode with data mapping on, the data buffer of B3 and r2 = 0x00400000. -/
def mapped (writable : Bool) : State :=
  put { user with psw := { user.psw with dmp := false }, dtlb := dataBuffer writable } 2#8 0x00400000#32

/-- The PSW image of trap entry (B4), its undefined bits 5..0 shown as 0. -/
def pswHigh (s : State) : Word := { s.psw with literal := 0#6 }.toWord

theorem test_reset_psw : State.reset.psw.toWord = 0xE8006000#32 := by decide +kernel

/-- B3: row and tag of a reference. -/
theorem test_tlb_row :
    tlbRow 0x400#32 0#8 = 1 ∧ tlbRow 0x400#32 2#8 = 9 ∧ tlbRow 0x100000#32 5#8 = 20 ∧ tlbRow 0x40000#32 1#8 = 260 ∧
    tlbRow 0x3FC00#32 255#8 = 251 ∧ tlbRow 0x0#32 64#8 = 0 ∧ tagOf 0x100000#32 = 2#13 ∧ tagOf 0x80000#32 = 1#13 := by
  decide +kernel

/-- B3: a lookup, a write protection violation and a miss. -/
theorem test_lookup :
    dataReference (dataBuffer false) { user.psw with dmp := false } 0x100002#32 false = .real 0x48C02#32 ∧
    dataReference (dataBuffer false) { user.psw with dmp := false } 0x100002#32 true = .readOnly ∧
    dataReference (dataBuffer false) { user.psw with dmp := false } 0x180000#32 false = .noTranslation := by
  decide +kernel

/-- B2: effective addresses. -/
theorem test_effective_address :
    effectiveAddress 0x2003#32 2#16 = 0x802#32 ∧ effectiveAddress 0#32 0xFFFF#16 = 0xFFFFFFFF#32 ∧
    effectiveAddress 0xFFFFFFFC#32 1#16 = 0x40000000#32 ∧ effectiveAddress 0x1000#32 0x8000#16 = 0xFFFF8400#32 := by
  decide +kernel

/-- B4: abort and trap 5 in user mode, in the delay slot of a taken goto. -/
theorem test_abort :
    after (exec (.abort 2#6 1#6 0#16) { user with pc := 0x5000#32, npc := 0x5004#32 })
      (fun t => pswHigh t == 0x68006800#32 && t.pc2 == 0x5000#32 && t.pc1 == 0x5004#32 &&
        t.pc == 0#32 && t.npc == 4#32) = true := by
  decide +kernel

theorem test_trap :
    after (exec (.trap 0#6 0#6 5#6) { user with pc := 0x5004#32, npc := 0x6000#32 })
      (fun t => t.psw.toWord == 0x68006045#32 && t.pc2 == 0x5004#32 && t.pc1 == 0x6000#32) = true := by
  decide +kernel

/-- B4: kernel mode halts with the operands in the record. -/
theorem test_abort_kernel :
    after (exec (.abort 2#6 1#6 0#16) (put { kernel with pc := 0x201C#32, npc := 0x2020#32 } 2#8 15#32))
      (fun t => t.halted == some { cause := .abort, pc := 0x201C#32, npc := 0x2020#32, ar := 15#32, br := 0#32 }) =
        true := by
  decide +kernel

/-- B4: a privileged instruction in user mode; an external request with any instruction. -/
theorem test_privileged :
    after (exec (.readStatus 1#6 0#6) { user with pc := 0x5000#32, npc := 0x5004#32 })
      (fun t => pswHigh t == 0x68006800#32 && t.mc.ioSel == user.mc.ioSel && t.reg 1#8 == 0#32) =
        true := by
  decide +kernel

/-- B4: a load without a translation, a store to a read-only page. -/
theorem test_data_faults :
    after (exec (.load 1#6 1#6 0#16) (put (mapped false) 1#8 0x00600000#32))
      (fun t => pswHigh t == 0x68006200#32 && t.dtfr == 0x600#22 && t.reg 1#8 == 0x00600000#32) =
        true ∧
    after (exec (.store 3#6 2#6 1#16) (mapped false))
      (fun t => pswHigh t == 0x68006100#32 && t.dtfr == 0x400#22) = true := by
  decide +kernel

/-- B5: ReadPcQ, the write of one data-side entry. -/
theorem test_readPcQ :
    after (exec (.readPcQ 3#6 0#6) { kernel with pc2 := 0x5004#32, pc1 := 0x5008#32 })
      (fun t => t.reg 3#8 == 0x5004#32 && t.pc2 == 0x5008#32) = true := by
  decide +kernel

theorem test_write_tlb :
    after (exec (.writeDataTlbTag0 0#6 2#6) (put { kernel with rr := some 0x1000#32 } 2#8 0x00400000#32))
      (fun t => tlbEntry t.dtlb false 0x100000#32 0#8 ==
        { TlbEntry.blank with tag := 2#13, invalid := false, tagParity := .good }) = true ∧
    after (exec (.writeInstTlbData0 0#6 2#6) (put { kernel with rr := some 0xFFFB73FF#32 } 2#8 0x00400000#32))
      (fun t => tlbEntry t.itlb false 0x100000#32 0#8 ==
        { TlbEntry.blank with rpn := 0x123#22, dataParity := .good }) = true := by
  decide +kernel

/-- R30, R196: a write of a translation buffer leaves RR as it was, and the next special finds none loaded. -/
theorem test_write_tlb_takes_result :
    after (exec (.writeDataTlbTag0 0#6 2#6) { kernel with rr := some 0x1000#32 })
      (fun t => t.rr == some 0x1000#32 && t.loadedResult == none) = true := by
  decide +kernel

/-- R425, R427: a ring is empty after a reset though bit 15 of its Get pointer was set. -/
theorem test_tda_empty_ring :
    let l : TdaLayout :=
      { commandPut := 0#9, commandGet := 1#9, responsePut := 2#9, responseGet := 3#9, commandBase := 16#9,
        commandSize := 16, responseBase := 32#9, responseSize := 16, highFirst := true }
    let d := tdaEmptyRings l { words := Vector.replicate 256 0x00408040#32, int := false }
    tdaHalf l d 0#9 = 0x40#16 ∧ tdaHalf l d 1#9 = 0x40#16 := by
  decide +kernel

/-- B6: GetCtl returns what was selected before; SetCtl of Enable; the poll of a TNA; the lock. -/
theorem test_control :
    after (exec (.getCtl 1#6 0x28#6) { kernel with mc := { kernel.mc with ioSel := 0x10#6, ioReadData := 7#32 } })
      (fun t => t.reg 1#8 == 7#32 && t.mc.ioSel == 0x28#6) = true ∧
    after (exec (.setCtl 0#6 0x28#6) { kernel with mc := { kernel.mc with ioSel := 0x28#6 }, rr := some 0xC0000178#32 })
      (fun t => t.mc.enable == 0xC0000178#32) = true := by
  decide +kernel

theorem test_ioRead :
    after (exec (.ioRead 0#6 0x30#6) { kernel with mc := { kernel.mc with slot := 1#3 }, rr := some 0xFFFFFFFF#32 })
      (fun t => t.mc.ioReadData == 4#32 && t.mc.ack && t.mc.hErrs == 0#4) = true ∧
    after (exec (.ioRead 0#6 0x30#6) { kernel with mc := { kernel.mc with slot := 5#3 }, rr := some 0xFFFFFFFF#32 })
      (fun t => t.mc.ioReadData == 0#32 && !t.mc.ack && t.mc.hErrs == 1#4) = true ∧
    after (exec (.ioRead 0#6 0x30#6) { kernel with mc := { kernel.mc with ioWriteData := 1#32 }, rr := some 0#32 })
      (fun t => t.mc.lock == .cpu) = true := by
  decide +kernel

/-- B7: kernelExit, pseudoCall, flush. -/
theorem test_kernelExit :
    after (exec (.kernelExit 0#6 0#6 0xFFFF#16)
        { kernel with pc := 0x108#32, npc := 0x10C#32, pc2 := 0x2000#32, pc1 := 0x2004#32 })
      (fun t => t.pc == 0x10C#32 && t.npc == 0x1FFC#32 && t.pc2 == 0x2004#32 && t.pc1 == 0x108#32) = true := by
  decide +kernel

theorem test_pseudoCall :
    after (exec (.pseudoCall 0#6 10#6 1#16) (put { kernel with pc1 := 0x2004#32 } 10#8 0x2007#32))
      (fun t => t.pc2 == 0x2004#32 && t.pc1 == 0x2008#32) = true := by
  decide +kernel

theorem test_flush :
    after (exec (.flush 0#6 1#6 1#16)
        (put { kernel with dcache :=
          [(0x1233, { line := { w0 := 9#32, w1 := 0#32, w2 := 0#32, w3 := 0#32 }, dirty := true, bad := 0#4,
                      tagBad := false }),
           (0x1234, { line := { w0 := 1#32, w1 := 2#32, w2 := 3#32, w3 := 4#32 }, dirty := true, bad := 0#4,
                      tagBad := false })] }
          1#8 0x12340#32))
      (fun t => readWord t.mem 0x48D3 == 4#32 && t.dcache.length == 1 && readWord t.mem 0x48CC == 0#32) = true := by
  decide +kernel

/-- B8: goto with ra = rb; a conditional jump that is taken. -/
theorem test_goto :
    after (exec (.goto 5#6 5#6 0#16) (put { kernel with pc := 0x2000#32, npc := 0x2004#32 } 5#8 0x3003#32))
      (fun t => t.pc == 0x2004#32 && t.npc == 0x3000#32 && t.reg 5#8 == 0x2000#32) = true := by
  decide +kernel

/-- B8: the table of the eight conditions. -/
theorem test_conditions :
    ∀ p ∈ [(0#32, [true, false, false, true, false, true, false, true]),
      (1#32, [false, true, false, true, true, false, true, false]),
      (0x7FFFFFFF#32, [false, true, false, true, true, false, true, false]),
      (0x80000000#32, [false, true, true, false, false, true, false, true]),
      (0xFFFFFFFF#32, [false, true, true, false, false, true, true, false])],
      [Relation.eq, .ne, .lt, .ge, .gt, .le, .odd, .even].map (fun r => r.holds p.1) = p.2 := by
  decide +kernel

/-- The result in r3 of an instruction on r1 and r2. -/
def result (i : Instr) (a b : Word) : Option Word :=
  match exec i (put (put kernel 1#8 a) 2#8 b) with
  | .next t => some (t.reg 3#8)
  | _ => none

/-- B9: extract and the ALU. -/
theorem test_extract :
    result (.extract 1#6 2#6 3#6 4 8) 0x12345678#32 0x9ABCDEF0#32 = some 0xEF#32 ∧
    result (.extract 1#6 2#6 3#6 31 32) 0x12345678#32 0x9ABCDEF0#32 = some 0x2468ACF1#32 ∧
    result (.aluVext false 1#6 2#6 3#6 16) 0xFFFFFFEF#32 0x9ABCDEF0#32 = some 0x9ABC#32 ∧
    result (.aluBext false 1#6 2#6 3#6 false 32) 0xAABBCCDD#32 0x11223344#32 = some 0xCCDD1122#32 ∧
    result (.aluBext false 1#6 2#6 3#6 true 8) 1#32 0x11223344#32 = some 0x33#32 := by
  decide +kernel

theorem test_alu :
    result (.aluAdd false 1#6 2#6 3#6) 0x7FFFFFFF#32 1#32 = some 0x80000000#32 ∧
    result (.aluAdd1 false 1#6 2#6 3#6) 2#32 3#32 = some 6#32 ∧
    result (.aluSub false 1#6 2#6 3#6) 3#32 5#32 = some 0xFFFFFFFE#32 ∧
    result (.aluSub1 false 1#6 2#6 3#6) 5#32 1#32 = some 3#32 ∧
    result (.aluRsub false 1#6 2#6 3#6) 1#32 5#32 = some 4#32 ∧
    result (.aluRsub1 false 1#6 2#6 3#6) 1#32 5#32 = some 3#32 ∧
    result (.aluNeg false 1#6 2#6 3#6) 0x80000000#32 7#32 = some 0x80000000#32 ∧
    result (.aluNegm1 false 1#6 2#6 3#6) 0x0F0F0F0F#32 7#32 = some 0xF0F0F0F0#32 ∧
    result (.aluEqv false 1#6 2#6 3#6) 0x0F0F0F0F#32 0x00FF00FF#32 = some 0xF00FF00F#32 := by
  decide +kernel

/-- B9: the sign bit of the eight comparisons; the other bits are the free ones of the state's counter. -/
theorem test_compare_signed :
    result (.aluGt false 1#6 2#6 3#6) 0xFFFFFFFF#32 1#32 = some (compareResult false 0) ∧
    result (.aluGtu false 1#6 2#6 3#6) 0xFFFFFFFF#32 1#32 = some (compareResult true 0) ∧
    result (.aluGe false 1#6 2#6 3#6) 0xFFFFFFFF#32 1#32 = some (compareResult false 0) ∧
    result (.aluGeu false 1#6 2#6 3#6) 0xFFFFFFFF#32 1#32 = some (compareResult true 0) ∧
    result (.aluLt false 1#6 2#6 3#6) 0x80000000#32 0x7FFFFFFF#32 = some (compareResult true 0) ∧
    result (.aluLtu false 1#6 2#6 3#6) 0x80000000#32 0x7FFFFFFF#32 = some (compareResult false 0) ∧
    result (.aluLe false 1#6 2#6 3#6) 7#32 7#32 = some (compareResult true 0) ∧
    result (.aluLeu false 1#6 2#6 3#6) 0xFFFFFFFF#32 0#32 = some (compareResult false 0) :=
  ⟨rfl, rfl, rfl, rfl, rfl, rfl, rfl, rfl⟩

/-! ## The coprocessor -/

/-- An accumulator. -/
def acc (sign : Bool) (exp : Int) (frac : Dword) : Accumulator :=
  { sign := sign, exp := BitVec.ofInt 16 exp, frac := frac }

/-- The accumulator after an instruction on r1 and r2. -/
def cop (i : Instr) (ac : Accumulator) (a b : Word) : Option Accumulator :=
  match exec i (put (put { kernel with cp := { kernel.cp with ac := ac } } 1#8 a) 2#8 b) with
  | .next t => some t.cp.ac
  | _ => none

/-- B10: the integer operations. -/
theorem test_cop_integer :
    cop (.copLoadI .null 1#6 2#6 0#6) (acc false 3 0#64) 0xFFFFFFFF#32 0xFFFFFFFE#32 =
      some (acc true 3 0xFFFFFFFFFFFFFFFE#64) ∧
    cop (.copSubtractI .null 1#6 2#6 0#6) (acc false 0 5#64) 0#32 7#32 = some (acc false 0 0xFFFFFFFFFFFFFFFE#64) ∧
    cop (.copMultiplyI .null 1#6 2#6 0#6) (acc false 0 0xFFFFFFFD00000000#64) 7#32 0#32 =
      some (acc false 0 0xFFFFFFFFFFFFFFEB#64) ∧
    cop (.copDivideI .null 1#6 2#6 0#6) (acc false 0 0x64#64) 7#32 0#32 = some (acc false 0 0xFFFFFFFB0000000E#64) ∧
    cop (.copRdivideI .null 1#6 2#6 0#6) (acc false 0 0x700000000#64) 0#32 100#32 =
      some (acc false 0 0xFFFFFFFB0000000E#64) := by
  decide +kernel

/-- A machine whose coprocessor status word and PSW have their lost places reversed. -/
def moved : State :=
  { kernel with lay := { Layout.standard with
                           psw := .placed (Vector.ofFn Fin.rev)
                           copStatus := .placed (Vector.ofFn Fin.rev) } }

/-- R293, R322, R33: whatever the layout, neg and the fields above the trap bits stand where the spec has them; the
reversed places take rsvOp from bit 4 and noDiv from bit 5. -/
theorem test_layout_fixed_places :
    after (exec (.copWrSign .null 1#6 0#6 3#6) (put moved 1#8 0x80000010#32))
      (fun t => t.cp.ac.sign && t.cp.rsvOp && !t.cp.noDiv) = true ∧
    after (exec (.copNop .sign 0#6 0#6 3#6) { moved with cp := { moved.cp with ac := acc true 0 0#64 } })
      (fun t => (t.reg 3#8).getLsbD 31) = true ∧
    after (exec (.readStatus 3#6 0#6) moved) (fun t => (t.reg 3#8).extractLsb' 13 19 == 0x34003#19) = true := by
  decide +kernel

/-- B10: loads of F and G values, fix, conversions and exponents. -/
theorem test_cop_loads :
    cop (.copLoadF .null 1#6 2#6 0#6) (acc false 0 0#64) 0xC0C00000#32 0#32 = some (acc true 1 0x6000000000000000#64) ∧
    cop (.copLoadG .null 1#6 2#6 0#6) (acc false 0 0#64) 0xC0240000#32 0#32 = some (acc true 2 0x5000000000000000#64) ∧
    cop (.copFix .null 1#6 2#6 0#6) (acc true 2 0x5000000000000000#64) 0#32 0#32 =
      some (acc true 2 0xFFFFFFFFFFFFFFFE#64) ∧
    cop (.copScale .null 1#6 2#6 0#6) (acc false 1 0x4000000000000000#64) 0xFFFFFFFF#32 0#32 =
      some (acc false 0 0x4000000000000000#64) ∧
    cop (.copLdExp .null 1#6 2#6 0#6) (acc false 1 0x4000000000000000#64) 0x00010002#32 0#32 =
      some (acc false 2 0x4000000000000000#64) := by
  decide +kernel

/-- B10: exactly representable results do not depend on the rounding. -/
theorem test_cop_arithmetic :
    cop (.copSubtractF .null 1#6 2#6 0#6) (acc false 1 0x4000000000000000#64) 0xC0C00000#32 0#32 =
      some (acc false 2 0x5000000000000000#64) ∧
    cop (.copMultiplyF .null 1#6 2#6 0#6) (acc false 2 0x5000000000000000#64) 0x41000000#32 0#32 =
      some (acc false 3 0x5000000000000000#64) ∧
    cop (.copDivideF .null 1#6 2#6 0#6) (acc false 1 0x4000000000000000#64) 0x41800000#32 0#32 =
      some (acc false (-1) 0x4000000000000000#64) ∧
    cop (.copRdivideF .null 1#6 2#6 0#6) (acc false 3 0x4000000000000000#64) 0x40800000#32 0#32 =
      some (acc false (-1) 0x4000000000000000#64) ∧
    cop (.copSubtractF .null 1#6 2#6 0#6) (acc false 1 0x4000000000000000#64) 0x40800000#32 0#32 =
      some Accumulator.zero ∧
    cop (.copAddG .null 1#6 2#6 0#6) (acc false 1 0x4000000000000000#64) 0xC0240000#32 0#32 =
      some (acc true 1 0x6000000000000000#64) ∧
    cop (.copFloatg .null 1#6 2#6 0#6) (acc false 1 0x4000000000000000#64) 0xFFFFFFFF#32 0x80000000#32 =
      some (acc true 0 0x4000000000000000#64) := by
  decide +kernel

/-- B10: status words and results. -/
theorem test_cop_results :
    copResult Layout.standard .sign { kernel.cp with ac := acc true 1 0x6000000000000000#64 } = 0xC0000000#32 ∧
    copResult Layout.standard .sp { kernel.cp with ac := acc true 1 0x6000000000000000#64 } = 0xC0C00000#32 ∧
    copResult Layout.standard .dph { kernel.cp with ac := acc false 257 0x4000000000000000#64 } = 0x50100000#32 ∧
    copResult Layout.standard .sign { kernel.cp with ac := acc false 257 0x4000000000000000#64, abort := true } =
      0x68000000#32 ∧
    copResult Layout.standard .exp { kernel.cp with ac := acc false (-1) 0x4000000000000000#64 } = 0xFFFFFFFF#32 := by
  decide +kernel

/-- B10, B4: a reserved operand traps in user mode and sets abort and rsvOp. -/
theorem test_cop_reserved :
    after (exec (.copLoadF .null 1#6 0#6 0#6) (put { user with pc := 0x5000#32, npc := 0x5004#32 } 1#8 0x80000000#32))
      (fun t => pswHigh t == 0x68006080#32 && t.cp.abort && t.cp.rsvOp && t.pc2 == 0x5000#32) =
        true := by
  decide +kernel

/-- A step runs the word that the host places (R27): `r3 := 5 + r2` as the first instruction after reset. -/
theorem test_step :
    after (step (State.reset.withFetchWord 32 0xA1420E24))
      (fun t => t.reg 3#8 == 5#32 && t.pc == 0x1004#32) = true := by
  decide +kernel


/-! ## The environment and the adaptors -/

/-- A line of four words. -/
def line4 : Line := { w0 := 1#32, w1 := 2#32, w2 := 3#32, w3 := 4#32 }

/-- R119: the words of a DMA transaction start at the addressed word and wrap in the line. -/
theorem test_dma_order :
    dmaWords 0x402#32 line4 = { w0 := 3#32, w1 := 4#32, w2 := 1#32, w3 := 2#32 } ∧
    dmaLine 0x401#32 line4 = { w0 := 4#32, w1 := 1#32, w2 := 2#32, w3 := 3#32 } := by
  decide +kernel

/-- An ECC error in both half lines: single-bit or double-bit in words 0 and 2, bit 0 of word 3 in the other. -/
def eccError (double : Bool) : EccError :=
  { even := some (if double then .double 3#8 else .data false 31#5), odd := some (.data true 0#5) }

/-- R121: a single-bit error in each half line is noted and counted twice; uncorrected it flips a bit of each. The
syndromes are those of R64: data bit 31 of the first word, data bit 0 of the second. -/
theorem test_two_half_errors :
    let r := readRealLine { kernel with mem := writeLine [] 0 line4, ecc := [some (eccError false)] } false false 0#30
    r.1 = { w0 := 0x80000001#32, w1 := 2#32, w2 := 3#32, w3 := 5#32 } ∧ r.2.mc.hErrs = 8#4 ∧ r.2.mc.errCnt = 2 ∧
    r.2.mc.synHi = 0xB2#8 ∧ r.2.mc.synLo = 0xC3#8 ∧ r.2.ecc = [] := by
  decide +kernel

/-- R445: the test pattern of the address rom; R443, R430: identifiers. -/
theorem test_adaptor_roms :
    (List.range 8).map (fun k => tnaRomByte tnaInitial (BitVec.ofNat 5 (24 + k))) =
      [0xFF#8, 0x00#8, 0x55#8, 0xAA#8, 0xFF#8, 0x00#8, 0x55#8, 0xAA#8] ∧
    (tfaRead tfaInitial 7#32 0).1 = { data := 6#32, ack := true, perr := false } := by
  decide +kernel

/-- A layout of a TDA's words, for tests: 4 pointers, then two rings of 32 16-bit words. -/
def tdaPlan : TdaLayout :=
  { commandPut := 0#9, commandGet := 1#9, responsePut := 2#9, responseGet := 3#9, commandBase := 16#9,
    commandSize := 32, responseBase := 48#9, responseSize := 32, highFirst := true }

/-- R425, R426: the first segment into an empty response ring raises the interrupt; the one that fills it sets bit
15. -/
theorem test_tda_ring :
    let d := tdaSetHalf tdaPlan (tdaSetHalf tdaPlan tdaInitial 2#9 48#16) 3#9 48#16
    let once := tdaRespond tdaPlan d (Vector.replicate 16 7#16)
    let twice := tdaRespond tdaPlan { once with int := false } (Vector.replicate 16 8#16)
    once.int = true ∧ tdaHalf tdaPlan once 2#9 = 64#16 ∧ tdaHalf tdaPlan once 63#9 = 7#16 ∧
    twice.int = false ∧ tdaHalf tdaPlan twice 2#9 = 0x8030#16 ∧
    tdaRespond tdaPlan twice (Vector.replicate 16 9#16) = twice := by
  decide +kernel

/-- R432: with Loop set a word that the transmitter sends comes to the receiver's FIFO. -/
theorem test_tfa_loop :
    (tfaTxWord { tfaInitial with txEn := true, rxEn := true, loop := true, txSending := true, rxPhase := .taking,
                                 txFifo := [5#32] }).rxFifo = [5#32] ∧
    (tfaTxWord { tfaInitial with txEn := true, txSending := true, txLength := 1#20 }).txFE = true := by
  decide +kernel

/-- A TMA request packet. -/
def tmaRequest : TmaRequest :=
  { dest := 1#48, src := 2#48, type := 3#16, header := [4#8], interrupt := true, write := true, address := 0x400#32,
    data := [] }

/-- R421: a TMA request reads 32 lines; its Write bit names the place for the next packet's data. A second request
waits; each is answered, with 128 words, its addresses exchanged, its type and header. -/
theorem test_tma_request :
    let t := tmaAccept tmaInitial tmaRequest 0
    let u := (List.range 32).foldl (fun d _ => tmaDone d line4) (tmaAccept t { tmaRequest with address := 0#32 } 0)
    t.int = true ∧ t.writeTo = some 0x480#32 ∧
    t.jobs.map (fun j => (j.ops.length, j.ops.head?)) = [(32, some (.read 0x400#32))] ∧ u.sent = 1 ∧
    u.jobs.length = 1 ∧
    u.reply.map (fun r => (r.dest, r.src, r.type, r.header, r.words.length)) =
      some (2#48, 1#48, 3#16, [4#8], 128) := by
  decide +kernel

/-- R431: a receiver that overflows clears RxEn only when the packet ends; one whose packet has ended does so once
RxLength is written 0. -/
theorem test_tfa_overflow :
    let full := tfaRxWord { tfaInitial with rxEn := true, rxPhase := .taking, rxFifo := List.replicate 255 0#32 } 1#32
    let waits := tfaRxEnd { tfaInitial with
      rxEn := true, rxPhase := .taking, rxLength := 1#20, rxFifo := List.replicate 4 0#32 } false
    full.rxFE = true ∧ full.rxEn = true ∧ (tfaRxEnd full false).rxEn = false ∧ waits.rxEn = true ∧
    (tfaWrite waits 5#32 0#32 0).rxEn = false ∧ (tfaWrite waits 5#32 0#32 0).rxPX = true := by
  decide +kernel

/-- R452: the status of a packet that is flushed for want of a buffer is in the chip's status register; without a match
of the command it is not copied out. -/
theorem test_tna_flush :
    let d := tnaRxFlush { tnaInitial with ctrl := { tnaInitial.ctrl with rxEnbl := true } } 0x20#8
    d.seeqRxStatus = 0x20#8 ∧ d.rxStatus = tnaInitial.rxStatus ∧ d.ints.rx = false := by
  decide +kernel

/-- R161, R475, D10: nulls by their rc, whatever the function, that read no r0; another opcode is none. -/
theorem test_nulls :
    isNull (.aluVext true 1#6 2#6 0#6 8) = true ∧ isNull (.aluVext true 1#6 2#6 3#6 32) = false ∧
    isNull (.aluBext true 1#6 2#6 0#6 false 8) = true ∧ isNullWord (decodeWord 0xA0000268#32) = true ∧
    isNull (.aluMovb true 0#6 0#6 0#6) = false ∧ isNull (.aluAdd false 0#6 1#6 0#6) = false ∧
    isNullWord (decodeWord 0xA0000000#32) = false ∧ isNullWord (decodeWord 0xA0410000#32) = true ∧
    isNull (.extract 0#6 0#6 0#6 0 32) = false := by
  decide +kernel

/-- R131: an encoding with the numbers of load and store exchanged. -/
def exchanged : Encoding :=
  { Encoding.standard with opc := .coded #v[0#4, 1#4, 2#4, 3#4, 4#4, 6#4, 5#4, 7#4, 8#4, 9#4, 10#4, 11#4, 12#4, 13#4,
                                            14#4, 15#4] }

theorem test_encoding_parameter :
    exchanged.valid = true ∧
    (decodeWith exchanged [0x60#8, 0xC2#8, 0xFF#8, 0xFF#8]).toOption = some (.load 3#6 2#6 0xFFFF#16) ∧
    encodeWith exchanged (.load 3#6 2#6 0xFFFF#16) = 0x60C2FFFF#32 := by
  decide +kernel

/-- C1: the encoding in which the functions le and leu have the codes 0x34 and 0x35, and the sums theirs. -/
def otherLe : Encoding :=
  { Encoding.standard with aluFunctions := .coded (Vector.ofFn (fun k : Fin 128 =>
      if k.val / 2 = 0x1A ∨ k.val / 2 = 0x1B then BitVec.ofNat 7 (k.val ^^^ 2) else BitVec.ofNat 7 k.val)) }

/-- R273, U9, U24: the codes of le; the low bits of a conditional jump, read as R143's table; sb without sh. -/
theorem test_alu_le_codes :
    otherLe.valid = true ∧
    (decodeWith otherLe [0xA0#8, 0x42#8, 0x0C#8, 0x34#8]).toOption = some (.aluLe false 1#6 2#6 3#6) ∧
    encodeWith otherLe (.aluLe false 1#6 2#6 3#6) = 0xA0420C34#32 ∧
    decodeWord 0xA0420C36#32 = .instr (.aluLe false 1#6 2#6 3#6) ∧
    decodeWord 0x80410001#32 = .instr (.cjumpEq 1#6 1#16) ∧
    decodeWord (({ Encoding.standard with sbAlone := .anyValue } : Encoding).read 0xA0420CA0#32) =
      .undescribed (.alu false 1#6 2#6 3#6) := by
  decide +kernel

/-- R439: what the select and ScanCount codes stand for; R397: an empty slot takes no lock, an adaptor does. -/
theorem test_csm_lock :
    scanModule 0x6#4 = .slot 7#3 ∧ scanModule 0xC#4 = .slot 1#3 ∧ scanModule 0xD#4 = .reserved ∧
    scanModule 0xF#4 = .null ∧ scanCycles 0x7#4 = 8 ∧ scanCycles 0x8#4 = 0 ∧ kernel.takeLock 5#3 = .none ∧
    kernel.takeLock 1#3 = .slot 1#3 := by
  decide +kernel

/-! ## Witnesses: a state and operands that meet the hypotheses of each obligation

Obligations without hypotheses need none (ResetState, ResetInvariant, RegisterZeroDiscards, LoadAddress). `witness_X` is
for `Obligations.X`; several conjuncts are several clauses, at the ends of their ranges.
-/

/-- A result is a next state with a property, if `after` says so. -/
theorem goes {r : Host.Outcome State Fault Refusal} (h : after r (fun _ => true) = true) : ∃ t, r = .next t :=
  let ⟨t, h, _⟩ := next_of_after h
  ⟨t, h⟩

/-- Every next state has a property that `after` finds. -/
theorem of_after {r : Host.Outcome State Fault Refusal} {p : State → Bool} (h : after r p = true) :
    ∀ t, r = .next t → p t = true := by
  intro t ht
  rw [ht] at h
  exact h

/-- User mode, mapping off, nothing in flight. -/
theorem user_ready : user.userReady := ⟨rfl, rfl, rfl⟩

/-! ### Encoding and reset -/

theorem witness_DecodeWords : Encoding.standard = Encoding.standard := rfl

theorem witness_DecodeEncode :
    Encoding.standard.valid = true ∧ exchanged.valid = true ∧ (Instr.extract 63#6 63#6 63#6 31 32).wellFormed = true ∧
    (Instr.aluBext true 0#6 0#6 0#6 true 1).wellFormed = true := by
  decide +kernel

theorem witness_DecodedWellFormed : ∃ i, decodeWith Encoding.standard [0xA0#8, 0x42#8, 0x0D#8, 0x00#8] = .ok i :=
  ⟨_, rfl⟩

theorem witness_SpecialFunctionCodes :
    opField 0x10400040#32 = 1#4 ∧ (∃ i, decodeWord 0x10400040#32 = .instr i) ∧ opField 0x1000FFFF#32 = 1#4 ∧
    ∀ i, decodeWord 0x1000FFFF#32 ≠ .instr i :=
  ⟨rfl, ⟨_, rfl⟩, rfl, fun i h => by
    have e : decodeWord 0x1000FFFF#32 = .undescribed (.special 0#6 0#6 0xFFFF#16) := rfl
    rw [e] at h
    cases h⟩

/-- A packet for the clock/scan module that does nothing but ask for the halt signals. -/
def packet : CsmPacket :=
  { dest := 1#48, src := 2#48, type := 0x803A#16, seqNumber := 3#32, header := [],
    version := 3#8, scanInModeA := 0x0F#8,
    scanInBytes := 0#8, scanInBits := 0#8, go := 0#32, scanOutModeA := 0x0F#8, scanOutBytes := 0#8, scanOutBits := 0#8,
    endModeB := 0#8, endModeA := 0xFF#8, systemStatus := 0#8, scanData := Vector.replicate 80 0#8 }

/-- A module that has answered it. -/
def answered : Csm := { Csm.initial with last := some (2#48, 3#32) }

/-- A packet that is discarded, repeated, scans, steps what is stopped, stops the memory controller, boots, is plain,
stops everything. -/
theorem witness_ResetEvent :
    csmDiscards { packet with dest := 0xFFFFFFFFFFFF#48 } = true ∧
    csmDiscards { packet with type := 0x803B#16 } = true ∧
    csmDiscards packet = false ∧ csmRepeats answered packet = true ∧ csmRepeats Csm.initial packet = false ∧
    csmScans Layout.standard Csm.initial { packet with endModeB := 0x20#8 } = true ∧
    csmScans Layout.standard { Csm.initial with cpuStopped := true } { packet with go := 1#32 } = true ∧
    csmScans Layout.standard Csm.initial { packet with endModeA := 0xDF#8 } = false ∧
    csmScans Layout.standard Csm.initial { packet with endModeB := 0x10#8 } = false ∧
    (csmModeB Layout.standard 0x10#8).boot = true ∧ csmScans Layout.standard Csm.initial packet = false ∧
    (csmModeB Layout.standard packet.endModeB).boot = false ∧
    csmScans Layout.standard Csm.initial { packet with endModeA := 0x0F#8 } = false ∧
    (csmModeA Layout.standard 0x0F#8).runNs = false ∧ (csmModeA Layout.standard 0xFF#8).runNs = true ∧
    Csm.initial.ioStopped = false ∧ ({ Csm.initial with ioStopped := true } : Csm).ioStopped = true := by
  decide +kernel

/-! ### The step -/

theorem witness_StepKeepsInvariant : State.reset.Inv ∧ ∃ t, step State.reset = .next t :=
  ⟨⟨rfl, rfl, rfl, rfl, rfl, rfl, rfl, rfl, rfl, rfl, rfl⟩, goes (by decide +kernel)⟩

/-- The null placed as the first instruction of a kernel machine. -/
def placed : State := kernel.withFetchWord 32 0xA0000268

theorem witness_StepRunsDecoded :
    ∃ u t rwa, environment placed = .next u ∧ u.frozen = false ∧ u.stalled = false ∧ fetchParityHalts u = false ∧
      fetch u = .word 0xA0000268#32 t ∧
      decodeWith u.enc (bytesOfWord 0xA0000268#32) = .ok (.aluMova true 0#6 0#6 0#6) ∧
      icarAdmits t.icar (.instr (.aluMova true 0#6 0#6 0#6)) = true ∧
      parityHalts (.instr (.aluMova true 0#6 0#6 0#6)) t = false ∧ successorReference t = .real rwa ∧
      t.eff.krn = true := by
  have h : (match environment placed with
    | .next u => match fetch u with
      | .word w t => decide (u.frozen = false ∧ u.stalled = false ∧ fetchParityHalts u = false ∧ w = 0xA0000268#32 ∧
          u.enc = Encoding.standard ∧ t.icar = .idle ∧ parityHalts (.instr (.aluMova true 0#6 0#6 0#6)) t = false ∧
          successorReference t = .real 0x401#32 ∧ t.eff.krn = true)
      | _ => false
    | _ => false) = true := by decide +kernel
  revert h
  cases he : environment placed with
  | fault f => intro h; cases h
  | refused f => intro h; cases h
  | next u =>
    cases hf : fetch u with
    | word w t =>
      simp only [hf]
      intro h
      obtain ⟨h1, h2, h3, rfl, h5, h6, h7, h8, h9⟩ := of_decide_eq_true h
      exact ⟨u, t, _, rfl, h1, h2, h3, hf, by rw [h5]; rfl, by rw [h6]; rfl, h7, h8, h9⟩
    | noTranslation => simp only [hf]; intro h; cases h
    | ambiguous => simp only [hf]; intro h; cases h
    | stalled => simp only [hf]; intro h; cases h

/-- The memory controller halted. -/
def memoryHalted : State := { kernel with mc := { kernel.mc with halted := true } }

/-- A parity error in word 1 on the bus, for a fetch and for what else comes over it. -/
def busSpoilt (s : State) : State :=
  { s with busInst := some { k := 1#2, v := 7#32 }, busData := some { k := 1#2, v := 7#32 } }

/-- The instruction cache holds the line, the controller has halted or is stopped, it runs: Boot-Prom, populated or
vacant module, an error due, in memory or on the bus. -/
theorem witness_FetchReads :
    instReference kernel.itlb kernel.psw (kernel.pc >>> 2) = .real 0x400#32 ∧
    mapGet ({ kernel with icache := [(0x100, { line := line4, bad := 0#4, tagBad := false })] } : State).icache
        (lineOf 0x400#32).toNat =
      some { line := line4, bad := 0#4, tagBad := false } ∧
    (mapGet memoryHalted.icache (lineOf 0x400#32).toNat = none ∧ memoryHalted.mcDown = true) ∧
    ({ kernel with csm := { kernel.csm with mcStopped := true } } : State).mcDown = true ∧
    (mapGet kernel.icache (lineOf 0x400#32).toNat = none ∧ kernel.mcDown = false) ∧
    kernel.busInst = none ∧ (busSpoilt kernel).busInst = some { k := 1#2, v := 7#32 } ∧
      (busSpoilt kernel).mcDown = false ∧
    inBootProm State.reset.psw.rom (lineOf 0x400#32) = true ∧ inBootProm kernel.psw.rom (lineOf 0x400#32) = false ∧
    isPopulated kernel.populated (lineOf 0x400#32) = true ∧
    isPopulated ({ kernel with populated := 0b1110#4 } : State).populated (lineOf 0x400#32) = false ∧
    ({ kernel with ecc := [some (eccError true)] } : State).ecc.head? = some (some (eccError true)) := by
  decide +kernel

/-- A halted kernel machine. -/
def stopped : State :=
  { kernel with halted := some { cause := .trap, pc := 0#32, npc := 4#32, ar := 0#32, br := 0#32 } }

/-- No input is listed. -/
theorem quiet {s : State} (h : s.inputs = []) :
    ∀ i, s.inputs.head? = some i → ∀ e ∈ i.events, e ≠ .reset ∧
      ∀ p, e = .csm p → csmDiscards p = true ∨ (csmModeB s.lay p.endModeB).boot = false :=
  fun i hi => by simp [h] at hi

/-- A halted machine that meets one packet for the clock/scan module. -/
def asked (p : CsmPacket) : State := { stopped with inputs := [{ extraCycles := 0, events := [.csm p] }] }

/-- A packet without Boot, or one that is discarded, resets nothing. -/
theorem asked_without_boot {p : CsmPacket}
    (h : csmDiscards p = true ∨ (csmModeB Layout.standard p.endModeB).boot = false) :
    ∀ i, (asked p).inputs.head? = some i → ∀ e ∈ i.events, e ≠ .reset ∧
      ∀ q, e = .csm q → csmDiscards q = true ∨ (csmModeB (asked p).lay q.endModeB).boot = false := by
  intro i hi e he
  cases hi
  simp only [List.mem_singleton] at he
  subst he
  exact ⟨by simp, fun q hq => by cases hq; exact h⟩

theorem witness_HaltedStays :
    stopped.halted = some { cause := .trap, pc := 0#32, npc := 4#32, ar := 0#32, br := 0#32 } ∧
    (∀ i, stopped.inputs.head? = some i → ∀ e ∈ i.events, e ≠ .reset ∧
      ∀ p, e = .csm p → csmDiscards p = true ∨ (csmModeB stopped.lay p.endModeB).boot = false) ∧
    (∃ t, step stopped = .next t) ∧
    ∀ p ∈ [packet, { packet with dest := 0xFFFFFFFFFFFF#48, endModeB := 0x10#8 }],
      (asked p).halted = some { cause := .trap, pc := 0#32, npc := 4#32, ar := 0#32, br := 0#32 } ∧
      (∀ i, (asked p).inputs.head? = some i → ∀ e ∈ i.events, e ≠ .reset ∧
        ∀ q, e = .csm q → csmDiscards q = true ∨ (csmModeB (asked p).lay q.endModeB).boot = false) ∧
      ∃ t, step (asked p) = .next t := by
  refine ⟨rfl, quiet rfl, goes (by decide +kernel), fun p hp => ?_⟩
  simp only [List.mem_cons, List.not_mem_nil, or_false] at hp
  rcases hp with rfl | rfl
  · exact ⟨rfl, asked_without_boot (by decide +kernel), goes (by decide +kernel)⟩
  · exact ⟨rfl, asked_without_boot (by decide +kernel), goes (by decide +kernel)⟩

/-- User mode with the coprocessor's request asserted. -/
def requested : State := { user with cp := { user.cp with intPending := true } }

theorem witness_InterruptSuppresses :
    requested.userReady ∧ (requested.extReq || requested.copReq) = true ∧
    parityHalts (decodeWord 0xA0000268#32) requested = false ∧ successorReference requested = .real 0x401#32 :=
  ⟨⟨rfl, rfl, rfl⟩, by decide +kernel, by decide +kernel, by decide +kernel⟩

/-- Instruction mapping on, with empty translation buffers. -/
def unmapped (s : State) : State := { s with psw := { s.psw with imp := false, dmp := false } }

/-- A null, and an abort that halts by itself. -/
theorem witness_SuccessorFault :
    successorReference (unmapped user) = .noTranslation ∧ (unmapped user).userReady ∧
    parityHalts (decodeWord 0xA0000268#32) (unmapped user) = false ∧
    successorReference (unmapped kernel) = .noTranslation ∧ (unmapped kernel).eff.krn = true ∧
    (unmapped kernel).icar = .idle ∧ (unmapped kernel).nextPsw.krn = true ∧
    parityHalts (decodeWord 0xA0000268#32) (unmapped kernel) = false ∧
    parityHalts (decodeWord 0#32) (unmapped kernel) = false ∧
    (∀ t, execDecoded (decodeWord 0xA0000268#32) (unmapped kernel) = .next t → t.halted = none) ∧
    ∃ t, execDecoded (decodeWord 0#32) (unmapped kernel) = .next t ∧ t.halted ≠ none :=
  ⟨by decide +kernel, ⟨rfl, rfl, rfl⟩, by decide +kernel, by decide +kernel, rfl, rfl, rfl, by decide +kernel,
    by decide +kernel,
    fun t h => of_decide_eq_true (of_after (p := fun t => decide (t.halted = none)) (by decide +kernel) t h),
    let ⟨t, h, h2⟩ := next_of_after (r := execDecoded (decodeWord 0#32) (unmapped kernel))
      (p := fun t => decide (t.halted ≠ none)) (by decide +kernel)
    ⟨t, h, of_decide_eq_true h2⟩⟩

/-! ### Registers, ALU, jumps -/

theorem witness_RegisterBanks : kernel.hist.special2 = false ∧ 1#6 ≠ 0#6 ∧ 63#6 ≠ 0#6 := by decide +kernel

/-- For AluArithmetic, AluCompare, AluLogical and VariableExtract: a literal and a register operand, both ends of the
size. -/
theorem witness_aluOperands :
    (63#32 = if true = true then (63#6).setWidth 32 else user.readA 63#6) ∧ 0#32 = user.readB 1#6 ∧
    (0#32 = if false = true then (1#6).setWidth 32 else user.readA 1#6) ∧ 1 ≤ 1 ∧ 1 ≤ 32 ∧ 32 ≤ 32 := by
  decide +kernel

theorem witness_ExtractField : 0 ≤ 31 ∧ 31 ≤ 31 ∧ 1 ≤ 1 ∧ 1 ≤ 32 ∧ 32 ≤ 32 := by decide

theorem witness_Goto : user.hist.special2 = false := rfl

/-- A user machine right after a special that wrote register 2. -/
def justWrote : State :=
  { user with hist := { History.empty with last := { Did.nothing with special := true, wrote := some 2#8 } } }

/-- In the clear, and right after a special that wrote another register. -/
theorem witness_ConditionalJump :
    aligned user.pc ∧ user.hist.last.special = false ∧ user.hist.special2 = false ∧
    justWrote.hist.last.special = true ∧ justWrote.hist.last.wrote ≠ some (justWrote.raIndex 1#6) ∧
    justWrote.hist.special2 = false ∧
    (Instr.cjumpEven 1#6 0xFFFF#16, decide ((user.readA 1#6).toNat % 2 = 0)) ∈
      [(Instr.cjumpEven 1#6 0xFFFF#16, decide ((user.readA 1#6).toNat % 2 = 0))] :=
  ⟨rfl, rfl, rfl, rfl, by decide +kernel, rfl, List.mem_singleton_self _⟩

/-! ### Memory -/

/-- One entry in each column, both, none; a read-only and a writable one. -/
theorem witness_TranslationLookup :
    (dataBuffer false).col0[0]? = some (entry false) ∧ (dataBuffer false).col1[0]? = some TlbEntry.blank ∧
    ((0x100002#32).extractLsb' 10 9).toNat / 256 * 256 + (((0x100002#32).extractLsb' 10 9).toNat + 4 * 0) % 256 = 0 ∧
    (entry false).pid = 0#8 ∧ (entry false).tag = (0x100002#32).extractLsb' 19 13 ∧ (entry false).invalid = false ∧
    TlbEntry.blank.invalid = true ∧ (entry false).writable = false ∧ (entry true).writable = true ∧
    (tlbPut (dataBuffer true) true 0x100000#32 0#8 (entry true)).col1[0]? = some (entry true) ∧
    user.psw.dmp = true ∧ (mapped true).psw.dmp = false ∧ user.psw.imp = true ∧ (unmapped user).psw.imp = false := by
  decide +kernel

/-- A line in the data cache, in main memory, in the Boot-Prom. -/
theorem witness_Load :
    (∃ rwa, dataReference (mapped false).dtlb (mapped false).eff
        (((mapped false).readB 2#6 >>> 2) + (2#16).signExtend 32) false = .real rwa ∧
      (mapped false).lineReady (lineOf rwa) ∧ (mapped false).hasDataLine (lineOf rwa) = false) ∧
    (∃ rwa, dataReference State.reset.dtlb State.reset.eff
        ((State.reset.readB 1#6 >>> 2) + (0#16).signExtend 32) false = .real rwa ∧
      State.reset.lineReady (lineOf rwa) ∧ inBootProm State.reset.eff.rom (lineOf rwa) = true) ∧
    ∃ s : State, s.lineReady 0#30 ∧ s.hasDataLine 0#30 = true :=
  ⟨⟨0x48C02#32, by decide +kernel, .inr ⟨rfl, rfl, .inr (by decide +kernel)⟩, by decide +kernel⟩,
    ⟨0#32, by decide +kernel, .inr ⟨rfl, rfl, .inl (by decide +kernel)⟩, by decide +kernel⟩,
    ⟨{ kernel with dcache := [(0, { line := line4, dirty := true, bad := 0#4, tagBad := false })] },
      .inl (by decide +kernel),
      by decide +kernel⟩⟩

theorem witness_Store :
    ∃ rwa, dataReference (mapped true).dtlb (mapped true).eff
        (((mapped true).readB 2#6 >>> 2) + (2#16).signExtend 32) true = .real rwa ∧
      (mapped true).lineReady (lineOf rwa) :=
  ⟨0x48C02#32, by decide +kernel, .inr ⟨rfl, rfl, .inr (by decide +kernel)⟩⟩

theorem witness_StoreThenLoad :
    ∃ t, exec (.store 2#6 2#6 2#16) (mapped true) = .next t ∧
      dataReference (mapped true).dtlb (mapped true).eff (((mapped true).readB 2#6 >>> 2) + (2#16).signExtend 32) true =
        .real 0x48C02#32 ∧
      ¬((mapped true).mcDown = true ∧ (mapped true).hasDataLine (lineOf 0x48C02#32) = false) ∧
      dataReference t.dtlb t.eff ((t.readB 2#6 >>> 2) + (2#16).signExtend 32) false = .real 0x48C02#32 := by
  obtain ⟨t, h, h2⟩ := next_of_after (by decide +kernel : after (exec (.store 2#6 2#6 2#16) (mapped true)) (fun t =>
    decide (dataReference t.dtlb t.eff ((t.readB 2#6 >>> 2) + (2#16).signExtend 32) false = .real 0x48C02#32)) = true)
  exact ⟨t, h, by decide +kernel, by decide +kernel, of_decide_eq_true h2⟩

/-- Both references to a line that is absent; a Boot-Prom line, a vacant module, no error, errors in the half lines, and
one on the bus. -/
theorem witness_LoadErrors :
    (∀ store, dataReference kernel.dtlb kernel.eff ((kernel.readB 1#6 >>> 2) + (0#16).signExtend 32) store =
      .real 0#32) ∧
    kernel.hasDataLine (lineOf 0#32) = false ∧ kernel.mcDown = false ∧ kernel.busData = none ∧
    (busSpoilt kernel).busData = some { k := 1#2, v := 7#32 } ∧
      kernel.dirtyPromMiss (lineOf 0#32) = false ∧ inBootProm kernel.eff.rom (lineOf 0#32) = false ∧
    inBootProm State.reset.eff.rom (lineOf 0#32) = true ∧
    isPopulated ({ kernel with populated := 0b1110#4 } : State).populated (lineOf 0#32) = false ∧
    isPopulated kernel.populated (lineOf 0#32) = true ∧ kernel.ecc.head? ≠ some (some (eccError false)) ∧
    (∀ d, ({ kernel with ecc := [some (eccError d)] } : State).ecc.head? = some (some (eccError d)) ∧
      (eccError d).even ≠ none ∧ (eccError d).has d = true) ∧
    ({ kernel with mc := { kernel.mc with enable := 0x100#32 } } : State).mc.enable.getLsbD 8 = true := by
  decide +kernel

/-- A dirty and a clean line of the data cache. -/
def twoLines : DataCache :=
  [(255, { line := line4, dirty := true, bad := 0#4, tagBad := false }),
    (256, { line := line4, dirty := false, bad := 0#4, tagBad := false })]

/-- A processor that waits. -/
def waiting : State := { memoryHalted with stalled := true }

theorem witness_MemoryControllerHalted :
    memoryHalted.mc.halted = true ∧
      ({ kernel with csm := { kernel.csm with mcStopped := true } } : State).csm.mcStopped =
      true ∧ memoryHalted.mayPrivileged ∧
    (∀ store, dataReference memoryHalted.dtlb memoryHalted.eff
      ((memoryHalted.readB 1#6 >>> 2) + (0#16).signExtend 32) store = .real 0#32) ∧
    memoryHalted.hasDataLine (lineOf 0#32) = false ∧ memoryHalted.dirtyPromMiss (lineOf 0#32) = false ∧
    memoryHalted.eff.imp = true ∧ memoryHalted.eff.dmp = true ∧
    (flushAddress { memoryHalted with dcache := twoLines } 1#6 1#16).getLsbD 0 = true ∧
    (∃ e ∈ twoLines, flushCovers (flushAddress { memoryHalted with dcache := twoLines } 1#6 1#16) e.1 = true ∧
      e.2.dirty = true) ∧
    waiting.stalled = true ∧
    (∀ i, waiting.inputs.head? = some i → Event.reset ∉ i.events ∧ ∀ p, Event.csm p ∉ i.events) ∧
    ∃ t, step waiting = .next t :=
  ⟨rfl, rfl, rfl, by decide +kernel, by decide +kernel, by decide +kernel, rfl, rfl, by decide +kernel,
    ⟨_, List.mem_cons_self, by decide +kernel, rfl⟩, rfl, (fun i hi => by cases hi), goes (by decide +kernel)⟩

/-- A kernel machine with lines in its caches, a TFA that stores a line, and an undescribed adaptor in slot 7. -/
def busy : State :=
  { kernel with
    dcache := twoLines, icache := [(255, { line := line4, bad := 0#4, tagBad := false })],
    slots := (kernel.slots.set 2 (Slot.holding (.tfa { tfaInitial with
      rxEn := true, rxPhase := .taking, rxLength := 1#20, rxFifo := [1#32, 2#32, 3#32, 4#32] }))).set 6
      (Slot.holding (.other false)) }

/-- A dirty line with a bad word. -/
def badLine : DataCache := [(255, { line := line4, dirty := true, bad := 1#4, tagBad := false })]

/-- A dirty and a clean line, an instruction line; DMA both ways at both ends of memory and of the slots, in a vacant
module; two slots at once; the halted memory controller. -/
theorem witness_EnvironmentMemory :
    busy.frozen = false ∧ busy.mcDown = false ∧ busy.csm.ioStopped = false ∧
      busy.psw.rom = false ∧ busy.psw.par = true ∧
    ({ busy with psw := { busy.psw with par := false } } : State).psw.par = false ∧
    mapGet ({ busy with dcache := badLine } : State).dcache (255#30).toNat =
      some { line := line4, dirty := true, bad := 1#4, tagBad := false } ∧
    mapGet busy.dcache (255#30).toNat = some { line := line4, dirty := true, bad := 0#4, tagBad := false } ∧
    mapGet busy.dcache (256#30).toNat = some { line := line4, dirty := false, bad := 0#4, tagBad := false } ∧
    isPopulated busy.populated 255#30 = true ∧
    (∀ k : Fin 7, k = 1 ∨ k = 6 → ∀ a ∈ [0#32, 0xFFFFFFFF#32],
      slotTransaction busy.slots[k] (.write a line4) 0 = some (.write a line4) ∧
      slotTransaction busy.slots[k] (.read a) 0 = some (.read a)) ∧
    slotTransaction busy.slots[2] .receive 0 = some (.write 0#32 line4) ∧
    isPopulated busy.populated (lineOf 0xFFFFFFFF#32) = true ∧
    isPopulated ({ busy with populated := 0b1110#4 } : State).populated (lineOf 0#32) = false ∧
    ({ busy with mc := { busy.mc with halted := true } } : State).mcDown = true ∧ (0 : Fin 7) < 6 ∧
    ∀ n : Fin 7, (#v[some DmaRequest.tma, none, none, none, none, none, some (.read 0#32)])[n] =
      if n = 0 then some DmaRequest.tma else if n = 6 then some (.read 0#32) else none :=
  ⟨rfl, rfl, rfl, rfl, rfl, rfl, by decide +kernel, by decide +kernel, by decide +kernel, by decide +kernel, by
    rintro k (rfl | rfl) a ha <;> exact ⟨rfl, rfl⟩, by decide +kernel, by decide +kernel, by decide +kernel, rfl,
    by decide, by decide⟩

/-- `mapped` in kernel mode. -/
def mappedKernel : State := put { unmapped kernel with dtlb := dataBuffer false } 2#8 0x00400000#32

/-- Both kinds of reference without a translation and the read-only page, in user and in kernel mode. -/
theorem witness_DataFaults :
    (mapped false).userReady ∧ mappedKernel.eff.krn = true ∧
    (∀ store,
      dataReference (mapped false).dtlb (mapped false).eff
        (((mapped false).readB 1#6 >>> 2) + (0x8000#16).signExtend 32) store = .noTranslation ∧
      dataReference mappedKernel.dtlb mappedKernel.eff ((mappedKernel.readB 1#6 >>> 2) + (0x8000#16).signExtend 32)
        store = .noTranslation) ∧
    dataReference (mapped false).dtlb (mapped false).eff
      (((mapped false).readB 2#6 >>> 2) + (2#16).signExtend 32) true = .readOnly ∧
    dataReference mappedKernel.dtlb mappedKernel.eff ((mappedKernel.readB 2#6 >>> 2) + (2#16).signExtend 32) true =
      .readOnly :=
  ⟨⟨rfl, rfl, rfl⟩, rfl, by decide +kernel, by decide +kernel, by decide +kernel⟩

theorem witness_Trapping : user.userReady ∧ kernel.eff.krn = true := ⟨user_ready, rfl⟩

/-- Bad parity in both parts. -/
def badEntry : TlbEntry := { TlbEntry.blank with tagParity := .bad, dataParity := .bad }

/-- Parity checked; register 1 has bad parity, and so have the buffer entries of row 0, the word at pc, and words and a
tag of the data cache. -/
def spoiltKernel : State :=
  { kernel with
    psw := { kernel.psw with par := false }, marks := (kernel.marks.set 1 .bad).set 2 .good,
    itlb := { kernel.itlb with col0 := kernel.itlb.col0.set 0 badEntry },
    dtlb := { kernel.dtlb with col1 := kernel.dtlb.col1.set 0 badEntry },
    icache := [(0x100, { line := line4, bad := 1#4, tagBad := false }),
               (0x200, { line := line4, bad := 0#4, tagBad := true })],
    dcache := [(0, { line := line4, dirty := false, bad := 1#4, tagBad := false }),
               (0x100, { line := line4, dirty := false, bad := 0#4, tagBad := true })] }

/-- The same with empty caches and an error on the bus. -/
def busKernel : State := { busSpoilt spoiltKernel with icache := [], dcache := [] }

theorem witness_ParityHalts :
    spoiltKernel.eff.unprivileged = false ∧
    (∀ k ∈ [spoiltKernel, busKernel], k.eff.par = false ∧ k.psw.par = false ∧
      instReference k.itlb k.psw (k.pc >>> 2) = .real 0x400#32 ∧
      ∀ store, dataReference k.dtlb k.eff ((k.readB 2#6 >>> 2) + (0#16).signExtend 32) store = .real 0#32) ∧
    (∃ e ∈ spoiltKernel.dcache, e.2.tagBad = true ∧ e.1 % 256 = (lineOf 0#32).toNat % 256) ∧
    (∃ e ∈ spoiltKernel.icache, e.2.tagBad = true ∧ e.1 % 256 = (lineOf 0x400#32).toNat % 256) ∧
    (mapGet spoiltKernel.dcache (lineOf 0#32).toNat).any (fun d => d.bad.getLsbD (wordInLine 0#32).toNat) = true ∧
    (mapGet spoiltKernel.icache (lineOf 0x400#32).toNat).any
      (fun d => d.bad.getLsbD (wordInLine 0x400#32).toNat) = true ∧
    busKernel.dcache = [] ∧ busKernel.icache = [] ∧ busKernel.mcDown = false ∧ busKernel.busData ≠ none ∧
    busKernel.busInst ≠ none ∧ user.eff.unprivileged = true ∧ user.nextPsw.imp = true ∧
    kernel.eff.par = true ∧ kernel.nextPsw.par = true ∧ kernel.psw.par = true ∧
    fetchParityHalts spoiltKernel = true ∧ icarAdmits spoiltKernel.icar (decodeWord 0xA0410C20#32) = true ∧
    parityHalts (decodeWord 0xA0410C20#32) spoiltKernel = true ∧ spoiltKernel.eff.par = false ∧
    spoiltKernel.mark (spoiltKernel.raIndex 1#6) = .bad ∧ spoiltKernel.mark (spoiltKernel.rbIndex 1#6) = .bad ∧
    (tlbEntry spoiltKernel.itlb false (tlbAddress spoiltKernel 1#6) spoiltKernel.eff.pid).tagParity = .bad ∧
    (tlbEntry spoiltKernel.dtlb true (tlbDataReadAddress spoiltKernel 1#6) spoiltKernel.eff.pid).tagParity = .bad ∧
    (tlbEntry spoiltKernel.itlb false (tlbAddress spoiltKernel 1#6) spoiltKernel.eff.pid).dataParity = .bad ∧
    (tlbEntry spoiltKernel.dtlb true (tlbDataReadAddress spoiltKernel 1#6) spoiltKernel.eff.pid).dataParity = .bad ∧
    (unmapped spoiltKernel).eff.dmp = false ∧
    (tlbEntry (unmapped spoiltKernel).dtlb true ((unmapped spoiltKernel).ea 1#6 0#16)
      (unmapped spoiltKernel).eff.pid).tagParity = .bad ∧
    spoiltKernel.nextPsw.imp = true ∧ spoiltKernel.mark (spoiltKernel.raIndex 63#6) = .unwritten ∧
    (∀ x ∈ sources (.aluAdd false 2#6 0#6 1#6), ∀ m ∈ x.marks spoiltKernel, m = .good) := by
  decide +kernel

/-- R193, R367: column 1's tag read reports column 0's match as well, and halts on the bad parity of column 0. -/
theorem test_tag_read_other_column :
    parityHalts (.instr (.readInstTlbTag1 3#6 1#6)) spoiltKernel = true ∧
    (tlbEntry spoiltKernel.itlb true (tlbAddress spoiltKernel 1#6) spoiltKernel.eff.pid).tagParity ≠ .bad := by
  decide +kernel

/-! ### Privileged instructions -/

theorem witness_PrivilegedTraps :
    trapClass (.ioWrite 0#6 0#6) = .privileged ∧ trapClass (.flush 0#6 0#6 0#16) = .privileged ∧ user.userReady ∧
    user.eff.prv = false :=
  ⟨rfl, rfl, user_ready, rfl⟩

/-- Kernel mode, and user mode with prv. -/
theorem witness_ReadStatus :
    kernel.lay.valid = true ∧ kernel.mayPrivileged ∧ kernel.eff.krn = true ∧ userPrv.mayPrivileged ∧
    userPrv.eff.krn = false := ⟨rfl, rfl, rfl, rfl, rfl⟩

/-- For WriteStatus and WriteStatusDelay. -/
theorem witness_WriteStatus :
    kernel.mayPrivileged ∧ kernel.pc.extractLsb' 2 2 = 0#2 ∧ kernel.pend1 = none ∧ kernel.pend2 = none ∧
    kernel.pend3 = none ∧ kernel.psw.krn = true ∧ ∃ t, exec (.writeStatus 1#6 0#6) kernel = .next t :=
  ⟨rfl, rfl, rfl, rfl, rfl, rfl, _, rfl⟩

theorem witness_TrapRegisterReads :
    kernel.mayPrivileged ∧ kernel.eff.krn = true ∧ kernel.lay.tfr = .byteAddress ∧ userPrv.mayPrivileged ∧
    userPrv.eff.krn = false := ⟨rfl, rfl, rfl, rfl, rfl⟩

/-- For TlbReads and TlbWrites; the row is exact for r0, and where rb was not just written. -/
theorem witness_Tlb :
    kernel.mayPrivileged ∧ ({ kernel with rr := some 0#32 } : State).loadedResult = some 0#32 ∧
    kernel.hist.last.wrote ≠ some (kernel.rbIndex 2#6) ∧ kernel.hist.last.store = false ∧
    kernel.pc.extractLsb' 2 2 ≠ 2#2 ∧ (kernel.npc + 4#32).extractLsb' 2 2 ≠ 0#2 :=
  ⟨rfl, rfl, by decide +kernel, rfl, by decide +kernel, by decide +kernel⟩

/-- A machine whose next instruction but one is not in sequence. -/
def branching : State := { kernel with npc := 0x2000#32 }

theorem witness_IcarIdiom :
    kernel.mayPrivileged ∧ kernel.inFlight = false ∧ aligned kernel.pc ∧ kernel.npc = kernel.pc + 4#32 ∧
    kernel.hist.last.special = false ∧ kernel.mcDown = false ∧
    (∃ t, exec (.readInstTFR 1#6 0#6) kernel = .next t) ∧
    (∃ t, exec (.pseudoCall 0#6 1#6 0#16) kernel = .next t) ∧ (∃ t, exec (.flush 0#6 1#6 1#16) kernel = .next t) ∧
    decodeWord 0xA0000268#32 ≠ .instr (.goto 0#6 0#6 1#16) ∧ isNullWord (decodeWord 0x70000001#32) = false ∧
    branching.npc ≠ branching.pc + 4#32 ∧ ∃ t, exec (.readInstTFR 1#6 0#6) branching = .next t :=
  ⟨rfl, rfl, rfl, rfl, rfl, rfl, ⟨_, rfl⟩, ⟨_, rfl⟩, goes (by decide +kernel), by decide +kernel,
    by decide +kernel, by decide +kernel, _, rfl⟩

/-! ### I/O -/

/-- A kernel machine with a control register selected and RR loaded. -/
def selecting (a : BitVec 6) : State := { kernel with mc := { kernel.mc with ioSel := a }, rr := some 0xFFFFFFFF#32 }

/-- For GetCtl and SetCtl: every documented register, and an address that selects none. -/
theorem witness_GetCtl_SetCtl :
    (∀ a ∈ [0x01#6, 0x10#6, 0x20#6, 0x30#6, 0x08#6, 0x28#6, 0x18#6, 0x38#6],
      (selecting a).lay.valid = true ∧ (selecting a).eff.unprivileged = false ∧ (selecting a).mcDown = false ∧
      (selecting a).busData = none ∧ (busSpoilt (selecting a)).busData = some { k := 1#2, v := 7#32 } ∧
      (selecting a).loadedResult = some 0xFFFFFFFF#32 ∧ (selecting a).mc.ioSel = a ∧
      (selecting a).hist.last.io = false ∧
      (selecting a).hist.last.setCtl ≠ some a ∧ (selecting a).hist.setCtl2 ≠ some a ∧
      (selecting a).hist.last.memory = false ∧ (selecting a).hist.last.special = false ∧
      (selecting a).pc.extractLsb' 2 2 ≠ 3#2) ∧
    (selecting 0x3F#6).mc.ioSel ∉ [0x20#6, 0x28#6, 0x30#6, 0x08#6, 0x01#6, 0x10#6, 0x18#6, 0x38#6] := by
  decide +kernel

/-- A TNA whose receiver is enabled with a full descriptor fifo, and whose Octart was referenced at cycle 0. -/
def fullTna : Tna :=
  { tnaInitial with octartLast := some 0, rxWrite := 15#4, ctrl := { tnaInitial.ctrl with rxEnbl := true } }

/-- A TNA whose Octart was referenced at cycle 0 and whose descriptor fifo is full, at cycle 9, and an address. -/
def netBusy (addr : Word) : State :=
  { kernel with
    rr := some addr, mc := { kernel.mc with slot := 1#3 }, cycles := 9,
    slots := kernel.slots.set 0 (Slot.holding (.tna fullTna)) }

/-- Slot 1 and slot 7; an Octart reference too soon, a descriptor too many. -/
theorem witness_IoTransactions :
    kernel.mayPrivileged ∧ kernel.mcDown = false ∧ kernel.csm.ioStopped = false ∧
    ({ kernel with csm := { kernel.csm with ioStopped := true } } : State).slots[(0 : Fin 7)].adaptor ≠ .empty ∧
    (selecting 0#6).loadedResult = some 0xFFFFFFFF#32 ∧
    kernel.hist.last.io = false ∧ (1#3).toNat = (0 : Fin 7).val + 1 ∧ (7#3).toNat = (6 : Fin 7).val + 1 ∧
    (netBusy 0x100#32).ioRefusal 0x100#32 false = some .octartTooSoon ∧
    (netBusy 0x43#32).ioRefusal 0x43#32 true = some .descriptorFifoFull ∧
    (netBusy 0x43#32).ioRefusal 0x43#32 false = none ∧ (netBusy 0x42#32).ioRefusal 0x42#32 true = none :=
  ⟨rfl, rfl, rfl, by decide +kernel, rfl, rfl, rfl, rfl, by decide +kernel, by decide +kernel, by decide +kernel,
    by decide +kernel⟩

theorem witness_IoLock :
    (selecting 0#6).mayPrivileged ∧ (selecting 0#6).mcDown = false ∧ (selecting 0#6).mc.slot = 0#3 ∧
    (selecting 0#6).loadedResult = some 0xFFFFFFFF#32 ∧ (selecting 0#6).hist.last.io = false ∧
    (0xFFFFFFFF#32).getLsbD 0 = true ∧ (selecting 0#6).mc.ioWriteData.getLsbD 0 = false :=
  ⟨rfl, rfl, rfl, rfl, rfl, rfl, rfl⟩

/-! ### Kernel control -/

theorem witness_PcQueueInstructions :
    kernel.mayPrivileged ∧ kernel.eff.krn = true ∧ kernel.eff.imp = true ∧ (unmapped kernel).mayPrivileged ∧
    (unmapped kernel).eff.imp = false ∧ userPrv.mayPrivileged ∧ userPrv.eff.krn = false ∧
    kernel.pc.extractLsb' 2 2 ≠ 2#2 ∧ (kernel.npc + 4#32).extractLsb' 2 2 ≠ 0#2 :=
  ⟨rfl, rfl, rfl, rfl, rfl, rfl, rfl, by decide +kernel, by decide +kernel⟩

/-- R477: word 2 of a line, and the delay slot of a branch to word 3; word 1 and word 3 in sequence do not miss. -/
theorem test_misses_in_ex :
    ({ kernel with pc := 0x1008#32, npc := 0x100C#32 } : State).missesInEx = true ∧
    ({ kernel with pc := 0x1000#32, npc := 0x200C#32 } : State).missesInEx = true ∧
    ({ kernel with pc := 0x1004#32, npc := 0x1008#32 } : State).missesInEx = false ∧
    ({ kernel with pc := 0x100C#32, npc := 0x1010#32 } : State).missesInEx = false := by
  decide +kernel

theorem witness_ReturnFromKernel :
    kernel.eff.krn = true ∧ kernel.pend1 = none ∧ kernel.pend2 = none ∧ kernel.pend3 = none ∧
    kernel.pc.extractLsb' 2 2 = 0#2 ∧ aligned kernel.pc1 ∧ aligned kernel.pc2 ∧
    ∃ t1, exec (.writeStatus 1#6 0#6) kernel = .next t1 ∧ ∃ t2, resultOnly t1 t2 0#6 0#32 (t1.npc + 4#32) :=
  ⟨rfl, rfl, rfl, rfl, rfl, rfl, rfl, _, rfl,
    let ⟨t2, _, h⟩ := finish_spec _ 0#6 0#32
    ⟨t2, h⟩⟩

/-- Mapping on; an even address; an odd one, with a dirty line that it covers and one that it does not. -/
theorem witness_Flush :
    kernel.mayPrivileged ∧ kernel.hist.last.wrote ≠ some (kernel.rbIndex 1#6) ∧ kernel.hist.last.store = false ∧
    (unmapped kernel).eff.imp = false ∧ kernel.eff.imp = true ∧ kernel.eff.dmp = true ∧
    ((kernel.readB 1#6 >>> 2) + (0#16).signExtend 32).getLsbD 0 = false ∧
    ((kernel.readB 1#6 >>> 2) + (1#16).signExtend 32).getLsbD 0 = true ∧ kernel.mcDown = false ∧
    mapSorted twoLines = true ∧ (lineOf 1#32).toNat ≤ (255#30).toNat ∧
    (255#30).extractLsb' 8 22 = (lineOf 1#32).extractLsb' 8 22 ∧ isPopulated kernel.populated 255#30 = true ∧
    (256#30).extractLsb' 8 22 ≠ (lineOf 1#32).extractLsb' 8 22 := by
  refine ⟨rfl, ?_⟩
  decide +kernel

/-- Two writable entries for one page. -/
def doubled : Tlb := tlbPut (dataBuffer true) true 0x100000#32 0#8 (entry true)

/-- Two valid entries for the page of pc and of its successor. -/
def doubledFetch : State := { unmapped kernel with itlb := doubled, pc := 0x00400008#32, npc := 0x0040000C#32 }

/-- The instruction that leaves kernel mode: a write of user mode with mapping on takes effect. -/
def leaving : State := { kernel with pend3 := some 0#32 }

/-- A user machine whose special restrictions are still open, with and without a translation. -/
def afterSpecial : State :=
  { requested with hist := { History.empty with last := { Did.nothing with userSpecial := true } } }

/-- A machine with the Boot-Prom mapped whose step has evicted a dirty line. -/
def evicted : State := { State.reset with dirtyEvicted := true }

theorem witness_NamedStops :
    (∀ store, dataReference doubled (mapped true).eff 0x100002#32 store = .ambiguous) ∧
    (fetchParityHalts doubledFetch = false ∧
      instReference doubledFetch.itlb doubledFetch.psw (doubledFetch.pc >>> 2) = .ambiguous) ∧
    (fetchParityHalts (unmapped user) = false ∧ (unmapped user).eff.krn = false ∧
      instReference (unmapped user).itlb (unmapped user).psw ((unmapped user).pc >>> 2) = .noTranslation) ∧
    (({ user with pend1 := some 0#32 } : State).eff.krn = false ∧
      ({ user with pend1 := some 0#32 } : State).inFlight = true ∧ afterSpecial.eff.krn = false ∧
      afterSpecial.afterUserSpecial = true ∧
      (ownTrap (trapClass (.abort 0#6 0#6 0#16)) afterSpecial).any = true) ∧
    (icarAdmits doubledFetch.icar (decodeWord 0xA0000268#32) = true ∧
      parityHalts (decodeWord 0xA0000268#32) doubledFetch = false ∧ successorReference doubledFetch = .ambiguous) ∧
    (parityHalts (decodeWord 0xA0000268#32) afterSpecial = false ∧ successorReference afterSpecial = .real 0x401#32 ∧
      (afterSpecial.extReq || afterSpecial.copReq) = true ∧
      successorReference (unmapped afterSpecial) = .noTranslation) ∧
    (leaving.eff.krn = true ∧ leaving.nextPsw.krn = false ∧ successorReference leaving = .noTranslation ∧
      after (execDecoded (decodeWord 0xA0000268#32) leaving) (fun t => decide (t.halted = none)) = true) ∧
    (evicted.dirtyEvicted = true ∧ evicted.hasDataLine (lineOf 0#32) = false ∧
      inBootProm evicted.eff.rom (lineOf 0#32) = true ∧
      ∀ store, dataReference evicted.dtlb evicted.eff ((evicted.readB 1#6 >>> 2) + (0#16).signExtend 32) store =
        .real 0#32) ∧
    (State.reset.mcDown = false ∧ State.reset.csm.ioStopped = false ∧ State.reset.psw.rom = true ∧
      slotTransaction State.reset.slots[1] (.read 0#32) 0 = some (.read 0#32)) ∧
    kernel.eff.unprivileged = false ∧
    (∀ a, (netBusy a).eff.unprivileged = false ∧ (netBusy a).mcDown = false ∧
        (netBusy a).csm.ioStopped = false ∧ (netBusy a).loadedResult = some a ∧
      (netBusy a).hist.last.io = false ∧ (netBusy a).mc.slot.toNat = (0 : Fin 7).val + 1 ∧
      (netBusy a).slots[(0 : Fin 7)] =
        Slot.holding (.tna fullTna)) ∧
    (0x100#32).extractLsb' 6 3 = 4#3 ∧ (netBusy 0x100#32).cycles < 0 + 10 ∧ (0x43#32).extractLsb' 6 3 = 1#3 ∧
    (0x43#32).extractLsb' 0 2 = 3#2 ∧ 15#4 + 1#4 = 0#4 ∧
    fullTna.ctrl.rxEnbl = true :=
  ⟨by decide +kernel, by decide +kernel, by decide +kernel, by decide +kernel, by decide +kernel, by decide +kernel,
    by decide +kernel, by decide +kernel, by decide +kernel, rfl,
    fun a => ⟨rfl, rfl, rfl, rfl, rfl, rfl, rfl⟩, rfl, by decide +kernel, rfl, rfl, rfl, rfl⟩

/-! ### Coprocessor -/

/-- A state with an accumulator. -/
def withAcc (s : State) (ac : Accumulator) : State := { s with cp := { s.cp with ac := ac } }

/-- A kernel machine right after a multi-cycle operation, and a user one. -/
def adjacent (s : State) : State :=
  { s with hist := { History.empty with last := { Did.nothing with copBusy := true } } }

/-- A reserved operand, a division by zero each way, a range error at each end of F and of G. -/
theorem witness_CopAborts :
    trapClass (.copLoadF .null 1#6 0#6 0#6) = .cop (.loadFloat .f) .null 1#6 0#6 ∧ kernel.hist.last.copBusy = false ∧
    (put kernel 1#8 0x80000000#32).copOperands (.loadFloat .f) 1#6 0#6 =
      (0x80000000#32, (put kernel 1#8 0x80000000#32).pc) ∧
    reservedOperandP .f 0x80000000#32 ∧ reservedOperandP .g 0x800FFFFF#32 ∧ ¬reservedOperandP .f 0#32 ∧
    (0#32).extractLsb' 23 8 = 0#8 ∧ (0#32).extractLsb' 20 11 = 0#11 ∧ kernel.cp.ac.frac = 0#64 ∧
    ((acc false 128 1#64).exp.toInt + 128 > 255 ∧ (acc false (-128) 1#64).exp.toInt + 128 < 1 ∧
      (acc false 1024 1#64).exp.toInt + 1024 > 2047 ∧ (acc false (-1024) 1#64).exp.toInt + 1024 < 1) ∧
    user.userReady ∧ kernel.eff.krn = true :=
  ⟨rfl, rfl, by decide +kernel, ⟨rfl, rfl⟩, ⟨rfl, rfl⟩, fun h => absurd h.1 (by decide), rfl, rfl, rfl,
    by decide +kernel, user_ready, rfl⟩

/-- The largest and the smallest exponent that F and G hold. -/
theorem witness_copReady :
    copReady (withAcc user (acc false 127 1#64)) .sp ∧ copReady (withAcc user (acc false (-127) 1#64)) .sp ∧
    copReady (withAcc user (acc false 1023 1#64)) .dpl ∧ copReady (withAcc user (acc false (-1023) 1#64)) .dph ∧
    copReady user .null :=
  ⟨⟨rfl, by decide +kernel⟩, ⟨rfl, by decide +kernel⟩, ⟨rfl, by decide +kernel⟩, ⟨rfl, by decide +kernel⟩,
    ⟨rfl, by decide +kernel⟩⟩

/-- The F number 1.0 of B10. -/
theorem fRat_one : fRat 0x40800000#32 = 1 := by
  have h1 : (0x40800000#32).extractLsb' 23 8 = 129#8 := by decide
  have h2 : (0x40800000#32).getLsbD 31 = false := by decide
  have h3 : (0x40800000#32).extractLsb' 0 23 = 0#23 := by decide
  unfold fRat
  rw [h1, h2, h3, if_neg (by decide)]
  norm_num

/-- The G number 1.0 (R297). -/
theorem gRat_one : gRat 0x4010000000000000#64 = 1 := by
  have h1 : (0x4010000000000000#64).extractLsb' 52 11 = 1025#11 := by decide
  have h2 : (0x4010000000000000#64).getLsbD 63 = false := by decide
  have h3 : (0x4010000000000000#64).extractLsb' 0 52 = 0#52 := by decide
  unfold gRat
  rw [h1, h2, h3, if_neg (by decide)]
  norm_num

/-- A divide by 1.0, alone, and right after a multi-cycle operation in either mode. -/
theorem witness_CopCompletes :
    trapClass (.copDivideF .null 1#6 2#6 3#6) = .cop (.float .divide .f) .null 1#6 2#6 ∧
    destination (.copDivideF .null 1#6 2#6 3#6) = some 3#6 ∧
    (0x40800000#32, 0#32) = (put kernel 1#8 0x40800000#32).copOperands (.float .divide .f) 1#6 2#6 ∧
    (put kernel 1#8 0x40800000#32).lay = Layout.standard ∧ copReady (put kernel 1#8 0x40800000#32) .null ∧
    ¬reservedOperandP .f 0x40800000#32 ∧ fRat 0x40800000#32 ≠ 0 ∧ (acc false 1 1#64).frac ≠ 0#64 ∧
    (adjacent kernel).eff.krn = true ∧ (adjacent user).userReady :=
  ⟨rfl, rfl, by decide +kernel, rfl, ⟨rfl, by decide +kernel⟩, fun h => absurd h.1 (by decide),
    by rw [fRat_one]; norm_num, by decide +kernel, rfl, ⟨rfl, rfl, rfl⟩⟩

/-- Normal forms of both precisions, in range at the ends; the standard layout and one with the lost
places of F and of the status word reversed. -/
theorem witness_CopResultFormats :
    Layout.standard.valid = true ∧
    ({ Layout.standard with
       fWord := .placed (Vector.ofFn Fin.rev)
       copStatus := .placed (Vector.ofFn Fin.rev) } : Layout).valid = true ∧
    floatNormal 24 (acc false 127 0x4000000000000000#64) ∧
    rangeError .sp (acc false 127 0x4000000000000000#64) = false ∧
    floatNormal 53 (acc true (-1023) 0x7FFFFFFFFFFFFC00#64) ∧
    rangeError .dph (acc true (-1023) 0x7FFFFFFFFFFFFC00#64) = false :=
  ⟨rfl, by decide +kernel, .inr (by decide +kernel), by decide +kernel, .inr (by decide +kernel), by decide +kernel⟩

/-- The smallest and the largest divisor. -/
theorem witness_CopInteger :
    copReady user .null ∧ 0 < (1#32).toNat ∧ (1#32).toNat < 2 ^ 31 ∧ (0x7FFFFFFF#32).toNat < 2 ^ 31 ∧
    ((0x0#64).extractLsb' 32 32).toNat < (1#32).toNat ∧
    ((0x7FFFFFFEFFFFFFFF#64).extractLsb' 32 32).toNat < (0x7FFFFFFF#32).toNat :=
  ⟨⟨rfl, by decide +kernel⟩, by decide +kernel, by decide +kernel, by decide +kernel, by decide +kernel,
    by decide +kernel⟩

/-- For CopFloatNormal: the operation, operands and condition of the three loads, an arithmetic function, floatf and
floatg. -/
theorem witness_CopFloatNormal :
    kernel.hist.last.copBusy = false ∧
    ∀ p ∈ [(Instr.copLoadF .null 1#6 2#6 3#6, CopOp.loadFloat .f), (.copLoadG .null 1#6 2#6 3#6, .loadFloat .g),
      (.copLoadGf .null 1#6 2#6 3#6, .loadFloat .gf), (.copMultiplyFg .null 1#6 2#6 3#6, .float .multiply .fg),
      (.copFloatf .null 1#6 2#6 3#6, .floatf), (.copFloatg .null 1#6 2#6 3#6, .floatg)],
      trapClass p.1 = .cop p.2 .null 1#6 2#6 ∧ destination p.1 = some 3#6 ∧
      (0#32, 0#32) = kernel.copOperands p.2 1#6 2#6 ∧ copTraps p.2 .null kernel.cp 0#32 0#32 = false := by
  decide +kernel

/-- 1 is exact in 24 bits and within the range of exponents. -/
theorem one_in_range :
    (2 : ℚ) ^ (-32000 : ℤ) < |(1 : ℚ)| ∧ |(1 : ℚ)| < (2 : ℚ) ^ (32000 : ℤ) ∧ representable 24 (1 : ℚ) := by
  refine ⟨?_, ?_, 1, 0, by norm_num, by norm_num⟩
  · rw [abs_one]; exact zpow_lt_one_of_neg₀ (by norm_num) (by norm_num)
  · rw [abs_one]; exact one_lt_zpow₀ (by norm_num) (by norm_num)

/-- 0 + 1.0, exact; 0 + 0; a gf load of 1.0; floatf of 1. -/
theorem witness_FloatRounding :
    trapClass (.copAddF .null 1#6 2#6 3#6) = .cop (.float .add .f) .null 1#6 2#6 ∧
    destination (.copAddF .null 1#6 2#6 3#6) = some 3#6 ∧ kernel.hist.last.copBusy = false ∧
    copTraps (.float .add .f) .null kernel.cp 0x40800000#32 0#32 = false ∧
    1 = exactRat .add (accumulatorRat kernel.cp.ac) (fRat 0x40800000#32) ∧
    exactRat .add (accumulatorRat kernel.cp.ac) (fRat 0#32) = 0 ∧
    trapClass (.copLoadGf .null 1#6 2#6 3#6) = .cop (.loadFloat .gf) .null 1#6 2#6 ∧
    copTraps (.loadFloat .gf) .null kernel.cp 0x40100000#32 0#32 = false ∧ 1 = gRat (0x40100000#32 ++ 0#32) ∧
    trapClass (.copFloatf .null 1#6 2#6 3#6) = .cop .floatf .null 1#6 2#6 ∧
    copTraps .floatf .null kernel.cp 1#32 0#32 = false ∧ kernel.lay.fpOp = .nearestAway ∧
    1 = (((1#32) ++ (0#32)).toInt : ℚ) / 2 ^ 32 := by
  have h0 : accumulatorRat kernel.cp.ac = 0 := by
    have : kernel.cp.ac.frac = 0#64 := rfl
    simp [accumulatorRat, this]
  have hz : fRat 0#32 = 0 := by simp [fRat]
  refine ⟨rfl, rfl, rfl, by decide +kernel, by rw [h0, fRat_one]; simp [exactRat], by rw [h0, hz]; simp [exactRat], rfl,
    by decide +kernel, gRat_one.symm, rfl, by decide +kernel, rfl, ?_⟩
  have : ((1#32) ++ (0#32)).toInt = 2 ^ 32 := by decide
  rw [this]
  norm_num

/-- D29: a gf load half way between two F fractions goes to the larger, one just below half way to the smaller. -/
theorem test_round_to_nearest :
    after (exec (.copLoadGf .null 1#6 2#6 3#6) (put (put kernel 1#8 0x40100000#32) 2#8 0x10000000#32))
      (fun t => t.cp.ac.frac == 0x4000008000000000#64) = true ∧
    after (exec (.copLoadGf .null 1#6 2#6 3#6) (put (put kernel 1#8 0x40100000#32) 2#8 0x0FFFFFFF#32))
      (fun t => t.cp.ac.frac == 0x4000000000000000#64) = true := by
  decide +kernel

/-- User and kernel mode; the largest exponent that fix takes; both ends of the timer's range. -/
theorem witness_CopFixAndTimers :
    copReady user .null ∧ user.eff.krn = false ∧ copReady kernel .null ∧ kernel.eff.krn = true ∧
    (acc false 63 1#64).exp.toInt ≤ 63 ∧ 1 ≤ ((0#32 ++ 1#32) - kernel.cp.tod).toNat ∧
    ((0#32 ++ 0x7FFFF#32) - kernel.cp.tod).toNat ≤ 2 ^ 19 - 1 :=
  ⟨⟨rfl, by decide +kernel⟩, rfl, ⟨rfl, by decide +kernel⟩, rfl, by decide +kernel, by decide +kernel,
    by decide +kernel⟩

/-- An armed timer one cycle, and 2^19 - 1 cycles, before its time; a request that has waited as long as it may. -/
theorem witness_ClockAndInterval :
    kernel.inputs = [] ∧ kernel.csm.nsStopped = none ∧ kernel.cp.intPending = false ∧
    ({ kernel.cp with timer := .armed } : Coprocessor).timer = .armed ∧
    1 ≤ (1#64 - kernel.cp.tod).toNat ∧ (0x7FFFF#64 - kernel.cp.tod).toNat ≤ 2 ^ 19 - 1 ∧
    requested.cp.intPending = true ∧
    524287 < 2 ^ 19 ∧ requested.cp.intAge + 524287 < 2 ^ 19 :=
  ⟨rfl, rfl, rfl, rfl, by decide +kernel, by decide +kernel, rfl, by norm_num, by
    show 0 + 524287 < 2 ^ 19; norm_num⟩

/-! ### The whole instruction set -/

/-- A move; a load that misses, in a vacant module and with an error due. -/
theorem witness_InstructionFrame :
    (∃ t, exec (.aluMova true 5#6 0#6 3#6) user = .next t) ∧
    (∃ t, exec (.load 1#6 1#6 0#16) { kernel with ecc := [some (eccError false)] } = .next t ∧
      t.mc ≠ ({ kernel with ecc := [some (eccError false)] } : State).mc) :=
  ⟨⟨_, rfl⟩,
    let ⟨t, h, h2⟩ := next_of_after (r := exec (.load 1#6 1#6 0#16) { kernel with ecc := [some (eccError false)] })
      (p := fun t => decide (t.mc ≠ kernel.mc)) (by decide +kernel)
    ⟨t, h, of_decide_eq_true h2⟩⟩

/-- A move that runs, and an abort that traps. -/
theorem witness_UserIsolation :
    user.eff.krn = false ∧ user.eff.prv = false ∧ user.pend1 = none ∧ user.pend2 = none ∧ user.pend3 = none ∧
    parityHalts (decodeWord 0xA1420E24#32) user = false ∧ (∃ t, runWord 0xA1420E24#32 user = .next t) ∧
    parityHalts (decodeWord 0#32) user = false ∧ ∃ t, runWord 0#32 user = .next t :=
  ⟨rfl, rfl, rfl, rfl, rfl, by decide +kernel, goes (by decide +kernel), by decide +kernel, goes (by decide +kernel)⟩

end Sys2Proof.Tests
end

section
namespace Sys2Proof.Machine

/-! ## What the families of instructions execute -/

theorem exec_of_trapping {i : Instr} (h : kind i = .trapping) (s : State) :
    ∃ c cause ra rb, exec i s = trapOrHalt s c cause ra rb := by
  cases i <;> first | exact InstrKind.noConfusion h | exact ⟨_, _, _, _, rfl⟩

theorem exec_of_compute {i : Instr} (h : kind i = .compute) (s : State) :
    ∃ n v, destination i = some n ∧ exec i s = finish s n v := by
  cases i <;> first | exact InstrKind.noConfusion h | exact ⟨_, _, rfl, rfl⟩

theorem exec_of_coprocessor {i : Instr} (h : kind i = .coprocessor) (s : State) :
    ∃ o r ra rb rc, destination i = some rc ∧ exec i s = copInstr o r ra rb rc s := by
  cases i <;> first | exact InstrKind.noConfusion h | exact ⟨_, _, _, _, _, rfl, rfl⟩

/-- A jump is a goto or a conditional jump. -/
theorem exec_of_jump {i : Instr} (h : kind i = .jump) (s : State) :
    (∃ ra rb disp, i = .goto ra rb disp) ∨ ∃ r ra disp, exec i s = conditionalJump s r ra disp := by
  cases i <;> first | exact InstrKind.noConfusion h | exact .inl ⟨_, _, _, rfl⟩ | exact .inr ⟨_, _, _, rfl⟩

theorem eq_of_queue {i : Instr} (h : kind i = .queue) :
    (∃ ra rb disp, i = .kernelExit ra rb disp) ∨ ∃ ra rb disp, i = .pseudoCall ra rb disp := by
  cases i <;> first | exact InstrKind.noConfusion h | exact .inl ⟨_, _, _, rfl⟩ | exact .inr ⟨_, _, _, rfl⟩

theorem eq_of_flush {i : Instr} (h : kind i = .flush) : ∃ ra rb disp, i = .flush ra rb disp := by
  cases i <;> first | exact InstrKind.noConfusion h | exact ⟨_, _, _, rfl⟩

theorem eq_of_load {i : Instr} (h : kind i = .load) : ∃ ra rb disp, i = .load ra rb disp := by
  cases i <;> first | exact InstrKind.noConfusion h | exact ⟨_, _, _, rfl⟩

theorem eq_of_store {i : Instr} (h : kind i = .store) : ∃ ra rb disp, i = .store ra rb disp := by
  cases i <;> first | exact InstrKind.noConfusion h | exact ⟨_, _, _, rfl⟩

/-! ### Specials -/

/-- How a special can end: it traps, or waits for the memory controller; or it reads something into its destination (a
ReadPcQ moves the pc-queue on too); or it writes RR, the translation buffers, the memory controller or the slots. -/
inductive specialNext (i : Instr) (s : State) : State → Prop where
  | trap : specialNext i s (trapState s illegalTrap)
  | wait : specialNext i s { s with stalled := true }
  | read {n : RegField} {nnpc : Word} (p1 p2 : Word) (rb : RegField) (v : Word) (d : Did) (p : IcarPhase)
      (hd : destination i = some n) (hn : nnpc = s.npc + 4#32)
      (hq : aligned s.pc1 → aligned s.pc2 → aligned p1 ∧ aligned p2) :
      specialNext i s (((({ s with pc1 := p1, pc2 := p2 } : State).selectControl rb).result n v).retireWith d nnpc p
        none)
  | write (q : Option Word) (it dt : Tlb) (m : MemCtl) (sl : Vector Slot 7) (d : Did) (p : IcarPhase)
      (w : Option Word) :
      specialNext i s (({ s with rr := q, itlb := it, dtlb := dt, mc := m, slots := sl } : State).retireWith d
        (s.npc + 4#32) p w)

section
variable {i : Instr} {s t : State} {ra rb : RegField}

/-- A privileged instruction traps or has its effect. -/
theorem specialNext_of_privileged {r : Result} (h : privileged s r = .next t)
    (hr : r = .next t → specialNext i s t) : specialNext i s t := by
  rcases privileged_next h with ⟨-, h⟩ | ⟨-, -, rfl⟩
  · exact hr h
  · exact .trap

theorem specialNext_of_read {v : Word} (hd : destination i = some ra)
    (h : privileged s (specialRead s ra rb v) = .next t) : specialNext i s t :=
  specialNext_of_privileged h fun h => by cases h; exact .read s.pc1 s.pc2 rb v _ _ hd (by simp) .intro

theorem specialNext_of_readDisturbed {v : Word} (hd : destination i = some ra)
    (h : privileged s (specialReadDisturbed s ra rb v) = .next t) : specialNext i s t :=
  specialNext_of_privileged h fun h => by cases h; exact .read s.pc1 s.pc2 rb v _ _ hd (by simp) .intro

theorem specialNext_of_writeInst {b : Tlb} (h : privileged s (writeInstTlb s rb b) = .next t) : specialNext i s t :=
  specialNext_of_privileged h fun h => by cases h; exact .write s.rr b s.dtlb _ s.slots _ _ none

theorem specialNext_of_writeData {b : Tlb} (h : privileged s (writeDataTlb s rb b) = .next t) : specialNext i s t :=
  specialNext_of_privileged h fun h => by cases h; exact .write s.rr s.itlb b _ s.slots _ _ none

/-- An I/O special waits where the memory controller does nothing. -/
theorem specialNext_of_io {r : Result} (h : privileged s (if s.mcDown then stall s else r) = .next t)
    (hr : r = .next t → specialNext i s t) : specialNext i s t :=
  specialNext_of_privileged h fun h => by
    split at h
    · cases h; exact .wait
    · exact hr h

/-- An I/O transaction changes the memory controller and the slots alone. -/
theorem ioRead_shape (s : State) (a : Word) : ∃ m sl, s.ioRead a = { s with mc := m, slots := sl } := by
  unfold State.ioRead
  split
  · exact ⟨_, s.slots, rfl⟩
  · exact ⟨_, _, rfl⟩

theorem ioWrite_shape (s : State) (a : Word) : ∃ m sl, s.ioWrite a = { s with mc := m, slots := sl } := by
  unfold State.ioWrite
  split
  · exact ⟨_, s.slots, rfl⟩
  · exact ⟨_, _, rfl⟩

/-- An I/O transaction that is not refused. -/
theorem specialNext_of_transaction {u : State} {d : Did} (hu : ∃ m sl, u = { s with mc := m, slots := sl })
    {o : Option Refusal}
    (h : (match o with
      | some r => Host.Outcome.refused r
      | none => .next ((u.selectControl rb).retire d)) = (.next t : Result)) : specialNext i s t := by
  obtain ⟨m, sl, rfl⟩ := hu
  cases o with
  | some r => cases h
  | none => cases h; exact .write s.rr s.itlb s.dtlb _ sl _ _ none

end

/-- What a special that goes on has done. -/
theorem exec_special_next {i : Instr} {s t : State} (hk : kind i = .special) (h : exec i s = .next t) :
    specialNext i s t := by
  cases i with
  | readStatus ra rb => exact specialNext_of_read rfl h
  | readPcQ ra rb =>
    refine specialNext_of_privileged h fun h => ?_
    cases h
    exact .read (i := .readPcQ ra rb) _ s.pc1 rb _ _ _ rfl (by simp) fun h _ => ⟨aligned_append _, h⟩
  | writeStatus ra rb =>
    exact specialNext_of_privileged h fun h => by cases h; exact .write _ s.itlb s.dtlb _ s.slots _ _ _
  | readInstTFR ra rb => exact specialNext_of_readDisturbed rfl h
  | readDataTFR ra rb => exact specialNext_of_read rfl h
  | readInstTlbTag0 ra rb => exact specialNext_of_readDisturbed rfl h
  | readInstTlbTag1 ra rb => exact specialNext_of_readDisturbed rfl h
  | readDataTlbTag0 ra rb => exact specialNext_of_read rfl h
  | readDataTlbTag1 ra rb => exact specialNext_of_read rfl h
  | readInstTlbData0 ra rb => exact specialNext_of_readDisturbed rfl h
  | readInstTlbData1 ra rb => exact specialNext_of_readDisturbed rfl h
  | readDataTlbData0 ra rb => exact specialNext_of_read rfl h
  | readDataTlbData1 ra rb => exact specialNext_of_read rfl h
  | writeInstTlbTag0 ra rb => exact specialNext_of_writeInst h
  | writeInstTlbTag1 ra rb => exact specialNext_of_writeInst h
  | writeInstTlbData0 ra rb => exact specialNext_of_writeInst h
  | writeInstTlbData1 ra rb => exact specialNext_of_writeInst h
  | writeDataTlbTag0 ra rb => exact specialNext_of_writeData h
  | writeDataTlbTag1 ra rb => exact specialNext_of_writeData h
  | writeDataTlbData0 ra rb => exact specialNext_of_writeData h
  | writeDataTlbData1 ra rb => exact specialNext_of_writeData h
  | getCtl ra rb =>
    refine specialNext_of_io h fun h => ?_
    cases h
    exact .read (i := .getCtl ra rb) s.pc1 s.pc2 rb _ _ _ rfl (by simp) .intro
  | setCtl ra rb =>
    refine specialNext_of_io h fun h => ?_
    split at h
    · cases h
    · cases h; exact .write s.rr s.itlb s.dtlb _ s.slots _ _ none
  | ioRead ra rb => exact specialNext_of_io h (specialNext_of_transaction (ioRead_shape s _))
  | ioWrite ra rb => exact specialNext_of_io h (specialNext_of_transaction (ioWrite_shape s _))
  | _ => exact nomatch hk

/-! ### Loads and stores -/

theorem loadReal_next {s t : State} {ra : RegField} {rwa : Word} (h : loadReal s ra rwa = .next t) :
    t = { s with stalled := true } ∨
    ∃ u, s.fillData (lineOf rwa) = some u ∧
      t = (u.result ra (u.dataWord rwa)).retire (didMemory false (s.wroteA ra)) := by
  unfold loadReal at h
  split at h
  · cases h
  · split at h
    · exact .inl (by cases h; rfl)
    · rename_i u hu
      exact .inr ⟨u, hu, by cases h; rfl⟩

theorem storeReal_next {s t : State} {v rwa : Word} (h : storeReal s v rwa = .next t) :
    t = { s with stalled := true } ∨
    ∃ u, s.fillData (lineOf rwa) = some u ∧
      t = ({ u.putDataWord rwa v with rr := none } : State).retire (didMemory true none) := by
  unfold storeReal at h
  split at h
  · cases h
  · split at h
    · exact .inl (by cases h; rfl)
    · rename_i u hu
      exact .inr ⟨u, hu, by cases h; rfl⟩

/-- A load that goes on reaches a real address, or its reference faults. -/
theorem exec_load_next {s t : State} {ra rb : RegField} {disp : BitVec 16}
    (h : exec (.load ra rb disp) s = .next t) :
    (∃ rwa, dataReference s.dtlb s.eff (s.ea rb disp) false = .real rwa ∧ loadReal s ra rwa = .next t) ∨
    ((∀ rwa, dataReference s.dtlb s.eff (s.ea rb disp) false ≠ .real rwa) ∧
      ∃ c cause, trapOrHalt s c cause ra rb = .next t) := by
  change execLoad ra rb disp s = .next t at h
  unfold execLoad at h
  split at h
  · rename_i rwa hr
    exact .inl ⟨rwa, hr, h⟩
  · rename_i hr
    exact .inr ⟨by simp [hr], _, _, h⟩
  · rename_i hr
    exact .inr ⟨by simp [hr], _, _, h⟩
  · cases h

/-- A store that goes on reaches a real address, or its reference faults. -/
theorem exec_store_next {s t : State} {ra rb : RegField} {disp : BitVec 16}
    (h : exec (.store ra rb disp) s = .next t) :
    (∃ rwa, dataReference s.dtlb s.eff (s.ea rb disp) true = .real rwa ∧
      storeReal s (s.readA ra) rwa = .next t) ∨
    ((∀ rwa, dataReference s.dtlb s.eff (s.ea rb disp) true ≠ .real rwa) ∧
      ∃ c cause, trapOrHalt s c cause ra rb = .next t) := by
  change execStore ra rb disp s = .next t at h
  unfold execStore at h
  split at h
  · rename_i rwa hr
    exact .inl ⟨rwa, hr, h⟩
  · rename_i hr
    exact .inr ⟨by simp [hr], _, _, h⟩
  · rename_i hr
    exact .inr ⟨by simp [hr], _, _, h⟩
  · cases h

/-- A flush that goes on waits for the memory controller or has its effect. -/
theorem exec_flush_next {s t : State} {ra rb : RegField} {disp : BitVec 16}
    (h : exec (.flush ra rb disp) s = .next t) :
    t = trapState s illegalTrap ∨ t = { s with stalled := true } ∨
    t = ({ s.flushFrom (flushAddress s rb disp) with rr := none } : State).retireDisturbed Did.nothing := by
  rcases privileged_next h with ⟨-, h⟩ | ⟨-, -, rfl⟩
  · split at h
    · cases h
    · split at h
      · cases h
      · split at h
        · exact .inr (.inl (by cases h; rfl))
        · exact .inr (.inr (by cases h; rfl))
  · exact .inl rfl

/-- A pseudoCall that goes on traps or has its effect. -/
theorem exec_pseudoCall_next {s t : State} {ra rb : RegField} {disp : BitVec 16}
    (h : exec (.pseudoCall ra rb disp) s = .next t) :
    t = trapState s illegalTrap ∨
    t = (pseudoCallState s (pseudoCallAddress s rb disp)).retireDisturbed Did.nothing := by
  rcases privileged_next h with ⟨-, h⟩ | ⟨-, -, rfl⟩
  · split at h
    · exact .inr (by cases h; rfl)
    · cases h
  · exact .inl rfl

/-- A kernelExit that goes on traps or returns. -/
theorem exec_kernelExit_next {s t : State} {ra rb : RegField} {disp : BitVec 16}
    (h : exec (.kernelExit ra rb disp) s = .next t) : t = trapState s illegalTrap ∨ t = kernelReturn s disp := by
  rcases privileged_next h with ⟨-, h⟩ | ⟨-, -, rfl⟩
  · exact .inr (by cases h; rfl)
  · exact .inl rfl

end Sys2Proof.Machine
end


section
namespace Sys2Proof.Machine

/-! ## The frame of an instruction -/

/-- What an instruction leaves as it was, by its family (R21, R23, R156, R233). -/
structure instrFrame (i : Instr) (s t : State) : Prop where
  regs : ∀ j, t.reg j ≠ s.reg j ∨ t.mark j ≠ s.mark j → ∃ n, destination i = some n ∧ n ≠ 0#6 ∧ j = s.raIndex n
  mem : kind i ≠ .flush → t.mem = s.mem
  prom : t.prom = s.prom
  populated : t.populated = s.populated
  icache : kind i ≠ .flush → t.icache = s.icache
  dcache : kind i ≠ .flush → kind i ≠ .load → kind i ≠ .store → t.dcache = s.dcache
  translation : kind i ≠ .special → t.itlb = s.itlb ∧ t.dtlb = s.dtlb
  slots : kind i ≠ .special → t.slots = s.slots
  cp : kind i ≠ .coprocessor → t.cp = s.cp
  mc : kind i ≠ .special → kind i ≠ .load → kind i ≠ .store → t.mc = s.mc

section
variable {i : Instr} {s t u : State}

theorem regs_of_same (hr : t.regs = s.regs) (hm : t.marks = s.marks) (j : RegIndex)
    (h : t.reg j ≠ s.reg j ∨ t.mark j ≠ s.mark j) : ∃ n, destination i = some n ∧ n ≠ 0#6 ∧ j = s.raIndex n := by
  simp [reg_of_regs_eq hr, mark_of_marks_eq hm] at h

/-- Only the register that is written changes. -/
theorem regs_of_written {n : RegField} {v : Word} (hd : destination i = some n) (hw : regWritten s t n v)
    (j : RegIndex) (h : t.reg j ≠ s.reg j ∨ t.mark j ≠ s.mark j) :
    ∃ n, destination i = some n ∧ n ≠ 0#6 ∧ j = s.raIndex n := by
  by_cases hj : n ≠ 0#6 ∧ j = s.raIndex n
  · exact ⟨n, hd, hj⟩
  · simp [hw j, hj] at h

theorem instrFrame_refl (i : Instr) (s : State) : instrFrame i s s :=
  ⟨regs_of_same rfl rfl, fun _ => rfl, rfl, rfl, fun _ => rfl, fun _ _ _ => rfl, fun _ => ⟨rfl, rfl⟩, fun _ => rfl,
    fun _ => rfl, fun _ _ _ => rfl⟩

/-- Neither RR nor the pc-queue is in the frame. -/
theorem instrFrame_control (i : Instr) (s : State) (p1 p2 : Word) (q : Option Word) :
    instrFrame i s { s with pc1 := p1, pc2 := p2, rr := q } :=
  ⟨regs_of_same rfl rfl, fun _ => rfl, rfl, rfl, fun _ => rfl, fun _ _ _ => rfl, fun _ => ⟨rfl, rfl⟩, fun _ => rfl,
    fun _ => rfl, fun _ _ _ => rfl⟩

/-- Retiring changes nothing of the frame. -/
theorem instrFrame_retireWith (h : instrFrame i s u) (d : Did) (n : Word) (p : IcarPhase) (w : Option Word) :
    instrFrame i s (u.retireWith d n p w) := by
  constructor <;> simp only [State_retireWith_mem, State_retireWith_prom, State_retireWith_populated,
    State_retireWith_icache, State_retireWith_dcache, State_retireWith_itlb, State_retireWith_dtlb,
    State_retireWith_slots, State_retireWith_cp, State_retireWith_mc, reg_retireWith, mark_retireWith]
  exacts [h.regs, h.mem, h.prom, h.populated, h.icache, h.dcache, h.translation, h.slots, h.cp, h.mc]

theorem instrFrame_trapState (h : instrFrame i s u) (c : TrapInfo) : instrFrame i s (trapState u c) :=
  ⟨h.regs, h.mem, h.prom, h.populated, h.icache, h.dcache, h.translation, h.slots, h.cp, h.mc⟩

/-- Neither a halt nor a wait changes any of the frame. -/
theorem instrFrame_stopped (h : instrFrame i s u) (r : Option HaltRecord) (b : Bool) :
    instrFrame i s { u with halted := r, stalled := b } :=
  ⟨h.regs, h.mem, h.prom, h.populated, h.icache, h.dcache, h.translation, h.slots, h.cp, h.mc⟩

theorem instrFrame_enterTrap {c : TrapInfo} (h : instrFrame i s u) (ht : enterTrap c u = .next t) :
    instrFrame i s t := by
  obtain ⟨-, rfl⟩ := enterTrap_next ht
  exact instrFrame_trapState h c

theorem instrFrame_privileged {r : Result} (hr : r = .next t → instrFrame i s t) (ht : privileged s r = .next t) :
    instrFrame i s t := by
  rcases privileged_next ht with ⟨-, h⟩ | ⟨-, -, rfl⟩
  · exact hr h
  · exact instrFrame_trapState (instrFrame_refl i s) _

theorem instrFrame_trapOrHalt {c : TrapInfo} {cause : HaltCause} {ra rb : RegField}
    (ht : trapOrHalt s c cause ra rb = .next t) : instrFrame i s t := by
  rcases trapOrHalt_next ht with ⟨-, rfl⟩ | ⟨-, -, rfl⟩
  · exact instrFrame_stopped (instrFrame_refl i s) _ _
  · exact instrFrame_trapState (instrFrame_refl i s) c

/-- A result in the destination changes that register alone. -/
theorem instrFrame_result {n : RegField} (hd : destination i = some n) (h : instrFrame i s u) (v : Word)
    (hr : u.regs = s.regs) (hm : u.marks = s.marks) (hx : u.raIndex n = s.raIndex n) :
    instrFrame i s (u.result n v) := by
  refine ⟨regs_of_written hd (regWritten_of (v := v) (u := u) ?_ ?_ hr hm hx), ?_, ?_, ?_, ?_, ?_, ?_, ?_, ?_, ?_⟩
  · simp
  · simp
  · simpa using h.mem
  · simpa using h.prom
  · simpa using h.populated
  · simpa using h.icache
  · simpa using h.dcache
  · simpa using h.translation
  · simpa using h.slots
  · simpa using h.cp
  · simpa using h.mc

theorem instrFrame_finish {n : RegField} {v : Word} (hd : destination i = some n) (ht : finish s n v = .next t) :
    instrFrame i s t := by
  cases ht
  exact instrFrame_retireWith (instrFrame_result hd (instrFrame_refl i s) v rfl rfl rfl) _ _ _ _

/-- A special changes what specials may change. -/
theorem instrFrame_special (hk : kind i = .special) (h : specialNext i s t) : instrFrame i s t := by
  cases h with
  | trap => exact instrFrame_trapState (instrFrame_refl i s) _
  | wait => exact instrFrame_stopped (instrFrame_refl i s) _ _
  | read p1 p2 rb v d p hd hn hq =>
    refine instrFrame_retireWith (instrFrame_result hd ?_ v ?_ ?_ ?_) _ _ _ _
    · exact ⟨regs_of_same rfl rfl, fun _ => rfl, rfl, rfl, fun _ => rfl, fun _ _ _ => rfl, fun _ => ⟨rfl, rfl⟩,
        fun _ => rfl, fun _ => rfl, fun h => absurd hk h⟩
    all_goals rfl
  | write q it dt m sl d p w =>
    refine instrFrame_retireWith ?_ _ _ _ _
    exact ⟨regs_of_same rfl rfl, fun _ => rfl, rfl, rfl, fun _ => rfl, fun _ _ _ => rfl, fun h => absurd hk h,
      fun h => absurd hk h, fun _ => rfl, fun h => absurd hk h⟩

theorem instrFrame_cop {o : CopOp} {r : CopResult} {ra rb rc : RegField} (hk : kind i = .coprocessor)
    (hd : destination i = some rc) (h : copInstr o r ra rb rc s = .next t) : instrFrame i s t := by
  have hcp : ∀ (c : Coprocessor) (q : Option Word), instrFrame i s { s with cp := c, rr := q } := fun c q =>
    ⟨regs_of_same rfl rfl, fun _ => rfl, rfl, rfl, fun _ => rfl, fun _ _ _ => rfl, fun _ => ⟨rfl, rfl⟩, fun _ => rfl,
      fun h => absurd hk h, fun _ _ _ => rfl⟩
  unfold copInstr at h
  split at h
  · split at h
    · cases h
      exact instrFrame_retireWith (hcp _ none) _ _ _ _
    · exact instrFrame_enterTrap (hcp _ s.rr) h
  · cases h
    exact instrFrame_retireWith (instrFrame_result hd (hcp (s.copAfter o ra rb) s.rr) _ rfl rfl rfl) _ _ _ _

/-- What an access brings into the data cache is within the frame of a load and of a store. -/
theorem instrFrame_filled (hk : kind i = .load ∨ kind i = .store) (c : DataCache) (m : MemCtl)
    (e : List (Option EccError)) (q : Option Word) :
    instrFrame i s { s with dcache := c, mc := m, ecc := e, rr := q } :=
  ⟨regs_of_same rfl rfl, fun _ => rfl, rfl, rfl, fun _ => rfl, fun _ h1 h2 => (hk.elim h1 h2).elim,
    fun _ => ⟨rfl, rfl⟩, fun _ => rfl, fun _ => rfl, fun _ h1 h2 => (hk.elim h1 h2).elim⟩

end

theorem instrFrame_load {ra rb : RegField} {disp : BitVec 16} {s t : State}
    (h : exec (.load ra rb disp) s = .next t) : instrFrame (.load ra rb disp) s t := by
  rcases exec_load_next h with ⟨rwa, -, h⟩ | ⟨-, c, cause, h⟩
  · rcases loadReal_next h with rfl | ⟨u, hu, rfl⟩
    · exact instrFrame_stopped (instrFrame_refl _ s) _ _
    · obtain ⟨c, m, e, rfl, -⟩ := fillData_keeps hu
      have hf := instrFrame_filled (i := .load ra rb disp) (s := s) (.inl rfl) c m e s.rr
      exact instrFrame_retireWith (instrFrame_result rfl hf _ rfl rfl rfl) _ _ _ _
  · exact instrFrame_trapOrHalt h

theorem instrFrame_store {ra rb : RegField} {disp : BitVec 16} {s t : State}
    (h : exec (.store ra rb disp) s = .next t) : instrFrame (.store ra rb disp) s t := by
  rcases exec_store_next h with ⟨rwa, -, h⟩ | ⟨-, c, cause, h⟩
  · rcases storeReal_next h with rfl | ⟨u, hu, rfl⟩
    · exact instrFrame_stopped (instrFrame_refl _ s) _ _
    · obtain ⟨c, m, e, rfl, -⟩ := fillData_keeps hu
      exact instrFrame_retireWith (instrFrame_filled (.inr rfl) _ m e none) _ _ _ _
  · exact instrFrame_trapOrHalt h

theorem instrFrame_jump {i : Instr} {s t : State} (hk : kind i = .jump) (h : exec i s = .next t) :
    instrFrame i s t := by
  rcases exec_of_jump hk s with ⟨ra, rb, disp, rfl⟩ | ⟨r, ra, disp, he⟩
  · cases h
    exact instrFrame_retireWith (instrFrame_result rfl (instrFrame_refl _ s) _ rfl rfl rfl) _ _ _ _
  · cases he.symm.trans h
    exact instrFrame_retireWith (instrFrame_control i s _ _ none) _ _ _ _

theorem instrFrame_queue {i : Instr} {s t : State} (hk : kind i = .queue) (h : exec i s = .next t) :
    instrFrame i s t := by
  rcases eq_of_queue hk with ⟨ra, rb, disp, rfl⟩ | ⟨ra, rb, disp, rfl⟩
  · rcases exec_kernelExit_next h with rfl | rfl
    · exact instrFrame_trapState (instrFrame_refl _ s) _
    · exact instrFrame_retireWith (instrFrame_control _ s _ _ none) _ _ _ _
  · rcases exec_pseudoCall_next h with rfl | rfl
    · exact instrFrame_trapState (instrFrame_refl _ s) _
    · exact instrFrame_retireWith (instrFrame_control _ s _ _ none) _ _ _ _

theorem instrFrame_flush {i : Instr} {s t : State} (hk : kind i = .flush) (h : exec i s = .next t) :
    instrFrame i s t := by
  obtain ⟨ra, rb, disp, rfl⟩ := eq_of_flush hk
  rcases exec_flush_next h with rfl | rfl | rfl
  · exact instrFrame_trapState (instrFrame_refl _ s) _
  · exact instrFrame_stopped (instrFrame_refl _ s) _ _
  · refine instrFrame_retireWith ?_ _ _ _ _
    exact ⟨regs_of_same rfl rfl, fun h => absurd hk h, rfl, rfl, fun h => absurd hk h, fun h => absurd hk h,
      fun _ => ⟨rfl, rfl⟩, fun _ => rfl, fun _ => rfl, fun _ _ _ => rfl⟩

/-- Every instruction keeps to its family's frame. -/
theorem exec_instrFrame {i : Instr} {s t : State} (h : exec i s = .next t) : instrFrame i s t := by
  cases hk : kind i with
  | trapping =>
    obtain ⟨c, cause, ra, rb, he⟩ := exec_of_trapping hk s
    exact instrFrame_trapOrHalt (he.symm.trans h)
  | special => exact instrFrame_special hk (exec_special_next hk h)
  | queue => exact instrFrame_queue hk h
  | flush => exact instrFrame_flush hk h
  | load =>
    obtain ⟨ra, rb, disp, rfl⟩ := eq_of_load hk
    exact instrFrame_load h
  | store =>
    obtain ⟨ra, rb, disp, rfl⟩ := eq_of_store hk
    exact instrFrame_store h
  | jump => exact instrFrame_jump hk h
  | compute =>
    obtain ⟨n, v, hd, he⟩ := exec_of_compute hk s
    exact instrFrame_finish hd (he.symm.trans h)
  | coprocessor =>
    obtain ⟨o, r, ra, rb, rc, hd, he⟩ := exec_of_coprocessor hk s
    exact instrFrame_cop hk hd (he.symm.trans h)

/-! ## The line of a load or store -/

/-- What an access to a line may do to the data cache and the memory controller: lines other than `l` stay, and the
registers change only by an error in the read of a line that was not there. -/
structure lineAccess (s t : State) (l : LineAddr) : Prop where
  others : ∀ k, k ≠ l.toNat → mapGet t.dcache k = mapGet s.dcache k
  errors : t.mc ≠ s.mc → s.hasDataLine l = false ∧ inBootProm s.eff.rom l = false ∧
    (isPopulated s.populated l = false ∨ ∃ e rest, s.ecc = some e :: rest ∧ (e.even ≠ none ∨ e.odd ≠ none))

theorem lineAccess_of_eq {s t : State} (l : LineAddr) (hd : t.dcache = s.dcache) (hm : t.mc = s.mc) :
    lineAccess s t l :=
  ⟨fun _ _ => by rw [hd], fun h => absurd hm h⟩

/-- A line read that changes the memory controller's registers has met an error (R92, R104, R121). -/
theorem readRealLine_mc_ne {s : State} {rom dma : Bool} {l : LineAddr} (h : (readRealLine s rom dma l).2.mc ≠ s.mc) :
    inBootProm rom l = false ∧
    (isPopulated s.populated l = false ∨ ∃ e rest, s.ecc = some e :: rest ∧ (e.even ≠ none ∨ e.odd ≠ none)) := by
  have hr := readRealLine_spec s rom dma l
  have hb : inBootProm rom l = false := by
    by_contra hb
    exact h (hr.prom (by simpa using hb)).2.1
  refine ⟨hb, ?_⟩
  by_contra hc
  obtain ⟨hp, hc⟩ := not_or.1 hc
  replace hp : isPopulated s.populated l = true := by simpa using hp
  by_cases he : ∃ e, s.ecc.head? = some (some e)
  · obtain ⟨e, he⟩ := he
    obtain ⟨-, -, -, hm, -⟩ := hr.errors hb hp e he
    obtain ⟨rest, hrest⟩ := List.head?_eq_some_iff.1 he
    have hn : ¬ (e.even ≠ none ∨ e.odd ≠ none) := fun hn => hc ⟨e, rest, hrest, hn⟩
    simp only [not_or, not_not] at hn
    exact h (hm hn.1 hn.2)
  · exact h (hr.clean hb hp (by simpa using he)).2.1

theorem lineAccess_fillData {s u : State} {l : LineAddr} (h : s.fillData l = some u) : lineAccess s u l := by
  cases hl : s.hasDataLine l with
  | true =>
    cases (fillData_hit hl).symm.trans h
    exact lineAccess_of_eq l rfl rfl
  | false =>
    cases hm : s.mcDown with
    | true => cases (fillData_stalled hl hm).symm.trans h
    | false =>
      cases (fillData_miss hl hm).symm.trans h
      exact ⟨fun k hk => mapGet_mapSet_ne _ _ hk, fun hne => ⟨hl, readRealLine_mc_ne hne⟩⟩

theorem lineAccess_loadReal {s t : State} {ra : RegField} {rwa : Word} (h : loadReal s ra rwa = .next t) :
    lineAccess s t (lineOf rwa) := by
  rcases loadReal_next h with rfl | ⟨u, hu, rfl⟩
  · exact lineAccess_of_eq _ rfl rfl
  · have ha := lineAccess_fillData hu
    exact ⟨by simpa using ha.others, by simpa using ha.errors⟩

theorem lineAccess_storeReal {s t : State} {v rwa : Word} (h : storeReal s v rwa = .next t) :
    lineAccess s t (lineOf rwa) := by
  rcases storeReal_next h with rfl | ⟨u, hu, rfl⟩
  · exact lineAccess_of_eq _ rfl rfl
  · have ha := lineAccess_fillData hu
    refine ⟨fun k hk => ?_, by simpa using ha.errors⟩
    rw [← ha.others k hk, State_retire_dcache]
    exact mapGet_mapSet_ne _ _ hk

/-- A reference that faults changes neither the data cache nor the memory controller. -/
theorem trapOrHalt_keeps {s t : State} {c : TrapInfo} {cause : HaltCause} {ra rb : RegField}
    (h : trapOrHalt s c cause ra rb = .next t) : t.dcache = s.dcache ∧ t.mc = s.mc := by
  rcases trapOrHalt_next h with ⟨-, rfl⟩ | ⟨-, -, rfl⟩
  · exact ⟨rfl, rfl⟩
  · exact ⟨rfl, rfl⟩

/-- Of a load or store that goes on only the line of its own address is touched. -/
theorem exec_lineAccess {ra rb : RegField} {disp : BitVec 16} {s t : State} {p : Instr × Bool}
    (hp : p ∈ [(Instr.load ra rb disp, false), (.store ra rb disp, true)]) (h : exec p.1 s = .next t) :
    ((∀ rwa, dataReference s.dtlb s.eff (s.ea rb disp) p.2 ≠ .real rwa) → t.dcache = s.dcache ∧ t.mc = s.mc) ∧
    ∀ rwa, dataReference s.dtlb s.eff (s.ea rb disp) p.2 = .real rwa → lineAccess s t (lineOf rwa) := by
  simp only [List.mem_cons, List.not_mem_nil, or_false] at hp
  rcases hp with rfl | rfl
  · rcases exec_load_next h with ⟨rwa, hr, h⟩ | ⟨hr, c, cause, h⟩
    · exact ⟨fun hn => absurd hr (hn rwa), fun rwa' hr' => by
        cases hr.symm.trans hr'; exact lineAccess_loadReal h⟩
    · exact ⟨fun _ => trapOrHalt_keeps h, fun rwa hr' => absurd hr' (hr rwa)⟩
  · rcases exec_store_next h with ⟨rwa, hr, h⟩ | ⟨hr, c, cause, h⟩
    · exact ⟨fun hn => absurd hr (hn rwa), fun rwa' hr' => by
        cases hr.symm.trans hr'; exact lineAccess_storeReal h⟩
    · exact ⟨fun _ => trapOrHalt_keeps h, fun rwa hr' => absurd hr' (hr rwa)⟩

/-- Settles O59: each instruction keeps to its family's frame, and a load or store to its line. -/
theorem instructionFrame : Obligations.InstructionFrame := by
  intro i s t h
  have hf := exec_instrFrame h
  refine ⟨hf.regs, fun hk a => by rw [hf.mem hk], fun a => by rw [hf.prom], hf.populated, hf.icache, hf.dcache,
    fun hk => ⟨hf.translation hk, hf.slots hk⟩, hf.cp, hf.mc, ?_⟩
  rintro ra rb disp p hp rfl ref rfl
  obtain ⟨hfault, hreal⟩ := exec_lineAccess hp h
  refine ⟨hfault, ?_⟩
  rintro rwa l hr rfl
  exact ⟨(hreal rwa hr).others, (hreal rwa hr).errors⟩

end Sys2Proof.Machine
end


section
namespace Sys2Proof.Machine

/-! ## Instructions keep the invariant -/

section
variable {i : Instr} {s t : State}

/-- The invariant does not speak of RR, coprocessor, translation buffers, memory controller, slots and waiting. -/
theorem Inv_unseen (h : s.Inv) (q : Option Word) (c : Coprocessor) (it dt : Tlb) (m : MemCtl) (sl : Vector Slot 7)
    (b : Bool) :
    ({ s with rr := q, cp := c, itlb := it, dtlb := dt, mc := m, slots := sl, stalled := b } : State).Inv :=
  ⟨h.pc, h.npc, h.pc1, h.pc2, h.krn, h.mem, h.prom, h.icache, h.dcache, h.enc, h.lay⟩

/-- Nor of the clock/scan module and the counter of free values. -/
theorem Inv_csm (h : s.Inv) (c : Csm) (b : Bool) (n : Nat) :
    ({ s with csm := c, stalled := b, fresh := n } : State).Inv :=
  ⟨h.pc, h.npc, h.pc1, h.pc2, h.krn, h.mem, h.prom, h.icache, h.dcache, h.enc, h.lay⟩

/-- A new pc-queue of aligned addresses. -/
theorem Inv_queue (h : s.Inv) {p1 p2 : Word} (h1 : aligned p1) (h2 : aligned p2) (q : Option Word) :
    ({ s with pc1 := p1, pc2 := p2, rr := q } : State).Inv :=
  ⟨h.pc, h.npc, h1, h2, h.krn, h.mem, h.prom, h.icache, h.dcache, h.enc, h.lay⟩

theorem Inv_special (h : s.Inv) (hn : specialNext i s t) : t.Inv := by
  cases hn with
  | trap => exact Inv_trapState h _
  | wait => exact Inv_unseen h _ _ _ _ _ _ _
  | read p1 p2 rb v d p hd hn hq =>
    obtain ⟨h1, h2⟩ := hq h.pc1 h.pc2
    have hu := Inv_unseen (Inv_queue h h1 h2 s.rr) s.rr s.cp s.itlb s.dtlb { s.mc with ioSel := rb } s.slots s.stalled
    exact Inv_retireWith (Inv_result hu _ v) d (hn ▸ aligned_add4 h.npc) p none
  | write q it dt m sl d p w =>
    exact Inv_retireWith (Inv_unseen h q s.cp it dt m sl s.stalled) d (aligned_add4 h.npc) p w

theorem Inv_cop {o : CopOp} {r : CopResult} {ra rb rc : RegField} (h : s.Inv)
    (ht : copInstr o r ra rb rc s = .next t) : t.Inv := by
  unfold copInstr at ht
  split at ht
  · split at ht
    · cases ht
      exact Inv_retire (Inv_unseen h _ _ _ _ _ _ _) _
    · exact Inv_enterTrap (Inv_unseen h _ _ _ _ _ _ _) ht
  · cases ht
    exact Inv_retire (Inv_result (Inv_unseen h _ _ _ _ _ _ _) _ _) _

theorem Inv_load {ra rb : RegField} {disp : BitVec 16} (h : s.Inv) (ht : exec (.load ra rb disp) s = .next t) :
    t.Inv := by
  rcases exec_load_next ht with ⟨rwa, -, ht⟩ | ⟨-, c, cause, ht⟩
  · rcases loadReal_next ht with rfl | ⟨u, hu, rfl⟩
    · exact Inv_unseen h _ _ _ _ _ _ _
    · exact Inv_retire (Inv_result (Inv_fillData h hu) _ _) _
  · exact Inv_trapOrHalt h ht

theorem Inv_store {ra rb : RegField} {disp : BitVec 16} (h : s.Inv) (ht : exec (.store ra rb disp) s = .next t) :
    t.Inv := by
  rcases exec_store_next ht with ⟨rwa, -, ht⟩ | ⟨-, c, cause, ht⟩
  · rcases storeReal_next ht with rfl | ⟨u, hu, rfl⟩
    · exact Inv_unseen h _ _ _ _ _ _ _
    · have hp := Inv_putDataWord (Inv_fillData h hu) rwa (s.readA ra)
      exact Inv_retire (Inv_queue hp hp.pc1 hp.pc2 none) _
  · exact Inv_trapOrHalt h ht

/-- Both targets of a conditional jump are aligned. -/
theorem aligned_cjumpTarget (h : s.Inv) (r : Relation) (ra : RegField) (disp : BitVec 16) :
    aligned (cjumpTarget s r ra disp) := by
  unfold cjumpTarget
  split
  · exact aligned_jumpTarget _ _
  · exact aligned_add4 h.npc

theorem Inv_jump (hk : kind i = .jump) (h : s.Inv) (ht : exec i s = .next t) : t.Inv := by
  rcases exec_of_jump hk s with ⟨ra, rb, disp, rfl⟩ | ⟨r, ra, disp, he⟩
  · cases ht
    exact Inv_retireTo (Inv_result h _ _) _ (aligned_jumpTarget _ _)
  · cases he.symm.trans ht
    exact Inv_retireTo (Inv_queue h h.pc1 h.pc2 none) _ (aligned_cjumpTarget h _ _ _)

/-- What a pseudoCall leaves in the pc-queue is aligned, also where it is free. -/
theorem aligned_pseudoCallQueue (h : s.Inv) (ea : Word) :
    aligned (pseudoCallQueue s ea).1 ∧ aligned (pseudoCallQueue s ea).2 := by
  unfold pseudoCallQueue
  split
  · exact ⟨aligned_append _, aligned_append _⟩
  · exact ⟨h.pc1, aligned_shift _⟩

theorem Inv_kernelControl (hk : kind i = .queue) (h : s.Inv) (ht : exec i s = .next t) : t.Inv := by
  rcases eq_of_queue hk with ⟨ra, rb, disp, rfl⟩ | ⟨ra, rb, disp, rfl⟩
  · rcases exec_kernelExit_next ht with rfl | rfl
    · exact Inv_trapState h _
    · exact Inv_retireTo (Inv_queue h h.pc h.pc1 none) _ (aligned_jumpTarget _ _)
  · rcases exec_pseudoCall_next ht with rfl | rfl
    · exact Inv_trapState h _
    · obtain ⟨h2, h1⟩ := aligned_pseudoCallQueue h (pseudoCallAddress s rb disp)
      exact Inv_retireDisturbed (Inv_queue h h1 h2 none) _

theorem Inv_flush (hk : kind i = .flush) (h : s.Inv) (ht : exec i s = .next t) : t.Inv := by
  obtain ⟨ra, rb, disp, rfl⟩ := eq_of_flush hk
  rcases exec_flush_next ht with rfl | rfl | rfl
  · exact Inv_trapState h _
  · exact Inv_unseen h _ _ _ _ _ _ _
  · have hf := Inv_flushFrom h (flushAddress s rb disp)
    exact Inv_retireDisturbed (Inv_queue hf hf.pc1 hf.pc2 none) _

/-- Every instruction keeps the invariant. -/
theorem Inv_exec (h : s.Inv) (ht : exec i s = .next t) : t.Inv := by
  cases hk : kind i with
  | trapping =>
    obtain ⟨c, cause, ra, rb, he⟩ := exec_of_trapping hk s
    exact Inv_trapOrHalt h (he.symm.trans ht)
  | special => exact Inv_special h (exec_special_next hk ht)
  | queue => exact Inv_kernelControl hk h ht
  | flush => exact Inv_flush hk h ht
  | load =>
    obtain ⟨ra, rb, disp, rfl⟩ := eq_of_load hk
    exact Inv_load h ht
  | store =>
    obtain ⟨ra, rb, disp, rfl⟩ := eq_of_store hk
    exact Inv_store h ht
  | jump => exact Inv_jump hk h ht
  | compute =>
    obtain ⟨n, v, -, he⟩ := exec_of_compute hk s
    exact Inv_finish h (he.symm.trans ht)
  | coprocessor =>
    obtain ⟨o, r, ra, rb, rc, -, he⟩ := exec_of_coprocessor hk s
    exact Inv_cop h (he.symm.trans ht)

end

/-! ## What the environment leaves of the processor -/

/-- What no event but a reset or a clock/scan packet changes: the processor's addresses, PSW, RR and whether it waits,
the Boot-Prom, encoding and layouts; main memory keeps its canonical form and the caches their order. -/
structure eventKept (s t : State) : Prop where
  pc : t.pc = s.pc
  npc : t.npc = s.npc
  pc1 : t.pc1 = s.pc1
  pc2 : t.pc2 = s.pc2
  psw : t.psw = s.psw
  rr : t.rr = s.rr
  stalled : t.stalled = s.stalled
  prom : t.prom = s.prom
  enc : t.enc = s.enc
  lay : t.lay = s.lay
  mem : Memory.wf s.mem = true → Memory.wf t.mem = true
  icache : mapSorted s.icache = true → mapSorted t.icache = true
  dcache : mapSorted s.dcache = true → mapSorted t.dcache = true

section
variable {s t u : State}

theorem eventKept_refl (s : State) : eventKept s s :=
  ⟨rfl, rfl, rfl, rfl, rfl, rfl, rfl, rfl, rfl, rfl, id, id, id⟩

theorem eventKept_trans (h : eventKept s t) (h' : eventKept t u) : eventKept s u :=
  ⟨h'.pc.trans h.pc, h'.npc.trans h.npc, h'.pc1.trans h.pc1, h'.pc2.trans h.pc2, h'.psw.trans h.psw, h'.rr.trans h.rr,
    h'.stalled.trans h.stalled, h'.prom.trans h.prom, h'.enc.trans h.enc, h'.lay.trans h.lay, h'.mem ∘ h.mem,
    h'.icache ∘ h.icache, h'.dcache ∘ h.dcache⟩

theorem Inv_eventKept (h : s.Inv) (hk : eventKept s t) : t.Inv := by
  refine ⟨?_, ?_, ?_, ?_, ?_, hk.mem h.mem, ?_, hk.icache h.icache, hk.dcache h.dcache, ?_, ?_⟩
  · rw [hk.pc]; exact h.pc
  · rw [hk.npc]; exact h.npc
  · rw [hk.pc1]; exact h.pc1
  · rw [hk.pc2]; exact h.pc2
  · rw [hk.psw]; exact h.krn
  · rw [hk.prom]; exact h.prom
  · rw [hk.enc]; exact h.enc
  · rw [hk.lay]; exact h.lay

/-! ### Evictions and errors -/

theorem eventKept_evictData (s : State) (l : LineAddr) : eventKept s (s.evictData l) := by
  unfold State.evictData
  split
  · exact eventKept_refl s
  · split
    · exact ⟨rfl, rfl, rfl, rfl, rfl, rfl, rfl, rfl, rfl, rfl, id, id, id⟩
    · refine ⟨rfl, rfl, rfl, rfl, rfl, rfl, rfl, rfl, rfl, rfl, fun h => ?_, id, mapSorted_mapErase _ _⟩
      dsimp only
      split
      · exact Memory_wf_physWriteLine _ _ _ _ h
      · exact h

theorem eventKept_evictInst (s : State) (l : LineAddr) : eventKept s (s.evictInst l) :=
  ⟨rfl, rfl, rfl, rfl, rfl, rfl, rfl, rfl, rfl, rfl, id, mapSorted_mapErase _ _, id⟩

theorem mapSorted_spoilInst {c : InstCache} (h : mapSorted c = true) (l : LineAddr) (k : BitVec 2) (v : Word) :
    mapSorted (spoilInst c l k v) = true := by
  unfold spoilInst
  split
  · exact h
  · exact mapSorted_mapSet _ _ _ h

theorem mapSorted_spoilData {c : DataCache} (h : mapSorted c = true) (l : LineAddr) (k : BitVec 2) (v : Word) :
    mapSorted (spoilData c l k v) = true := by
  unfold spoilData
  split
  · exact h
  · exact mapSorted_mapSet _ _ _ h

theorem mapSorted_retagInst {c : InstCache} (h : mapSorted c = true) (l : LineAddr) (tag : BitVec 22) :
    mapSorted (retagInst c l tag) = true := by
  unfold retagInst
  split
  · exact h
  · exact mapSorted_mapSet _ _ _ (mapSorted_mapErase _ _ h)

theorem mapSorted_retagData {c : DataCache} (h : mapSorted c = true) (l : LineAddr) (tag : BitVec 22) :
    mapSorted (retagData c l tag) = true := by
  unfold retagData
  split
  · exact h
  · exact mapSorted_mapSet _ _ _ (mapSorted_mapErase _ _ h)

theorem eventKept_changeTlb (s : State) (inst : Bool) (f : Tlb → Tlb) : eventKept s (s.changeTlb inst f) := by
  cases inst <;> exact ⟨rfl, rfl, rfl, rfl, rfl, rfl, rfl, rfl, rfl, rfl, id, id, id⟩

theorem eventKept_spoilt (s : State) (x : Spoil) : eventKept s (s.spoilt x) := by
  cases x with
  | register i v => exact ⟨rfl, rfl, rfl, rfl, rfl, rfl, rfl, rfl, rfl, rfl, id, id, id⟩
  | tlbTag inst col row pid tag invalid writable => dsimp only [State.spoilt]; exact eventKept_changeTlb s inst _
  | tlbData inst col row rpn => dsimp only [State.spoilt]; exact eventKept_changeTlb s inst _
  | instWord l k v =>
    exact ⟨rfl, rfl, rfl, rfl, rfl, rfl, rfl, rfl, rfl, rfl, id, fun h => mapSorted_spoilInst h l k v, id⟩
  | dataWord l k v =>
    exact ⟨rfl, rfl, rfl, rfl, rfl, rfl, rfl, rfl, rfl, rfl, id, id, fun h => mapSorted_spoilData h l k v⟩
  | instTag l tag =>
    exact ⟨rfl, rfl, rfl, rfl, rfl, rfl, rfl, rfl, rfl, rfl, id, fun h => mapSorted_retagInst h l tag, id⟩
  | dataTag l tag =>
    exact ⟨rfl, rfl, rfl, rfl, rfl, rfl, rfl, rfl, rfl, rfl, id, id, fun h => mapSorted_retagData h l tag⟩

/-- Errors on a bus and the adaptors' own activity change memory controller and slots alone. -/
theorem eventKept_busError (s : State) (k : Nat) : eventKept s (s.busError k) := by
  unfold State.busError
  split
  · exact eventKept_refl s
  · exact ⟨rfl, rfl, rfl, rfl, rfl, rfl, rfl, rfl, rfl, rfl, id, id, id⟩

theorem eventKept_adaptorActs (s : State) (n : BitVec 3) (e : Event) : eventKept s (s.adaptorActs n e) := by
  unfold State.adaptorActs
  split
  · exact eventKept_refl s
  · exact ⟨rfl, rfl, rfl, rfl, rfl, rfl, rfl, rfl, rfl, rfl, id, id, id⟩

theorem eventKept_setBusy (s : State) (n : BitVec 3) (b : Bool) : eventKept s (s.setBusy n b) := by
  unfold State.setBusy
  split
  · exact eventKept_refl s
  · exact ⟨rfl, rfl, rfl, rfl, rfl, rfl, rfl, rfl, rfl, rfl, id, id, id⟩

/-! ### DMA -/

theorem andThen_next {r : Result} {f : State → Result} (h : andThen r f = .next t) :
    ∃ u, r = .next u ∧ f u = .next t := by
  cases r with
  | next u => exact ⟨u, rfl, h⟩
  | fault e => cases h
  | refused e => cases h

theorem eventKept_transact (s : State) (d : DmaTransaction) (held : Line) : eventKept s (s.transact d held).2 := by
  cases d with
  | read a =>
    rw [State.transact, readRealLine_shape]
    exact ⟨rfl, rfl, rfl, rfl, rfl, rfl, rfl, rfl, rfl, rfl, id, id, id⟩
  | write a words =>
    exact ⟨rfl, rfl, rfl, rfl, rfl, rfl, rfl, rfl, rfl, rfl, Memory_wf_physWriteLine _ _ _ _, id, id⟩

theorem eventKept_dmaDone (s : State) (i : Fin 7) (r : DmaRequest) (v : Line) : eventKept s (s.dmaDone i r v) :=
  ⟨rfl, rfl, rfl, rfl, rfl, rfl, rfl, rfl, rfl, rfl, id, id, id⟩

theorem eventKept_dmaOne {i : Fin 7} {r : DmaRequest} (h : dmaOne s i r = .next t) : eventKept s t := by
  unfold dmaOne at h
  split at h
  · cases h; exact eventKept_refl s
  · split at h
    · cases h; exact eventKept_dmaDone s i r _
    · split at h
      · cases h; exact eventKept_refl s
      · split at h
        · cases h
        · cases h; exact eventKept_trans (eventKept_transact s _ _) (eventKept_dmaDone _ i r _)

/-- The counter of free values is no part of what is kept. -/
theorem eventKept_fresh (h : eventKept s t) (n : Nat) : eventKept s { t with fresh := n } :=
  ⟨h.pc, h.npc, h.pc1, h.pc2, h.psw, h.rr, h.stalled, h.prom, h.enc, h.lay, h.mem, h.icache, h.dcache⟩

theorem eventKept_dmaSlots {requests : Vector (Option DmaRequest) 7} (l : List (Fin 7))
    (h : dmaSlots l requests s = .next t) : eventKept s t := by
  induction l generalizing s with
  | nil => cases h; exact eventKept_refl _
  | cons i l ih =>
    unfold dmaSlots at h
    split at h
    · exact ih h
    · obtain ⟨u, hu, h⟩ := andThen_next h
      exact eventKept_trans (eventKept_fresh (eventKept_dmaOne hu) _) (ih h)

/-- No event but a reset or a clock/scan packet touches what `eventKept` names. -/
theorem eventKept_applyEvent {e : Event} (hr : e ≠ .reset) (hc : ∀ p, e ≠ .csm p) (h : applyEvent e s = .next t) :
    eventKept s t := by
  cases e with
  | evictData l =>
    cases h
    split
    · exact eventKept_refl s
    · exact eventKept_evictData s l
  | evictInst l =>
    cases h
    split
    · exact eventKept_refl s
    · exact eventKept_evictInst s l
  | dma requests => exact eventKept_dmaSlots _ h
  | spoil x =>
    cases h
    split
    · exact eventKept_refl s
    · exact eventKept_spoilt s x
  | ioBusParity => cases h; exact eventKept_busError s 0
  | cpuBusParity => cases h; exact eventKept_busError s 1
  | busy n b => cases h; exact eventKept_setBusy s n b
  | tma n r => cases h; exact eventKept_adaptorActs s n _
  | tda n r => cases h; exact eventKept_adaptorActs s n _
  | tfa n r => cases h; exact eventKept_adaptorActs s n _
  | tna n r => cases h; exact eventKept_adaptorActs s n _
  | otherInterrupt n b => cases h; exact eventKept_adaptorActs s n _
  | csm p => exact absurd rfl (hc p)
  | reset => exact absurd rfl hr
  | _ => cases h; exact ⟨rfl, rfl, rfl, rfl, rfl, rfl, rfl, rfl, rfl, rfl, id, id, id⟩

/-! ### The clock -/

theorem Memory_wf_lostContents (cells : List (Nat × Byte)) : Memory.wf (lostContents cells) = true := by
  unfold lostContents
  refine List.foldlRecOn (motive := fun m => Memory.wf m = true) cells _ rfl fun m hm c _ => ?_
  exact Memory_wf_writeByte _ _ _ hm

theorem eventKept_tick (s : State) (n : Nat) : eventKept s (s.tick n) := by
  refine ⟨rfl, rfl, rfl, rfl, rfl, rfl, rfl, rfl, rfl, rfl, fun h => ?_, id, id⟩
  show Memory.wf (s.memoryAfter n) = true
  unfold State.memoryAfter
  split
  · exact h
  · split
    · exact Memory_wf_lostContents _
    · exact h

theorem eventKept_newStep (s : State) (l : List Input) (n : Nat) :
    eventKept s (({ s.newStep with inputs := l } : State).tick n) :=
  eventKept_trans (t := { s.newStep with inputs := l })
    ⟨rfl, rfl, rfl, rfl, rfl, rfl, rfl, rfl, rfl, rfl, id, id, id⟩ (eventKept_tick _ n)

/-! ## The environment keeps the invariant -/

theorem Inv_csmPacket {p : CsmPacket} (h : s.Inv) (ht : csmPacket p s = .next t) : t.Inv := by
  unfold csmPacket at ht
  split at ht
  · cases ht; exact h
  · split at ht
    · cases ht; exact Inv_csm h _ _ _
    · split at ht
      · cases ht
      · split at ht
        · cases ht; exact Inv_csm (Inv_resetWith h _) _ _ _
        · cases ht; exact Inv_csm h _ _ _

theorem Inv_applyEvent {e : Event} (h : s.Inv) (ht : applyEvent e s = .next t) : t.Inv := by
  by_cases hr : e = .reset
  · subst hr; cases ht; exact Inv_resetWith h _
  · by_cases hc : ∃ p, e = .csm p
    · obtain ⟨p, rfl⟩ := hc
      exact Inv_csmPacket h ht
    · exact Inv_eventKept h (eventKept_applyEvent hr (fun p hp => hc ⟨p, hp⟩) ht)

theorem Inv_applyEvents {es : List Event} (h : s.Inv) (ht : applyEvents es s = .next t) : t.Inv := by
  induction es generalizing s with
  | nil => cases ht; exact h
  | cons e es ih =>
    obtain ⟨u, hu, ht⟩ := andThen_next ht
    exact ih (Inv_csm (Inv_applyEvent h hu) _ _ _) ht

theorem Inv_environment (h : s.Inv) (ht : environment s = .next t) : t.Inv := by
  unfold environment at ht
  split at ht
  · cases ht; exact Inv_eventKept h (eventKept_newStep s s.inputs 1)
  · exact Inv_applyEvents (Inv_eventKept h (eventKept_newStep s _ _)) ht

/-! ## The processor keeps the invariant -/

theorem Inv_fetch {w : Word} (h : s.Inv) (ht : fetch s = .word w t) : t.Inv := by
  unfold fetch at ht
  split at ht
  · split at ht
    · cases ht
    · rename_i u hu
      cases ht
      exact Inv_csm (Inv_fillInst h hu) _ _ _
  all_goals cases ht

theorem Inv_execDecoded {d : Decoded} (h : s.Inv) (ht : execDecoded d s = .next t) : t.Inv := by
  cases d with
  | instr i => exact Inv_exec h ht
  | undescribed x =>
    cases x with
    | special ra rb f => exact Inv_privileged h (fun hr => by cases hr) ht
    | alu lit ra rb rc => exact Inv_finish h ht
    | cop ra rb rc =>
      cases ht
      exact Inv_retire (Inv_result (Inv_unseen h _ _ _ _ _ _ _) _ _) _

/-- A suppressed instruction leaves at most status bits of the coprocessor. -/
theorem Inv_suppressed (h : s.Inv) (c : TrapClass) : (suppressed c s).Inv := by
  unfold suppressed
  split
  · split
    · exact Inv_unseen h _ _ _ _ _ _ _
    · exact h
  · exact h

theorem Inv_runMode {w : Word} {d : Decoded} {itf : Bool} (h : s.Inv) (ht : runMode w d s itf = .next t) : t.Inv := by
  unfold runMode at ht
  split at ht
  · unfold runKernel at ht
    split at ht
    · unfold successorFault at ht
      split at ht
      · cases ht; exact Inv_halt h _ _ _
      · cases ht
    · exact Inv_execDecoded h ht
  · unfold runUser at ht
    split at ht
    · exact Inv_enterTrap (Inv_suppressed h _) ht
    · exact Inv_execDecoded h ht

theorem Inv_runWord {w : Word} (h : s.Inv) (ht : runWord w s = .next t) : t.Inv := by
  unfold runWord at ht
  split at ht
  · cases ht
  · split at ht
    · cases ht; exact Inv_halt h _ _ _
    · split at ht
      · cases ht
      all_goals exact Inv_runMode h ht

theorem Inv_runFetched (h : s.Inv) (ht : runFetched s = .next t) : t.Inv := by
  unfold runFetched at ht
  split at ht
  · cases ht; exact Inv_halt h _ _ _
  · split at ht
    · rename_i w u hu
      exact Inv_runWord (Inv_fetch h hu) ht
    · split at ht
      · cases ht; exact Inv_halt h _ _ _
      · cases ht
    · cases ht
    · cases ht; exact Inv_unseen h _ _ _ _ _ _ _

theorem Inv_runProcessor (h : s.Inv) (ht : runProcessor s = .next t) : t.Inv := by
  unfold runProcessor at ht
  split at ht
  · cases ht; exact h
  · exact Inv_runFetched h ht

end

/-- Settles O8: the environment keeps the invariant, and so does the processor. -/
theorem stepKeepsInvariant : Obligations.StepKeepsInvariant := by
  intro s t h ht
  obtain ⟨u, hu, ht⟩ := andThen_next ht
  exact Inv_runProcessor (Inv_environment h hu) ht

/-- Settles O6: the reset addresses are aligned, memory and caches are empty. -/
theorem resetInvariant : Obligations.ResetInvariant :=
  ⟨aligned_reset.1, aligned_reset.2, aligned_append 0#30, aligned_append 0#30, rfl, Memory_wf_reset, rfl, rfl, rfl, rfl,
    rfl⟩

end Sys2Proof.Machine
end


section
namespace Sys2Proof.Machine

/-! ## Reset -/

theorem mark_replicate (s : State) (h : s.marks = Vector.replicate 256 .unwritten) (i : RegIndex) :
    s.mark i = .unwritten := by
  simp [State.mark, h]

/-- No entry of a buffer after a reset counts as written (R47). -/
theorem tlbEntry_unwrittenTlb (t : Tlb) (col : Bool) (wa : Word) (pid : BitVec 8) :
    (tlbEntry (unwrittenTlb t) col wa pid).tagParity = .unwritten ∧
    (tlbEntry (unwrittenTlb t) col wa pid).dataParity = .unwritten := by
  cases col <;> simp [tlbEntry, unwrittenTlb]

/-- The buffers of `State.reset` are unwritten. -/
theorem unwrittenTlb_blank : unwrittenTlb Tlb.blank = Tlb.blank := by
  simp [unwrittenTlb, Tlb.blank, TlbEntry.blank]

/-- An adaptor that the I/O bus reset reaches does not interrupt (D38). -/
theorem slotInterrupt_resetSlot (s : Slot) : slotInterrupt (resetSlot s) = false := by
  obtain ⟨busy, latch, adaptor⟩ := s
  cases adaptor <;> rfl

theorem interruptLines_reset (slots : Vector Slot 7) : interruptLines (slots.map resetSlot) = 0#7 := by
  simp [interruptLines, slotInterrupt_resetSlot]

/-- Settles O5. -/
theorem resetState : Obligations.ResetState := by
  refine ⟨rfl, rfl, rfl, rfl, rfl, rfl, rfl, rfl, rfl, rfl, rfl, rfl, rfl, rfl, rfl, mark_replicate _ rfl, ?_, rfl, rfl,
    rfl, rfl, rfl, rfl⟩
  intro b hb col wa pid
  have hblank : b = unwrittenTlb Tlb.blank := by
    rw [unwrittenTlb_blank]
    simpa [State.reset] using hb
  rw [hblank]
  exact tlbEntry_unwrittenTlb _ col wa pid

/-- A packet with the Boot bit resets the processor, and one without sets the module's registers (R438, R440). -/
theorem csmPacket_accepted {s : State} {p : CsmPacket} (hd : csmDiscards p = false) (hr : csmRepeats s.csm p = false)
    (hs : csmScans s.lay s.csm p = false) :
    csmPacket p s = .next (if (csmModeB s.lay p.endModeB).boot
      then (s.resetWith (Config.unspecifiedAfterReset s.fresh)).csmFinish p else s.csmFinish p) := by
  unfold csmPacket
  rw [hd, hr, hs]
  cases (csmModeB s.lay p.endModeB).boot <;> rfl

/-- The panel and a packet with the Boot bit do the same to all but the clock/scan module. -/
theorem applyEvent_resets {s : State} {p : CsmPacket} {e : Event}
    (he : e = .reset ∨ (e = .csm p ∧ csmDiscards p = false ∧ csmRepeats s.csm p = false ∧
      csmScans s.lay s.csm p = false ∧ (csmModeB s.lay p.endModeB).boot = true)) :
    ∃ u c, applyEvent e s = .next { s.resetWith u with csm := c } := by
  rcases he with rfl | ⟨rfl, hd, hr, hs, hb⟩
  · exact ⟨_, s.csm, rfl⟩
  · refine ⟨Config.unspecifiedAfterReset s.fresh, (s.resetWith (Config.unspecifiedAfterReset s.fresh)).csmAfter p, ?_⟩
    rw [applyEvent, csmPacket_accepted hd hr hs, hb]
    rfl

/-- The adaptors after a reset: none interrupts, or the diagnostic stop has suppressed it (R408, D38). -/
theorem slotsReset_spec (s : State) :
    (s.csm.ioStopped = false → interruptLines s.slotsReset = 0#7) ∧
    (s.csm.ioStopped = true → s.slotsReset = s.slots) := by
  unfold State.slotsReset
  cases s.csm.ioStopped
  · exact ⟨fun _ => interruptLines_reset s.slots, nofun⟩
  · exact ⟨nofun, fun _ => rfl⟩

/-- Settles O7: the reset, then each thing that the module does with a packet. -/
theorem resetEvent : Obligations.ResetEvent := by
  intro s p
  refine ⟨fun e he => ?reset, fun hd => ?discarded, fun hd hr => ?repeated, fun hd hr => ⟨fun hs => ?scans,
    fun hs hb a ha => ?accepted⟩⟩
  case reset =>
    obtain ⟨u, c, ht⟩ := applyEvent_resets he
    refine ⟨_, ht, rfl, rfl, rfl, rfl, rfl, rfl, rfl, rfl, rfl, rfl, rfl, rfl, rfl, rfl, rfl, mark_replicate _ rfl, ?_,
      rfl, rfl, fun _ => rfl, fun _ => rfl, rfl, rfl, rfl, rfl, slotsReset_spec s⟩
    simp only [List.forall_mem_cons]
    exact ⟨tlbEntry_unwrittenTlb u.itlb, tlbEntry_unwrittenTlb u.dtlb, nofun⟩
  case discarded => rw [applyEvent, csmPacket, hd]; rfl
  case repeated => rw [applyEvent, csmPacket, hd, hr]; rfl
  case scans => rw [applyEvent, csmPacket, hd, hr, hs]; rfl
  case accepted =>
    subst ha
    refine ⟨s.csmAfter p, s.csmReply p, ?_, rfl, rfl, rfl, ?_, rfl, rfl, rfl, rfl, rfl, rfl, rfl, rfl, rfl, rfl, rfl,
      rfl⟩
    · rw [applyEvent, csmPacket_accepted hd hr hs, hb]
      rfl
    · rw [State.csmAfter]
      cases (csmModeA s.lay p.endModeA).runNs <;> simp

/-! ## Registers -/

/-- Settles O14. -/
theorem registerBanks : Obligations.RegisterBanks := by
  intro s n
  refine ⟨fun hn h2 => ?_, fun hn => ?_, fun lit ra rb rc hb hc => ?_⟩
  · simp [State.readA, State.readB, State.pcRead, hn, h2]
  · simp [State.readA, State.readB, State.raIndex, State.rbIndex, regIndex, hn]
  · obtain ⟨t, ht, hr⟩ := finish_spec s rc (s.readB rb)
    have hv : s.readB rb = s.reg (s.eff.rb ++ rb) := if_neg hb
    have hsame := hr.regs (s.raIndex rc)
    rw [if_pos ⟨hc, rfl⟩, if_pos ⟨hc, rfl⟩, hv] at hsame
    refine ⟨t, ht, hsame.1, hsame.2, fun i hi => ?_⟩
    have hother := hr.regs i
    rwa [if_neg fun h => hi h.2, if_neg fun h => hi h.2] at hother

/-- A write of r0 writes no register. -/
theorem regsKept_of_regWritten_zero {s t : State} {v : Word} (h : regWritten s t 0#6 v) : regsKept s t := by
  intro i
  simpa using h i

/-- Settles O15. -/
theorem registerZeroDiscards : Obligations.RegisterZeroDiscards := by
  intro s v
  refine ⟨rfl, fun lit ra rb => ?_, ?_, fun rb disp => ⟨_, rfl, regsKept_of ?_ ?_, ?_⟩⟩
  · obtain ⟨t, ht, hr⟩ := finish_spec s 0#6 (s.aluA lit ra)
    exact ⟨t, ht, regsKept_of_regWritten_zero hr.regs, hr.rr⟩
  · obtain ⟨t, ht, hr⟩ := finish_spec s 0#6 0#32
    exact ⟨t, ht, regsKept_of_regWritten_zero hr.regs, hr.rr⟩
  all_goals simp

/-! ## The step -/

theorem decodeWord_of_decodeWith {e : Encoding} {w : Word} {i : Instr} (h : decodeWith e (bytesOfWord w) = .ok i) :
    decodeWord (e.read w) = .instr i := by
  have hd := decodeWith_bytesOfWord e w []
  rw [List.append_nil, h] at hd
  cases hw : decodeWord (e.read w) with
  | instr j => rw [hw] at hd; cases hd; rfl
  | undescribed u => rw [hw] at hd; cases hd

/-- With a translation of its successor and no request that is delivered, a word runs as it is decoded. -/
theorem runMode_executes {w : Word} {d : Decoded} {s : State}
    (hq : s.eff.krn = true ∨ (s.extReq = false ∧ s.copReq = false)) : runMode w d s false = execDecoded d s := by
  unfold runMode
  cases hk : s.eff.krn with
  | true => rfl
  | false =>
    obtain ⟨he, hc⟩ := hq.resolve_left (ne_true_of_eq_false hk)
    simp [runUser, he, hc]

/-- Settles O9. -/
theorem stepRunsDecoded : Obligations.StepRunsDecoded := by
  intro s u t w rwa i henv hfrozen hstalled hpar hfetch hdec hicar hparity hsucc hreq
  have hd := decodeWord_of_decodeWith hdec
  calc step s = runProcessor u := by rw [step, henv]; rfl
    _ = runFetched u := by simp [runProcessor, hfrozen, hstalled]
    _ = runWord (u.enc.read w) t := by simp [runFetched, hpar, hfetch]
    _ = runMode (u.enc.read w) (.instr i) t false := by simp [runWord, hd, hicar, hparity, hsucc]
    _ = exec i t := runMode_executes hreq

/-! ## Waiting for the memory controller -/

/-- An access to a line that is not there waits for a memory controller that does nothing (R368, R439). -/
theorem loadReal_stalls {s : State} {rwa : Word} (ra : RegField) (hm : s.mcDown = true)
    (hl : s.hasDataLine (lineOf rwa) = false) (hp : s.dirtyPromMiss (lineOf rwa) = false) :
    loadReal s ra rwa = stall s := by
  simp [loadReal, hp, fillData_stalled hl hm]

theorem storeReal_stalls {s : State} {rwa : Word} (v : Word) (hm : s.mcDown = true)
    (hl : s.hasDataLine (lineOf rwa) = false) (hp : s.dirtyPromMiss (lineOf rwa) = false) :
    storeReal s v rwa = stall s := by
  simp [storeReal, hp, fillData_stalled hl hm]

/-- So does an I/O special. -/
theorem privileged_stalls {s : State} (r : Result) (hm : s.mcDown = true) (hp : s.mayPrivileged) :
    privileged s (if s.mcDown then stall s else r) = stall s := by
  rw [privileged_effect _ hp, hm]
  rfl

/-- So does a flush that has a dirty line to write (R233). -/
theorem execFlush_stalls {s : State} (ra : RegField) {rb : RegField} {disp : BitVec 16} (hm : s.mcDown = true)
    (hp : s.mayPrivileged) (hi : s.eff.imp = true) (hd : s.eff.dmp = true)
    (ho : (flushAddress s rb disp).getLsbD 0 = true) (hw : s.flushWrites (flushAddress s rb disp) = true) :
    execFlush ra rb disp s = stall s := by
  rw [execFlush, privileged_effect _ hp, hi, hd, ho, hm, hw]
  rfl

theorem eventKept_applyEvents {es : List Event} {s t : State} (hr : Event.reset ∉ es) (hc : ∀ p, Event.csm p ∉ es)
    (h : applyEvents es s = .next t) : eventKept s t := by
  induction es generalizing s with
  | nil => cases h; exact eventKept_refl _
  | cons e es ih =>
    obtain ⟨u, hu, h⟩ := andThen_next h
    simp only [List.mem_cons, not_or] at hr hc
    have he := eventKept_applyEvent (fun h => hr.1 h.symm) (fun p h => (hc p).1 h.symm) hu
    exact eventKept_trans (eventKept_fresh he _) (ih hr.2 (fun p => (hc p).2) h)

/-- Short of a reset or a clock/scan packet the environment leaves the processor as it was. -/
theorem eventKept_environment {s t : State}
    (hi : ∀ i, s.inputs.head? = some i → Event.reset ∉ i.events ∧ ∀ p, Event.csm p ∉ i.events)
    (h : environment s = .next t) : eventKept s t := by
  unfold environment at h
  split at h
  · cases h
    exact eventKept_newStep s s.inputs 1
  · rename_i i l hl
    obtain ⟨hr, hc⟩ := hi i (by simp [hl])
    exact eventKept_trans (eventKept_newStep s l _) (eventKept_applyEvents hr hc h)

/-- A processor that waits runs nothing. -/
theorem runProcessor_stalled {s : State} (h : s.stalled = true) : runProcessor s = .next s := by
  simp [runProcessor, h]

/-- Settles O29: each instruction waits, and the wait lasts. -/
theorem memoryControllerHalted : Obligations.MemoryControllerHalted := by
  intro ra rb disp s
  refine ⟨fun hm => ?_, fun t hs hi h => ?_⟩
  · replace hm : s.mcDown = true := by simpa [State.mcDown] using hm
    refine ⟨fun rwa href hl hp => ?_, fun rwa href hl hp => ?_, fun hpriv => ⟨?_, fun hi hd ho hw => ?_⟩⟩
    · calc exec (.load ra rb disp) s = loadReal s ra rwa := by
            change dataReference s.dtlb s.eff (s.ea rb disp) false = _ at href
            show execLoad ra rb disp s = _
            rw [execLoad, href]
        _ = stall s := loadReal_stalls ra hm hl hp
    · calc exec (.store ra rb disp) s = storeReal s (s.readA ra) rwa := by
            change dataReference s.dtlb s.eff (s.ea rb disp) true = _ at href
            show execStore ra rb disp s = _
            rw [execStore, href]
        _ = stall s := storeReal_stalls _ hm hl hp
    · simp only [List.forall_mem_cons]
      exact ⟨privileged_stalls _ hm hpriv, privileged_stalls _ hm hpriv, privileged_stalls _ hm hpriv,
        privileged_stalls _ hm hpriv, nofun⟩
    · refine execFlush_stalls ra hm hpriv hi hd ho ?_
      simpa [State.flushWrites] using hw
  · obtain ⟨u, hu, h⟩ := andThen_next h
    have hk := eventKept_environment hi hu
    rw [runProcessor_stalled (hk.stalled.trans hs)] at h
    cases h
    exact ⟨hk.stalled.trans hs, hk.pc, hk.npc, hk.psw, hk.rr, hk.pc1, hk.pc2⟩

end Sys2Proof.Machine
end


section
namespace Sys2Proof.Machine

/-! ## Parity errors -/

theorem parityError_of_bad {marks : List Parity} (h : .bad ∈ marks) (fresh : Nat) : parityError marks fresh = true := by
  simp [parityError, h]

theorem parityError_of_good {marks : List Parity} (h : ∀ m ∈ marks, m = .good) (fresh : Nat) :
    parityError marks fresh = false := by
  have hn : ∀ p : Parity, p ≠ .good → p ∉ marks := fun p hp hm => hp (h p hm)
  simp [parityError, hn]

/-- What is marked bad has bad parity. -/
theorem markOf_eq_bad {b : Bool} (h : b = true) : markOf b = .bad := by
  rw [h]; rfl

/-- Without mapping the successor's fetch reads no translation. -/
theorem successorParityHalts_of_imp {s : State} (h : s.nextPsw.imp = true) : successorParityHalts s = false := by
  simp [successorParityHalts, h, referenceMarks, parityError]

/-- An instruction reads its sources, but where it is privileged and only traps (R180). -/
theorem reads_eq_sources {s : State} {i : Instr} (h : trapClass i ≠ .privileged ∨ s.mayPrivileged) :
    s.reads (.instr i) = sources i := by
  refine if_neg fun hc => ?_
  obtain ⟨hp, hu⟩ := Bool.and_eq_true_iff.1 hc
  rcases h with h | h
  · exact h (of_decide_eq_true hp)
  · exact absurd hu (ne_true_of_eq_false h)

/-- A source of bad parity halts the processor. -/
theorem parityHalts_of_bad {s : State} {i : Instr} (hp : s.eff.par = false)
    (hr : trapClass i ≠ .privileged ∨ s.mayPrivileged) {x : Source} (hx : x ∈ sources i) (hm : .bad ∈ x.marks s) :
    parityHalts (.instr i) s = true := by
  have hbad : .bad ∈ (s.reads (.instr i)).flatMap (fun x => x.marks s) := by
    rw [reads_eq_sources hr]
    exact List.mem_flatMap.2 ⟨x, hx, hm⟩
  simp [parityHalts, operandParityHalts, hp, parityError_of_bad hbad]

/-! ### Registers -/

/-- No instruction of a list is privileged, where none of their trap classes is. -/
theorem trapClass_ne_privileged {l : List Instr}
    (h : l.map (fun j => Sys2Proof.Laws.PrivilegedOpcode.isPrivilegedClass (trapClass j)) =
      List.replicate l.length false) : ∀ j ∈ l, trapClass j ≠ .privileged := by
  intro j hj hc
  have hfalse := List.map_eq_replicate_iff.1 h j hj
  rw [(Sys2Proof.Laws.PrivilegedOpcode.isPrivilegedClass_iff _).2 hc] at hfalse
  exact Bool.noConfusion hfalse

theorem trapClass_aluForms {lit : Bool} {ra rb rc : RegField} {inv : Bool} {size : Nat} :
    ∀ j ∈ aluForms lit ra rb rc inv size, trapClass j ≠ .privileged := trapClass_ne_privileged rfl

theorem trapClass_copForms {r : CopResult} {ra rb rc : RegField} :
    ∀ j ∈ copForms r ra rb rc, trapClass j ≠ .privileged := trapClass_ne_privileged rfl

theorem sources_aluForms {lit : Bool} {ra rb rc : RegField} {inv : Bool} {size : Nat} :
    ∀ j ∈ aluForms lit ra rb rc inv size, sources j = aluSources lit ra rb := List.map_eq_replicate_iff.1 rfl

theorem sources_copForms {r : CopResult} {ra rb rc : RegField} :
    ∀ j ∈ copForms r ra rb rc, sources j = copSources ra rb := List.map_eq_replicate_iff.1 rfl

/-- Every extract, ALU without literal and coprocessor instruction reads both registers (R260, R265, R290, log 28). -/
theorem sources_pairForms {r : CopResult} {ra rb rc : RegField} {inv : Bool} {shift size : Nat} :
    ∀ j ∈ Instr.extract ra rb rc shift size :: (aluForms false ra rb rc inv size ++ copForms r ra rb rc),
      sources j = [.a ra, .b rb] ∧ trapClass j ≠ .privileged := by
  intro j hj
  rcases List.mem_cons.1 hj with rfl | hj
  · exact ⟨rfl, nofun⟩
  · rcases List.mem_append.1 hj with hj | hj
    · exact ⟨sources_aluForms j hj, trapClass_aluForms j hj⟩
    · exact ⟨sources_copForms j hj, trapClass_copForms j hj⟩

theorem bad_mem_marks_a {s : State} {n : RegField} (hn : n ≠ 0#6) (h : s.mark (s.raIndex n) = .bad) :
    .bad ∈ (Source.a n).marks s := by
  simp [Source.marks, State.fieldMark, hn, h]

theorem bad_mem_marks_b {s : State} {n : RegField} (hn : n ≠ 0#6) (h : s.mark (s.rbIndex n) = .bad) :
    .bad ∈ (Source.b n).marks s := by
  simp [Source.marks, State.fieldMark, hn, h]

/-- The B operand counts with and without the literal bit (R265). -/
theorem mem_aluSources_b (lit : Bool) (ra rb : RegField) : .b rb ∈ aluSources lit ra rb := by
  cases lit <;> simp [aluSources]

/-! ### Translation buffers -/

theorem tagParity_mem_rowTagMarks (t : Tlb) (col : Bool) (wa : Word) (pid : BitVec 8) :
    (tlbEntry t col wa pid).tagParity ∈ rowTagMarks t wa pid := by
  cases col <;> simp [rowTagMarks]

/-- A tag of bad parity in a row that a tag read selects (R193). -/
theorem bad_mem_tlbTag {s : State} {rb : RegField} {inst col : Bool}
    (h : (if inst then tlbEntry s.itlb col (tlbAddress s rb) s.eff.pid
      else tlbEntry s.dtlb col (tlbDataReadAddress s rb) s.eff.pid).tagParity = .bad) :
    .bad ∈ (Source.tlbTag inst rb).marks s := by
  cases inst <;> exact h ▸ tagParity_mem_rowTagMarks _ col _ _

/-- A data part of bad parity that a data read returns (R190). -/
theorem bad_mem_tlbData {s : State} {rb : RegField} {inst col : Bool}
    (h : (if inst then tlbEntry s.itlb col (tlbAddress s rb) s.eff.pid
      else tlbEntry s.dtlb col (tlbDataReadAddress s rb) s.eff.pid).dataParity = .bad) :
    .bad ∈ (Source.tlbData inst col rb).marks s := by
  cases inst <;> exact h ▸ List.mem_singleton_self _

/-- A buffer read halts by what it reads of the buffer, where it may run. -/
theorem parityHalts_tlbRead {s : State} (hp : s.eff.par = false) (hpriv : s.mayPrivileged) {i : Instr} {x : Source}
    {rb : RegField} (hi : sources i = [.b rb, x]) (h : .bad ∈ x.marks s) : parityHalts (.instr i) s = true :=
  parityHalts_of_bad hp (.inr hpriv) (hi ▸ by simp) h

/-- The tags of both columns count for a tag read of either (R193). -/
theorem parityHalts_tagReads {s : State} (hp : s.eff.par = false) (hpriv : s.mayPrivileged) {ra rb : RegField}
    (col : Bool) :
    ((tlbEntry s.itlb col (tlbAddress s rb) s.eff.pid).tagParity = .bad →
      parityHalts (.instr (.readInstTlbTag0 ra rb)) s = true ∧
        parityHalts (.instr (.readInstTlbTag1 ra rb)) s = true) ∧
    ((tlbEntry s.dtlb col (tlbDataReadAddress s rb) s.eff.pid).tagParity = .bad →
      parityHalts (.instr (.readDataTlbTag0 ra rb)) s = true ∧
        parityHalts (.instr (.readDataTlbTag1 ra rb)) s = true) := by
  refine ⟨fun h => ?inst, fun h => ?data⟩
  case inst =>
    have hbad : .bad ∈ (Source.tlbTag true rb).marks s := bad_mem_tlbTag h
    exact ⟨parityHalts_tlbRead hp hpriv rfl hbad, parityHalts_tlbRead hp hpriv rfl hbad⟩
  case data =>
    have hbad : .bad ∈ (Source.tlbTag false rb).marks s := bad_mem_tlbTag h
    exact ⟨parityHalts_tlbRead hp hpriv rfl hbad, parityHalts_tlbRead hp hpriv rfl hbad⟩

/-- A data read of either buffer halts by the data part of its own column alone. -/
theorem parityHalts_dataReads {s : State} (hp : s.eff.par = false) (hpriv : s.mayPrivileged) {ra rb : RegField} :
    ((tlbEntry s.itlb false (tlbAddress s rb) s.eff.pid).dataParity = .bad →
      parityHalts (.instr (.readInstTlbData0 ra rb)) s = true) ∧
    ((tlbEntry s.itlb true (tlbAddress s rb) s.eff.pid).dataParity = .bad →
      parityHalts (.instr (.readInstTlbData1 ra rb)) s = true) ∧
    ((tlbEntry s.dtlb false (tlbDataReadAddress s rb) s.eff.pid).dataParity = .bad →
      parityHalts (.instr (.readDataTlbData0 ra rb)) s = true) ∧
    ((tlbEntry s.dtlb true (tlbDataReadAddress s rb) s.eff.pid).dataParity = .bad →
      parityHalts (.instr (.readDataTlbData1 ra rb)) s = true) :=
  ⟨fun h => parityHalts_tlbRead hp hpriv rfl (bad_mem_tlbData (inst := true) h),
    fun h => parityHalts_tlbRead hp hpriv rfl (bad_mem_tlbData (inst := true) h),
    fun h => parityHalts_tlbRead hp hpriv rfl (bad_mem_tlbData (inst := false) h),
    fun h => parityHalts_tlbRead hp hpriv rfl (bad_mem_tlbData (inst := false) h)⟩

/-! ### Caches and the bus -/

/-- A load or store reads the tags of its row where mapping is on. -/
theorem bad_mem_memory_row {s : State} {rb : RegField} {disp : BitVec 16} {store : Bool} (hd : s.eff.dmp = false)
    {col : Bool} (h : (tlbEntry s.dtlb col (s.ea rb disp) s.eff.pid).tagParity = .bad) :
    .bad ∈ (Source.memory rb disp store).marks s := by
  refine List.mem_append_left _ ?_
  rw [referenceMarks, hd]
  exact List.mem_append_left _ (h ▸ tagParity_mem_rowTagMarks _ col _ _)

/-- A load or store reads what it meets in the data cache or on the bus. -/
theorem bad_mem_memory_data {s : State} {rb : RegField} {disp : BitVec 16} {store : Bool} {rwa : Word}
    (href : dataReference s.dtlb s.eff (s.ea rb disp) store = .real rwa) (h : .bad ∈ dataMarks s rwa store) :
    .bad ∈ (Source.memory rb disp store).marks s := by
  refine List.mem_append_right _ ?_
  rwa [href]

/-- What of the data cache and the bus has bad parity (R110, R120). -/
theorem bad_mem_dataMarks {s : State} {rwa : Word} {store : Bool}
    (h : (∃ e ∈ s.dcache, e.2.tagBad = true ∧ e.1 % 256 = (lineOf rwa).toNat % 256) ∨
      (store = false ∧ ∃ d, mapGet s.dcache (lineOf rwa).toNat = some d ∧
        d.bad.getLsbD (wordInLine rwa).toNat = true) ∨
      (mapGet s.dcache (lineOf rwa).toNat = none ∧ s.mcDown = false ∧ s.busData ≠ none)) :
    .bad ∈ dataMarks s rwa store := by
  simp only [dataMarks, List.mem_cons]
  rcases h with ⟨e, he, htag, hrow⟩ | ⟨rfl, d, hd, hbad⟩ | ⟨hg, hm, hb⟩
  · refine .inl (markOf_eq_bad (List.any_eq_true.2 ⟨e, he, ?_⟩)).symm
    simp [htag, cacheRow, hrow]
  · exact .inr (.inl (by simp [State.dataBad, hd, hbad]))
  · refine .inr (.inr (.inl (markOf_eq_bad ?_).symm))
    simp [State.hasDataLine, hg, hm, Option.isSome_iff_ne_none.2 hb]

/-- What of the instruction cache and the bus has (R110, R120). -/
theorem bad_mem_instMarks {s : State} {rwa : Word}
    (h : (∃ e ∈ s.icache, e.2.tagBad = true ∧ e.1 % 256 = (lineOf rwa).toNat % 256) ∨
      (∃ d, mapGet s.icache (lineOf rwa).toNat = some d ∧ d.bad.getLsbD (wordInLine rwa).toNat = true) ∨
      (mapGet s.icache (lineOf rwa).toNat = none ∧ s.mcDown = false ∧ s.busInst ≠ none)) :
    .bad ∈ instMarks s rwa := by
  simp only [instMarks, List.mem_cons]
  rcases h with ⟨e, he, htag, hrow⟩ | ⟨d, hd, hbad⟩ | ⟨hg, hm, hb⟩
  · refine .inl (markOf_eq_bad (List.any_eq_true.2 ⟨e, he, ?_⟩)).symm
    simp [htag, cacheRow, hrow]
  · exact .inr (.inl (markOf_eq_bad (by simp [hd, hbad])).symm)
  · refine .inr (.inr (.inl (markOf_eq_bad ?_).symm))
    simp [hg, hm, Option.isSome_iff_ne_none.2 hb]

/-- A load or store halts by what it reads of memory, in either mode. -/
theorem parityHalts_access {s : State} (hp : s.eff.par = false) {ra rb : RegField} {disp : BitVec 16} :
    (.bad ∈ (Source.memory rb disp false).marks s → parityHalts (.instr (.load ra rb disp)) s = true) ∧
    (.bad ∈ (Source.memory rb disp true).marks s → parityHalts (.instr (.store ra rb disp)) s = true) :=
  ⟨parityHalts_of_bad hp (.inl (by simp [trapClass])) (by simp [sources]),
    parityHalts_of_bad hp (.inl (by simp [trapClass])) (by simp [sources])⟩

theorem fetchParityHalts_of_bad {s : State} {rwa : Word} (hp : s.psw.par = false)
    (href : instReference s.itlb s.psw (s.pc >>> 2) = .real rwa) (h : .bad ∈ instMarks s rwa) :
    fetchParityHalts s = true := by
  have hbad : .bad ∈ fetchMarks s := by
    refine List.mem_append_right _ ?_
    rwa [href]
  simp [fetchParityHalts, hp, parityError_of_bad hbad]

/-! ### What does not halt -/

/-- Sources of good parity do not halt, where the successor's fetch is not mapped. -/
theorem parityHalts_of_good {s : State} {i : Instr} (hn : s.nextPsw.imp = true)
    (h : ∀ x ∈ sources i, ∀ m ∈ x.marks s, m = .good) : parityHalts (.instr i) s = false := by
  have hgood : ∀ m ∈ (s.reads (.instr i)).flatMap (fun x => x.marks s), m = .good := by
    intro m hm
    obtain ⟨x, hx, hm⟩ := List.mem_flatMap.1 hm
    refine h x ?_ m hm
    unfold State.reads at hx
    split at hx
    · cases hx
    · exact hx
  simp [parityHalts, operandParityHalts, parityError_of_good hgood, successorParityHalts_of_imp hn]

/-- A privileged instruction that only traps reads nothing (R180). -/
theorem parityHalts_of_privileged {s : State} {i : Instr} (hc : trapClass i = .privileged)
    (hu : s.eff.unprivileged = true) (hn : s.nextPsw.imp = true) : parityHalts (.instr i) s = false := by
  have hr : s.reads (.instr i) = [] := if_pos (by simp [decodedTrapClass, hc, hu])
  simp [parityHalts, operandParityHalts, hr, parityError, successorParityHalts_of_imp hn]

/-- A register that nothing has written since reset may halt or not (D24, log 12). -/
theorem parityHalts_unwritten {s : State} {ra : RegField} (rc : RegField) (hp : s.eff.par = false)
    (hn : s.nextPsw.imp = true) (hra : ra ≠ 0#6) (hm : s.mark (s.raIndex ra) = .unwritten) :
    parityHalts (.instr (.aluAdd false ra 0#6 rc)) s = Config.unwrittenParity s.fresh := by
  have hr : s.reads (.instr (.aluAdd false ra 0#6 rc)) = [.a ra, .b 0#6] :=
    reads_eq_sources (.inl (by simp [trapClass]))
  have hmarks : (s.reads (.instr (.aluAdd false ra 0#6 rc))).flatMap (fun x => x.marks s) = [.unwritten, .good] := by
    simp [hr, Source.marks, State.fieldMark, hra, hm]
  simp [parityHalts, operandParityHalts, hmarks, hp, parityError, successorParityHalts_of_imp hn]

/-- A parity error of the fetch halts the processor before anything is fetched. -/
theorem runFetched_halts {s : State} (h : fetchParityHalts s = true) : runFetched s = .next (s.haltPlain .parity) := by
  simp [runFetched, h]

/-- A parity error in what a word reads halts it with its fields in the record. -/
theorem runWord_halts {w : Word} {s : State} (hi : icarAdmits s.icar (decodeWord w) = true)
    (h : parityHalts (decodeWord w) s = true) :
    runWord w s = .next (s.haltFields .parity (raField w) (rbField w)) := by
  simp [runWord, hi, h]

/-- A register operand of bad parity halts every extract, ALU and coprocessor instruction (R24, log 28). -/
theorem parityHalts_operand {s : State} (hp : s.eff.par = false) {ra rb rc : RegField} {r : CopResult} {inv : Bool}
    {shift size : Nat} :
    (rb ≠ 0#6 → s.mark (s.rbIndex rb) = .bad → ∀ lit, ∀ j ∈ aluForms lit ra rb rc inv size,
      parityHalts (.instr j) s = true) ∧
    ((ra ≠ 0#6 ∧ s.mark (s.raIndex ra) = .bad) ∨ (rb ≠ 0#6 ∧ s.mark (s.rbIndex rb) = .bad) →
      ∀ j ∈ Instr.extract ra rb rc shift size :: (aluForms false ra rb rc inv size ++ copForms r ra rb rc),
        parityHalts (.instr j) s = true) := by
  refine ⟨fun hn hm lit j hj => ?alu, fun h j hj => ?pair⟩
  case alu =>
    exact parityHalts_of_bad hp (.inl (trapClass_aluForms j hj))
      (sources_aluForms j hj ▸ mem_aluSources_b lit ra rb) (bad_mem_marks_b hn hm)
  case pair =>
    obtain ⟨hsrc, hc⟩ := sources_pairForms j hj
    rcases h with ⟨hn, hm⟩ | ⟨hn, hm⟩
    · exact parityHalts_of_bad hp (.inl hc) (hsrc ▸ by simp) (bad_mem_marks_a hn hm)
    · exact parityHalts_of_bad hp (.inl hc) (hsrc ▸ by simp) (bad_mem_marks_b hn hm)

/-- Settles O33, clause by clause. -/
theorem parityHalts_spec : Obligations.ParityHalts := by
  intro w s i ra rb rc disp
  refine ⟨fun he hn => ?unchecked, fun hp => ?fetchUnchecked, fun h => ⟨_, runFetched_halts h, nofun⟩,
    fun hi h => ⟨_, runWord_halts hi h, halt_spec _ _ _ _⟩,
    fun hp => ⟨fun _ _ _ _ => parityHalts_operand hp, fun hpriv inst data hinst hdata => ?buffers,
      fun hd col h => ?row, fun rwa => ?access⟩,
    fun hp rwa href h => fetchParityHalts_of_bad hp href (bad_mem_instMarks h),
    parityHalts_of_privileged, parityHalts_unwritten rc, parityHalts_of_good⟩
  case unchecked => simp [parityHalts, operandParityHalts, successorParityHalts, he, hn]
  case fetchUnchecked => simp [fetchParityHalts, hp]
  case buffers =>
    subst hinst hdata
    obtain ⟨hi0, hi1, hd0, hd1⟩ := parityHalts_dataReads hp hpriv (ra := ra) (rb := rb)
    refine ⟨parityHalts_tagReads hp hpriv, ?_⟩
    simp only [List.forall_mem_cons]
    exact ⟨hi0, hi1, hd0, hd1, List.forall_mem_nil _⟩
  case row =>
    exact ⟨(parityHalts_access hp).1 (bad_mem_memory_row hd h), (parityHalts_access hp).2 (bad_mem_memory_row hd h)⟩
  case access =>
    refine List.forall_mem_cons.2 ⟨fun href h => ?load, List.forall_mem_singleton.2 fun href h => ?store⟩
    case load => exact (parityHalts_access hp).1 (bad_mem_memory_data href (bad_mem_dataMarks h))
    case store => exact (parityHalts_access hp).2 (bad_mem_memory_data href (bad_mem_dataMarks h))

end Sys2Proof.Machine
end


section
namespace Sys2Proof.Machine

/-! ## Translation -/

/-- A match in the words of R98: pid and tag agree and the entry is valid. -/
theorem entryMatches_iff (e : TlbEntry) (wa : Word) (pid : BitVec 8) :
    entryMatches e wa pid = true ↔ e.pid = pid ∧ e.tag = wa.extractLsb' 19 13 ∧ e.invalid = false := by
  simp [entryMatches, entryAgrees, tagOf, and_assoc]

/-- The entries of the row that a reference selects (R97). -/
theorem tlbEntry_of_getElem? {t : Tlb} {wa : Word} {pid : BitVec 8} {e0 e1 : TlbEntry}
    (h0 : t.col0[tlbRow wa pid]? = some e0) (h1 : t.col1[tlbRow wa pid]? = some e1) :
    tlbEntry t false wa pid = e0 ∧ tlbEntry t true wa pid = e1 :=
  ⟨(Vector.getElem?_eq_some_iff.1 h0).2, (Vector.getElem?_eq_some_iff.1 h1).2⟩

section
variable {t : Tlb} {wa : Word} {pid : BitVec 8}

/-- What a lookup finds, by the columns that match (R98). -/
theorem tlbLookup_missing (h0 : entryMatches (tlbEntry t false wa pid) wa pid = false)
    (h1 : entryMatches (tlbEntry t true wa pid) wa pid = false) : tlbLookup t wa pid = .missing := by
  simp [tlbLookup, h0, h1]

theorem tlbLookup_ambiguous (h0 : entryMatches (tlbEntry t false wa pid) wa pid = true)
    (h1 : entryMatches (tlbEntry t true wa pid) wa pid = true) : tlbLookup t wa pid = .ambiguous := by
  simp [tlbLookup, h0, h1]

/-- The column that alone matches gives the translation. -/
theorem tlbLookup_found (col : Bool) (h : entryMatches (tlbEntry t col wa pid) wa pid = true)
    (hn : entryMatches (tlbEntry t (!col) wa pid) wa pid = false) :
    tlbLookup t wa pid = .found (tlbEntry t col wa pid) := by
  cases col
  · rw [Bool.not_false] at hn
    simp [tlbLookup, h, hn]
  · rw [Bool.not_true] at hn
    simp [tlbLookup, h, hn]

end

/-- A mapped data reference goes where its lookup says (R98, R99). -/
theorem dataReference_mapped {t : Tlb} {p : Psw} (h : p.dmp = false) (wa : Word) (store : Bool) :
    (tlbLookup t wa p.pid = .missing → dataReference t p wa store = .noTranslation) ∧
    (tlbLookup t wa p.pid = .ambiguous → dataReference t p wa store = .ambiguous) ∧
    ∀ e, tlbLookup t wa p.pid = .found e → dataReference t p wa store =
      if store = true ∧ e.writable = false then .readOnly else .real (e.rpn ++ wa.extractLsb' 0 10) := by
  refine ⟨fun hl => ?_, fun hl => ?_, fun e hl => ?_⟩ <;> simp [dataReference, h, hl, realAddress]

/-- An instruction reference likewise, without write protection (R100). -/
theorem instReference_mapped {t : Tlb} {p : Psw} (h : p.imp = false) (wa : Word) :
    (tlbLookup t wa p.pid = .missing → instReference t p wa = .noTranslation) ∧
    (tlbLookup t wa p.pid = .ambiguous → instReference t p wa = .ambiguous) ∧
    ∀ e, tlbLookup t wa p.pid = .found e → instReference t p wa = .real (e.rpn ++ wa.extractLsb' 0 10) := by
  refine ⟨fun hl => ?_, fun hl => ?_, fun e hl => ?_⟩ <;> simp [instReference, h, hl, realAddress]

/-- Settles O24: the lookup by its two columns, then each reference by its lookup. -/
theorem translationLookup : Obligations.TranslationLookup := by
  intro b p wa store row e0 e1 hrow h0 h1 hit hhit
  obtain rfl : row = tlbRow wa p.pid := hrow
  obtain ⟨he0, he1⟩ := tlbEntry_of_getElem? h0 h1
  have hmatch : ∀ e, hit e ↔ entryMatches e wa p.pid = true := fun e =>
    (hhit e).trans (entryMatches_iff e wa p.pid).symm
  have hmissing : ¬hit e0 → ¬hit e1 → tlbLookup b wa p.pid = .missing := fun n0 n1 =>
    tlbLookup_missing (by simpa [he0, hmatch] using n0) (by simpa [he1, hmatch] using n1)
  have hambiguous : hit e0 → hit e1 → tlbLookup b wa p.pid = .ambiguous := fun m0 m1 =>
    tlbLookup_ambiguous (by simpa [he0, hmatch] using m0) (by simpa [he1, hmatch] using m1)
  have hfound : ∀ e, (e = e0 ∧ hit e0 ∧ ¬hit e1) ∨ (e = e1 ∧ hit e1 ∧ ¬hit e0) →
      tlbLookup b wa p.pid = .found e := by
    rintro e (⟨rfl, m, n⟩ | ⟨rfl, m, n⟩)
    · rw [tlbLookup_found false (by simpa [he0, hmatch] using m) (by simpa [he1, hmatch] using n), he0]
    · rw [tlbLookup_found true (by simpa [he1, hmatch] using m) (by simpa [he0, hmatch] using n), he1]
  refine ⟨fun hd => if_pos hd, fun hi => if_pos hi, fun hd => ?data, fun hi => ?inst⟩
  case data =>
    obtain ⟨dmissing, dambiguous, dfound⟩ := dataReference_mapped (t := b) hd wa store
    exact ⟨fun n0 n1 => dmissing (hmissing n0 n1), fun m0 m1 => dambiguous (hambiguous m0 m1),
      fun e he => dfound e (hfound e he)⟩
  case inst =>
    obtain ⟨imissing, iambiguous, ifound⟩ := instReference_mapped (t := b) hi wa
    exact ⟨fun n0 n1 => imissing (hmissing n0 n1), fun m0 m1 => iambiguous (hambiguous m0 m1),
      fun e he => ifound e (hfound e he)⟩

end Sys2Proof.Machine
end


section
namespace Sys2Proof.Machine

/-! ## Lines that arrive -/

/-- A line without an error on the bus, and one with (R120). -/
theorem arrived_data (e : Option BusError) (v : Line) :
    (e = none → DataLine.arrived e v = { line := v, dirty := false, bad := 0#4, tagBad := false }) ∧
    ∀ b, e = some b → DataLine.arrived e v =
      { line := lineSet v b.k b.v, dirty := false, bad := 1#4 <<< b.k.toNat, tagBad := false } := by
  cases e with
  | none => exact ⟨fun _ => rfl, nofun⟩
  | some b => exact ⟨nofun, fun _ h => by cases h; rfl⟩

theorem arrived_inst (e : Option BusError) (v : Line) :
    (e = none → InstLine.arrived e v = { line := v, bad := 0#4, tagBad := false }) ∧
    ∀ b, e = some b → InstLine.arrived e v =
      { line := lineSet v b.k b.v, bad := 1#4 <<< b.k.toNat, tagBad := false } := by
  cases e with
  | none => exact ⟨fun _ => rfl, nofun⟩
  | some b => exact ⟨nofun, fun _ h => by cases h; rfl⟩

/-! ## Fetching -/

section
variable {s : State} {rwa : Word}

/-- A fetch that has a translation needs its line. -/
theorem fetch_real (h : instReference s.itlb s.psw (s.pc >>> 2) = .real rwa) :
    (s.fillInst (lineOf rwa) = none → fetch s = .stalled) ∧
    ∀ t, s.fillInst (lineOf rwa) = some t → fetch s = .word (t.instWord rwa) { t with fresh := t.fresh + 1 } := by
  refine ⟨fun hf => ?_, fun t hf => ?_⟩ <;> simp [fetch, h, hf]

/-- The word of a line that the instruction cache holds. -/
theorem instWord_of_mapGet {d : InstLine} (h : mapGet s.icache (lineOf rwa).toNat = some d) :
    s.instWord rwa = lineGet d.line (wordInLine rwa) := by
  simp [State.instWord, h]

end

section
variable {s : State} {l : LineAddr}

theorem fillInst_hit {d : InstLine} (h : mapGet s.icache l.toNat = some d) : s.fillInst l = some s := by
  simp [State.fillInst, h]

/-- A line that is absent waits for a memory controller that does nothing (R368, R439). -/
theorem fillInst_stalled (h : mapGet s.icache l.toNat = none) (hm : s.mcDown = true) : s.fillInst l = none := by
  simp [State.fillInst, h, hm]

/-- A line that is absent comes in as the memory controller reads it and the bus carries it; beside the instruction
cache only the error record and the ECC input change. -/
theorem fillInst_miss (h : mapGet s.icache l.toNat = none) (hm : s.mcDown = false) :
    ∃ v mc ecc, lineRead s s.psw.rom false l v mc ecc ∧
      s.fillInst l = some { s with
        icache := mapSet s.icache l.toNat (InstLine.arrived s.busInst v), mc := mc, ecc := ecc } := by
  refine ⟨_, _, _, readRealLine_spec s s.psw.rom false l, ?_⟩
  simp only [State.fillInst, h, hm, Option.isSome_none, Bool.false_eq_true, if_false, Option.some.injEq]
  generalize InstLine.arrived s.busInst (readRealLine s s.psw.rom false l).1 = d
  exact congrArg (fun u : State => { u with icache := mapSet u.icache l.toNat d })
    (readRealLine_shape s s.psw.rom false l)

end

/-- Settles O10: the line is there, or waited for, or read. -/
theorem fetchReads : Obligations.FetchReads := by
  intro s rwa href
  obtain ⟨hstalled, hword⟩ := fetch_real href
  refine ⟨fun d hd => ?hit, fun hl hm => hstalled (fillInst_stalled hl hm), fun hl hm => ?miss⟩
  case hit => rw [hword s (fillInst_hit hd), instWord_of_mapGet hd]
  case miss =>
    obtain ⟨v, mc, ecc, hread, hfill⟩ := fillInst_miss hl hm
    obtain ⟨hnone, hsome⟩ := arrived_inst s.busInst v
    have hgot := mapGet_mapSet_same s.icache (lineOf rwa).toNat (InstLine.arrived s.busInst v)
    refine ⟨_, v, mc, ecc, _, hread, hnone, hsome, fun k hk => mapGet_mapSet_ne _ _ hk, hgot, ?_⟩
    rw [hword _ hfill, instWord_of_mapGet hgot]

/-! ## Loads and stores of real addresses -/

section
variable {s u : State} {rwa : Word}

theorem exec_load_real {ra rb : RegField} {disp : BitVec 16}
    (h : dataReference s.dtlb s.eff ((s.readB rb >>> 2) + disp.signExtend 32) false = .real rwa) :
    exec (.load ra rb disp) s = loadReal s ra rwa := by
  change dataReference s.dtlb s.eff (s.ea rb disp) false = _ at h
  show execLoad ra rb disp s = _
  rw [execLoad, h]

theorem exec_store_real {ra rb : RegField} {disp : BitVec 16}
    (h : dataReference s.dtlb s.eff ((s.readB rb >>> 2) + disp.signExtend 32) true = .real rwa) :
    exec (.store ra rb disp) s = storeReal s (s.readA ra) rwa := by
  change dataReference s.dtlb s.eff (s.ea rb disp) true = _ at h
  show execStore ra rb disp s = _
  rw [execStore, h]

/-- A line that the data cache holds is no dirty miss. -/
theorem dirtyPromMiss_of_hasDataLine {l : LineAddr} (h : s.hasDataLine l = true) : s.dirtyPromMiss l = false := by
  simp [State.dirtyPromMiss, h]

theorem loadReal_filled (ra : RegField) (hp : s.dirtyPromMiss (lineOf rwa) = false)
    (hf : s.fillData (lineOf rwa) = some u) :
    loadReal s ra rwa = .next ((u.result ra (u.dataWord rwa)).retire (didMemory false (s.wroteA ra))) := by
  simp [loadReal, hp, hf]

theorem storeReal_filled (v : Word) (hp : s.dirtyPromMiss (lineOf rwa) = false)
    (hf : s.fillData (lineOf rwa) = some u) :
    storeReal s v rwa =
      .next (({ u.putDataWord rwa v with rr := none } : State).retire (didMemory true none)) := by
  simp [storeReal, hp, hf]

/-- A fill that has a line or a memory controller succeeds, and the line is there after it. -/
theorem fillData_some {l : LineAddr} (h : ¬(s.mcDown = true ∧ s.hasDataLine l = false)) :
    ∃ u, s.fillData l = some u := by
  cases hl : s.hasDataLine l
  · cases hm : s.mcDown
    · exact ⟨_, fillData_miss hl hm⟩
    · exact absurd ⟨hm, hl⟩ h
  · exact ⟨s, fillData_hit hl⟩

/-- The word of a line that the data cache holds. -/
theorem dataWord_of_mapGet {d : DataLine} (h : mapGet s.dcache (lineOf rwa).toNat = some d) :
    s.dataWord rwa = lineGet d.line (wordInLine rwa) := by
  simp [State.dataWord, State.dataLine, h]

/-- The line of a word just put: the word replaced, with good parity, and dirty. -/
theorem mapGet_putDataWord (s : State) (rwa v : Word) :
    mapGet (s.putDataWord rwa v).dcache (lineOf rwa).toNat =
      some { line := lineSet (s.dataLine (lineOf rwa)) (wordInLine rwa) v, dirty := true,
             bad := clearMark (s.dataBad (lineOf rwa)) (wordInLine rwa), tagBad := s.dataTagBad (lineOf rwa) } :=
  mapGet_mapSet_same _ _ _

/-- A word just put is the word there. -/
theorem dataWord_putDataWord (s : State) (rwa v : Word) : (s.putDataWord rwa v).dataWord rwa = v := by
  rw [dataWord_of_mapGet (mapGet_putDataWord s rwa v), lineGet_lineSet_same]

theorem dataWord_congr (h : u.dcache = s.dcache) (rwa : Word) : u.dataWord rwa = s.dataWord rwa := by
  simp [State.dataWord, State.dataLine, h]

/-- A load of a line that is there. -/
theorem loadReal_hit (ra : RegField) (h : s.hasDataLine (lineOf rwa) = true) :
    loadReal s ra rwa = .next ((s.result ra (s.dataWord rwa)).retire (didMemory false (s.wroteA ra))) :=
  loadReal_filled ra (dirtyPromMiss_of_hasDataLine h) (fillData_hit h)

/-- A store that goes on leaves its word in the data cache (R112). -/
theorem storeReal_leaves_word {v : Word} {t : State} (h : storeReal s v rwa = .next t)
    (hn : ¬(s.mcDown = true ∧ s.hasDataLine (lineOf rwa) = false)) :
    t.hasDataLine (lineOf rwa) = true ∧ t.dataWord rwa = v := by
  obtain ⟨u, hu⟩ := fillData_some hn
  have hp : s.dirtyPromMiss (lineOf rwa) = false := by
    cases hp : s.dirtyPromMiss (lineOf rwa)
    · rfl
    · simp [storeReal, hp] at h
  cases (storeReal_filled v hp hu).symm.trans h
  refine ⟨?_, ?_⟩
  · simp [State.hasDataLine, mapGet_putDataWord]
  · rw [dataWord_congr (s := u.putDataWord rwa v) (by simp), dataWord_putDataWord]

end

/-- Settles O27: the store leaves its word in the data cache, where the load finds it. -/
theorem storeThenLoad : Obligations.StoreThenLoad := by
  intro ra rb ra' rb' disp disp' s t rwa hstore hs hn hload
  rw [exec_store_real hstore] at hs
  obtain ⟨hline, hword⟩ := storeReal_leaves_word hs hn
  rw [exec_load_real hload, loadReal_hit ra' hline, hword]
  exact ⟨_, rfl, by simp, regWritten_of (u := t) (by simp) (by simp) rfl rfl rfl⟩

/-! ## Loads and stores that miss -/

/-- What a load or store may change before it retires: registers, RR, the data cache, and what a line read changes of
the memory controller. -/
def accessChanges (s u : State) : Prop :=
  ∃ r m q c mc ecc, u = { s with regs := r, marks := m, rr := q, dcache := c, mc := mc, ecc := ecc }

section
variable {s u : State}

theorem accessChanges_result (h : accessChanges s u) (n : RegField) (v : Word) : accessChanges s (u.result n v) := by
  obtain ⟨_, _, _, c, mc, ecc, rfl⟩ := h
  obtain ⟨r, m, q, hr⟩ := result_shape _ n v
  exact ⟨r, m, q, c, mc, ecc, hr⟩

theorem accessChanges_put (h : accessChanges s u) (rwa v : Word) (q : Option Word) :
    accessChanges s { u.putDataWord rwa v with rr := q } := by
  obtain ⟨r, m, _, _, mc, ecc, rfl⟩ := h
  exact ⟨r, m, q, _, mc, ecc, rfl⟩

/-- The frame of an access. -/
theorem accessKept_retire (h : accessChanges s u) (d : Did) : accessKept s (u.retire d) := by
  obtain ⟨r, m, q, c, mc, ecc, rfl⟩ := h
  refine ⟨⟨?_, ?_⟩, ⟨?_, ?_⟩, ?_, ?_, systemKept_retireWith _ _ _ ?_ ?_ ?_ ?_ ?_ ?_,
    queueKept_retireWith _ _ _ _ ?_ ?_ ?_, ?_, ?_⟩ <;> simp

/-- An access that changes one line of the data cache. -/
theorem dataLineBecomes_retire (h : accessChanges s u) (d : Did) {l : LineAddr} {x : DataLine}
    (hl : mapGet u.dcache l.toNat = some x) (hk : ∀ k, k ≠ l.toNat → mapGet u.dcache k = mapGet s.dcache k) :
    dataLineBecomes s (u.retire d) l x := by
  obtain ⟨r, m, q, c, mc, ecc, rfl⟩ := h
  exact ⟨fun a => by simp, fun a => by simp, by simp, by simp, by simpa using hl, by simpa using hk⟩

/-- A line that comes in, as the memory controller reads it and the bus carries it. -/
theorem fillData_reads {l : LineAddr} (h : s.hasDataLine l = false) (hm : s.mcDown = false) :
    ∃ v mc ecc u, lineRead s s.eff.rom false l v mc ecc ∧ s.fillData l = some u ∧
      u = { s with dcache := mapSet s.dcache l.toNat (DataLine.arrived s.busData v), mc := mc, ecc := ecc } :=
  ⟨_, _, _, _, readRealLine_spec s s.eff.rom false l, fillData_miss h hm, rfl⟩

end

section
variable {s u : State} {rwa : Word} {d : DataLine} {mc : MemCtl} {ecc : List (Option EccError)}

/-- A load that has brought in the line `d` takes its word from it (R112, R241). -/
theorem loadReal_miss (ra : RegField) (hp : s.dirtyPromMiss (lineOf rwa) = false)
    (hf : s.fillData (lineOf rwa) = some u)
    (hu : u = { s with dcache := mapSet s.dcache (lineOf rwa).toNat d, mc := mc, ecc := ecc }) :
    ∃ t, loadReal s ra rwa = .next t ∧ regWritten s t ra (lineGet d.line (wordInLine rwa)) ∧
      t.rr = some (lineGet d.line (wordInLine rwa)) ∧ accessKept s t ∧ t.mc = mc ∧ t.ecc = ecc ∧
      dataLineBecomes s t (lineOf rwa) d := by
  have hgot : mapGet u.dcache (lineOf rwa).toNat = some d := by rw [hu]; exact mapGet_mapSet_same _ _ _
  have hothers : ∀ k, k ≠ (lineOf rwa).toNat → mapGet u.dcache k = mapGet s.dcache k := by
    rw [hu]; exact fun k hk => mapGet_mapSet_ne _ _ hk
  have hc := accessChanges_result (s := s) ⟨_, _, _, _, _, _, hu⟩ ra (lineGet d.line (wordInLine rwa))
  rw [loadReal_filled ra hp hf, dataWord_of_mapGet hgot]
  exact ⟨_, rfl, regWritten_of (u := u) (by simp) (by simp) (by rw [hu]) (by rw [hu]) (by rw [hu]; rfl), by simp,
    accessKept_retire hc _, by simp [hu], by simp [hu],
    dataLineBecomes_retire hc _ (by simpa using hgot) (by simpa using hothers)⟩

/-- A store that has brought in the line `d` puts its word into it (R112, R242). -/
theorem storeReal_miss (v : Word) (hp : s.dirtyPromMiss (lineOf rwa) = false)
    (hf : s.fillData (lineOf rwa) = some u)
    (hu : u = { s with dcache := mapSet s.dcache (lineOf rwa).toNat d, mc := mc, ecc := ecc }) :
    ∃ t, storeReal s v rwa = .next t ∧ regsKept s t ∧ t.rr = none ∧ accessKept s t ∧ t.mc = mc ∧ t.ecc = ecc ∧
      dataLineBecomes s t (lineOf rwa)
        { line := lineSet d.line (wordInLine rwa) v, dirty := true,
          bad := d.bad &&& ~~~(1#4 <<< (wordInLine rwa).toNat), tagBad := d.tagBad } := by
  have hgot : mapGet u.dcache (lineOf rwa).toNat = some d := by rw [hu]; exact mapGet_mapSet_same _ _ _
  have hput := mapGet_putDataWord u rwa v
  simp only [State.dataLine, State.dataBad, State.dataTagBad, hgot, Option.map_some, Option.getD_some] at hput
  have hothers : ∀ k, k ≠ (lineOf rwa).toNat → mapGet (u.putDataWord rwa v).dcache k = mapGet s.dcache k := by
    intro k hk
    rw [hu]
    exact (mapGet_mapSet_ne _ _ hk).trans (mapGet_mapSet_ne _ _ hk)
  have hc := accessChanges_put (s := s) ⟨_, _, _, _, _, _, hu⟩ rwa v none
  rw [storeReal_filled v hp hf]
  exact ⟨_, rfl, regsKept_of (by simp [hu]) (by simp [hu]), by simp, accessKept_retire hc _, by simp [hu],
    by simp [hu], dataLineBecomes_retire hc _ hput hothers⟩

end

/-- Settles O28: the line that is read arrives, and the access takes place in it; the table is that of R64. -/
theorem loadErrors : Obligations.LoadErrors := by
  rintro ra rb disp s _ rwa rfl hl hm hp
  refine ⟨?access, by decide +kernel, by decide +kernel⟩
  case access =>
    obtain ⟨v, mc, ecc, u, hread, hfill, hu⟩ := fillData_reads hl hm
    obtain ⟨hnone, hsome⟩ := arrived_data s.busData v
    refine ⟨v, mc, ecc, _, hread, hnone, hsome, fun href => ?load, fun href => ?store⟩
    case load =>
      rw [exec_load_real href]
      exact loadReal_miss ra hp hfill hu
    case store =>
      rw [exec_store_real href]
      exact storeReal_miss (s.readA ra) hp hfill hu

end Sys2Proof.Machine
end


section
namespace Sys2Proof.Machine

/-! ## Evictions -/

/-- A line written to main memory is there, where its module is populated (R91, R92). -/
theorem readLine_physWriteLine {p : BitVec 4} {l : LineAddr} (h : isPopulated p l = true) (m : Memory) (v : Line) :
    readLine (physWriteLine p m l v) (physicalLine l) = v := by
  simp [physWriteLine, h]

/-- No other byte changes, and none where the module is vacant (R92). -/
theorem readByte_physWriteLine_ne {p : BitVec 4} {l : LineAddr} {a : Nat}
    (h : isPopulated p l = false ∨ a / 16 ≠ physicalLine l) (m : Memory) (v : Line) :
    readByte (physWriteLine p m l v) a = readByte m a := by
  unfold physWriteLine
  split
  · rename_i hp
    exact readByte_writeLine_ne m _ v a (h.resolve_left (by simp [hp]))
  · rfl

section
variable {s : State} {l : LineAddr} {d : DataLine}

theorem applyEvent_evictData (l : LineAddr) (hf : s.frozen = false) (hm : s.mcDown = false) :
    applyEvent (.evictData l) s = .next (s.evictData l) := by
  simp [applyEvent, hf, hm]

/-- A write-back that reads bad parity halts, where parity is checked (R367). -/
theorem evictData_halts (h : mapGet s.dcache l.toNat = some d) (hd : d.dirty = true) (hs : d.spoilt = true)
    (hp : s.psw.par = false) : s.evictData l = s.haltPlain .parity := by
  simp [State.evictData, h, hd, hs, hp]

/-- Otherwise the line leaves, written first if it is dirty (R111). -/
theorem evictData_leaves (h : mapGet s.dcache l.toNat = some d)
    (hok : d.dirty = false ∨ d.spoilt = false ∨ s.psw.par = true) :
    s.evictData l = { s with
      mem := if d.dirty then physWriteLine s.populated s.mem l d.line else s.mem,
      dcache := mapErase s.dcache l.toNat, dirtyEvicted := s.dirtyEvicted || d.dirty } := by
  have hcond : (d.dirty && d.spoilt && !s.psw.par) = false := by
    rcases hok with h | h | h <;> simp [h]
  simp only [State.evictData, h, hcond, Bool.false_eq_true, if_false]

/-- What an eviction of a data line does (R111, R120, R367). -/
theorem evictData_spec (h : mapGet s.dcache l.toNat = some d) :
    (d.dirty = true → d.tagBad = true ∨ d.bad ≠ 0#4 → s.psw.par = false →
      ∃ r, s.evictData l = { s with halted := some r } ∧ r.cause = .parity) ∧
    (d.dirty = false ∨ (d.tagBad = false ∧ d.bad = 0#4) ∨ s.psw.par = true →
      mapGet (s.evictData l).dcache l.toNat = none ∧
      (∀ j, j ≠ l.toNat → mapGet (s.evictData l).dcache j = mapGet s.dcache j) ∧
      (d.dirty = true → isPopulated s.populated l = true → readLine (s.evictData l).mem (physicalLine l) = d.line) ∧
      ∀ a, d.dirty = false ∨ isPopulated s.populated l = false ∨ a / 16 ≠ physicalLine l →
        readByte (s.evictData l).mem a = readByte s.mem a) := by
  refine ⟨fun hd hs hp => ⟨_, evictData_halts h hd (by simpa [DataLine.spoilt] using hs) hp, rfl⟩, fun hok => ?leaves⟩
  case leaves =>
    rw [evictData_leaves h (by simpa [DataLine.spoilt] using hok)]
    refine ⟨mapGet_mapErase_same _ _, fun j hj => mapGet_mapErase_ne _ hj, fun hd hp => ?written, fun a ha => ?other⟩
    case written => simpa [hd] using readLine_physWriteLine hp s.mem d.line
    case other =>
      cases hd : d.dirty
      · rfl
      · simpa using readByte_physWriteLine_ne (ha.resolve_left (by simp [hd])) s.mem d.line

/-- What an eviction of an instruction line does (R111). -/
theorem applyEvent_evictInst (l : LineAddr) (hf : s.frozen = false) :
    ∃ t, applyEvent (.evictInst l) s = .next t ∧ mapGet t.icache l.toNat = none ∧
      (∀ j, j ≠ l.toNat → mapGet t.icache j = mapGet s.icache j) ∧ t.dcache = s.dcache ∧ mainMemoryKept s t := by
  refine ⟨s.evictInst l, by simp [applyEvent, hf], mapGet_mapErase_same _ _, fun j hj => mapGet_mapErase_ne _ hj, rfl,
    fun a => rfl⟩

end

/-! ## DMA -/

theorem wordPlace_cases (k : BitVec 2) : k = 0#2 ∨ k = 1#2 ∨ k = 2#2 ∨ k = 3#2 := by
  revert k; decide

/-- The j-th word of a DMA input lands at word (a[1:0] + j) mod 4 (R119). -/
theorem lineGet_dmaLine (addr : Word) (t : Line) (j : BitVec 2) :
    lineGet (dmaLine addr t) (wordInLine addr + j) = lineGet t j := by
  unfold dmaLine
  rcases wordPlace_cases (wordInLine addr) with h | h | h | h <;> rw [h] <;>
    rcases wordPlace_cases j with rfl | rfl | rfl | rfl <;> rfl

/-- The j-th word of a DMA output comes from there (R119). -/
theorem lineGet_dmaWords (addr : Word) (v : Line) (j : BitVec 2) :
    lineGet (dmaWords addr v) j = lineGet v (wordInLine addr + j) := by
  unfold dmaWords
  rcases wordPlace_cases (wordInLine addr) with h | h | h | h <;> rw [h] <;>
    rcases wordPlace_cases j with rfl | rfl | rfl | rfl <;> rfl

section
variable {s : State} {k : Fin 7} {r : DmaRequest} {x : DmaTransaction}

/-- A transaction waits for a memory controller that does nothing (log 29). -/
theorem dmaOne_waits (hx : slotTransaction s.slots[k] r s.fresh = some x) (hm : s.mcDown = true) :
    dmaOne s k r = .next s := by
  rw [dmaOne, hx, hm]
  exact ite_self _

/-- It is refused while the Boot-Prom is mapped (R104, U13). -/
theorem dmaOne_refused (hx : slotTransaction s.slots[k] r s.fresh = some x) (hi : s.csm.ioStopped = false)
    (hm : s.mcDown = false) (hr : s.psw.rom = true) : dmaOne s k r = .refused .bootPromOverlap := by
  rw [dmaOne, hi, hx, hm, hr]
  rfl

/-- Otherwise it takes place. -/
theorem dmaOne_transacts (hx : slotTransaction s.slots[k] r s.fresh = some x) (hi : s.csm.ioStopped = false)
    (hm : s.mcDown = false) (hr : s.psw.rom = false) :
    dmaOne s k r = .next ((s.transact x s.slots[k].latch).2.dmaDone k r (s.transact x s.slots[k].latch).1) := by
  rw [dmaOne, hi, hx, hm, hr]
  rfl

/-- A DMA input writes the four words of one line (R119). -/
theorem dmaOne_write {addr : Word} {words : Line}
    (hx : slotTransaction s.slots[k] r s.fresh = some (.write addr words)) (hi : s.csm.ioStopped = false)
    (hm : s.mcDown = false) (hr : s.psw.rom = false) :
    ∃ t, dmaOne s k r = .next t ∧ t.mc = s.mc ∧ t.icache = s.icache ∧ t.dcache = s.dcache ∧ regsKept s t ∧
      (isPopulated s.populated (lineOf addr) = true → ∀ j : BitVec 2,
        lineGet (readLine t.mem (physicalLine (lineOf addr))) (addr.extractLsb' 0 2 + j) = lineGet words j) ∧
      (∀ a, isPopulated s.populated (lineOf addr) = false ∨ a / 16 ≠ physicalLine (lineOf addr) →
        readByte t.mem a = readByte s.mem a) ∧
      t.slots = s.slots.set k (slotDone s.slots[k] r s.slots[k].latch) := by
  refine ⟨_, dmaOne_transacts hx hi hm hr, rfl, rfl, rfl, regsKept_of rfl rfl, fun hp j => ?_,
    fun a ha => readByte_physWriteLine_ne ha s.mem _, rfl⟩
  have hline := readLine_physWriteLine hp s.mem (dmaLine addr words)
  exact (congrArg (lineGet · _) hline).trans (lineGet_dmaLine addr words j)

/-- A DMA output delivers the four words of one line of main memory (R115, R119). -/
theorem dmaOne_read {addr : Word} (hx : slotTransaction s.slots[k] r s.fresh = some (.read addr))
    (hi : s.csm.ioStopped = false) (hm : s.mcDown = false) (hr : s.psw.rom = false) :
    ∃ t v words mc ecc, dmaOne s k r = .next t ∧ lineRead s false true (lineOf addr) v mc ecc ∧ t.mc = mc ∧
      t.ecc = ecc ∧ t.icache = s.icache ∧ t.dcache = s.dcache ∧ regsKept s t ∧ mainMemoryKept s t ∧
      (∀ j : BitVec 2, lineGet words j = lineGet v (addr.extractLsb' 0 2 + j)) ∧
      t.slots = s.slots.set k (slotDone s.slots[k] r words) ∧ t.slots[k].latch = words := by
  refine ⟨_, _, dmaWords addr (readRealLine s false true (lineOf addr)).1, _, _, dmaOne_transacts hx hi hm hr,
    readRealLine_spec s false true (lineOf addr), rfl, rfl, ?_, ?_, regsKept_of ?_ ?_, fun a => ?_,
    lineGet_dmaWords addr _, ?_, ?_⟩ <;> simp [State.transact, State.dmaDone, slotDone]

end

/-! ## Arbitration -/

/-- Only the slots that ask count in a round. -/
theorem dmaSlots_filter (l : List (Fin 7)) (requests : Vector (Option DmaRequest) 7) (s : State) :
    dmaSlots l requests s = dmaSlots (l.filter fun i => requests[i].isSome) requests s := by
  induction l generalizing s with
  | nil => rfl
  | cons i l ih =>
    cases h : requests[i] with
    | none =>
      rw [dmaSlots, h, List.filter_cons_of_neg (by simp [-Fin.getElem_fin, h])]
      exact ih s
    | some r =>
      rw [dmaSlots, h, List.filter_cons_of_pos (by simp [-Fin.getElem_fin, h]), dmaSlots, h]
      exact congrArg (andThen _) (funext fun u => ih _)

/-- Two slots in the order of their numbers. -/
theorem filter_two_slots : ∀ k j : Fin 7, k < j →
    ([0, 1, 2, 3, 4, 5, 6] : List (Fin 7)).filter (fun i => decide (i = k ∨ i = j)) = [k, j] := by
  decide

/-- Of two slots that ask the lower is served first (R392). -/
theorem applyEvent_dma_two (s : State) {k j : Fin 7} (hkj : k < j) (r q : DmaRequest)
    {pending : Vector (Option DmaRequest) 7}
    (hp : ∀ n, pending[n] = if n = k then some r else if n = j then some q else none) :
    applyEvent (.dma pending) s =
      andThen (dmaOne s k r) (fun t =>
        andThen (dmaOne { t with fresh := t.fresh + 1 } j q) (fun u => .next { u with fresh := u.fresh + 1 })) := by
  have hsome : ∀ n : Fin 7, pending[n].isSome = decide (n = k ∨ n = j) := by
    intro n
    rw [hp]
    split_ifs with h1 h2
    · simp [h1]
    · simp [h2]
    · simp [h1, h2]
  have hk : pending[k] = some r := by simp [hp]
  have hj : pending[j] = some q := by simp [hp, hkj.ne']
  calc applyEvent (.dma pending) s = dmaSlots [0, 1, 2, 3, 4, 5, 6] pending s := rfl
    _ = dmaSlots [k, j] pending s := by
        rw [dmaSlots_filter, List.filter_congr fun n _ => hsome n, filter_two_slots k j hkj]
    _ = _ := by simp only [dmaSlots, hk, hj]

/-- Settles O30: evictions, DMA both ways, its wait, and the priority of two slots. -/
theorem environmentMemory : Obligations.EnvironmentMemory := by
  intro s l k r
  refine ⟨fun hf hm d hd => ?evict, fun hf => applyEvent_evictInst l hf, fun hr hm hi => ?dma,
    fun hm x hx => dmaOne_waits hx hm, fun j q pending hkj hp => applyEvent_dma_two s hkj r q hp⟩
  case evict =>
    rw [applyEvent_evictData l hf hm]
    obtain ⟨hhalt, hleave⟩ := evictData_spec hd
    refine ⟨fun hdirty hbad hp => ?halts, fun hok => ?leaves⟩
    case halts =>
      obtain ⟨h, he, hc⟩ := hhalt hdirty hbad hp
      exact ⟨h, congrArg _ he, hc⟩
    case leaves =>
      obtain ⟨hgone, hothers, hwritten, hbytes⟩ := hleave hok
      exact ⟨_, rfl, hgone, hothers, by simp, by simp, regsKept_of (by simp) (by simp), hwritten, hbytes⟩
  case dma => exact ⟨fun addr words hx => dmaOne_write hx hi hm hr, fun addr hx => dmaOne_read hx hi hm hr⟩

end Sys2Proof.Machine
end


section
namespace Sys2Proof.Machine

/-! ## What an instruction executes, by what it can trap for -/

section
variable {i : Instr}

theorem exec_of_trapClass_privileged (h : trapClass i = .privileged) (s : State) :
    ∃ r, exec i s = privileged s r := by
  cases i <;> first | exact TrapClass.noConfusion h | exact ⟨_, rfl⟩

theorem exec_of_trapClass_illegal (h : trapClass i = .illegal) (s : State) :
    ∃ cause ra rb, exec i s = trapOrHalt s illegalTrap cause ra rb := by
  cases i <;> first | exact TrapClass.noConfusion h | exact ⟨_, _, _, rfl⟩

theorem exec_of_trapClass_user {literal : BitVec 6} (h : trapClass i = .user literal) (s : State) :
    ∃ c cause ra rb, exec i s = trapOrHalt s c cause ra rb := by
  cases i <;> first | exact TrapClass.noConfusion h | exact ⟨_, _, _, _, rfl⟩

theorem eq_of_trapClass_load {rb : RegField} {disp : BitVec 16} (h : trapClass i = .load rb disp) :
    ∃ ra, i = .load ra rb disp := by
  cases i <;> first | exact TrapClass.noConfusion h | (cases h; exact ⟨_, rfl⟩)

theorem eq_of_trapClass_store {rb : RegField} {disp : BitVec 16} (h : trapClass i = .store rb disp) :
    ∃ ra, i = .store ra rb disp := by
  cases i <;> first | exact TrapClass.noConfusion h | (cases h; exact ⟨_, rfl⟩)

theorem exec_of_trapClass_cop {o : CopOp} {r : CopResult} {ra rb : RegField} (h : trapClass i = .cop o r ra rb)
    (s : State) : ∃ rc, exec i s = copInstr o r ra rb rc s := by
  cases i <;> first | exact TrapClass.noConfusion h | (cases h; exact ⟨_, rfl⟩)

end

/-! ## Traps that are refused -/

section
variable {s : State} {ra rb : RegField} {disp : BitVec 16}

theorem trapOrHalt_inFlight (hk : s.eff.krn = false) (hf : s.inFlight = true ∨ s.afterUserSpecial = true)
    (c : TrapInfo) (cause : HaltCause) (ra rb : RegField) :
    trapOrHalt s c cause ra rb = .refused .trapInFlight := by
  rw [trapOrHalt, hk]
  exact enterTrap_inFlight s c hf

/-- A data reference that contributes a condition faults. -/
theorem reference_faults {r : Reference} {ea : Word} (h : (referenceTrap r ea).any = true) :
    r = .noTranslation ∨ r = .readOnly := by
  cases r with
  | real a => cases h
  | ambiguous => cases h
  | noTranslation => exact .inl rfl
  | readOnly => exact .inr rfl

/-- A load or store whose reference faults traps or halts (R348, R349). -/
theorem execLoad_faults (ra : RegField)
    (h : (referenceTrap (dataReference s.dtlb s.eff (s.ea rb disp) false) (s.ea rb disp)).any = true) :
    ∃ c cause, execLoad ra rb disp s = trapOrHalt s c cause ra rb := by
  rcases reference_faults h with hr | hr
  · exact ⟨_, _, by rw [execLoad, hr]⟩
  · exact ⟨_, _, by rw [execLoad, hr]⟩

theorem execStore_faults (ra : RegField)
    (h : (referenceTrap (dataReference s.dtlb s.eff (s.ea rb disp) true) (s.ea rb disp)).any = true) :
    ∃ c cause, execStore ra rb disp s = trapOrHalt s c cause ra rb := by
  rcases reference_faults h with hr | hr
  · exact ⟨_, _, by rw [execStore, hr]⟩
  · exact ⟨_, _, by rw [execStore, hr]⟩

/-- An instruction that traps by itself in user mode is refused where a trap may not be taken (R353, R481). -/
theorem exec_inFlight {i : Instr} (hk : s.eff.krn = false) (hf : s.inFlight = true ∨ s.afterUserSpecial = true)
    (h : (ownTrap (trapClass i) s).any = true) : exec i s = .refused .trapInFlight := by
  cases hc : trapClass i with
  | never => rw [hc] at h; cases h
  | privileged =>
    rw [hc] at h
    have hu : s.eff.unprivileged = true := by
      by_contra hu
      rw [ownTrap, if_neg hu] at h
      cases h
    obtain ⟨r, he⟩ := exec_of_trapClass_privileged hc s
    rw [he, privileged_trap r hu]
    exact enterTrap_inFlight s _ hf
  | illegal =>
    obtain ⟨cause, ra, rb, he⟩ := exec_of_trapClass_illegal hc s
    rw [he, trapOrHalt_inFlight hk hf]
  | user literal =>
    obtain ⟨c, cause, ra, rb, he⟩ := exec_of_trapClass_user hc s
    rw [he, trapOrHalt_inFlight hk hf]
  | load rb disp =>
    obtain ⟨ra, rfl⟩ := eq_of_trapClass_load hc
    obtain ⟨c, cause, he⟩ := execLoad_faults ra h
    exact he.trans (trapOrHalt_inFlight hk hf c cause ra rb)
  | store rb disp =>
    obtain ⟨ra, rfl⟩ := eq_of_trapClass_store hc
    obtain ⟨c, cause, he⟩ := execStore_faults ra h
    exact he.trans (trapOrHalt_inFlight hk hf c cause ra rb)
  | cop o r ra rb =>
    rw [hc] at h
    have ha : s.copAborts o r ra rb = true := by
      by_contra ha
      rw [ownTrap, if_neg ha] at h
      cases h
    obtain ⟨rc, he⟩ := exec_of_trapClass_cop hc s
    rw [he, copInstr, ha, hk]
    exact enterTrap_inFlight (s.copAbort o ra rb) _ hf

/-- What a suppressed instruction leaves behind does not change whether a trap may be taken. -/
theorem suppressed_keeps_inFlight (c : TrapClass) (s : State) :
    (suppressed c s).inFlight = s.inFlight ∧ (suppressed c s).afterUserSpecial = s.afterUserSpecial := by
  unfold suppressed
  split
  · split
    · exact ⟨rfl, rfl⟩
    · exact ⟨rfl, rfl⟩
  · exact ⟨rfl, rfl⟩

/-- A request, or a fault of the successor's fetch, at a user-mode instruction is refused where a trap may not be taken
(R353, R481). -/
theorem runMode_inFlight {w : Word} {d : Decoded} {itf : Bool} (hk : s.eff.krn = false)
    (hf : s.inFlight = true ∨ s.afterUserSpecial = true) (hr : (itf || (s.extReq || s.copReq)) = true) :
    runMode w d s itf = .refused .trapInFlight := by
  obtain ⟨h1, h2⟩ := suppressed_keeps_inFlight (decodedTrapClass d) s
  rw [runMode, hk, if_neg Bool.false_ne_true, runUser, Bool.or_assoc, hr, if_pos rfl]
  exact enterTrap_inFlight _ _ (by rwa [h1, h2])

/-! ## Words that are refused -/

section
variable {w : Word}

/-- A word that the ICAR phase admits and no parity error halts runs by mode, unless two translations match its
successor. -/
theorem runWord_of (hi : icarAdmits s.icar (decodeWord w) = true) (hp : parityHalts (decodeWord w) s = false) :
    (successorReference s = .ambiguous → runWord w s = .refused .ambiguousTranslation) ∧
    (successorReference s = .noTranslation → runWord w s = runMode w (decodeWord w) s true) ∧
    ∀ rwa, successorReference s = .real rwa → runWord w s = runMode w (decodeWord w) s false := by
  refine ⟨fun hs => ?_, fun hs => ?_, fun rwa hs => ?_⟩ <;> simp [runWord, hi, hp, hs]

/-- The instruction that leaves kernel mode for a page without a translation (R347, U18). -/
theorem runMode_leaving {d : Decoded} (hk : s.eff.krn = true) (hn : s.nextPsw.krn = false)
    (hh : ∀ t, execDecoded d s = .next t → t.halted = none) :
    runMode w d s true = .refused .firstUserFetch := by
  have hself : haltsItself (execDecoded d s) = false := by
    cases he : execDecoded d s with
    | next t => simp [haltsItself, hh t he]
    | fault e => rfl
    | refused e => rfl
  rw [eff_krn] at hk
  simp [runMode, hk, runKernel, hself, successorFault, hn]

end

/-- A fetch without one translation (R98, R347). -/
theorem runFetched_refused (hp : fetchParityHalts s = false) :
    (instReference s.itlb s.psw (s.pc >>> 2) = .ambiguous → runFetched s = .refused .ambiguousTranslation) ∧
    (s.eff.krn = false → instReference s.itlb s.psw (s.pc >>> 2) = .noTranslation →
      runFetched s = .refused .firstUserFetch) := by
  refine ⟨fun hr => ?_, fun hk hr => ?_⟩
  · simp [runFetched, hp, fetch, hr]
  · rw [eff_krn] at hk
    simp [runFetched, hp, fetch, hr, hk]

/-! ## Loads, stores and I/O specials that are refused -/

theorem exec_load_ambiguous (ra : RegField)
    (h : dataReference s.dtlb s.eff ((s.readB rb >>> 2) + disp.signExtend 32) false = .ambiguous) :
    exec (.load ra rb disp) s = .refused .ambiguousTranslation := by
  change dataReference s.dtlb s.eff (s.ea rb disp) false = _ at h
  show execLoad ra rb disp s = _
  rw [execLoad, h]

theorem exec_store_ambiguous (ra : RegField)
    (h : dataReference s.dtlb s.eff ((s.readB rb >>> 2) + disp.signExtend 32) true = .ambiguous) :
    exec (.store ra rb disp) s = .refused .ambiguousTranslation := by
  change dataReference s.dtlb s.eff (s.ea rb disp) true = _ at h
  show execStore ra rb disp s = _
  rw [execStore, h]

/-- A dirty miss that reads the Boot-Prom (R104, U13). -/
theorem dirtyPromMiss_of {l : LineAddr} (he : s.dirtyEvicted = true) (hl : s.hasDataLine l = false)
    (hb : inBootProm s.eff.rom l = true) : s.dirtyPromMiss l = true := by
  simp [State.dirtyPromMiss, he, hl, hb]

theorem loadReal_refused {rwa : Word} (ra : RegField) (h : s.dirtyPromMiss (lineOf rwa) = true) :
    loadReal s ra rwa = .refused .bootPromOverlap := if_pos h

theorem storeReal_refused {rwa : Word} (v : Word) (h : s.dirtyPromMiss (lineOf rwa) = true) :
    storeReal s v rwa = .refused .bootPromOverlap := if_pos h

section
variable {d : Tna} {addr : Word}

/-- A TNA refuses an Octart reference too soon after the last (R449, U30). -/
theorem tnaRefuses_octart {now : Nat} (write : Bool) (ha : addr.extractLsb' 6 3 = 4#3)
    (ht : ∃ c, d.octartLast = some c ∧ now < c + 10) : tnaRefuses d addr write now = some .octartTooSoon := by
  obtain ⟨c, hc, hlt⟩ := ht
  simp [tnaRefuses, ha, tnaOctartBusy, hc, hlt]

/-- It refuses a descriptor too many while its receiver is enabled (R457, U30). -/
theorem tnaRefuses_descriptor (now : Nat) (ha : addr.extractLsb' 6 3 = 1#3) (hl : addr.extractLsb' 0 2 = 3#2)
    (hw : d.rxWrite + 1#4 = d.rxRead) (he : d.ctrl.rxEnbl = true) :
    tnaRefuses d addr true now = some .descriptorFifoFull := by
  simp [tnaRefuses, ha, hl, tnaFifoFull, hw, he]

/-- What the TNA in the selected slot refuses. -/
theorem ioRefusal_tna {k : Fin 7} (hi : s.csm.ioStopped = false) (hs : s.mc.slot.toNat = k.val + 1)
    (ha : s.slots[k].adaptor = .tna d) (hb : s.slots[k].busy = false) (addr : Word) (write : Bool) :
    s.ioRefusal addr write = tnaRefuses d addr write s.cycles := by
  simp only [State.ioRefusal, slotPosition_eq _ k hs, hi, slotRefuses, ha, hb, Bool.false_eq_true, if_false]

/-- An I/O special stops where its transaction is refused. -/
theorem exec_io_refused {r : Refusal} (hp : s.mayPrivileged) (hm : s.mcDown = false)
    (hx : s.loadedResult = some addr) (hi : s.hist.last.io = false) (ra rb : RegField) :
    (s.ioRefusal addr false = some r → exec (.ioRead ra rb) s = .refused r) ∧
    (s.ioRefusal addr true = some r → exec (.ioWrite ra rb) s = .refused r) := by
  refine ⟨fun hr => ?_, fun hr => ?_⟩
  · show execIoRead ra rb s = _
    rw [execIoRead, privileged_effect _ hp, hm, ioOperand_of hx hi, hr]
    rfl
  · show execIoWrite ra rb s = _
    rw [execIoWrite, privileged_effect _ hp, hm, ioOperand_of hx hi, hr]
    rfl

end

end

/-- Settles O50, stop by stop. -/
theorem namedStops : Obligations.NamedStops := by
  intro ra rb disp s w rwa addr i k d
  refine ⟨exec_load_ambiguous ra, exec_store_ambiguous ra, runFetched_refused, exec_inFlight, fun hi hp => ?word,
    fun he hl hb => ?miss, fun hm hi hr r x hx => dmaOne_refused hx hi hm hr, privileged_effect _,
    fun hpriv hm hi hx hio hs ha hb => ?io⟩
  case word =>
    obtain ⟨hambiguous, hnone, hreal⟩ := runWord_of hi hp
    refine ⟨hambiguous, fun hk hf hr => ?user, fun hk hn hs hh => (hnone hs).trans (runMode_leaving hk hn hh)⟩
    case user =>
      rcases hr with hs | ⟨hs, hreq⟩
      · exact (hnone hs).trans (runMode_inFlight hk hf rfl)
      · exact (hreal rwa hs).trans (runMode_inFlight hk hf hreq)
  case miss =>
    have hmiss := dirtyPromMiss_of he hl hb
    exact ⟨fun href => (exec_load_real href).trans (loadReal_refused ra hmiss),
      fun href => (exec_store_real href).trans (storeReal_refused _ hmiss)⟩
  case io =>
    have hrefusal := ioRefusal_tna hi hs ha hb addr
    refine ⟨fun hsel hlast => ?octart, fun hsel hlow hw he => ?descriptor⟩
    case octart =>
      obtain ⟨hread, hwrite⟩ := exec_io_refused hpriv hm hx hio ra rb
      simp only [List.forall_mem_cons]
      exact ⟨hread ((hrefusal _).trans (tnaRefuses_octart _ hsel hlast)),
        hwrite ((hrefusal _).trans (tnaRefuses_octart _ hsel hlast)), nofun⟩
    case descriptor =>
      exact (exec_io_refused hpriv hm hx hio ra rb).2 ((hrefusal _).trans (tnaRefuses_descriptor _ hsel hlow hw he))

end Sys2Proof.Machine
end

section
/-!
The encoding's statements (O1 to O4). What the parameters of R131 do to a word Laws/Codec.lean and Laws/Decode.lean
undo; what is left is the default arrangement, family by family.
-/
namespace Sys2Proof

/-! ## The miscellaneous bits of format R -/

/-- The fields of the miscellaneous bits of an extract (R139). -/
theorem extractMisc_fields (shift mask : BitVec 5) :
    (shift ++ mask).extractLsb' 5 5 = shift ∧ (shift ++ mask).extractLsb' 0 5 = mask :=
  ⟨high_append shift mask, low_append shift mask⟩

/-- The fields of the miscellaneous bits of a byte extract (R141). -/
theorem bextMisc_fields (lit inv : Bool) (size : BitVec 5) :
    let misc := BitVec.ofBool lit ++ (0b110#3 ++ (BitVec.ofBool inv ++ size))
    misc.getLsbD 9 = lit ∧ misc.getLsbD 8 = true ∧ misc.getLsbD 7 = true ∧
    (misc.extractLsb' 0 7).getLsbD 6 = false ∧ (misc.extractLsb' 0 7).getLsbD 5 = inv ∧
    (misc.extractLsb' 0 7).extractLsb' 0 5 = size := by
  revert lit inv size
  decide +kernel

/-- The two bits above the size of an extract's function, read one by one (R141). -/
theorem aboveSize_clear {fn : BitVec 7} (h : fn.extractLsb' 5 2 = 0#2) :
    fn.getLsbD 6 = false ∧ fn.getLsbD 5 = false := by
  revert fn
  decide

/-- A shift of 0 to 31 comes back from the five bits of 31 - shift (R139). -/
theorem shift_of_ofNat {shift : Nat} (h : shiftOk shift = true) :
    31 - (BitVec.ofNat 5 (31 - shift)).toNat = shift := by
  simp only [shiftOk, decide_eq_true_eq] at h
  rw [BitVec.toNat_ofNat]
  omega

/-! ## The encoders of each family, decoded -/

/-- A coprocessor instruction decodes by its result selector and its code (R142). -/
theorem decodeWord_encodeCop (r : CopResult) (ra rb rc : RegField) (code : BitVec 7) :
    decodeWord (encodeCop r ra rb rc code) = decodeCop ra rb rc (copResultCode r ++ code) := by
  simp [decodeWord, encodeCop]

/-- A word of the extract's opcode decodes by its miscellaneous bits (R139). -/
theorem decodeWord_packR_extract (ra rb rc : RegField) (misc : BitVec 10) :
    decodeWord (packR 0x9#4 ra rb rc misc) = decodeExtract ra rb rc misc := by
  simp [decodeWord]

/-- A word of the ALU's opcode decodes by its miscellaneous bits (R140). -/
theorem decodeWord_packR_alu (ra rb rc : RegField) (misc : BitVec 10) :
    decodeWord (packR 0xA#4 ra rb rc misc) = decodeAlu ra rb rc misc := by
  simp [decodeWord]

/-- An extract decodes to its shift and mask (R139). -/
theorem decodeWord_encode_extract {ra rb rc : RegField} {shift mask : Nat}
    (h : (Instr.extract ra rb rc shift mask).wellFormed = true) :
    decodeWord (encode (.extract ra rb rc shift mask)) = .instr (.extract ra rb rc shift mask) := by
  obtain ⟨hshift, hmask⟩ := Bool.and_eq_true_iff.mp h
  obtain ⟨hhigh, hlow⟩ := extractMisc_fields (BitVec.ofNat 5 (31 - shift)) (BitVec.ofNat 5 mask)
  rw [encode, decodeWord_packR_extract, decodeExtract, hhigh, hlow, shift_of_ofNat hshift, countOf_ofNat mask hmask]

/-- A variable extract decodes to its size (R141). -/
theorem decodeWord_encode_vext {lit : Bool} {ra rb rc : RegField} {size : Nat} (h : sizeOk size = true) :
    decodeWord (encode (.aluVext lit ra rb rc size)) = .instr (.aluVext lit ra rb rc size) := by
  obtain ⟨hlit, hsh, hsb, habove, hsize⟩ := vextMisc_fields lit (BitVec.ofNat 5 size)
  obtain ⟨hunused, hinv⟩ := aboveSize_clear habove
  rw [encode, decodeWord_packR_alu]
  simp only [decodeAlu, hlit, hsh, hsb, hunused, hinv, hsize, countOf_ofNat size h]

/-- A byte extract decodes to its inv bit and its size (R141). -/
theorem decodeWord_encode_bext {lit inv : Bool} {ra rb rc : RegField} {size : Nat} (h : sizeOk size = true) :
    decodeWord (encode (.aluBext lit ra rb rc inv size)) = .instr (.aluBext lit ra rb rc inv size) := by
  obtain ⟨hlit, hsh, hsb, hunused, hinv, hsize⟩ := bextMisc_fields lit inv (BitVec.ofNat 5 size)
  rw [encode, decodeWord_packR_alu]
  simp only [decodeAlu, hlit, hsh, hsb, hunused, hinv, hsize, countOf_ofNat size h]

/-- The word of an admitted instruction decodes to it. The counts of the extracts are read back by lemmas of their own;
of every other instruction the family's decoder is left with the code that the encoder wrote, and that code's row is
the instruction (of a coprocessor instruction, once its result selector and its code are read back). -/
theorem decodeWord_encode {i : Instr} (h : i.wellFormed = true) : decodeWord (encode i) = .instr i := by
  cases i
  case extract => exact decodeWord_encode_extract h
  case aluVext => exact decodeWord_encode_vext h
  case aluBext => exact decodeWord_encode_bext h
  all_goals simp only [encode, decodeWord_encodeSpecial, decodeWord_encodeCjump, decodeWord_encodeAlu,
    decodeWord_encodeCop]
  any_goals simp only [decodeWord, opField_packM, raField_packM, rbField_packM, dispField_packM, literalField_packM]
  any_goals rfl
  all_goals next result _ _ _ =>
    rw [decodeCop, (copMisc_fields result _).1, (copMisc_fields result _).2]
    rfl

/-- Settles O2: the stored word is read back as the encoder wrote it (R131), and decodes to its instruction. -/
theorem decodeEncode : Obligations.DecodeEncode := by
  intro e i rest hvalid hwf
  rw [decodeWith_encodeWith hvalid, decodeWord_encode hwf]

/-! ## What is decoded is well-formed -/

/-- The count of a five-bit field is 1 to 32 (R139, R141). -/
theorem sizeOk_countOf (f : BitVec 5) : sizeOk (countOf f) = true := by
  revert f
  decide

/-- What a word is, if it is an instruction, is one that the encoding admits. -/
def Decoded.wellFormed (d : Decoded) : Bool :=
  match d with
  | .instr i => i.wellFormed
  | .undescribed _ => true

theorem decodeSpecial_wellFormed (ra rb : RegField) (fn : BitVec 16) : (decodeSpecial ra rb fn).wellFormed = true := by
  unfold decodeSpecial
  split <;> rfl

theorem decodeCjump_wellFormed (ra : RegField) (cond : BitVec 6) (disp : BitVec 16) :
    (decodeCjump ra cond disp).wellFormed = true := by
  unfold decodeCjump
  split <;> rfl

theorem decodeExtract_wellFormed (ra rb rc : RegField) (misc : BitVec 10) :
    (decodeExtract ra rb rc misc).wellFormed = true := by
  have hshift : shiftOk (31 - (misc.extractLsb' 5 5).toNat) = true := decide_eq_true (Nat.sub_le _ _)
  exact Bool.and_eq_true_iff.mpr ⟨hshift, sizeOk_countOf _⟩

theorem decodeAluFunction_wellFormed (lit : Bool) (ra rb rc : RegField) (fn : BitVec 7) :
    (decodeAluFunction lit ra rb rc fn).wellFormed = true := by
  unfold decodeAluFunction
  split <;> split <;> rfl

theorem decodeAlu_wellFormed (ra rb rc : RegField) (misc : BitVec 10) :
    (decodeAlu ra rb rc misc).wellFormed = true := by
  unfold decodeAlu
  dsimp only
  split
  case h_1 => exact decodeAluFunction_wellFormed _ _ _ _ _
  case h_2 =>
    split
    · exact sizeOk_countOf _
    · rfl
  case h_3 =>
    split
    · exact sizeOk_countOf _
    · rfl

theorem decodeCop_wellFormed (ra rb rc : RegField) (misc : BitVec 10) :
    (decodeCop ra rb rc misc).wellFormed = true := by
  unfold decodeCop
  dsimp only
  split <;> rfl

/-- Each opcode's decoder reads only what the encoding admits. -/
theorem decodeWord_wellFormed (w : Word) : (decodeWord w).wellFormed = true := by
  unfold decodeWord
  split
  any_goals rfl
  · exact decodeSpecial_wellFormed _ _ _
  · exact decodeCjump_wellFormed _ _ _
  · exact decodeExtract_wellFormed _ _ _ _
  · exact decodeAlu_wellFormed _ _ _ _
  · exact decodeCop_wellFormed _ _ _ _

/-- Bytes that decode hold a word that decodes to the same instruction. -/
theorem decodeWith_ok {e : Encoding} {bytes : List Byte} {i : Instr} (h : decodeWith e bytes = .ok i) :
    ∃ w, decodeWord w = .instr i := by
  unfold decodeWith at h
  split at h
  · split at h
    next j hj => cases h; exact ⟨_, hj⟩
    · cases h
  · cases h

/-- Settles O3: the bytes hold a word, and what a word decodes to is well-formed. -/
theorem decodedWellFormed : Obligations.DecodedWellFormed := by
  intro e bytes i h
  obtain ⟨w, hw⟩ := decodeWith_ok h
  have hwf := decodeWord_wellFormed w
  rwa [hw] at hwf

/-! ## The function codes of a special -/

/-- The function fields of the 25 specials (R135 to R137). -/
def specialCodes : List (BitVec 16) :=
  [0x000#16, 0x040#16, 0x280#16, 0x0C3#16, 0x103#16, 0x0C1#16, 0x0D5#16, 0x101#16, 0x115#16, 0x0C0#16,
    0x0D4#16, 0x100#16, 0x114#16, 0x207#16, 0x20D#16, 0x247#16, 0x24D#16, 0x20B#16, 0x20E#16, 0x24B#16, 0x24E#16,
    0x080#16, 0x2C0#16, 0x300#16, 0x340#16]

/-- Each of the codes is an instruction's. -/
theorem decodeSpecial_of_mem (ra rb : RegField) {fn : BitVec 16} (h : fn ∈ specialCodes) :
    ∃ i, decodeSpecial ra rb fn = .instr i := by
  revert fn
  simp only [specialCodes, List.forall_mem_cons, List.not_mem_nil, false_imp_iff, implies_true, and_true]
  and_intros <;> exact ⟨_, rfl⟩

/-- Every other code is rejected by name (R157). -/
theorem decodeSpecial_of_notMem (ra rb : RegField) {fn : BitVec 16} (h : fn ∉ specialCodes) :
    decodeSpecial ra rb fn = .undescribed (.special ra rb fn) := by
  have hnat : fn.toNat ∉ specialCodes.map BitVec.toNat := by
    rwa [List.mem_map_of_injective fun _ _ => BitVec.eq_of_toNat_eq]
  unfold decodeSpecial
  split
  case h_26 => rfl
  all_goals next hfn => exact absurd (by rw [hfn]; decide) hnat

/-- A word of special's opcode decodes by its function field (R134). -/
theorem decodeWord_special {w : Word} (h : opField w = 1#4) :
    decodeWord w = decodeSpecial (raField w) (rbField w) (dispField w) := by
  simp [decodeWord, h]

/-- Settles O4: the listed codes are instructions, the others are none and carry their name. -/
theorem specialFunctionCodes : Obligations.SpecialFunctionCodes := by
  intro w hop
  rw [decodeWord_special hop]
  by_cases hmem : dispField w ∈ specialCodes
  · obtain ⟨i, hi⟩ := decodeSpecial_of_mem (raField w) (rbField w) hmem
    exact ⟨iff_of_true ⟨i, hi⟩ hmem, fun hnone => absurd hi (hnone i)⟩
  · have hnamed := decodeSpecial_of_notMem (raField w) (rbField w) hmem
    refine ⟨iff_of_false ?_ hmem, fun _ => hnamed⟩
    rintro ⟨i, hi⟩
    cases hnamed.symm.trans hi

/-! ## Words that the spec writes out -/

/-- Settles O1: under the defaults the decoder reads each word as it is stored. -/
theorem decodeWords : Obligations.DecodeWords := by
  rintro _ rfl
  exact ⟨rfl, rfl, rfl, rfl, rfl, rfl, rfl, rfl, rfl, rfl⟩

end Sys2Proof
end

section
/-!
The trapping instructions' statement (O32): each is one trapOrHalt, which traps in user mode and halts in kernel mode.
-/
namespace Sys2Proof.Machine

/-! ## Traps and halts by mode -/

section
variable {s : State}

/-- In user mode with nothing in flight the trap is taken (R345); the coprocessor is as before. -/
theorem trapOrHalt_user (h : s.userReady) (c : TrapInfo) (cause : HaltCause) (ra rb : RegField) :
    ∃ t, trapOrHalt s c cause ra rb = .next t ∧ trapped s t c ∧ t.cp = s.cp := by
  obtain ⟨huser, hflight, hspecial⟩ := h
  obtain ⟨t, ht, htrapped⟩ := enterTrap_spec s c hflight hspecial
  obtain ⟨-, rfl⟩ := enterTrap_next ht
  exact ⟨_, by rw [trapOrHalt, huser]; exact ht, htrapped, trapState_cp s c⟩

/-- In kernel mode the processor halts (R365). -/
theorem trapOrHalt_kernel (h : s.eff.krn = true) (c : TrapInfo) (cause : HaltCause) (ra rb : RegField) :
    ∃ t, trapOrHalt s c cause ra rb = .next t ∧ haltedBy s t cause ra rb :=
  ⟨_, if_pos h, halt_spec s cause ra rb⟩

end

/-! ## What each trapping instruction executes (R170 to R173) -/

section
variable (ra rb : RegField) (disp : BitVec 16) (s : State)

theorem exec_abort : exec (.abort ra rb disp) s = trapOrHalt s illegalTrap .abort ra rb := rfl

theorem exec_undef1 : exec (.undef1 ra rb disp) s = trapOrHalt s illegalTrap .undef ra rb := rfl

theorem exec_undef2 : exec (.undef2 ra rb disp) s = trapOrHalt s illegalTrap .undef ra rb := rfl

theorem exec_trap (lit : BitVec 6) : exec (.trap ra rb lit) s = trapOrHalt s (userTrap lit) .trap ra rb := rfl

/-- The illegal instruction trap shows in the PSW: ill and not usr (R363). -/
theorem trapOrHalt_illegal {s : State} (h : s.userReady) (cause : HaltCause) :
    ∃ t, trapOrHalt s illegalTrap cause ra rb = .next t ∧ trapped s t illegalTrap ∧ t.cp = s.cp ∧
      t.psw.ill = true ∧ t.psw.usr = false := by
  obtain ⟨t, ht, htrapped, hcp⟩ := trapOrHalt_user h illegalTrap cause ra rb
  obtain ⟨hill, -, -, -, husr⟩ := htrapped.causes
  exact ⟨t, ht, htrapped, hcp, hill, husr⟩

end

/-- Settles O32: the causes of the trap in user mode, the halt record in kernel mode. -/
theorem trapping : Obligations.Trapping := by
  intro ra rb disp lit s
  refine ⟨fun huser => ⟨?illegal, ?user⟩, fun hkernel => ?halts⟩
  case illegal =>
    simp only [List.forall_mem_cons, exec_abort, exec_undef1, exec_undef2]
    exact ⟨trapOrHalt_illegal ra rb huser _, trapOrHalt_illegal ra rb huser _, trapOrHalt_illegal ra rb huser _, nofun⟩
  case user =>
    obtain ⟨t, ht, htrapped, hcp⟩ := trapOrHalt_user huser (userTrap lit) .trap ra rb
    obtain ⟨-, -, -, -, husr⟩ := htrapped.causes
    exact ⟨t, userTrap lit, (exec_trap ra rb s lit).trans ht, htrapped, hcp, husr, htrapped.literal rfl, rfl, rfl, rfl,
      rfl, rfl⟩
  case halts =>
    simp only [List.forall_mem_cons, exec_abort, exec_undef1, exec_undef2, exec_trap]
    exact ⟨trapOrHalt_kernel hkernel .., trapOrHalt_kernel hkernel .., trapOrHalt_kernel hkernel ..,
      trapOrHalt_kernel hkernel .., nofun⟩

end Sys2Proof.Machine
end

section
/-!
The specials on the PSW, the pc-queue, the fault registers and the translation buffers, and the ICAR idiom (O35 to
O41). Each special is privileged, so where it may have its effect it is one of the shared operations of
Machine/Special.lean, whose frames Laws/Ops.lean and Laws/Kernel.lean give.
-/
namespace Sys2Proof.Machine

/-! ## Reads and writes where they have their effect -/

section
variable {i : Instr} {s : State} {ra rb : RegField}

/-- A read-class special that may have its effect yields what it reads. -/
theorem specialYields_of_read {v : Word} (h : s.mayPrivileged) (he : exec i s = privileged s (specialRead s ra rb v)) :
    specialYields i s ra rb v := by
  rw [privileged_effect _ h] at he
  obtain ⟨t, ht, hkept⟩ := specialRead_spec s ra rb v
  exact ⟨t, he.trans ht, hkept⟩

/-- So does one that disturbs the ICAR. -/
theorem specialYields_of_readDisturbed {v : Word} (h : s.mayPrivileged)
    (he : exec i s = privileged s (specialReadDisturbed s ra rb v)) : specialYields i s ra rb v := by
  rw [privileged_effect _ h] at he
  obtain ⟨t, ht, hkept⟩ := specialReadDisturbed_spec s ra rb v
  exact ⟨t, he.trans ht, hkept⟩

end

/-! ## ReadStatus -/

/-- The flags of a PSW image stand where R33 and D11 place them. -/
theorem Psw_toWord_flags (p : Psw) :
    (p.toWord.getLsbD 31 = p.rom ∧ p.toWord.getLsbD 30 = p.pre ∧ p.toWord.getLsbD 29 = p.krn ∧
      p.toWord.getLsbD 28 = p.prv ∧ p.toWord.getLsbD 27 = p.par ∧ p.toWord.getLsbD 14 = p.imp ∧
      p.toWord.getLsbD 13 = p.dmp) ∧
    p.toWord.getLsbD 12 = p.ext ∧ p.toWord.getLsbD 11 = p.ill ∧ p.toWord.getLsbD 10 = p.itf ∧
    p.toWord.getLsbD 9 = p.dtf ∧ p.toWord.getLsbD 8 = p.wpv ∧ p.toWord.getLsbD 7 = p.cop ∧
    p.toWord.getLsbD 6 = p.usr := by
  simp only [Psw.toWord, BitVec.getLsbD_append]
  simp

/-- So do its fields of several bits. -/
theorem Psw_toWord_fields (p : Psw) :
    p.toWord.extractLsb' 19 8 = p.pid ∧ p.toWord.extractLsb' 17 2 = p.ra ∧ p.toWord.extractLsb' 15 2 = p.rb ∧
    p.toWord.extractLsb' 0 6 = p.literal := by
  refine ⟨?_, ?_, ?_, ?_⟩
  all_goals
    refine BitVec.eq_of_getLsbD_eq fun i hi => ?_
    simp only [Psw.toWord, BitVec.getLsbD_extractLsb', BitVec.getLsbD_append, hi, decide_true, Bool.true_and]
    simp (disch := omega) only [if_neg, if_pos]
    congr 1
    omega

/-- A field above keeps its place in the stored word. -/
theorem putBelow_extractLsb' {n k i m : Nat} (c : Places k) (v : BitVec (n + k)) (h : k ≤ i) :
    (c.putBelow v).extractLsb' i m = v.extractLsb' i m :=
  BitVec.eq_of_getLsbD_eq fun j hj => by
    simp only [BitVec.getLsbD_extractLsb', Places_putBelow_getLsbD c v (show k ≤ i + j by omega)]

/-- The fields that a ReadStatus shows in either mode are those of the PSW in effect (R181). -/
theorem statusImage_fields (s : State) :
    ((statusImage s).rom = s.eff.rom ∧ (statusImage s).pre = s.eff.pre ∧ (statusImage s).krn = s.eff.krn ∧
      (statusImage s).prv = s.eff.prv ∧ (statusImage s).par = s.eff.par ∧ (statusImage s).imp = s.eff.imp ∧
      (statusImage s).dmp = s.eff.dmp) ∧
    (statusImage s).pid = s.eff.pid ∧ (statusImage s).ra = s.eff.ra ∧ (statusImage s).rb = s.eff.rb := by
  unfold statusImage
  split <;> exact ⟨⟨rfl, rfl, rfl, rfl, rfl, rfl, rfl⟩, rfl, rfl, rfl⟩

theorem statusImage_kernel {s : State} (h : s.eff.krn = true) : statusImage s = s.eff := if_pos h

/-- In user mode ext and cop show the request lines (R45). -/
theorem statusImage_user {s : State} (h : s.eff.krn = false) :
    (statusImage s).ext = s.extReq ∧ (statusImage s).cop = s.copReq := by
  rw [statusImage, h]
  exact ⟨rfl, rfl⟩

theorem Layout_valid_psw {l : Layout} (h : l.valid = true) : l.psw.valid = true := by
  simp only [Layout.valid, Bool.and_eq_true] at h
  tauto

/-- A PSW image as a valid layout stores it: above bit 12 nothing is moved, and below the layout gets back what it
put. -/
theorem storedPsw_bits {c : Places 13} (h : c.valid = true) (p : Psw) :
    (∀ i, 13 ≤ i → (c.putBelow (n := 19) p.toWord).getLsbD i = p.toWord.getLsbD i) ∧
    (∀ i m, 13 ≤ i → (c.putBelow (n := 19) p.toWord).extractLsb' i m = p.toWord.extractLsb' i m) ∧
    (∀ i, i < 13 → (c.get ((c.putBelow (n := 19) p.toWord).extractLsb' 0 13)).getLsbD i = p.toWord.getLsbD i) ∧
    (c.get ((c.putBelow (n := 19) p.toWord).extractLsb' 0 13)).extractLsb' 0 6 = p.toWord.extractLsb' 0 6 := by
  have hlow : c.get ((c.putBelow (n := 19) p.toWord).extractLsb' 0 13) = p.toWord.extractLsb' 0 13 := by
    rw [Places_putBelow_low, Places_get_put h]
  refine ⟨fun _ hi => Places_putBelow_getLsbD c p.toWord hi, fun _ _ hi => putBelow_extractLsb' c p.toWord hi,
    fun i hi => ?_, BitVec.eq_of_getLsbD_eq fun i hi => ?_⟩
  · simp [hlow, hi]
  · simp [hlow, hi]

/-- Settles O35: the stored image shows every field of `statusImage`, which is the PSW in effect but for what user mode
leaves open. -/
theorem readStatus : Obligations.ReadStatus := by
  rintro ra rb s _ hlay hmay rfl
  obtain ⟨hbit, hfield, hlow, hlit⟩ := storedPsw_bits (Layout_valid_psw hlay) (statusImage s)
  obtain ⟨⟨hrom, hpre, hkrn, hprv, hpar, himp, hdmp⟩, hext, hill, hitf, hdtf, hwpv, hcop, husr⟩ :=
    Psw_toWord_flags (statusImage s)
  obtain ⟨hpid, hra, hrb, hliteral⟩ := Psw_toWord_fields (statusImage s)
  obtain ⟨⟨erom, epre, ekrn, eprv, epar, eimp, edmp⟩, epid, era, erb⟩ := statusImage_fields s
  refine ⟨_, _, specialYields_of_read hmay rfl, rfl, ?_⟩
  simp (disch := decide) only [hbit, hfield, hlow, hlit, hrom, hpre, hkrn, hprv, hpar, himp, hdmp, hext, hill, hitf,
    hdtf, hwpv, hcop, husr, hpid, hra, hrb, hliteral, erom, epre, ekrn, eprv, epar, eimp, edmp, epid, era, erb,
    true_and]
  refine ⟨fun hkernel => ?kernel, fun huser => statusImage_user huser⟩
  case kernel =>
    rw [statusImage_kernel hkernel]
    exact ⟨rfl, rfl, rfl, rfl, rfl, rfl, rfl, rfl⟩

/-! ## WriteStatus -/

/-- What a special leaves that changes registers, RR, the pc-queue and the I/O control address alone, with or without a
PSW write. -/
theorem specialKept_retireWith {s u : State} {rb : RegField} (d : Did) {n : Word} (i : IcarPhase)
    (w : Option Word) (hn : n = s.npc + 4#32)
    (hu : ∃ r m q p1 p2, u = { s.selectControl rb with regs := r, marks := m, rr := q, pc1 := p1, pc2 := p2 }) :
    specialKept s (u.retireWith d n i w) rb := by
  subst hn
  obtain ⟨r, m, q, p1, p2, rfl⟩ := hu
  refine ⟨⟨?_, ?_⟩, memoryKept_of ?_ ?_ ?_ ?_ ?_, ⟨?_, ?_⟩, ?_, ⟨?_, ?_, ?_, ?_, ?_, ?_, ?_, ?_, ?_, ?_, ?_, ?_⟩⟩
  all_goals simp

/-- The state in which a WriteStatus retires: RR holds its value. -/
def writeStatusState (s : State) (ra rb : RegField) : State :=
  ({ s.selectControl rb with rr := some (s.readA ra) } : State).retireWith (didSpecial s none) (s.npc + 4#32)
    s.icar.advance (if statusWriteHappens s then some (s.readA ra) else none)

theorem exec_writeStatus {s : State} (hmay : s.mayPrivileged) (ra rb : RegField) :
    exec (.writeStatus ra rb) s = .next (writeStatusState s ra rb) := privileged_effect _ hmay

/-- Settles O36: at word 0 of a line the write starts, elsewhere the model leaves it open. -/
theorem writeStatus : Obligations.WriteStatus := by
  intro ra rb s hmay
  refine ⟨_, exec_writeStatus hmay ra rb, regsKept_of ?regs ?marks, ?rr,
    specialKept_retireWith _ _ _ rfl ⟨_, _, _, _, _, rfl⟩, ⟨?itlb, ?dtlb⟩, queueKept_retireWith _ _ _ _ rfl rfl rfl,
    fun hnone => retireWith_psw _ _ _ _ hnone, ?pend2, ?pend3, fun hword => ?atWord0, ?anywhere⟩
  case atWord0 => simp [writeStatusState, statusWriteHappens, hword]
  case anywhere => by_cases h : statusWriteHappens s = true <;> simp [writeStatusState, h]
  all_goals simp [writeStatusState]

/-! ## The delay of a PSW write -/

theorem eff_of_some {s : State} {v : Word} (h : s.pend3 = some v) : s.eff = s.psw.write v := by simp [State.eff, h]

theorem nextPsw_of_some {s : State} {v : Word} (h : s.pend3 = some v) : s.nextPsw = (s.psw.write v).shadow := by
  simp [State.nextPsw, h]

/-- The state after the null with no operands: RR is 0, and the sequence goes on (R161). -/
def nullState (s : State) : State := (s.result 0#6 0#32).retire (didWrite s 0#6)

theorem exec_null (s : State) : exec (.aluZero true 0#6 0#6 0#6) s = .next (nullState s) := rfl

/-- The PSW pipeline after an instruction that writes no PSW (R184): what is under way moves on; with nothing due the
PSW stays; krn follows the PSW due, and in kernel mode so does the rest. -/
structure pswMoved (s t : State) : Prop where
  pend1 : t.pend1 = none
  pend2 : t.pend2 = s.pend1
  pend3 : t.pend3 = s.pend2
  psw : s.pend3 = none → t.psw = s.psw
  krn : t.psw.krn = s.nextPsw.krn
  kernel : s.psw.krn = true → t.psw = s.nextPsw

theorem pswMoved_retireWith (s : State) (ra : RegField) (v : Word) (d : Did) (n : Word) (i : IcarPhase) :
    pswMoved s ((s.result ra v).retireWith d n i none) :=
  ⟨by simp, by simp, by simp, fun h => (retireWith_psw _ _ _ _ (by simpa using h)).trans (by simp),
    (retireWith_krn _ _ _ _ _).trans (by simp),
    fun h => (retireWith_kernel _ _ _ _ (by simpa using h)).1.trans (by simp)⟩

theorem pswMoved_null (s : State) : pswMoved s (nullState s) := pswMoved_retireWith s _ _ _ _ _

/-- Settles O37: the write moves one place with each null; at the third it is in effect but for krn, after it
wholly. -/
theorem writeStatusDelay : Obligations.WriteStatusDelay := by
  rintro ra rb s t1 _ _ _ hmay hword h1 h2 h3 rfl rfl ht1 rfl
  obtain ⟨t, ht, -, -, -, -, -, hpsw, hpend2, hpend3, hpend1, -⟩ := writeStatus ra rb s hmay
  obtain rfl : t = t1 := by simpa [ht] using ht1
  have m2 := pswMoved_null t
  have m3 := pswMoved_null (nullState t)
  have m4 := pswMoved_null (nullState (nullState t))
  refine ⟨_, _, _, exec_null t, exec_null _, exec_null _, ?_⟩
  generalize nullState (nullState (nullState t)) = t4 at m4 ⊢
  generalize nullState (nullState t) = t3 at m3 m4 ⊢
  generalize nullState t = t2 at m2 m3 ⊢
  have due1 : t.pend3 = none := hpend3.trans h2
  have due2 : t2.pend3 = none := m2.pend3.trans (hpend2.trans h1)
  have due3 : t3.pend3 = some (s.readA ra) := by rw [m3.pend3, m2.pend2, hpend1 hword]
  have due4 : t4.pend3 = none := by rw [m4.pend3, m3.pend2, m2.pend1]
  have psw1 : t.psw = s.psw := hpsw h3
  have psw2 : t2.psw = s.psw := (m2.psw due1).trans psw1
  have psw3 : t3.psw = s.psw := (m3.psw due2).trans psw2
  have next3 : t3.nextPsw = (s.psw.write (s.readA ra)).shadow := by rw [nextPsw_of_some due3, psw3]
  refine ⟨(eff_of_none due1).trans psw1, (eff_of_none due2).trans psw2, psw2, (nextPsw_of_none due1).trans psw1,
    (nextPsw_of_none due2).trans psw2, ?eff3, next3, ?krn4, fun hkernel => ?eff4⟩
  case eff3 => rw [eff_of_some due3, psw3]; rfl
  case krn4 => rw [eff_krn, m4.krn, next3]; rfl
  case eff4 => rw [eff_of_none due4, m4.kernel (by rw [psw3, hkernel]), next3]; rfl

/-! ## Fault registers and pc-queue -/

theorem itfrRead_kernel {s : State} (h : s.eff.krn = true) : itfrRead s = s.lay.tfr.image s.itfr := by
  rw [itfrRead, if_pos h]

theorem dtfrRead_kernel {s : State} (h : s.eff.krn = true) : dtfrRead s = s.lay.tfr.image s.dtfr := by
  rw [dtfrRead, if_pos h]

/-- The state before a ReadPcQ retires: the pc-queue has moved, and RR and ra hold what was at its head. -/
def readPcQResult (s : State) (ra rb : RegField) : State :=
  (({ s with pc2 := s.pc1, pc1 := Config.pcQueueEntry s.fresh ++ 0#2 } : State).selectControl rb).result ra s.queueHead

theorem exec_readPcQ {s : State} (h : s.mayPrivileged) (ra rb : RegField) :
    exec (.readPcQ ra rb) s = .next ((readPcQResult s ra rb).retire (didSpecial s (s.wroteA ra))) :=
  privileged_effect _ h

theorem readPcQResult_shape (s : State) (ra rb : RegField) : ∃ r m q p1 p2,
    readPcQResult s ra rb = { s.selectControl rb with regs := r, marks := m, rr := q, pc1 := p1, pc2 := p2 } := by
  obtain ⟨r, m, q, h⟩ := result_shape
    (({ s with pc2 := s.pc1, pc1 := Config.pcQueueEntry s.fresh ++ 0#2 } : State).selectControl rb) ra s.queueHead
  exact ⟨r, m, q, _, _, h⟩

/-- In kernel mode a ReadPcQ reads PC2, and PC1 moves into it (R29, R182). -/
theorem readPcQ_kernel {s : State} (h : s.eff.krn = true) (ra rb : RegField) :
    s.queueHead = s.pc2 ∧ ((readPcQResult s ra rb).retire (didSpecial s (s.wroteA ra))).pc2 = s.pc1 := by
  have hkrn : (readPcQResult s ra rb).psw.krn = true := by simpa [readPcQResult] using h
  obtain ⟨-, -, hpc2, -, -⟩ :=
    retireWith_kernel (didSpecial s (s.wroteA ra)) ((readPcQResult s ra rb).npc + 4#32)
      (readPcQResult s ra rb).icar.advance none hkrn
  exact ⟨if_pos h, hpc2.trans (by simp [readPcQResult])⟩

/-- Settles O38: in kernel mode the fault registers and the pc-queue hold still for the read. -/
theorem trapRegisterReads : Obligations.TrapRegisterReads := by
  intro ra rb s h
  refine ⟨⟨_, specialYields_of_readDisturbed h rfl, itfrRead_kernel, fun hk hf => ?itfr⟩,
    ⟨_, specialYields_of_read h rfl, dtfrRead_kernel, fun hk hf => ?dtfr⟩,
    _, s.queueHead, exec_readPcQ h ra rb, ?queue⟩
  case itfr => rw [itfrRead_kernel hk, hf, TfrFormat.image]
  case dtfr => rw [dtfrRead_kernel hk, hf, TfrFormat.image]
  case queue =>
    refine ⟨fun i => ⟨?reg, ?mark⟩, ?rr, specialKept_retireWith _ _ _ ?next (readPcQResult_shape s ra rb),
      ⟨?itlb, ?dtlb⟩, systemKept_retireWith _ _ _ ?pend1 ?pend2 ?pend3 ?psw ?itfr ?dtfr,
      fun hk => readPcQ_kernel hk ra rb⟩
    case reg => rw [reg_retire, readPcQResult, reg_result]; rfl
    case mark => rw [mark_retire, readPcQResult, mark_result]; rfl
    all_goals simp [readPcQResult]

/-! ## Translation buffer reads -/

/-- What O39 says of one read: its instruction, the buffer, whether column 1, whether data side, whether the tag. -/
def tlbReadYields (ra rb : RegField) (s : State) (p : Instr × Tlb × Bool × Bool × Bool) : Prop :=
  ∃ v, specialYields p.1 s ra rb v ∧
    (s.hist.last.wrote ≠ some (s.rbIndex rb) → (p.2.2.2.1 = true → s.hist.last.store = false) →
      ∀ e, e = tlbEntry p.2.1 p.2.2.1 (s.readB rb >>> 2) s.eff.pid →
        if p.2.2.2.2 then
          v.extractLsb' 24 8 = e.pid ∧ v.extractLsb' 11 13 = e.tag ∧ v.getLsbD 10 = e.invalid ∧
            v.getLsbD 9 = e.writable
        else v.extractLsb' 10 22 = e.rpn)

section
variable {i : Instr} {s : State} {ra rb : RegField}

/-- Without a hazard a read's row is that of register rb's address. -/
theorem tlbAddress_eq (h : s.hist.last.wrote ≠ some (s.rbIndex rb)) : tlbAddress s rb = s.readB rb >>> 2 := by
  rw [tlbAddress, baseNoInterlock_register h]

theorem tlbDataReadAddress_eq (h : s.hist.last.wrote ≠ some (s.rbIndex rb)) (hs : s.hist.last.store = false) :
    tlbDataReadAddress s rb = s.readB rb >>> 2 := by
  rw [tlbDataReadAddress, baseNoInterlock_eq h hs]

theorem tlbReadYields_instTag (h : s.mayPrivileged) {col : Bool} (he : exec i s = readInstTag s col ra rb) :
    tlbReadYields ra rb s (i, s.itlb, col, false, true) := by
  refine ⟨_, specialYields_of_readDisturbed h he, fun hw _ e heq => ?_⟩
  rw [tlbAddress_eq hw, if_pos rfl, heq]
  exact tagHigh_bits _ _

theorem tlbReadYields_instData (h : s.mayPrivileged) {col : Bool} (he : exec i s = readInstData s col ra rb) :
    tlbReadYields ra rb s (i, s.itlb, col, false, false) := by
  refine ⟨_, specialYields_of_readDisturbed h he, fun hw _ e heq => ?_⟩
  rw [tlbAddress_eq hw, if_neg Bool.false_ne_true, heq]
  exact dataHigh_bits _ _

theorem tlbReadYields_dataTag (h : s.mayPrivileged) {col : Bool} (he : exec i s = readDataTag s col ra rb) :
    tlbReadYields ra rb s (i, s.dtlb, col, true, true) := by
  refine ⟨_, specialYields_of_read h he, fun hw hs e heq => ?_⟩
  rw [tlbDataReadAddress_eq hw (hs rfl), if_pos rfl, heq]
  exact tagHigh_bits _ _

theorem tlbReadYields_dataData (h : s.mayPrivileged) {col : Bool} (he : exec i s = readDataData s col ra rb) :
    tlbReadYields ra rb s (i, s.dtlb, col, true, false) := by
  refine ⟨_, specialYields_of_read h he, fun hw hs e heq => ?_⟩
  rw [tlbDataReadAddress_eq hw (hs rfl), if_neg Bool.false_ne_true, heq]
  exact dataHigh_bits _ _

end

/-- Settles O39: each of the eight is a tag or a data read of one side. -/
theorem tlbReads : Obligations.TlbReads := by
  intro ra rb s h
  change ∀ p ∈ _, tlbReadYields ra rb s p
  simp only [List.forall_mem_cons]
  exact ⟨tlbReadYields_instTag h rfl, tlbReadYields_instTag h rfl, tlbReadYields_instData h rfl,
    tlbReadYields_instData h rfl, tlbReadYields_dataTag h rfl, tlbReadYields_dataTag h rfl,
    tlbReadYields_dataData h rfl, tlbReadYields_dataData h rfl, List.forall_mem_nil _⟩

/-! ## Translation buffer writes -/

section
variable {i : Instr} {s : State} {rb : RegField}

/-- The row of a write is that of register rb's address, r0 included, which no instruction writes. -/
theorem tlbAddress_of (h : rb = 0#6 ∨ s.hist.last.wrote ≠ some (s.rbIndex rb)) :
    tlbAddress s rb = s.readB rb >>> 2 := by
  rcases h with rfl | h
  · simp [tlbAddress, State.baseNoInterlock]
  · exact tlbAddress_eq h

/-- A write of the instruction side that may have its effect changes one entry and the I/O control address alone. -/
theorem tlbWritten_inst (h : s.mayPrivileged) {b : Tlb} {col : Bool} {wa : Word} {pid : BitVec 8}
    {f : TlbEntry → TlbEntry} (he : exec i s = privileged s (writeInstTlb s rb b))
    (hb : tlbWritten s.itlb b col wa pid f) :
    ∃ t, exec i s = .next t ∧ regsKept s t ∧ t.rr = s.rr ∧ specialKept s t rb ∧ systemKept s t ∧ queueKept s t ∧
      t.dtlb = s.dtlb ∧ tlbWritten s.itlb t.itlb col wa pid f := by
  rw [privileged_effect _ h] at he
  obtain ⟨t, ht, hregs, hrr, hspecial, hsystem, hqueue, hother, rfl⟩ := writeInstTlb_spec s rb b
  exact ⟨t, he.trans ht, hregs, hrr, hspecial, hsystem, hqueue, hother, hb⟩

/-- The same on the data side. -/
theorem tlbWritten_data (h : s.mayPrivileged) {b : Tlb} {col : Bool} {wa : Word} {pid : BitVec 8}
    {f : TlbEntry → TlbEntry} (he : exec i s = privileged s (writeDataTlb s rb b))
    (hb : tlbWritten s.dtlb b col wa pid f) :
    ∃ t, exec i s = .next t ∧ regsKept s t ∧ t.rr = s.rr ∧ specialKept s t rb ∧ systemKept s t ∧ queueKept s t ∧
      t.itlb = s.itlb ∧ tlbWritten s.dtlb t.dtlb col wa pid f := by
  rw [privileged_effect _ h] at he
  obtain ⟨t, ht, hregs, hrr, hspecial, hsystem, hqueue, hother, rfl⟩ := writeDataTlb_spec s rb b
  exact ⟨t, he.trans ht, hregs, hrr, hspecial, hsystem, hqueue, hother, hb⟩

end

/-- The parity of a written part is good where its low bits are zero (R194). -/
theorem writtenParity_beq {n : Nat} (x : BitVec n) :
    writtenParity (x == 0#n) = if x = 0#n then .good else .unsure := by
  by_cases h : x = 0#n <;> simp [writtenParity, h]

theorem tlbWriteTag_written (t : Tlb) (col : Bool) (wa : Word) (pid : BitVec 8) (v : Word) :
    tlbWritten t (tlbWriteTag t col wa pid v) col wa pid (withTagWord · v) :=
  tlbPut_written t col wa pid (withTagWord · v)

theorem tlbWriteData_written (t : Tlb) (col : Bool) (wa : Word) (pid : BitVec 8) (v : Word) :
    tlbWritten t (tlbWriteData t col wa pid v) col wa pid (withDataWord · v) :=
  tlbPut_written t col wa pid (withDataWord · v)

/-- Settles O40: each of the eight puts one entry, whose row and value are free where a hazard leaves them open. -/
theorem tlbWrites : Obligations.TlbWrites := by
  intro ra rb s h tag data htag hdata
  obtain rfl : tag = fun v e => withTagWord e v := by
    funext v e; rw [htag, withTagWord, writtenParity_beq]
  obtain rfl : data = fun v e => withDataWord e v := by
    funext v e; rw [hdata, withDataWord, writtenParity_beq]
  refine ⟨s.resultRegister, s.dataEntryWord, tlbAddress s rb, fun x hx => resultRegister_of hx,
    fun hpc hnpc => dataEntryWord_of (missesInEx_eq_false.2 ⟨hpc, hnpc⟩), tlbAddress_of, ?inst, ?data⟩
  case inst =>
    simp only [List.forall_mem_cons]
    exact ⟨tlbWritten_inst h rfl (tlbWriteTag_written ..), tlbWritten_inst h rfl (tlbWriteTag_written ..),
      tlbWritten_inst h rfl (tlbWriteData_written ..), tlbWritten_inst h rfl (tlbWriteData_written ..),
      List.forall_mem_nil _⟩
  case data =>
    simp only [List.forall_mem_cons]
    exact ⟨tlbWritten_data h rfl (tlbWriteTag_written ..), tlbWritten_data h rfl (tlbWriteTag_written ..),
      tlbWritten_data h rfl (tlbWriteData_written ..), tlbWritten_data h rfl (tlbWriteData_written ..),
      List.forall_mem_nil _⟩

/-! ## The ICAR idiom -/

/-- What an instruction that disturbs the ICAR leaves of the sequence and of the model's record (R27, R183). -/
structure icarDisturbed (s t : State) : Prop where
  control : goesOn s t (s.npc + 4#32)
  icar : t.icar = s.disturbed
  special2 : t.hist.special2 = s.hist.last.special
  pend1 : t.pend1 = none
  pend2 : t.pend2 = s.pend1
  pend3 : t.pend3 = s.pend2

section
variable {s t : State} {ra rb : RegField} {disp : BitVec 16}

theorem icarDisturbed_retire {u : State} (d : Did) (hpc : u.pc = s.pc) (hnpc : u.npc = s.npc) (hhist : u.hist = s.hist)
    (h1 : u.pend1 = s.pend1) (h2 : u.pend2 = s.pend2) : icarDisturbed s (u.retireDisturbed d) := by
  refine ⟨⟨?_, ?_⟩, ?_, ?_, ?_, ?_, ?_⟩ <;> simp [State.disturbed, History.after, hpc, hnpc, hhist, h1, h2]

/-- A privileged instruction that may have its effect goes on from it. -/
theorem privileged_effect_next {r : Result} (h : s.mayPrivileged) (ht : privileged s r = .next t) : r = .next t :=
  (privileged_effect r h).symm.trans ht

/-- A read-class special of the instruction side or of ITFR (R186, R188, R190). -/
theorem icarDisturbed_of_read {v : Word} (h : s.mayPrivileged)
    (ht : privileged s (specialReadDisturbed s ra rb v) = .next t) : icarDisturbed s t := by
  cases privileged_effect_next h ht
  exact icarDisturbed_retire _ (by simp) (by simp) (by simp) (by simp) (by simp)

/-- A write of the instruction side's buffer (R194, R197). -/
theorem icarDisturbed_of_write {b : Tlb} (h : s.mayPrivileged) (ht : privileged s (writeInstTlb s rb b) = .next t) :
    icarDisturbed s t := by
  cases privileged_effect_next h ht
  exact icarDisturbed_retire _ rfl rfl rfl rfl rfl

theorem icarDisturbed_of_pseudoCall (h : s.mayPrivileged) (ht : exec (.pseudoCall ra rb disp) s = .next t) :
    icarDisturbed s t := by
  have ht := privileged_effect_next h ht
  split at ht
  · cases ht
    exact icarDisturbed_retire _ rfl rfl rfl rfl rfl
  · cases ht

/-- A flush does not wait where the memory controller runs. -/
theorem icarDisturbed_of_flush (h : s.mayPrivileged) (hm : s.mcDown = false)
    (ht : exec (.flush ra rb disp) s = .next t) : icarDisturbed s t := by
  have ht := privileged_effect_next h ht
  simp only [hm, Bool.false_and, Bool.false_eq_true, if_false] at ht
  split at ht
  · cases ht
  · split at ht
    · cases ht
    · cases ht
      exact icarDisturbed_retire _ rfl rfl rfl rfl rfl

/-- The instructions that disturb the ICAR (R183). -/
theorem exec_icarDisturbed (h : s.mayPrivileged) (hm : s.mcDown = false) :
    ∀ i ∈ [Instr.readInstTFR ra rb, .readInstTlbTag0 ra rb, .readInstTlbTag1 ra rb, .readInstTlbData0 ra rb,
      .readInstTlbData1 ra rb, .writeInstTlbTag0 ra rb, .writeInstTlbTag1 ra rb, .writeInstTlbData0 ra rb,
      .writeInstTlbData1 ra rb, .pseudoCall ra rb disp, .flush ra rb disp], exec i s = .next t → icarDisturbed s t := by
  simp only [List.forall_mem_cons]
  exact ⟨icarDisturbed_of_read h, icarDisturbed_of_read h, icarDisturbed_of_read h, icarDisturbed_of_read h,
    icarDisturbed_of_read h, icarDisturbed_of_write h, icarDisturbed_of_write h, icarDisturbed_of_write h,
    icarDisturbed_of_write h, icarDisturbed_of_pseudoCall h, icarDisturbed_of_flush h hm, List.forall_mem_nil _⟩

/-- A word that the ICAR phase does not allow is refused (R183, U16). -/
theorem runWord_notAdmitted {w : Word} (h : icarAdmits s.icar (decodeWord w) = false) :
    runWord w s = .refused .icarIdiomBroken := by
  simp [runWord, h]

/-- With nothing in flight no PSW write is under way (R353). -/
theorem pend_of_inFlight (h : s.inFlight = false) : s.pend1 = none ∧ s.pend2 = none ∧ s.pend3 = none := by
  obtain ⟨h1, h2, h3, -⟩ : s.pend1 = none ∧ s.pend2 = none ∧ s.pend3 = none ∧ s.icar = .idle := by
    simpa [State.inFlight, and_assoc] using h
  exact ⟨h1, h2, h3⟩

end

/-! ### The goto and the null of the idiom -/

/-- The state after a goto that links to no register. -/
def gotoState (s : State) (disp : BitVec 16) : State :=
  (s.result 0#6 s.pcRead).retireTo (didWrite s 0#6) (jumpTarget s.pcRead disp)

theorem exec_goto_pc (s : State) (disp : BitVec 16) : exec (.goto 0#6 0#6 disp) s = .next (gotoState s disp) := rfl

theorem pswMoved_goto (s : State) (disp : BitVec 16) : pswMoved s (gotoState s disp) :=
  pswMoved_retireWith s _ _ _ _ _

/-- Where the goto and the null lead, and what they make of the ICAR phase. -/
theorem gotoState_sequence (s : State) (disp : BitVec 16) :
    goesOn s (gotoState s disp) (jumpTarget s.pcRead disp) ∧ (gotoState s disp).icar = s.icar.advance := by
  simp [gotoState, goesOn]

theorem nullState_sequence (s : State) :
    goesOn s (nullState s) (s.npc + 4#32) ∧ (nullState s).icar = s.icar.advance := by
  simp [nullState, goesOn]

/-- The goto of the idiom leads to the word after it. -/
theorem jumpTarget_one {a : Word} (h : aligned a) : jumpTarget a 1#16 = a + 4#32 := by
  rw [jumpTarget_eq a 1#16 h]
  rfl

/-- What neither the goto nor the null of the idiom changes. -/
structure idiomKept (s t : State) : Prop where
  regs : regsKept s t
  memory : memoryKept s t
  translation : translationKept s t
  io : ioKept s t
  cp : t.cp = s.cp

section
variable {s t u : State}

theorem idiomKept_retireWith (s : State) (v : Word) (d : Did) (n : Word) (i : IcarPhase) :
    idiomKept s ((s.result 0#6 v).retireWith d n i none) := by
  obtain ⟨hmemory, htranslation, hio, hcp, -, -, -⟩ := restKept_retireWith d n i (result_shape s 0#6 v)
  exact ⟨regsKept_of (by simp) (by simp), hmemory, htranslation, hio, hcp⟩

theorem idiomKept_trans (hst : idiomKept s t) (htu : idiomKept t u) : idiomKept s u where
  regs i := ⟨(htu.regs i).1.trans (hst.regs i).1, (htu.regs i).2.trans (hst.regs i).2⟩
  memory :=
    { mem := fun a => (htu.memory.mem a).trans (hst.memory.mem a)
      prom := fun a => (htu.memory.prom a).trans (hst.memory.prom a)
      populated := htu.memory.populated.trans hst.memory.populated
      icache := htu.memory.icache.trans hst.memory.icache
      dcache := htu.memory.dcache.trans hst.memory.dcache }
  translation := ⟨htu.translation.1.trans hst.translation.1, htu.translation.2.trans hst.translation.2⟩
  io := ⟨htu.io.1.trans hst.io.1, htu.io.2.trans hst.io.2⟩
  cp := htu.cp.trans hst.cp

/-- The goto and the null, run twice, keep what each keeps. -/
theorem idiomKept_idiom (s : State) (disp : BitVec 16) : idiomKept s (nullState (nullState (gotoState s disp))) :=
  idiomKept_trans (idiomKept_trans (idiomKept_retireWith s _ _ _ _) (idiomKept_retireWith _ _ _ _ _))
    (idiomKept_retireWith _ _ _ _ _)

/-- With no PSW write under way the idiom leaves the PSW. -/
theorem idiom_psw (disp : BitVec 16) (h1 : s.pend1 = none) (h2 : s.pend2 = none) (h3 : s.pend3 = none) :
    (nullState (nullState (gotoState s disp))).psw = s.psw := by
  have mu := pswMoved_goto s disp
  have mv := pswMoved_null (gotoState s disp)
  have mw := pswMoved_null (nullState (gotoState s disp))
  calc (nullState (nullState (gotoState s disp))).psw
      = (nullState (gotoState s disp)).psw := mw.psw (by rw [mv.pend3, mu.pend2, h1])
    _ = (gotoState s disp).psw := mv.psw (by rw [mu.pend3, h2])
    _ = s.psw := mu.psw h3

end

/-- Settles O41: the phase after the disturbing instruction allows the goto alone, the phase after that a null alone;
the goto's target is its own successor, so the null runs twice and the fourth instruction follows. -/
theorem icarIdiom : Obligations.IcarIdiom := by
  rintro ra rb disp s t i _ hi hmay hflight halign hspecial rfl hmc ht
  have hd := exec_icarDisturbed hmay hmc i hi ht
  refine ⟨fun hbranch w => runWord_notAdmitted ?broken, fun hseq => ⟨fun w hw => runWord_notAdmitted ?notGoto,
    gotoState t 1#16, nullState (gotoState t 1#16), nullState (nullState (gotoState t 1#16)),
    exec_goto_pc t 1#16, exec_null _, exec_null _, ?idiom⟩⟩
  case broken => rw [hd.icar, State.disturbed, if_neg hbranch]; rfl
  case notGoto =>
    rw [hd.icar, State.disturbed, if_pos hseq]
    exact decide_eq_false hw
  case idiom =>
    obtain ⟨tpc, tnpc⟩ := hd.control
    obtain ⟨⟨upc, unpc⟩, uicar⟩ := gotoState_sequence t 1#16
    obtain ⟨⟨-, vnpc⟩, vicar⟩ := nullState_sequence (gotoState t 1#16)
    obtain ⟨⟨wpc, wnpc⟩, wicar⟩ := nullState_sequence (nullState (gotoState t 1#16))
    obtain ⟨hregs, hmemory, htranslation, hio, hcp⟩ := idiomKept_idiom t 1#16
    obtain ⟨hpend1, hpend2, -⟩ := pend_of_inFlight hflight
    have tpcRead : t.pcRead = s.pc + 4#32 := by
      rw [State.pcRead, hd.special2, hspecial, tpc, hseq]; rfl
    have uicar' : (gotoState t 1#16).icar = .nullNext := by
      rw [uicar, hd.icar, State.disturbed, if_pos hseq]; rfl
    have upc' : (gotoState t 1#16).pc = s.pc + 8#32 := by rw [upc, tnpc, hseq, BitVec.add_assoc]; rfl
    have unpc' : (gotoState t 1#16).npc = s.pc + 8#32 := by
      rw [unpc, tpcRead, jumpTarget_one (aligned_add4 halign), BitVec.add_assoc]; rfl
    have vnpc' : (nullState (gotoState t 1#16)).npc = s.pc + 12#32 := by rw [vnpc, unpc', BitVec.add_assoc]; rfl
    refine ⟨upc', unpc', wpc.trans vnpc', ?wnpc, ?rr, hregs, hmemory, htranslation, hio, hcp,
      idiom_psw 1#16 hd.pend1 (hd.pend2.trans hpend1) (hd.pend3.trans hpend2), ?idle,
      fun w hw => runWord_notAdmitted ?notNull⟩
    case wnpc => rw [wnpc, vnpc', BitVec.add_assoc]; rfl
    case rr => simp [nullState]
    case idle => rw [wicar, vicar, uicar']; rfl
    case notNull => rw [uicar']; exact hw

end Sys2Proof.Machine
end

section
/-!
The I/O specials (O42 to O46). A GetCtl is a read-class special of the selected register; the other three change the
memory controller and the slots alone, so one frame lemma serves them, and each statement is left with what its
instruction makes of the memory controller and of the addressed slot.
-/
namespace Sys2Proof.Machine

/-! ## GetCtl -/

/-- A word that meets no error on the bus is the one that the memory controller sent (R120). -/
theorem busWord_none (v : Word) : busWord none v = v := rfl

theorem busWord_some (b : BusError) (v : Word) : busWord (some b) v = b.v := rfl

section
variable {s : State} {rb : RegField}

/-- A GetCtl that the memory controller answers is a read-class special of the word delivered (R211). -/
theorem getCtl_yields (hp : s.mayPrivileged) (hm : s.mcDown = false) (ra rb : RegField) :
    specialYields (.getCtl ra rb) s ra rb (getCtlDelivered s rb) := by
  have hexec : exec (.getCtl ra rb) s =
      .next (((s.selectControl rb).result ra (getCtlDelivered s rb)).retire (didIo s (s.wroteA ra) none)) := by
    show execGetCtl ra rb s = _
    rw [execGetCtl, privileged_effect _ hp, hm]
    rfl
  refine ⟨_, hexec, regWritten_of (u := s.selectControl rb) ?regs ?marks rfl rfl rfl, ?rr,
    specialKept_retireWith _ _ _ ?npc ?shape, ⟨?itlb, ?dtlb⟩, systemKept_retireWith _ _ _ ?pend1 ?pend2 ?pend3 ?psw
      ?itfr ?dtfr, queueKept_retireWith _ _ _ _ ?pend3 ?pc1 ?pc2⟩
  case shape =>
    obtain ⟨r, m, q, hresult⟩ := result_shape (s.selectControl rb) ra (getCtlDelivered s rb)
    exact ⟨r, m, q, s.pc1, s.pc2, hresult⟩
  all_goals simp

/-- Where none of R217's restrictions is broken there is no hazard. -/
theorem getCtlHazard_eq_false (hio : s.hist.last.io = false) (hlast : s.hist.last.setCtl ≠ some s.mc.ioSel)
    (hbefore : s.hist.setCtl2 ≠ some s.mc.ioSel)
    (hselect : rb = s.mc.ioSel ∨
      (s.hist.last.memory = false ∧ s.hist.last.special = false ∧ s.pc.extractLsb' 2 2 ≠ 3#2)) :
    getCtlHazard s rb = false := by
  rcases hselect with hsame | ⟨hmemory, hspecial, hword⟩
  · simp [getCtlHazard, hio, hlast, hbefore, hsame]
  · simp [getCtlHazard, hio, hlast, hbefore, hmemory, hspecial, hword]

/-- What a GetCtl delivers with no hazard and no error on the bus: the selected register (R211). -/
theorem getCtlDelivered_of (hbus : s.busData = none) (hhazard : getCtlHazard s rb = false) :
    getCtlDelivered s rb = controlRead s s.mc.ioSel := by
  rw [getCtlDelivered, hbus, busWord_none, getCtlValue, hhazard]
  rfl

/-- The slot and the acknowledge bit below the free bits of IoStatus (R57). -/
theorem ackSlot_fields (high : BitVec 28) (ack : Bool) (slot : BitVec 3) :
    (high ++ (BitVec.ofBool ack ++ slot)).extractLsb' 0 3 = slot ∧
    (high ++ (BitVec.ofBool ack ++ slot)).getLsbD 3 = ack := by
  refine ⟨BitVec.eq_of_getLsbD_eq fun i hi => ?_, ?_⟩
  all_goals simp only [BitVec.getLsbD_extractLsb', BitVec.getLsbD_append]
  · simp [hi, show i < 4 by omega]
  · simp

/-- The fields of IoStatus are where a valid layout puts them (R57). -/
theorem ioStatusWord_fields (h : s.lay.ioStatus.valid = true) :
    (s.lay.ioStatus.get (ioStatusWord s)).extractLsb' 0 3 = s.mc.slot ∧
    (s.lay.ioStatus.get (ioStatusWord s)).getLsbD 3 = s.mc.ack := by
  rw [ioStatusWord, Places_get_put h]
  exact ackSlot_fields _ _ _

/-- So are those of Event (R58). -/
theorem eventWord_fields (h : s.lay.eventIoInt.valid = true) :
    (eventWord s).extractLsb' 0 4 = s.mc.hErrs ∧
    (s.lay.eventIoInt.get ((eventWord s).extractLsb' 4 28)).extractLsb' 21 7 = interruptLines s.slots := by
  rw [eventWord]
  refine ⟨low_append _ _, ?_⟩
  rw [high_append, Places_get_put h, high_append]

end

theorem Layout_valid_memoryController {l : Layout} (h : l.valid = true) :
    l.ioStatus.valid = true ∧ l.eventIoInt.valid = true := by
  simp only [Layout.valid, Bool.and_eq_true] at h
  tauto

/-- Settles O42: with no hazard and no error on the bus the word delivered is the selected register's. -/
theorem getCtl : Obligations.GetCtl := by
  intro ra rb s hlay hp hm
  obtain ⟨hioStatus, hevent⟩ := Layout_valid_memoryController hlay
  refine ⟨_, getCtl_yields hp hm ra rb, fun b hb => ?spoilt, fun hbus hio hlast hbefore hselect => ?exact⟩
  case spoilt => rw [getCtlDelivered, hb, busWord_some]
  case exact =>
    rw [getCtlDelivered_of hbus (getCtlHazard_eq_false hio hlast hbefore hselect)]
    refine ⟨fun h => ?_, fun h => ?_, fun h => ?_, fun h => ?ioStatus, fun h => ?event, fun h => ?_, fun h => ?_,
      fun h => ?_⟩
    all_goals rw [h]
    case ioStatus => exact ioStatusWord_fields hioStatus
    case event => exact eventWord_fields hevent
    all_goals rfl

/-! ## The frame of the other three -/

/-- What an I/O special leaves that writes no register, when it makes `m` of the memory controller and `sl` of the slots
(R212 to R214). -/
structure ioChanged (s t : State) (m : MemCtl) (sl : Vector Slot 7) : Prop where
  regs : regsKept s t
  rr : t.rr = s.rr
  control : goesOn s t (s.npc + 4#32)
  memory : memoryKept s t
  translation : translationKept s t
  cp : t.cp = s.cp
  system : systemKept s t
  queue : queueKept s t
  run : runKept s t
  slots : t.slots = sl
  mc : t.mc = m

theorem ioChanged_retire (s : State) (rb : RegField) (d : Did) (m : MemCtl) (sl : Vector Slot 7) :
    ioChanged s ((({ s with mc := m, slots := sl } : State).selectControl rb).retire d) { m with ioSel := rb } sl := by
  refine ⟨regsKept_of ?_ ?_, ?_, ⟨?_, ?_⟩, memoryKept_of ?_ ?_ ?_ ?_ ?_, ⟨?_, ?_⟩, ?_,
    systemKept_retireWith _ _ _ rfl rfl rfl rfl rfl rfl, queueKept_retireWith _ _ _ _ rfl rfl rfl,
    ⟨?_, ?_, ?_, ?_, ?_, ?_, ?_, ?_, ?_, ?_, ?_, ?_⟩, ?_, ?_⟩
  all_goals simp

section
variable {s : State} {v : Word} {m : MemCtl} {sl : Vector Slot 7}

/-- A SetCtl of a documented register (R212). -/
theorem exec_setCtl_next (hp : s.mayPrivileged) (hm : s.mcDown = false) (hx : s.loadedResult = some v)
    (hi : s.hist.last.io = false) (hc : controlWrite s.mc s.lay.ioStatus s.mc.ioSel v = some m) (ra rb : RegField) :
    ∃ t, exec (.setCtl ra rb) s = .next t ∧ ioChanged s t { m with ioSel := rb } s.slots := by
  refine ⟨_, ?_, ioChanged_retire s rb (didIoTake s (some s.mc.ioSel)) m s.slots⟩
  show execSetCtl ra rb s = _
  rw [execSetCtl, privileged_effect _ hp, hm, ioOperand_of hx hi, hc]
  rfl

/-- A SetCtl of any other is refused (U20). -/
theorem exec_setCtl_refused (hp : s.mayPrivileged) (hm : s.mcDown = false) (hx : s.loadedResult = some v)
    (hi : s.hist.last.io = false) (hc : controlWrite s.mc s.lay.ioStatus s.mc.ioSel v = none) (ra rb : RegField) :
    exec (.setCtl ra rb) s = .refused .undocumentedControlWrite := by
  show execSetCtl ra rb s = _
  rw [execSetCtl, privileged_effect _ hp, hm, ioOperand_of hx hi, hc]
  rfl

/-- An IoRead that is not refused (R213). -/
theorem exec_ioRead_next (hp : s.mayPrivileged) (hm : s.mcDown = false) (hx : s.loadedResult = some v)
    (hi : s.hist.last.io = false) (hr : s.ioRefusal v false = none)
    (hread : s.ioRead v = { s with mc := m, slots := sl }) (ra rb : RegField) :
    ∃ t, exec (.ioRead ra rb) s = .next t ∧ ioChanged s t { m with ioSel := rb } sl := by
  refine ⟨_, ?_, ioChanged_retire s rb (didIoTake s none) m sl⟩
  show execIoRead ra rb s = _
  rw [execIoRead, privileged_effect _ hp, hm, ioOperand_of hx hi, hr, hread]
  rfl

/-- An IoWrite that is not refused (R214). -/
theorem exec_ioWrite_next (hp : s.mayPrivileged) (hm : s.mcDown = false) (hx : s.loadedResult = some v)
    (hi : s.hist.last.io = false) (hr : s.ioRefusal v true = none)
    (hwrite : s.ioWrite v = { s with mc := m, slots := sl }) (ra rb : RegField) :
    ∃ t, exec (.ioWrite ra rb) s = .next t ∧ ioChanged s t { m with ioSel := rb } sl := by
  refine ⟨_, ?_, ioChanged_retire s rb (didIoTake s none) m sl⟩
  show execIoWrite ra rb s = _
  rw [execIoWrite, privileged_effect _ hp, hm, ioOperand_of hx hi, hr, hwrite]
  rfl

end

/-! ## SetCtl -/

/-- An address outside the eight selects no register that could be written (R218, U20). -/
theorem controlWrite_of_notMem {a : BitVec 6}
    (h : a ∉ [0x20#6, 0x28#6, 0x30#6, 0x08#6, 0x01#6, 0x10#6, 0x18#6, 0x38#6]) (mc : MemCtl) (c : Places 32)
    (v : Word) : controlWrite mc c a v = none := by
  have hnat : a.toNat ∉ [0x20, 0x28, 0x30, 0x08, 0x01, 0x10, 0x18, 0x38] :=
    fun hmem => h ((List.mem_map_of_injective (f := BitVec.toNat) fun _ _ => BitVec.eq_of_toNat_eq).1 hmem)
  unfold controlWrite
  split
  case h_9 => rfl
  all_goals next ha => exact absurd (by rw [ha]; decide) hnat

/-- Settles O43: the selected register takes RR as `controlWrite` says, and the frame is the I/O specials' own. -/
theorem setCtl : Obligations.SetCtl := by
  intro ra rb s v hp hm hx hi
  refine ⟨fun p hmem => ?documented, fun hsel => ?undocumented⟩
  case undocumented => exact exec_setCtl_refused hp hm hx hi (controlWrite_of_notMem hsel ..) ra rb
  case documented =>
    have hc : controlWrite s.mc s.lay.ioStatus p.1 v = some p.2 := by
      revert p
      simp only [List.forall_mem_cons]
      exact ⟨rfl, rfl, rfl, rfl, rfl, rfl, rfl, rfl, List.forall_mem_nil _⟩
    intro hsel
    obtain ⟨t, ht, h⟩ := exec_setCtl_next hp hm hx hi (hsel ▸ hc) ra rb
    exact ⟨t, ht, h.regs, h.rr, h.control, h.memory, h.translation, h.mc, h.slots, h.cp, h.system, h.queue, h.run⟩

/-! ## Transactions with an adaptor's slot -/

/-- The memory controller after a slot's answer to an IoRead (R213): bad parity raises hErrs bit 0. -/
def MemCtl.answered (m : MemCtl) (addr : Word) (a : SlotAnswer) : MemCtl :=
  { m with ioAddress := addr, ioReadData := a.data, ack := a.ack,
           hErrs := if a.perr then m.hErrs ||| 1#4 else m.hErrs,
           halted := m.halted || (a.perr && m.enable.getLsbD 4) }

/-- The memory controller after an IoWrite, with the slot's acknowledge (R214). -/
def MemCtl.accepted (m : MemCtl) (addr d : Word) (ack : Bool) : MemCtl :=
  { m with ioAddress := addr, ioReadData := d, ack := ack }

theorem halted_of_mcDown {s : State} (h : s.mcDown = false) : s.mc.halted = false :=
  (Bool.or_eq_false_iff.mp h).1

section
variable {s : State} {k : Fin 7} {addr : Word} {q : Slot}

theorem ioRead_slot {a : SlotAnswer} (hs : s.mc.slot.toNat = k.val + 1) (ha : s.slotAnswer k addr = (a, q)) :
    s.ioRead addr = { s with mc := s.mc.answered addr a, slots := s.slots.set k q } := by
  rw [State.ioRead, slotPosition_eq _ k hs]
  show ioReadSlot s k addr = _
  rw [ioReadSlot, ha]
  cases hperr : a.perr <;> simp [MemCtl.answered, raiseError, hperr]

theorem ioWrite_slot {ack : Bool} (hs : s.mc.slot.toNat = k.val + 1)
    (ha : s.slotAccepts k addr s.mc.ioWriteData = (ack, q)) :
    s.ioWrite addr =
      { s with mc := s.mc.accepted addr (Config.destroyedReadData s.fresh) ack, slots := s.slots.set k q } := by
  rw [State.ioWrite, slotPosition_eq _ k hs]
  simp only [ha, MemCtl.accepted]

/-- A slot whose adaptor runs answers by its own rules (R213). -/
theorem slotAnswer_running (h : s.csm.ioStopped = false) :
    s.slotAnswer k addr = slotRead s.slots[k] addr s.ioContext := by
  simp [State.slotAnswer, h]

theorem slotAccepts_running (h : s.csm.ioStopped = false) (v : Word) :
    s.slotAccepts k addr v = slotWrite s.slots[k] addr v s.ioContext := by
  simp [State.slotAccepts, h]

/-- An adaptor whose clock is stopped neither acknowledges nor changes (R439). -/
theorem slotAnswer_stopped (h : s.csm.ioStopped = true) (he : s.slots[k].adaptor ≠ .empty) :
    s.slotAnswer k addr = (unacknowledged s.fresh, s.slots[k]) := by
  simp only [State.slotAnswer, h, he, ne_eq, not_false_eq_true, decide_true, Bool.and_self, if_true]

theorem slotAccepts_stopped (h : s.csm.ioStopped = true) (v : Word) : s.slotAccepts k addr v = (false, s.slots[k]) :=
  if_pos h

/-- Nor does it see an access that its chapter leaves undefined. -/
theorem ioRefusal_stopped (h : s.csm.ioStopped = true) (write : Bool) : s.ioRefusal addr write = none := by
  unfold State.ioRefusal
  split
  · rfl
  · exact if_pos h

end

/-- Settles O44: a slot that runs answers or accepts by its own rules, one that is stopped does neither. -/
theorem ioTransactions : Obligations.IoTransactions := by
  intro ra rb s addr k hp hm hx hi hs
  refine ⟨fun hstop he => ?stopped, fun r => (exec_io_refused hp hm hx hi ra rb).1,
    fun r => (exec_io_refused hp hm hx hi ra rb).2, fun a q hrun hr ha => ?read, fun ack q hrun hr ha => ?write⟩
  case stopped =>
    intro i hmem
    obtain ⟨m, hack, haddr, t, ht, h⟩ : ∃ m : MemCtl, m.ack = false ∧ m.ioAddress = addr ∧
        ∃ t, exec i s = .next t ∧ ioChanged s t { m with ioSel := rb } (s.slots.set k s.slots[k]) := by
      revert i
      simp only [List.forall_mem_cons]
      exact ⟨⟨_, rfl, rfl, exec_ioRead_next hp hm hx hi (ioRefusal_stopped hstop _)
          (ioRead_slot hs (slotAnswer_stopped hstop he)) ra rb⟩,
        ⟨_, rfl, rfl, exec_ioWrite_next hp hm hx hi (ioRefusal_stopped hstop _)
          (ioWrite_slot hs (slotAccepts_stopped hstop _)) ra rb⟩, List.forall_mem_nil _⟩
    refine ⟨t, ht, h.regs, h.rr, h.control, h.memory, h.translation, h.cp, h.system, h.queue, h.run,
      h.slots.trans (Vector.set_getElem_self k.isLt), ?_⟩
    rw [h.mc]
    exact ⟨hack, haddr, rfl⟩
  case read =>
    obtain ⟨t, ht, h⟩ := exec_ioRead_next hp hm hx hi hr (ioRead_slot hs ((slotAnswer_running hrun).trans ha)) ra rb
    refine ⟨t, ht, h.regs, h.rr, h.control, h.memory, h.translation, h.cp, h.system, h.queue, h.run, h.slots, ?_⟩
    rw [h.mc, MemCtl.answered, halted_of_mcDown hm, Bool.false_or]
  case write =>
    obtain ⟨t, ht, h⟩ :=
      exec_ioWrite_next hp hm hx hi hr (ioWrite_slot hs ((slotAccepts_running hrun _).trans ha)) ra rb
    exact ⟨t, _, ht, h.regs, h.rr, h.control, h.memory, h.translation, h.cp, h.system, h.queue, h.run, h.slots, h.mc⟩

/-! ## The lock -/

section
variable {s : State}

/-- Slot 0 is no adaptor (R82), so it refuses nothing. -/
theorem ioRefusal_zero (h : s.mc.slot = 0#3) (addr : Word) (write : Bool) : s.ioRefusal addr write = none := by
  rw [State.ioRefusal, h]
  rfl

theorem ioRead_zero (h : s.mc.slot = 0#3) (addr : Word) : s.ioRead addr = ioReadLock s addr := by
  rw [State.ioRead, h]
  rfl

theorem ioWrite_zero (h : s.mc.slot = 0#3) (addr : Word) : s.ioWrite addr =
    { s with mc := s.mc.accepted addr (Config.destroyedReadData s.fresh) false } := by
  rw [State.ioWrite, h]
  rfl

end

/-- An odd word takes a free lock and no other (R215). -/
theorem lockStep_acquire (lock : LockHolder) :
    lockStep lock true = if lock = .none then LockHolder.cpu else lock := by
  cases lock <;> rfl

/-- An even word gives back the processor's own lock and no other. -/
theorem lockStep_release (lock : LockHolder) :
    lockStep lock false = if lock = .cpu then LockHolder.none else lock := by
  cases lock <;> rfl

/-- Bit 0 of what an IoRead of the lock records. -/
theorem lockRecorded_bit (high : BitVec 31) (lock : LockHolder) :
    (high ++ BitVec.ofBool (lock != .none)).getLsbD 0 = decide (lock ≠ .none) := by
  rw [BitVec.getLsbD_append]
  simp [bne, beq_eq_decide]

/-- Settles O45: slot 0 is the lock, which a read steps and a write leaves. -/
theorem ioLock : Obligations.IoLock := by
  intro ra rb s addr hp hm hs hx hi
  refine ⟨?write, ?read⟩
  case write =>
    obtain ⟨t, ht, h⟩ := exec_ioWrite_next hp hm hx hi (ioRefusal_zero hs _ _) (ioWrite_zero hs addr) ra rb
    exact ⟨t, _, ht, h.regs, h.rr, h.control, h.memory, h.translation, h.slots, h.cp, h.system, h.queue, h.run, h.mc⟩
  case read =>
    obtain ⟨t, ht, h⟩ := exec_ioRead_next hp hm hx hi (ioRefusal_zero hs _ _) (ioRead_zero hs addr) ra rb
    refine ⟨t, _, _, _, ht, h.regs, h.rr, h.control, h.memory, h.translation, h.slots, h.cp, h.system, h.queue, h.run,
      h.mc, lockRecorded_bit _ _, fun hodd => ?odd, fun heven => ?even⟩
    case odd => rw [hodd, lockStep_acquire]
    case even => rw [heven, lockStep_release]

/-! ## Polling -/

/-- The address of the poll selects a TDA's identifier, a TFA's register 7 and a TNA's register 7, and the type code
stands in each (R219, R424, R430, R443). -/
theorem tdaRead_poll (d : Tda) : tdaRead d 0xFFFFFFFF#32 = { data := 2#32, ack := true, perr := false } := if_pos rfl

theorem tfaRead_poll (d : Tfa) (fresh : Nat) :
    tfaRead d 0xFFFFFFFF#32 fresh = ({ data := 6#32, ack := true, perr := false }, d) := rfl

theorem tnaRead_poll (d : Tna) (c : IoContext) :
    tnaRead d 0xFFFFFFFF#32 c = ({ data := 4#32, ack := true, perr := false }, d) := rfl

/-- A busy adaptor that is no TMA does not acknowledge, and is left as it is (R396). -/
theorem slotRead_busy (l : Line) (addr : Word) (c : IoContext) (d : Tda) (e : Tna) (f : Tfa) :
    ∀ a ∈ [Adaptor.tda d, .tna e, .tfa f],
      slotRead { busy := true, latch := l, adaptor := a } addr c =
        (unacknowledged c.fresh, { busy := true, latch := l, adaptor := a }) := by
  simp only [List.forall_mem_cons]
  exact ⟨rfl, rfl, rfl, List.forall_mem_nil _⟩

/-- Settles O46: each kind of adaptor answers the poll as its own read does. -/
theorem ioPoll : Obligations.IoPoll := by
  rintro c l _ rfl
  refine ⟨fun _ => rfl, fun d => ?tda, fun d => ?tna, fun d => ?tfa, fun _ _ => rfl, fun d e f a ha => ?busy⟩
  case tda => simp [slotRead, tdaRead_poll]
  case tna => simp [slotRead, tnaRead_poll]
  case tfa => simp [slotRead, tfaRead_poll]
  case busy =>
    rw [slotRead_busy l _ c d e f a ha]
    exact ⟨rfl, rfl⟩

end Sys2Proof.Machine
end

section
/-!
Kernel exit, set pc-queue and flush, and the return from a trap (O47 to O49). What the three instructions leave alike is
one frame, `kernelControlKept`; the branch, the queue and the memory follow instruction by instruction.
-/
namespace Sys2Proof.Machine

/-! ## The common frame -/

/-- What kernelExit, pseudoCall and flush leave alike: everything but the addresses, the pc-queue, memory and the
caches; RR is not loaded. -/
structure kernelControlKept (s t : State) : Prop where
  regs : regsKept s t
  rr : t.rr = none
  translation : translationKept s t
  io : ioKept s t
  cp : t.cp = s.cp
  system : systemKept s t
  run : runKept s t

section
variable {s t u : State}

theorem kernelControlKept_retireWith (d : Did) (n : Word) (i : IcarPhase)
    (hu : ∃ p1 p2 m ic dc, u = { s with pc1 := p1, pc2 := p2, rr := none, mem := m, icache := ic, dcache := dc }) :
    kernelControlKept s (u.retireWith d n i none) := by
  obtain ⟨p1, p2, m, ic, dc, rfl⟩ := hu
  refine ⟨regsKept_of ?_ ?_, ?_, ⟨?_, ?_⟩, ⟨?_, ?_⟩, ?_, systemKept_retireWith _ _ _ rfl rfl rfl rfl rfl rfl,
    ⟨?_, ?_, ?_, ?_, ?_, ?_, ?_, ?_, ?_, ?_, ?_, ?_⟩⟩
  all_goals simp

/-- A change of the pc-queue and of RR is none of memory. -/
theorem memoryKept_retireWith_queue (d : Did) (n : Word) (i : IcarPhase)
    (hu : ∃ p1 p2, u = { s with pc1 := p1, pc2 := p2, rr := none }) : memoryKept s (u.retireWith d n i none) := by
  obtain ⟨p1, p2, rfl⟩ := hu
  refine memoryKept_of ?_ ?_ ?_ ?_ ?_
  all_goals simp

theorem regsKept_trans (hst : regsKept s t) (htu : regsKept t u) : regsKept s u :=
  fun i => ⟨(htu i).1.trans (hst i).1, (htu i).2.trans (hst i).2⟩

theorem memoryKept_trans (hst : memoryKept s t) (htu : memoryKept t u) : memoryKept s u where
  mem a := (htu.mem a).trans (hst.mem a)
  prom a := (htu.prom a).trans (hst.prom a)
  populated := htu.populated.trans hst.populated
  icache := htu.icache.trans hst.icache
  dcache := htu.dcache.trans hst.dcache

end

/-! ## kernelExit -/

section
variable {s : State} {ra rb : RegField} {disp : BitVec 16}

theorem exec_kernelExit (h : s.mayPrivileged) : exec (.kernelExit ra rb disp) s = .next (kernelReturn s disp) :=
  privileged_effect _ h

theorem kernelReturn_pc : (kernelReturn s disp).pc = s.npc := State_retireTo_pc _ _ _

theorem kernelControlKept_kernelReturn : kernelControlKept s (kernelReturn s disp) :=
  kernelControlKept_retireWith _ _ _ ⟨_, _, _, _, _, rfl⟩

theorem memoryKept_kernelReturn : memoryKept s (kernelReturn s disp) :=
  memoryKept_retireWith_queue _ _ _ ⟨_, _, rfl⟩

/-- In kernel mode the branch leads to the head of the queue, which moves on, and the PSW that is due is written (R184,
R225). -/
theorem kernelReturn_kernel (hk : s.psw.krn = true) :
    (kernelReturn s disp).npc = jumpTarget s.pc2 disp ∧ (kernelReturn s disp).pc2 = s.pc1 ∧
    (kernelReturn s disp).pc1 = s.pc ∧ (kernelReturn s disp).psw = s.nextPsw := by
  have hhead : s.queueHead = s.pc2 := if_pos ((eff_krn s).trans hk)
  obtain ⟨hpsw, hpc1, hpc2, -, -⟩ := retireWith_kernel (s := { s with pc2 := s.pc1, pc1 := s.pc, rr := none })
    Did.nothing (jumpTarget s.queueHead disp) s.icar.advance none hk
  exact ⟨by simp [kernelReturn, hhead], hpc2, hpc1, hpsw⟩

/-! ## pseudoCall -/

/-- The state after a pseudoCall that has its effect. -/
def afterPseudoCall (s : State) (rb : RegField) (disp : BitVec 16) : State :=
  (pseudoCallState s (pseudoCallAddress s rb disp)).retireDisturbed Did.nothing

theorem exec_pseudoCall (h : s.mayPrivileged) : exec (.pseudoCall ra rb disp) s =
    if s.eff.imp then .next (afterPseudoCall s rb disp) else .refused .pseudoCallMapped := privileged_effect _ h

theorem goesOn_afterPseudoCall : goesOn s (afterPseudoCall s rb disp) (s.npc + 4#32) :=
  ⟨State_retireDisturbed_pc _ _, State_retireDisturbed_npc _ _⟩

theorem kernelControlKept_afterPseudoCall : kernelControlKept s (afterPseudoCall s rb disp) :=
  kernelControlKept_retireWith _ _ _ ⟨_, _, _, _, _, rfl⟩

theorem memoryKept_afterPseudoCall : memoryKept s (afterPseudoCall s rb disp) :=
  memoryKept_retireWith_queue _ _ _ ⟨_, _, rfl⟩

/-- In kernel mode a pseudoCall that is well placed shifts the queue, and its address enters it (R229). -/
theorem afterPseudoCall_kernel (hk : s.psw.krn = true) (hm : s.missesInEx = false) :
    (afterPseudoCall s rb disp).pc2 = s.pc1 ∧
    (afterPseudoCall s rb disp).pc1 = pseudoCallAddress s rb disp <<< 2 := by
  have hqueue := pseudoCallQueue_of (ea := pseudoCallAddress s rb disp) hm
  obtain ⟨-, hpc1, hpc2, -, -⟩ := retireWith_kernel (s := pseudoCallState s (pseudoCallAddress s rb disp)) Did.nothing
    (s.npc + 4#32) s.disturbed none hk
  exact ⟨hpc2.trans (congrArg Prod.fst hqueue), hpc1.trans (congrArg Prod.snd hqueue)⟩

/-- The base is exact where the instruction before did not write rb, r0 included, which no instruction writes. -/
theorem pseudoCallAddress_of (h : rb = 0#6 ∨ s.hist.last.wrote ≠ some (s.rbIndex rb)) :
    pseudoCallAddress s rb disp = effectiveAddress (s.readB rb) disp := by
  rcases h with rfl | h
  · simp [pseudoCallAddress, State.baseNoInterlock]
  · rw [pseudoCallAddress, baseNoInterlock_register h]

end

/-- Settles O47: both take their common frame and their own queue; what is open of the queue is a free value in it. -/
theorem pcQueueInstructions : Obligations.PcQueueInstructions := by
  intro ra rb disp s hmay
  refine ⟨⟨_, exec_kernelExit hmay, ?exit⟩, fun himp => ⟨afterPseudoCall s rb disp, ?next, ?call⟩, fun himp => ?refused⟩
  case exit =>
    obtain ⟨hregs, hrr, htranslation, hio, hcp, hsystem, hrun⟩ := kernelControlKept_kernelReturn (s := s) (disp := disp)
    refine ⟨kernelReturn_pc, hregs, hrr, memoryKept_kernelReturn, htranslation, hio, hcp, hsystem, hrun, fun hk => ?_⟩
    obtain ⟨hnpc, hpc2, hpc1, -⟩ := kernelReturn_kernel (disp := disp) ((eff_krn s).symm.trans hk)
    exact ⟨hnpc, hpc2, hpc1⟩
  case next => rw [exec_pseudoCall hmay, if_pos himp]
  case call =>
    obtain ⟨hregs, hrr, htranslation, hio, hcp, hsystem, hrun⟩ :=
      kernelControlKept_afterPseudoCall (s := s) (rb := rb) (disp := disp)
    refine ⟨goesOn_afterPseudoCall, hregs, hrr, memoryKept_afterPseudoCall, htranslation, hio, hcp, hsystem, hrun,
      fun hk hpc hnpc => ?_⟩
    obtain ⟨hpc2, hpc1⟩ := afterPseudoCall_kernel (rb := rb) (disp := disp) ((eff_krn s).symm.trans hk)
      (missesInEx_eq_false.2 ⟨hpc, hnpc⟩)
    exact ⟨hpc2, fun hbase => by rw [hpc1, pseudoCallAddress_of hbase, effectiveAddress]⟩
  case refused => simp [exec_pseudoCall hmay, himp]

/-! ## The return from a trap -/

theorem mayPrivileged_of_kernel {s : State} (h : s.psw.krn = true) : s.mayPrivileged := by
  simp [State.mayPrivileged, Psw.unprivileged, h]

/-- Two kernelExits in kernel mode, the first with no PSW write due: they lead to the pair that the queue held, under
the PSW that the second finds due (R184, R226). -/
theorem kernelReturn_twice {s : State} (hk : s.psw.krn = true) (h3 : s.pend3 = none) (hal1 : aligned s.pc1)
    (hal2 : aligned s.pc2) :
    (kernelReturn s 0#16).psw = s.psw ∧ (kernelReturn (kernelReturn s 0#16) 0#16).pc = s.pc2 ∧
    (kernelReturn (kernelReturn s 0#16) 0#16).npc = s.pc1 ∧
    (kernelReturn (kernelReturn s 0#16) 0#16).psw = (kernelReturn s 0#16).nextPsw := by
  obtain ⟨hnpc, hpc2, -, hpsw⟩ := kernelReturn_kernel (disp := 0#16) hk
  rw [nextPsw_of_none h3] at hpsw
  obtain ⟨hnpc', -, -, hpsw'⟩ := kernelReturn_kernel (s := kernelReturn s 0#16) (disp := 0#16) (by rw [hpsw, hk])
  exact ⟨hpsw, kernelReturn_pc.trans (hnpc.trans (jumpTarget_zero hal2)),
    hnpc'.trans (by rw [hpc2, jumpTarget_zero hal1]), hpsw'⟩

/-- Settles O48: the write starts at the WriteStatus, moves one place with each of the next two instructions, and is due
at the second kernelExit, which leaves the queue's pair at the addresses. -/
theorem returnFromKernel : Obligations.ReturnFromKernel := by
  rintro ra rb n _ w s t1 t2 hkrn h1 h2 h3 hword hal1 hal2 rfl ht1 ⟨-, -, -, hrest⟩
  rw [eff_krn] at hkrn
  obtain ⟨t, ht, -, -, hspecial, -, hqueue, hpsw, hpend2, hpend3, hpend1, -⟩ :=
    writeStatus ra rb s (mayPrivileged_of_kernel hkrn)
  obtain rfl : t = t1 := by simpa [ht] using ht1
  have due1 : t.pend3 = none := hpend3.trans h2
  have due2 : t2.pend3 = none := hrest.system.pend3.trans (hpend2.trans h1)
  have psw2 : t2.psw = s.psw := (hrest.system.psw due1).trans (hpsw h3)
  have krn2 : t2.psw.krn = true := by rw [psw2, hkrn]
  obtain ⟨tpc1, tpc2⟩ := hqueue h3
  obtain ⟨upc1, upc2⟩ := hrest.queue due1
  have pc1 : t2.pc1 = s.pc1 := upc1.trans tpc1
  have pc2 : t2.pc2 = s.pc2 := upc2.trans tpc2
  have kept3 := kernelControlKept_kernelReturn (s := t2) (disp := 0#16)
  have kept4 := kernelControlKept_kernelReturn (s := kernelReturn t2 0#16) (disp := 0#16)
  obtain ⟨psw3, hpc, hnpc, psw4⟩ := kernelReturn_twice krn2 due2 (pc1 ▸ hal1) (pc2 ▸ hal2)
  have due3 : (kernelReturn t2 0#16).pend3 = some (s.readA ra) := by
    rw [kept3.system.pend3, hrest.system.pend2, hpend1 hword]
  refine ⟨_, _, exec_kernelExit (mayPrivileged_of_kernel krn2),
    exec_kernelExit (mayPrivileged_of_kernel (by rw [psw3, krn2])), hpc.trans pc2, hnpc.trans pc1,
    regsKept_trans kept3.regs kept4.regs, ?memory, kept4.rr, ?psw, kept4.system.pend1,
    kept4.system.pend2.trans kept3.system.pend1, ?pend3⟩
  case memory =>
    exact memoryKept_trans (memoryKept_trans hspecial.memory hrest.memory)
      (memoryKept_trans memoryKept_kernelReturn memoryKept_kernelReturn)
  case psw => rw [psw4, nextPsw_of_some due3, psw3, psw2]; rfl
  case pend3 => rw [kept4.system.pend3, kept3.system.pend2, hrest.system.pend1]

/-! ## flush -/

section
variable {s : State} {ra rb : RegField} {disp : BitVec 16}

/-- The state after a flush that completes. -/
def afterFlush (s : State) (ea : Word) : State :=
  ({ s.flushFrom ea with rr := none } : State).retireDisturbed Did.nothing

theorem flushAddress_of (hw : s.hist.last.wrote ≠ some (s.rbIndex rb)) (hs : s.hist.last.store = false) :
    flushAddress s rb disp = effectiveAddress (s.readB rb) disp := by
  rw [flushAddress, baseNoInterlock_eq hw hs]

theorem exec_flush_mapped (h : s.mayPrivileged) (hm : s.eff.imp = false ∨ s.eff.dmp = false) :
    exec (.flush ra rb disp) s = .refused .flushMapped :=
  (privileged_effect _ h).trans (if_pos (by rcases hm with hm | hm <;> simp [hm]))

/-- A flush with both mappings off (R233). -/
theorem exec_flush_unmapped (h : s.mayPrivileged) (hi : s.eff.imp = true) (hd : s.eff.dmp = true) :
    exec (.flush ra rb disp) s =
      if !(flushAddress s rb disp).getLsbD 0 then .fault .flushNeverExits
      else if s.mcDown && s.flushWrites (flushAddress s rb disp) then stall s
      else .next (afterFlush s (flushAddress s rb disp)) :=
  (privileged_effect _ h).trans (if_neg (by simp [hi, hd]))

theorem exec_flush_even (h : s.mayPrivileged) (hi : s.eff.imp = true) (hd : s.eff.dmp = true)
    (he : (flushAddress s rb disp).getLsbD 0 = false) : exec (.flush ra rb disp) s = .fault .flushNeverExits := by
  rw [exec_flush_unmapped h hi hd, he]
  rfl

theorem exec_flush_odd (h : s.mayPrivileged) (hi : s.eff.imp = true) (hd : s.eff.dmp = true)
    (ho : (flushAddress s rb disp).getLsbD 0 = true) (hm : s.mcDown = false) :
    exec (.flush ra rb disp) s = .next (afterFlush s (flushAddress s rb disp)) := by
  rw [exec_flush_unmapped h hi hd, ho, hm]
  rfl

theorem goesOn_afterFlush (s : State) (ea : Word) : goesOn s (afterFlush s ea) (s.npc + 4#32) :=
  ⟨State_retireDisturbed_pc _ _, State_retireDisturbed_npc _ _⟩

theorem kernelControlKept_afterFlush (s : State) (ea : Word) : kernelControlKept s (afterFlush s ea) :=
  kernelControlKept_retireWith _ _ _ ⟨_, _, _, _, _, rfl⟩

theorem queueKept_afterFlush (s : State) (ea : Word) : queueKept s (afterFlush s ea) :=
  queueKept_retireWith _ _ _ _ rfl rfl rfl

/-- What a flush makes of memory, and what it leaves of the Boot-Prom and the installation. -/
theorem afterFlush_memory (s : State) (ea : Word) :
    (afterFlush s ea).mem = writeBack s.populated ea s.dcache s.mem ∧ (afterFlush s ea).prom = s.prom ∧
    (afterFlush s ea).populated = s.populated := by
  simp [afterFlush]

/-- A flush takes what it covers out of both caches, and nothing else (R233). -/
theorem afterFlush_caches (s : State) (ea : Word) (k : Nat) :
    mapGet (afterFlush s ea).dcache k = (if flushCovers ea k then none else mapGet s.dcache k) ∧
    mapGet (afterFlush s ea).icache k = if flushCovers ea k then none else mapGet s.icache k := by
  simp only [afterFlush, State_retireDisturbed_dcache, State_retireDisturbed_icache, State_flushFrom_dcache,
    State_flushFrom_icache, mapGet_filter _ (fun k => !flushCovers ea k)]
  cases flushCovers ea k <;> exact ⟨rfl, rfl⟩

end

/-- Settles O49: the covered lines are those of `flushCovers`, which leave the caches, and `writeBack` writes the dirty
ones among them. -/
theorem flush : Obligations.Flush := by
  rintro ra rb disp s ea hmay hw hs hea
  obtain rfl : flushAddress s rb disp = ea := (flushAddress_of hw hs).trans hea.symm
  refine ⟨exec_flush_mapped hmay, exec_flush_even hmay, fun hi hd hodd hm hsorted covered hcovered => ?odd⟩
  have hcovers (l) : covered l ↔ flushCovers (flushAddress s rb disp) l.toNat = true :=
    (hcovered l).trans (flushCovers_iff _ l).symm
  obtain ⟨hregs, hrr, htranslation, hio, hcp, hsystem, hrun⟩ := kernelControlKept_afterFlush s (flushAddress s rb disp)
  obtain ⟨hmem, hprom, hpopulated⟩ := afterFlush_memory s (flushAddress s rb disp)
  obtain ⟨hwritten, hothers⟩ := writeBack_spec s.populated (flushAddress s rb disp) s.dcache s.mem hsorted
  have hcaches (l : LineAddr) := afterFlush_caches s (flushAddress s rb disp) l.toNat
  refine ⟨_, exec_flush_odd hmay hi hd hodd hm, goesOn_afterFlush _ _, hregs, hrr, htranslation, hio, hcp, hsystem,
    queueKept_afterFlush _ _, hrun, hpopulated, fun a => by rw [hprom], fun l hl => ?gone, fun l hl => ?stays,
    fun l d hl => ?written, fun a ha => ?others⟩
  case gone => simpa [(hcovers l).1 hl] using hcaches l
  case stays => simpa [mt (hcovers l).2 hl] using hcaches l
  case written => exact hmem ▸ hwritten l d ((hcovers l).1 hl)
  case others => exact hmem ▸ hothers a fun l d hl => ha l d ((hcovers l).2 hl)

end Sys2Proof.Machine
end

section
/-!
Load, store and load address where the reference finds its line without an error (O21, O25, O26). An access brings its
line in as the data side sees it (`fillData_seen`); what it may change beside that is `cachedChanges`.
-/
namespace Sys2Proof.Machine

/-! ## The frame of an access without a memory error -/

/-- What a load or store that meets no memory error may change before it retires: registers, RR and the data cache. -/
def cachedChanges (s u : State) : Prop :=
  ∃ r m q c, u = { s with regs := r, marks := m, rr := q, dcache := c }

section
variable {s u : State}

theorem cachedChanges_result (h : cachedChanges s u) (n : RegField) (v : Word) : cachedChanges s (u.result n v) := by
  obtain ⟨_, _, _, c, rfl⟩ := h
  obtain ⟨r, m, q, hr⟩ := result_shape _ n v
  exact ⟨r, m, q, c, hr⟩

theorem cachedChanges_put (h : cachedChanges s u) (rwa v : Word) (q : Option Word) :
    cachedChanges s { u.putDataWord rwa v with rr := q } := by
  obtain ⟨r, m, _, _, rfl⟩ := h
  exact ⟨r, m, q, _, rfl⟩

theorem accessChanges_of_cached (h : cachedChanges s u) : accessChanges s u := by
  obtain ⟨r, m, q, c, rfl⟩ := h
  exact ⟨r, m, q, c, s.mc, s.ecc, rfl⟩

/-- Without a memory error the memory controller notes nothing, and no ECC input is used up. -/
theorem runKept_retire (h : cachedChanges s u) (d : Did) : (u.retire d).mc = s.mc ∧ runKept s (u.retire d) := by
  obtain ⟨r, m, q, c, rfl⟩ := h
  refine ⟨?_, ⟨?_, ?_, ?_, ?_, ?_, ?_, ?_, ?_, ?_, ?_, ?_, ?_⟩⟩ <;> simp

theorem memoryKept_retire (h : cachedChanges s u) (hd : u.dcache = s.dcache) (d : Did) :
    memoryKept s (u.retire d) := by
  obtain ⟨r, m, q, c, rfl⟩ := h
  exact memoryKept_of (by simp) (by simp) (by simp) (by simp) (by simpa using hd)

/-- Retiring changes nothing that the data side sees. -/
theorem seenWord_retire (u : State) (d : Did) (rom : Bool) (a : Word) :
    seenWord (u.retire d) rom a = seenWord u rom a :=
  seenWord_congr rom a (by simp) (by simp) (by simp) (by simp)

end

/-! ## A ready line in the data cache -/

/-- The data side sees of the state `u` what it sees of `s`, and `u` holds in its data cache the line of `rwa`: at most
that line, clean and as it was seen, has come in (R112). -/
structure lineCached (s u : State) (rwa : Word) : Prop where
  only : ∃ c, u = { s with dcache := c }
  held : u.hasDataLine (lineOf rwa) = true
  word : u.dataWord rwa = seenWord s s.eff.rom rwa
  seen : ∀ a, seenWord u s.eff.rom a = seenWord s s.eff.rom a
  others : ∀ k, k ≠ (lineOf rwa).toNat → mapGet u.dcache k = mapGet s.dcache k
  tag : u.dataTagBad (lineOf rwa) = s.dataTagBad (lineOf rwa)
  hit : s.hasDataLine (lineOf rwa) = true → u.dcache = s.dcache
  miss : s.hasDataLine (lineOf rwa) = false → mapGet u.dcache (lineOf rwa).toNat =
    some { line := seenLine s s.eff.rom (lineOf rwa), dirty := false, bad := 0#4, tagBad := false }

section
variable {s u : State} {rwa : Word}

/-- Bringing in a ready line, or finding it there, leaves memory as it is seen. -/
theorem fillData_lineCached (h : s.lineReady (lineOf rwa)) :
    ∃ u, s.fillData (lineOf rwa) = some u ∧ lineCached s u rwa := by
  obtain ⟨c, hfill, hhit, hmiss, hothers, hheld, hline, hseen⟩ := fillData_seen h
  have harrived (hl : s.hasDataLine (lineOf rwa) = false) : mapGet c (lineOf rwa).toNat =
      some { line := seenLine s s.eff.rom (lineOf rwa), dirty := false, bad := 0#4, tagBad := false } := by
    rw [hmiss hl, mapGet_mapSet_same]
  refine ⟨_, hfill, ⟨c, rfl⟩, hheld, ?word, fun a => ?seen, hothers, ?tag, hhit, harrived⟩
  case word => rw [State.dataWord, hline, seenWord]
  case seen => rw [seenWord, hseen, seenWord]
  case tag =>
    cases hl : s.hasDataLine (lineOf rwa) with
    | true => rw [hhit hl]
    | false => simp [State.dataTagBad, harrived hl, mapGet_of_hasDataLine hl]

theorem lineCached_changes (hu : lineCached s u rwa) : cachedChanges s u := by
  obtain ⟨c, rfl⟩ := hu.only
  exact ⟨s.regs, s.marks, s.rr, c, rfl⟩

/-- A result written after the line has come in is one written over the registers as they were. -/
theorem regWritten_lineCached (hu : lineCached s u rwa) (n : RegField) (v : Word) (d : Did) :
    regWritten s ((u.result n v).retire d) n v := by
  obtain ⟨c, hc⟩ := hu.only
  exact regWritten_of (u := u) (by simp) (by simp) (by rw [hc]) (by rw [hc]) (by rw [hc]; rfl)

theorem regsKept_lineCached (hu : lineCached s u rwa) (v : Word) (q : Option Word) (d : Did) :
    regsKept s (({ u.putDataWord rwa v with rr := q } : State).retire d) := by
  obtain ⟨c, rfl⟩ := hu.only
  exact regsKept_of (by simp) (by simp)

/-- A word put into the line is seen there; every other word is seen as before the line came in. -/
theorem seenWord_lineCached (hu : lineCached s u rwa) (v : Word) (q : Option Word) (d : Did) (a : Word) :
    seenWord (({ u.putDataWord rwa v with rr := q } : State).retire d) s.eff.rom a =
      if a = rwa then v else seenWord s s.eff.rom a := by
  rw [seenWord_retire, seenWord_congr (s := u.putDataWord rwa v) _ _ (by rfl) (by rfl) (by rfl) (by rfl),
    seenWord_put _ _ _ hu.held, hu.seen]

/-- The word that a store has put has good parity (R120). -/
theorem clearMark_same (m : BitVec 4) (k : BitVec 2) : (clearMark m k).getLsbD k.toNat = false := by
  have hk : k.toNat < 4 := k.isLt
  simp [clearMark, hk]

/-- The line that a word was put into: dirty, with the word's parity good, and no other line changed. -/
theorem dataLineBecomes_lineCached (hu : lineCached s u rwa) (v : Word) (q : Option Word) (d : Did) :
    dataLineBecomes s (({ u.putDataWord rwa v with rr := q } : State).retire d) (lineOf rwa)
      { line := lineSet (u.dataLine (lineOf rwa)) (wordInLine rwa) v, dirty := true,
        bad := clearMark (u.dataBad (lineOf rwa)) (wordInLine rwa), tagBad := s.dataTagBad (lineOf rwa) } :=
  dataLineBecomes_retire (accessChanges_of_cached (cachedChanges_put (lineCached_changes hu) rwa v q)) d
    (hu.tag ▸ mapGet_putDataWord u rwa v) fun k hk => (mapGet_mapSet_ne _ _ hk).trans (hu.others k hk)

/-- A load of a ready line goes on with the word that the data side sees (R112, R241). -/
theorem loadReal_ready (ra : RegField) (h : s.lineReady (lineOf rwa)) :
    ∃ u, lineCached s u rwa ∧ loadReal s ra rwa =
      .next ((u.result ra (seenWord s s.eff.rom rwa)).retire (didMemory false (s.wroteA ra))) := by
  obtain ⟨u, hfill, hu⟩ := fillData_lineCached h
  exact ⟨u, hu, hu.word ▸ loadReal_filled ra (dirtyPromMiss_of_ready h) hfill⟩

/-- A store to a ready line goes on with its word put into that line (R112, R242). -/
theorem storeReal_ready (v : Word) (h : s.lineReady (lineOf rwa)) :
    ∃ u, lineCached s u rwa ∧ storeReal s v rwa =
      .next (({ u.putDataWord rwa v with rr := none } : State).retire (didMemory true none)) := by
  obtain ⟨u, hfill, hu⟩ := fillData_lineCached h
  exact ⟨u, hu, storeReal_filled v (dirtyPromMiss_of_ready h) hfill⟩

end

/-! ## The statements -/

/-- Settles O21: load address is an ordinary result, the effective address. -/
theorem loadAddress : Obligations.LoadAddress :=
  fun ra rb disp s => finish_spec s ra (s.ea rb disp)

/-- Settles O25: the line is in the cache as the data side sees it, and the result touches no memory. -/
theorem load : Obligations.Load := by
  rintro ra rb disp s _ rwa rfl href hready
  obtain ⟨u, hu, hload⟩ := loadReal_ready ra hready
  have hc := cachedChanges_result (lineCached_changes hu) ra (seenWord s s.eff.rom rwa)
  have haccess := accessChanges_of_cached hc
  obtain ⟨hmc, hrun⟩ := runKept_retire hc (didMemory false (s.wroteA ra))
  refine ⟨_, (exec_load_real href).trans hload, regWritten_lineCached hu _ _ _, by simp, accessKept_retire haccess _,
    hmc, hrun, fun hl => ?hit, fun hl => ?miss, fun a => ?seen⟩
  case hit => exact memoryKept_retire hc (by simpa using hu.hit hl) _
  case miss => exact dataLineBecomes_retire haccess _ (by simpa using hu.miss hl) (by simpa using hu.others)
  case seen => rw [seenWord_retire, seenWord_congr (s := u) _ _ (by simp) (by simp) (by simp) (by simp), hu.seen]

/-- Settles O26: the word is put into the line that the cache then holds, and every other word is seen as before. -/
theorem store : Obligations.Store := by
  rintro ra rb disp s _ rwa rfl href hready
  obtain ⟨u, hu, hstore⟩ := storeReal_ready (s.readA ra) hready
  have hc := cachedChanges_put (lineCached_changes hu) rwa (s.readA ra) none
  obtain ⟨hmc, hrun⟩ := runKept_retire hc (didMemory true none)
  have hseen := seenWord_lineCached hu (s.readA ra) none (didMemory true none)
  exact ⟨_, (exec_store_real href).trans hstore, regsKept_lineCached hu _ _ _, by simp,
    accessKept_retire (accessChanges_of_cached hc) _, hmc, hrun,
    ⟨_, _, dataLineBecomes_lineCached hu _ _ _, clearMark_same _ _⟩,
    (hseen rwa).trans (if_pos rfl), fun a ha => (hseen a).trans (if_neg ha)⟩

end Sys2Proof.Machine
end

section
/-!
The goto and the eight conditional jumps (O22, O23). A goto writes its link and branches; a conditional jump writes
nothing, and away from the hazards of R257 and R474 it tests the register as the relation of its name says.
-/
namespace Sys2Proof.Machine

/-! ## goto -/

section
variable (s : State) (ra rb : RegField) (disp : BitVec 16)

/-- The state after a goto. -/
def afterGoto : State := (s.result ra s.pcRead).retireTo (didWrite s ra) (jumpTarget (s.readB rb) disp)

theorem exec_goto : exec (.goto ra rb disp) s = .next (afterGoto s ra rb disp) := rfl

/-- A goto links and branches, and that is all it does; the base is the one before the link (R250). -/
theorem resultOnly_afterGoto :
    resultOnly s (afterGoto s ra rb disp) ra s.pcRead (jumpTarget (s.readB rb) disp) where
  regs i := ⟨(reg_retireTo _ _ _ i).trans (reg_result s ra _ i), (mark_retireTo _ _ _ i).trans (mark_result s ra _ i)⟩
  rr := by simp [afterGoto]
  control := by simp [afterGoto, goesOn]
  rest := restKept_retireWith _ _ _ (result_shape s ra s.pcRead)

end

/-- r0 is the address of the instruction itself where no special stands two before it (R22, R474). -/
theorem pcRead_of_special2 {s : State} (h : s.hist.special2 = false) : s.pcRead = s.pc := by
  simp [State.pcRead, h]

/-- Settles O22: the target that the first goto leaves at npc is where the second, its delay slot, goes on. -/
theorem goto : Obligations.Goto := by
  intro ra rb disp s
  have hfirst := resultOnly_afterGoto s ra rb disp
  refine ⟨_, exec_goto s ra rb disp, hfirst, fun h2 => ?link, fun ra' rb' disp' => ?delaySlot⟩
  case link => rw [hfirst.rr, pcRead_of_special2 h2]
  case delaySlot =>
    obtain ⟨tpc, tnpc⟩ := hfirst.control
    obtain ⟨upc, unpc⟩ := (resultOnly_afterGoto (afterGoto s ra rb disp) ra' rb' disp').control
    exact ⟨_, exec_goto _ ra' rb' disp', tpc, upc.trans tnpc, unpc⟩

/-! ## The relations to zero (R256) -/

section
variable (x : Word)

theorem beq_zero_eq_decide_toInt : (x == 0#32) = decide (x.toInt = 0) :=
  (Bool.beq_eq_decide_eq x 0#32).trans (decide_eq_decide.2 BitVec.toInt_inj.symm)

theorem Relation.holds_eq : Relation.eq.holds x = decide (x.toInt = 0) := beq_zero_eq_decide_toInt x

theorem Relation.holds_ne : Relation.ne.holds x = decide (x.toInt ≠ 0) := by
  rw [Relation.holds, bne, beq_zero_eq_decide_toInt, ← decide_not]

theorem Relation.holds_lt : Relation.lt.holds x = decide (x.toInt < 0) := x.msb_eq_toInt

theorem Relation.holds_ge : Relation.ge.holds x = decide (x.toInt ≥ 0) := by
  rw [Relation.holds, x.msb_eq_toInt, ← decide_not, decide_eq_decide, not_lt]

theorem Relation.holds_gt : Relation.gt.holds x = decide (x.toInt > 0) := by
  rw [Relation.holds, bne, beq_zero_eq_decide_toInt, x.msb_eq_toInt, ← decide_not, ← decide_not, ← Bool.decide_and,
    decide_eq_decide]
  omega

theorem Relation.holds_le : Relation.le.holds x = decide (x.toInt ≤ 0) := by
  rw [Relation.holds, beq_zero_eq_decide_toInt, x.msb_eq_toInt, ← Bool.decide_or, decide_eq_decide]
  omega

theorem Relation.holds_odd : Relation.odd.holds x = decide (x.toNat % 2 = 1) := x.toNat.testBit_zero

theorem Relation.holds_even : Relation.even.holds x = decide (x.toNat % 2 = 0) := by
  have hodd : x.getLsbD 0 = decide (x.toNat % 2 = 1) := Relation.holds_odd x
  rw [Relation.holds, hodd, ← decide_not, decide_eq_decide]
  omega

end

/-! ## Conditional jumps -/

section
variable {s : State} {ra : RegField} {disp : BitVec 16}

/-- The special right before wrote ra, so that the value a conditional jump tests is free (R257, R472). -/
def testBypassed (s : State) (ra : RegField) : Prop :=
  s.hist.last.special = true ∧ ra ≠ 0#6 ∧ s.hist.last.wrote = some (s.raIndex ra)

theorem testedValue_of (h : ¬testBypassed s ra) : testedValue s ra = s.readA ra :=
  if_neg fun hc => h (by simpa [testBypassed, and_assoc, and_left_comm] using hc)

/-- Where a conditional jump leads with neither of the two hazards of R257 and R474 near. -/
theorem cjumpTarget_of (halign : aligned s.pc) (hbypass : ¬testBypassed s ra) (h2 : s.hist.special2 = false)
    (r : Relation) :
    cjumpTarget s r ra disp =
      if r.holds (s.readA ra) then s.pc + 4#32 * disp.signExtend 32 else s.npc + 4#32 := by
  rw [cjumpTarget, testedValue_of hbypass, pcRead_of_special2 h2, jumpTarget_eq _ _ halign]

/-- An instruction that is a conditional jump with relation `r`; `taken` is whether ra's value is so related to zero
(R255, R256). -/
theorem conditionalJump_spec {i : Instr} {r : Relation} {taken : Bool} (halign : aligned s.pc)
    (hexec : exec i s = conditionalJump s r ra disp) (htaken : r.holds (s.readA ra) = taken) :
    ∃ t, exec i s = .next t ∧ regsKept s t ∧ t.rr = none ∧ restKept s t ∧ t.pc = s.npc ∧
      (¬testBypassed s ra → s.hist.special2 = false →
        t.npc = if taken then s.pc + 4#32 * disp.signExtend 32 else s.npc + 4#32) := by
  subst htaken
  refine ⟨_, hexec, regsKept_of (by simp) (by simp), by simp, restKept_retireWith _ _ _ ⟨_, _, none, rfl⟩, by simp,
    fun hbypass h2 => ?target⟩
  case target => rw [State_retireTo_npc, cjumpTarget_of halign hbypass h2]

end

end Sys2Proof.Machine

namespace Sys2Proof

open Machine

/-- Settles O23: the eight are one conditional jump, each with the relation of its name. -/
theorem conditionalJump : Obligations.ConditionalJump := by
  intro ra disp s halign
  simp only [List.forall_mem_cons]
  exact ⟨conditionalJump_spec halign rfl (Relation.holds_eq _), conditionalJump_spec halign rfl (Relation.holds_ne _),
    conditionalJump_spec halign rfl (Relation.holds_lt _), conditionalJump_spec halign rfl (Relation.holds_ge _),
    conditionalJump_spec halign rfl (Relation.holds_gt _), conditionalJump_spec halign rfl (Relation.holds_le _),
    conditionalJump_spec halign rfl (Relation.holds_odd _), conditionalJump_spec halign rfl (Relation.holds_even _),
    List.forall_mem_nil _⟩

end Sys2Proof
end

section
/-!
Extract and the ALU (O16 to O20). All of them are ordinary results, `finish`, whose frame `finish_spec` gives once for
all; what is left is the value, from the laws of the adder, the sign corrector and the field (Laws/Alu.lean).
-/
namespace Sys2Proof.Machine

/-- An instruction that finishes with the value `v` yields it (R30). -/
theorem yields_of_finish {i : Instr} {s : State} {n : RegField} {v w : Word} (hexec : exec i s = finish s n v)
    (hvalue : v = w) : yields i s n w := by
  subst hvalue
  unfold yields
  rw [hexec]
  exact finish_spec s n v

/-! ## The adder's four uses (R267, R268) -/

section
variable (x y : Word)

theorem adderSum_noCarry : adderSum x y false = x + y := by simp [adderSum_eq]

theorem adderSum_carry : adderSum x y true = x + y + 1#32 := by simp [adderSum_eq]

theorem adderSum_not_carry : adderSum x (~~~y) true = x - y := by rw [adderSum_carry, add_not_one]

theorem adderSum_not_noCarry : adderSum x (~~~y) false = x - y - 1#32 := by rw [adderSum_noCarry, add_not]

theorem adderSum_zero_not_carry : adderSum 0#32 (~~~y) true = -y := by rw [adderSum_not_carry, BitVec.zero_sub]

theorem adderSum_zero_not_noCarry : adderSum 0#32 (~~~y) false = -y - 1#32 := by
  rw [adderSum_not_noCarry, BitVec.zero_sub]

end

/-- Settles O16: each function is the adder with one operand complemented or neither, with the carry in or without. -/
theorem aluArithmetic : Obligations.AluArithmetic := by
  rintro lit ra rb rc s a b rfl rfl
  exact ⟨yields_of_finish rfl (adderSum_noCarry _ _), yields_of_finish rfl (adderSum_carry _ _),
    yields_of_finish rfl (adderSum_not_carry _ _), yields_of_finish rfl (adderSum_not_noCarry _ _),
    yields_of_finish rfl (adderSum_not_carry _ _), yields_of_finish rfl (adderSum_not_noCarry _ _),
    yields_of_finish rfl (adderSum_zero_not_carry _), yields_of_finish rfl (adderSum_zero_not_noCarry _)⟩

/-! ## Comparisons (R271, R272) -/

/-- An instruction that finishes with a comparison's result yields a word whose sign bit is the true sign (R272). -/
theorem yields_sign_of_compare {i : Instr} {s : State} {n : RegField} {sign relation : Bool}
    (hexec : exec i s = finish s n (compareResult sign s.fresh)) (hsign : sign = relation) :
    ∃ v, yields i s n v ∧ v.msb = relation :=
  ⟨_, yields_of_finish hexec rfl, (compareResult_msb _ _).trans hsign⟩

/-- Settles O17: the true sign is a strict relation with the carry in and a weak one without; select 5 takes the
operands in reverse. -/
theorem aluCompare : Obligations.AluCompare := by
  rintro lit ra rb rc s a b rfl rfl
  exact ⟨yields_sign_of_compare rfl (trueSign_signed _ _ true), yields_sign_of_compare rfl (trueSign_unsigned _ _ true),
    yields_sign_of_compare rfl (trueSign_signed _ _ false), yields_sign_of_compare rfl (trueSign_unsigned _ _ false),
    yields_sign_of_compare rfl (trueSign_signed _ _ true), yields_sign_of_compare rfl (trueSign_unsigned _ _ true),
    yields_sign_of_compare rfl (trueSign_signed _ _ false), yields_sign_of_compare rfl (trueSign_unsigned _ _ false)⟩

/-! ## Logical functions (R269) -/

theorem getLsbD_not_word (x : Word) {i : Nat} (hi : i < 32) : (~~~x).getLsbD i = !x.getLsbD i := by
  rw [BitVec.getLsbD_not, decide_eq_true hi, Bool.true_and]

/-- The complement of the exclusive or has a 1 where the bits agree (R269). -/
theorem getLsbD_eqv (x y : Word) {i : Nat} (hi : i < 32) :
    (~~~(x ^^^ y)).getLsbD i = (x.getLsbD i == y.getLsbD i) := by
  rw [getLsbD_not_word _ hi, BitVec.getLsbD_xor, Bool.xor, bne, Bool.not_not]

/-- Settles O18: each function acts on every bit by itself; a move is its operand as it stands. -/
theorem aluLogical : Obligations.AluLogical := by
  rintro lit ra rb rc s a b rfl rfl
  exact ⟨⟨_, yields_of_finish rfl rfl, fun _ hi => getLsbD_eqv _ _ hi⟩,
    ⟨_, yields_of_finish rfl rfl, fun _ _ => BitVec.getLsbD_xor⟩,
    ⟨_, yields_of_finish rfl rfl, fun _ _ => BitVec.getLsbD_or⟩,
    ⟨_, yields_of_finish rfl rfl, fun _ _ => BitVec.getLsbD_and⟩,
    ⟨_, yields_of_finish rfl rfl, fun _ hi => getLsbD_not_word _ hi⟩,
    yields_of_finish rfl rfl, yields_of_finish rfl rfl, yields_of_finish rfl rfl⟩

/-! ## Extracts (R260, R276, R278) -/

/-- An instruction that finishes with a field of the pair `a`, `b` yields that field, bit by bit (R260). -/
theorem yields_bits_of_field {i : Instr} {s : State} {n : RegField} {a b : Word} {shift place size : Nat}
    (hexec : exec i s = finish s n (fieldOf a b shift size)) (hplace : shift = place) :
    ∃ v, yields i s n v ∧ ∀ j < 32, v.getLsbD j = (decide (j < size) && (a ++ b).getLsbD (place + j)) :=
  ⟨_, yields_of_finish hexec rfl, hplace ▸ fieldOf_getLsbD a b shift size⟩

/-- Settles O19: the field of the pair at the shift that the instruction names. -/
theorem extractField : Obligations.ExtractField :=
  fun _ _ _ _ _ _ _ _ _ => yields_bits_of_field rfl rfl

/-- The shift of a variable extract as a number (R276). -/
theorem variableShift_eq (a : Word) : variableShift a = 31 - a.toNat % 32 := by
  simp [variableShift]

/-- The shift of a byte extract as a number: byte 0 starts at bit 24 without inv, at bit 0 with it (R278). -/
theorem byteShift_eq (a : Word) (inv : Bool) :
    byteShift a inv = if inv then 8 * (a.toNat % 4) else 24 - 8 * (a.toNat % 4) := by
  have hbyte : (a.extractLsb' 0 2).toNat = a.toNat % 4 := by simp
  rw [byteShift, hbyte, Nat.mul_sub]

/-- Settles O20: both are the field of the pair, each at its own place. -/
theorem variableExtract : Obligations.VariableExtract := by
  rintro lit inv ra rb rc size s a b - - rfl rfl
  exact ⟨yields_bits_of_field rfl (variableShift_eq _), yields_bits_of_field rfl (byteShift_eq _ inv)⟩

end Sys2Proof.Machine
end

section
/-!
Abort and completion of a coprocessor instruction (O51, O52). Every one is `copInstr` with its own operation
(`exec_cop`), so what it does is settled by its trap conditions and by what `copOperate` makes of the coprocessor.
-/
namespace Sys2Proof.Machine

/-! ## Abort and completion (R290, R330) -/

section
variable {i : Instr} {o : CopOp} {r : CopResult} {ra rb rc : RegField} {s : State}

/-- Away from a multi-cycle operation an instruction meets the coprocessor as it stands (R489). -/
theorem copNow_of (h : s.hist.last.copBusy = false) : s.copNow = s.cp := by simp [State.copNow, h]

/-- The abort keeps the interrupt request (R330). -/
theorem copAbort_copReq : (s.copAbort o ra rb).copReq = s.copReq := by
  show s.copNow.intPending = s.cp.intPending
  unfold State.copNow
  split <;> rfl

/-- A trap condition is one of the three (R331 to R333). -/
theorem copTraps_iff {cp : Coprocessor} {a b : Word} : copTraps o r cp a b = true ↔
    copReserved o a = true ∨ copDivideByZero o cp.ac a b = true ∨ rangeError r cp.ac = true := by
  simp only [copTraps, Bool.or_eq_true]
  tauto

/-- A trap entered from the aborted coprocessor is one from the state before: the abort touches the coprocessor alone,
and not its interrupt request (R330, R345). -/
theorem trapped_of_copAbort {t : State} {c : TrapInfo} (h : trapped (s.copAbort o ra rb) t c) : trapped s t c :=
  ⟨h.pc, h.npc, h.pc2, h.pc1, h.rr, h.causes, h.ext, copAbort_copReq ▸ h.cop, h.literal, h.kernel,
    h.kept, h.itfr, h.dtfr, h.regs,
    ⟨h.memory.mem, h.memory.prom, h.memory.populated, h.memory.icache, h.memory.dcache⟩, h.translation, h.io,
    ⟨h.run.halted, h.run.stalled, h.run.csm, h.run.enc, h.run.lay, h.run.cycles, h.run.dirtyEvicted, h.run.busInst,
      h.run.busData, h.run.inputs, h.run.ecc, h.run.fresh⟩⟩

/-- A coprocessor instruction that aborts in user mode takes the trap, with PSW.cop set (R330). -/
theorem copInstr_traps (ht : s.copAborts o r ra rb = true) (h : s.userReady) :
    ∃ t, copInstr o r ra rb rc s = .next t ∧ trapped s t arithTrap ∧
      t.cp = copAborted o s.copNow (s.copOperands o ra rb).1 (s.copOperands o ra rb).2 ∧ t.psw.cop = true := by
  obtain ⟨huser, hflight, hspecial⟩ := h
  obtain ⟨t, hnext, htrapped⟩ := enterTrap_spec (s.copAbort o ra rb) arithTrap hflight hspecial
  obtain ⟨-, rfl⟩ := enterTrap_next hnext
  exact ⟨_, by rw [copInstr_aborts_user ht huser, hnext], trapped_of_copAbort htrapped, rfl,
    htrapped.cop.trans (Bool.or_true _)⟩

end

/-- Settles O51: the three conditions are the model's checks; the abort is `copAborted` in either mode. -/
theorem copAborts : Obligations.CopAborts := by
  rintro i o r ra rb s a reserved noDiv range hi hbusy rfl hreserved hnoDiv hrange hsome
  obtain ⟨rc, hexec⟩ := exec_of_trapClass_cop hi s
  have hnow := copNow_of hbusy
  rw [← copReserved_iff] at hreserved
  rw [← copDivideByZero_iff o s.cp.ac _ (s.copOperands o ra rb).2] at hnoDiv
  rw [← rangeError_iff] at hrange
  have haborts : s.copAborts o r ra rb = true := by
    rw [State.copAborts, hnow, copTraps_iff, ← hreserved, ← hnoDiv, ← hrange]
    exact hsome
  refine ⟨copAborted o s.cp (s.copOperands o ra rb).1 (s.copOperands o ra rb).2, ?rsvOp, ?noDiv, rfl,
    fun huser => ?traps, fun hkernel => ?goesOn⟩
  case rsvOp => rw [hreserved]; exact Bool.or_eq_true_iff
  case noDiv => rw [hnoDiv]; exact Bool.or_eq_true_iff
  case traps =>
    obtain ⟨t, hnext, htrapped, hcp, hcop⟩ := copInstr_traps (rc := rc) haborts huser
    exact ⟨t, arithTrap, hexec.trans hnext, htrapped, hnow ▸ hcp, hcop, rfl, rfl, rfl, rfl, rfl⟩
  case goesOn =>
    obtain ⟨t, hnext, hregs, hrr, hkept, hcp⟩ := copInstr_aborts_kernel (rc := rc) haborts hkernel
    exact ⟨t, hexec.trans hnext, hregs, hrr, hkept, hnow ▸ hcp⟩

/-! ## What an operation leaves of the coprocessor -/

section
variable (fpOp : Rounding) (o : CopOp) (cp : Coprocessor) (a b : Word) (krn : Bool) (fresh : Nat)

/-- No operation touches abort. -/
theorem copOperate_abort : (copOperate fpOp o cp a b krn fresh).abort = cp.abort := by
  cases o with
  | wrInt | wrTod => cases krn <;> rfl
  | _ => rfl

/-- Only wrSign writes the stored causes (R322). -/
theorem copOperate_causes (h : o ≠ .wrSign) : (copOperate fpOp o cp a b krn fresh).rsvOp = cp.rsvOp ∧
    (copOperate fpOp o cp a b krn fresh).noDiv = cp.noDiv := by
  cases o with
  | wrSign => exact absurd rfl h
  | wrInt | wrTod => cases krn <;> exact ⟨rfl, rfl⟩
  | _ => exact ⟨rfl, rfl⟩

/-- Only wrInt and wrTod touch clock and timer (R324, R326). -/
theorem copOperate_timer (hi : o ≠ .wrInt) (ht : o ≠ .wrTod) :
    (copOperate fpOp o cp a b krn fresh).tod = cp.tod ∧ (copOperate fpOp o cp a b krn fresh).itime = cp.itime ∧
    (copOperate fpOp o cp a b krn fresh).timer = cp.timer ∧
    (copOperate fpOp o cp a b krn fresh).intPending = cp.intPending := by
  cases o with
  | wrInt => exact absurd rfl hi
  | wrTod => exact absurd rfl ht
  | _ => exact ⟨rfl, rfl, rfl, rfl⟩

end

/-- An operation that does not abort clears abort, whatever came before it (R290). -/
theorem copAfter_abort (s : State) (o : CopOp) (ra rb : RegField) : (s.copAfter o ra rb).abort = false := by
  unfold State.copAfter
  split <;> exact copOperate_abort ..

/-- A floating operand whose value is not 0 has a mantissa that is not 0 (R297). -/
theorem floatOperand_mant_ne_zero {m : FloatFormat} {a b : Word}
    (h : (if m.inputG then gRat (a ++ b) else fRat a) ≠ 0) :
    (floatOperand m a b).mant ≠ 0 := by
  intro hzero
  rw [← floatOperand_rational] at h
  exact h (by simp [exactRational, hzero])

/-- No divide by zero where the divisor, operand or accumulator, is not 0 (R331). -/
theorem copDivideByZero_eq_false {o : CopOp} {ac : Accumulator} {a b : Word}
    (hdiv : ∀ m, o = .float .divide m → (if m.inputG then gRat (a ++ b) else fRat a) ≠ 0)
    (hrdiv : ∀ m, o = .float .rdivide m → ac.frac ≠ 0#64) : copDivideByZero o ac a b = false := by
  rw [Bool.eq_false_iff, Ne, copDivideByZero_iff]
  rintro (⟨m, ho, -, hzero⟩ | ⟨m, ho, hzero⟩)
  · exact floatOperand_mant_ne_zero (hdiv m ho) ((floatOperand_zero m a b).2 hzero)
  · exact hrdiv m ho hzero

/-- Settles O52: the completion where no condition holds; in either mode, the abort or the completion. -/
theorem copCompletes : Obligations.CopCompletes := by
  intro i o r ra rb rc s a b hi hd hab
  have hexec := exec_cop hi hd s
  refine ⟨fun hlay => ?standard, fun hready hreserved hdivide hrdivide => ?completes, fun hkernel => ?kernel,
    fun huser => ?user⟩
  case standard => rwa [copOperands_standard hlay, Prod.mk.injEq] at hab
  case completes =>
    have hres : copReserved o a = false := by
      rw [Bool.eq_false_iff, Ne, copReserved_iff]
      rintro ⟨m, ho, hm⟩
      exact hreserved m ho hm
    have htraps := copTraps_none hready hres (copDivideByZero_eq_false hdivide hrdivide)
    exact ⟨_, copYields_of hi hd hready.1 hab htraps, copOperate_abort .., copOperate_causes _ _ _ _ _ _ _,
      copOperate_timer _ _ _ _ _ _ _⟩
  case kernel =>
    rw [hexec]
    cases haborts : s.copAborts o r ra rb with
    | true =>
      obtain ⟨t, hnext, -, -, hkept, -⟩ := copInstr_aborts_kernel (rc := rc) haborts hkernel
      exact ⟨t, hnext, hkept⟩
    | false =>
      obtain ⟨t, hnext, -, -, hkept, -⟩ := copInstr_goesOn (rc := rc) haborts
      exact ⟨t, hnext, hkept⟩
  case user =>
    rw [hexec]
    cases haborts : s.copAborts o r ra rb with
    | true =>
      obtain ⟨t, hnext, htrapped, hcp, hcop⟩ := copInstr_traps (rc := rc) haborts huser
      exact .inr ⟨t, arithTrap, hnext, htrapped, hcp ▸ rfl, hcop, rfl, rfl, rfl, rfl, rfl⟩
    | false =>
      obtain ⟨t, hnext, hregs, hrr, hkept, hcp⟩ := copInstr_goesOn (rc := rc) haborts
      exact .inl ⟨t, _, hnext, hregs, hrr, hkept, hcp ▸ copAfter_abort s o ra rb⟩

end Sys2Proof.Machine
end

section
/-!
What a coprocessor instruction delivers (O53): the layouts give back the default images, whose fields are read one by
one; a normal accumulator in range and its F or G word have one value.
-/
namespace Sys2Proof.Machine

/-! ## Results (R292 to R294) -/

/-! ### Fields of an image -/

section
variable {n k : Nat} {x : Bool} {v : BitVec n}

theorem ofBool_append_top (h : k = n) : (BitVec.ofBool x ++ v).getLsbD k = x := by
  rw [BitVec.getLsbD_append, if_neg (by omega), h, Nat.sub_self, BitVec.getLsbD_ofBool]
  rfl

theorem ofBool_append_below (h : k < n) : (BitVec.ofBool x ++ v).getLsbD k = v.getLsbD k := by
  rw [BitVec.getLsbD_append, if_pos h]

end

/-- The three fields of a floating word: sign, exponent, fraction (R297). -/
theorem signed_fields {n m : Nat} (sign : Bool) (e : BitVec n) (f : BitVec m) :
    (BitVec.ofBool sign ++ (e ++ f)).getLsbD (n + m) = sign ∧ (BitVec.ofBool sign ++ (e ++ f)).extractLsb' m n = e ∧
    (BitVec.ofBool sign ++ (e ++ f)).extractLsb' 0 m = f := by
  refine ⟨ofBool_append_top rfl, BitVec.eq_of_getLsbD_eq fun k hk => ?_, BitVec.eq_of_getLsbD_eq fun k hk => ?_⟩
  · rw [BitVec.getLsbD_extractLsb', ofBool_append_below (by omega), BitVec.getLsbD_append,
      if_neg (by omega), Nat.add_sub_cancel_left, decide_eq_true hk, Bool.true_and]
  · rw [BitVec.getLsbD_extractLsb', ofBool_append_below (by omega), BitVec.getLsbD_append,
      if_pos (by omega), Nat.zero_add, decide_eq_true hk, Bool.true_and]

/-- An exponent within its format is stored with its bias as it is (R294). -/
theorem biasedExponent_toNat {k bias : Nat} (e : BitVec 16) (hk : k ≤ 16) (hlow : 0 ≤ e.toInt + bias)
    (hhigh : e.toInt + bias < 2 ^ k) : (((e + BitVec.ofNat 16 bias).extractLsb' 0 k).toNat : ℤ) = e.toInt + bias := by
  obtain ⟨v, hv⟩ := Int.eq_ofNat_of_zero_le hlow
  have hsum : e + BitVec.ofNat 16 bias = BitVec.ofNat 16 v := by
    rw [← BitVec.ofInt_natCast, ← BitVec.ofInt_natCast, ← hv, BitVec.ofInt_add, BitVec.ofInt_toInt]
  have hvk : v < 2 ^ k := by rw [hv] at hhigh; exact_mod_cast hhigh
  have hv16 : v < 2 ^ 16 := hvk.trans_le (Nat.pow_le_pow_right (by norm_num) hk)
  rw [hsum, BitVec.extractLsb'_toNat, BitVec.toNat_ofNat, Nat.mod_eq_of_lt hv16, Nat.shiftRight_zero,
    Nat.mod_eq_of_lt hvk, hv]

/-- A normal fraction is its stored bits with the hidden bit before them (R297, R298). -/
theorem hiddenFraction {p : Nat} (frac : Dword) (hp : 1 ≤ p) (hp' : p ≤ 62) (hlow : 2 ^ 62 ≤ frac.toNat)
    (hhigh : frac.toNat < 2 ^ 63) (hdvd : 2 ^ (63 - p) ∣ frac.toNat) :
    (2 ^ (p - 1) + (frac.extractLsb' (63 - p) (p - 1)).toNat) * 2 ^ (63 - p) = frac.toNat := by
  obtain ⟨m, hm⟩ := hdvd
  have hpos : 0 < 2 ^ (63 - p) := by positivity
  have hlow' : 2 ^ (p - 1) ≤ m := by
    refine Nat.le_of_mul_le_mul_left ?_ hpos
    rw [← hm, ← pow_add, show 63 - p + (p - 1) = 62 by omega]
    exact hlow
  have hhigh' : m < 2 * 2 ^ (p - 1) := by
    refine Nat.lt_of_mul_lt_mul_left (a := 2 ^ (63 - p)) ?_
    rw [← hm, ← pow_succ', ← pow_add, show 63 - p + (p - 1 + 1) = 63 by omega]
    exact hhigh
  have hstored : (frac.extractLsb' (63 - p) (p - 1)).toNat = m - 2 ^ (p - 1) := by
    rw [BitVec.extractLsb'_toNat, Nat.shiftRight_eq_div_pow, hm, Nat.mul_div_cancel_left _ hpos,
      Nat.mod_eq_sub_mod hlow', Nat.mod_eq_of_lt (by omega)]
  rw [hstored, Nat.add_sub_cancel' hlow', hm, Nat.mul_comm]

/-- The accumulator's value by the stored bits of its fraction (R297, R298). -/
theorem accumulatorRat_of_normal {p : Nat} {ac : Accumulator} (hp : 1 ≤ p) (hp' : p ≤ 62) (h : floatNormal p ac)
    (hne : ac.frac ≠ 0#64) : accumulatorRat ac = (if ac.sign then -1 else 1) *
      ((2 ^ (p - 1) + (ac.frac.extractLsb' (63 - p) (p - 1)).toNat : Nat) : ℚ) * (2 : ℚ) ^ (ac.exp.toInt - p) := by
  rcases h with rfl | ⟨hlow, hhigh, hdvd⟩
  · exact absurd rfl hne
  · have hscale : (2 : ℚ) ^ (ac.exp.toInt - p) = ((2 ^ (63 - p) : Nat) : ℚ) * (2 : ℚ) ^ (ac.exp.toInt - 63) := by
      rw [← two_zpow_natCast, ← two_zpow_add]; congr 1; omega
    rw [accumulatorRat, hscale, ← hiddenFraction ac.frac hp hp' hlow hhigh hdvd, Nat.cast_mul]
    ring

/-- The exponent field of a number in the range of its format holds the biased exponent, and is not 0 (R293, R294). -/
theorem storedExponent_of_inRange {k bias : Nat} {top : ℤ} {ac : Accumulator} (hk : k ≤ 16) (htop : top + 1 = 2 ^ k)
    (hne : ac.frac ≠ 0#64) (h : outOfRange ac bias top = false) :
    (((ac.exp + BitVec.ofNat 16 bias).extractLsb' 0 k).toNat : ℤ) = ac.exp.toInt + bias ∧
    (ac.exp + BitVec.ofNat 16 bias).extractLsb' 0 k ≠ 0#k := by
  have hrange : 1 ≤ ac.exp.toInt + bias ∧ ac.exp.toInt + bias ≤ top := by simpa [outOfRange, hne] using h
  have hexp := biasedExponent_toNat ac.exp hk (bias := bias) (by omega) (by omega)
  refine ⟨hexp, fun h0 => ?_⟩
  rw [h0, BitVec.toNat_ofNat, Nat.zero_mod] at hexp
  omega

/-- What packF delivers of a normal accumulator in range has its value (R294). -/
theorem fRat_packF {ac : Accumulator} (hnormal : floatNormal 24 ac) (hne : ac.frac ≠ 0#64)
    (hrange : fRange ac = false) : fRat (packF ac) = accumulatorRat ac := by
  obtain ⟨hexp, hexp0⟩ := storedExponent_of_inRange (k := 8) (bias := 128) (by norm_num) (by norm_num) hne hrange
  obtain ⟨hsign, hfield, hfrac⟩ :=
    signed_fields ac.sign ((ac.exp + 128#16).extractLsb' 0 8) (ac.frac.extractLsb' 39 23)
  rw [packF, if_neg hne, accumulatorRat_of_normal (by norm_num) (by norm_num) hnormal hne, fRat, hsign, hfield, hfrac,
    if_neg hexp0, hexp]
  norm_num

/-- The same of packG. -/
theorem gRat_packG {ac : Accumulator} (hnormal : floatNormal 53 ac) (hne : ac.frac ≠ 0#64)
    (hrange : gRange ac = false) : gRat (packG ac) = accumulatorRat ac := by
  obtain ⟨hexp, hexp0⟩ := storedExponent_of_inRange (k := 11) (bias := 1024) (by norm_num) (by norm_num) hne hrange
  obtain ⟨hsign, hfield, hfrac⟩ :=
    signed_fields ac.sign ((ac.exp + 1024#16).extractLsb' 0 11) (ac.frac.extractLsb' 10 52)
  rw [packG, if_neg hne, accumulatorRat_of_normal (by norm_num) (by norm_num) hnormal hne, gRat, hsign, hfield, hfrac,
    if_neg hexp0, hexp]
  norm_num

/-- The bits of the status word (R293, D14). -/
theorem copStatus_bits (cp : Coprocessor) :
    (copStatus cp).getLsbD 30 = (cp.ac.frac != 0#64) ∧ (copStatus cp).getLsbD 29 = cp.abort ∧
    (copStatus cp).getLsbD 28 = gRange cp.ac ∧ (copStatus cp).getLsbD 27 = fRange cp.ac ∧
    (copStatus cp).getLsbD 26 = cp.rsvOp ∧ (copStatus cp).getLsbD 25 = cp.noDiv ∧
    (copStatus cp).getLsbD 24 = cp.intPending ∧ ∀ k < 24, (copStatus cp).getLsbD k = false := by
  refine ⟨?_, ?_, ?_, ?_, ?_, ?_, ?_, fun k hk => ?_⟩ <;>
    simp (disch := omega) only [copStatus, ofBool_append_below, ofBool_append_top, BitVec.getLsbD_zero]

/-- What is delivered of the status word below its sign, read at the layout's places (R293). -/
theorem copResult_status {l : Layout} (h : l.copStatus.valid = true) (cp : Coprocessor) :
    l.copStatus.get ((copResult l .sign cp).extractLsb' 0 31) = (copStatus cp).extractLsb' 0 31 := by
  rw [(copResult_sign l cp).2, Places_get_put h]

/-- The F result, read at the layout's places (R294). -/
theorem copResult_sp {l : Layout} (h : l.fWord.valid = true) (cp : Coprocessor) :
    l.fWord.get (copResult l .sp cp) = packF cp.ac := Places_get_put h _

/-- The two halves of the G result, read at the layout's places (R294). -/
theorem copResult_dp {l : Layout} (h : l.gPair.valid = true) (cp : Coprocessor) :
    l.gPair.get (copResult l .dph cp ++ copResult l .dpl cp) = packG cp.ac :=
  (congrArg l.gPair.get (append_parts (m := 32) (n := 32) _)).trans (Places_get_put h _)

/-- The range bits of the status word (R293). -/
theorem outOfRange_eq (ac : Accumulator) (bias top : ℤ) : outOfRange ac bias top =
    decide (ac.frac ≠ 0#64 ∧ (ac.exp.toInt + bias < 1 ∨ ac.exp.toInt + bias > top)) := by
  rw [Bool.eq_iff_iff]
  simp [outOfRange]

/-- Settles O53: the layouts give back what they stored; then the status bits, the fields and the floating values. -/
theorem copResultFormats : Obligations.CopResultFormats := by
  rintro l cp ac st f g hvalid rfl rfl rfl rfl
  simp only [Layout.valid, Bool.and_eq_true] at hvalid
  obtain ⟨⟨⟨⟨⟨⟨-, hstatus⟩, hf⟩, hg⟩, -⟩, -⟩, -⟩ := hvalid
  obtain ⟨hnz, habort, hgRange, hfRange, hrsvOp, hnoDiv, hint, hzero⟩ := copStatus_bits cp
  have hbit : ∀ k < 31, ((copStatus cp).extractLsb' 0 31).getLsbD k = (copStatus cp).getLsbD k := by
    intro k hk
    rw [BitVec.getLsbD_extractLsb', decide_eq_true hk, Bool.true_and, Nat.zero_add]
  rw [copResult_status hstatus, copResult_sp hf, copResult_dp hg, ← outOfRange_eq cp.ac 1024 2047,
    ← outOfRange_eq cp.ac 128 255]
  simp (disch := norm_num) only [hbit]
  refine ⟨(copResult_sign l cp).1, hnz.trans (by rw [bne, beq_eq_decide, decide_not]), habort, hgRange, hfRange, hrsvOp,
    hnoDiv, hint, ?low, BitVec.toInt_signExtend_of_le (by norm_num), append_parts (m := 32) (n := 32) _, rfl,
    fun h0 => ⟨if_pos h0, if_pos h0⟩, fRat_packF, gRat_packG⟩
  case low =>
    refine BitVec.eq_of_getLsbD_eq fun k hk => ?_
    simp (disch := omega) only [BitVec.getLsbD_extractLsb', hk, Nat.zero_add, decide_true,
      hzero, Bool.and_false, BitVec.getLsbD_zero]

end Sys2Proof.Machine
end

section
/-!
The coprocessor's integer operations, fix, the registers that it loads and its timers (O54, O57): operations that
nothing but the result's range can stop, each with its own `copOperate`.
-/
namespace Sys2Proof.Machine

/-! ## Operations that nothing but the result's range can stop (R301 to R304, R313 to R326) -/

section
variable {i : Instr} {o : CopOp} {r : CopResult} {ra rb rc : RegField} {s : State} {a b : Word} {cp : Coprocessor}

/-- An operation that checks neither its operand nor its divisor yields what it makes of the coprocessor (R290). -/
theorem copYields_unchecked (hready : copReady s r) (hi : trapClass i = .cop o r ra rb) (hd : destination i = some rc)
    (hab : (a, b) = s.copOperands o ra rb) (hreserved : copReserved o a = false)
    (hnoDiv : copDivideByZero o s.cp.ac a b = false)
    (hcp : copOperate s.lay.fpOp o { s.cp with abort := false } a b s.eff.krn s.fresh = cp) :
    copYields i s rc r cp :=
  hcp ▸ copYields_of hi hd hready.1 hab (copTraps_none hready hreserved hnoDiv)

end

/-- The signed product of two words, in 64 bits (R303). -/
theorem signExtend_mul_signExtend (x y : Word) :
    x.signExtend 64 * y.signExtend 64 = BitVec.ofInt 64 (x.toInt * y.toInt) := by
  rw [BitVec.ofInt_mul, BitVec.signExtend, BitVec.signExtend]

/-- Settles O54: each operation is its own `intArith`; divide by `divideStep_spec`. -/
theorem copInteger : Obligations.CopInteger := by
  rintro r ra rb rc s a b ac hready rfl rfl rfl
  refine ⟨?_, fun i n d low hcases => ⟨divideStep n d low, ?_, divideStep_spec n d low⟩⟩
  · simp only [List.forall_mem_cons]
    refine ⟨?load, ?add, ?subtract, ?rsubtract, ?multiply, List.forall_mem_nil _⟩
    case load =>
      refine copYields_unchecked hready rfl rfl rfl rfl rfl ?_
      rw [BitVec.msb_eq_getLsbD_last]
      rfl
    case multiply =>
      refine copYields_unchecked hready rfl rfl rfl rfl rfl ?_
      rw [← signExtend_mul_signExtend]
      rfl
    all_goals exact copYields_unchecked hready rfl rfl rfl rfl rfl rfl
  · rcases hcases with ⟨rfl, rfl, rfl, rfl⟩ | ⟨rfl, rfl, rfl, rfl⟩ <;>
      exact copYields_unchecked hready rfl rfl rfl rfl rfl rfl

/-- The fraction after fix (R313): the fraction shifted to an integer, with the sign of the accumulator. -/
theorem fixFraction_eq {ac : Accumulator} (h : ac.exp.toInt ≤ 63) : fixFraction ac =
    BitVec.ofInt 64 ((if ac.sign then -1 else 1) * (ac.frac.toNat / 2 ^ (63 - ac.exp.toInt).toNat : Nat)) := by
  have hshift : ac.frac >>> (63 - ac.exp.toInt).toNat =
      BitVec.ofInt 64 (ac.frac.toNat / 2 ^ (63 - ac.exp.toInt).toNat : Nat) := by
    rw [BitVec.ofInt_natCast, ← Nat.shiftRight_eq_div_pow, ← BitVec.toNat_ushiftRight, BitVec.ofNat_toNat,
      BitVec.setWidth_eq]
  rw [fixFraction, if_neg (by omega), hshift]
  cases ac.sign with
  | true => rw [if_pos rfl, if_pos rfl, neg_one_mul, BitVec.ofInt_neg]
  | false => rw [if_neg nofun, if_neg nofun, one_mul]

/-- A bit of the status word that wrSign takes stands at the layout's place (R293, R322). -/
theorem wrSign_bit (l : Layout) (a b : Word) {n : Nat} (hn : n < 31) :
    (l.copStatus.get (a.extractLsb' 0 31)).getLsbD n = (canonicalOperands l .wrSign a b).1.getLsbD n := by
  rw [← (wrSign_operand l a b).2, BitVec.getLsbD_extractLsb', decide_eq_true hn, Bool.true_and, Nat.zero_add]

/-- Settles O57: each operation's own effect; wrInt and wrTod act in kernel mode alone. -/
theorem copFixAndTimers : Obligations.CopFixAndTimers := by
  rintro r ra rb rc s a b st hready rfl rfl rfl
  refine ⟨copYields_unchecked hready rfl rfl rfl rfl rfl rfl, copYields_unchecked hready rfl rfl rfl rfl rfl rfl,
    copYields_unchecked hready rfl rfl rfl rfl rfl rfl, ⟨_, copYields_unchecked hready rfl rfl rfl rfl rfl rfl,
    fixFraction_eq⟩, ?wrSign, copYields_unchecked hready rfl rfl rfl rfl rfl rfl, fun huser => ?ignored,
    fun hkernel => ⟨?wrInt, ?wrTod⟩⟩
  case wrSign =>
    refine copYields_unchecked hready rfl rfl rfl rfl rfl ?_
    rw [wrSign_bit _ _ (s.readB rb) (by norm_num), wrSign_bit _ _ (s.readB rb) (by norm_num),
      ← (wrSign_operand s.lay (s.readA ra) (s.readB rb)).1]
    rfl
  case ignored =>
    simp only [List.forall_mem_cons]
    exact ⟨copYields_unchecked hready rfl rfl rfl rfl rfl (by rw [huser]; rfl),
      copYields_unchecked hready rfl rfl rfl rfl rfl (by rw [huser]; rfl), List.forall_mem_nil _⟩
  case wrInt =>
    exact ⟨loadInterval { s.cp with abort := false } (pair (s.readA ra) (s.readB rb)),
      copYields_unchecked hready rfl rfl rfl rfl rfl (by rw [hkernel]; rfl), rfl, rfl, rfl, rfl,
      fun hlow hhigh => if_pos ⟨hlow, hhigh⟩⟩
  case wrTod =>
    exact ⟨loadClock { s.cp with abort := false } (pair (s.readA ra) (s.readB rb)) s.fresh,
      copYields_unchecked hready rfl rfl rfl rfl rfl (by rw [hkernel]; rfl), rfl, rfl, rfl⟩

end Sys2Proof.Machine
end

section
/-!
Floating point (O55, O56). Every floating operation ends in `floatResult`, so one predicate, `roundedTo`, says what all
of them leave in the accumulator; Laws/Float.lean has the rounding itself.
-/
namespace Sys2Proof.Machine

/-! ## Floating results (R299, R310, R311, R314) -/

/-- The numbers that log 62 does not leave out: the exponent of a result fits its register. -/
def exponentFits (y : ℚ) : Prop := y ≠ 0 → (2 : ℚ) ^ (-32000 : ℤ) < |y| ∧ |y| < (2 : ℚ) ^ (32000 : ℤ)

/-- The accumulator holds `y` rounded to `p` bits under a function `FP_OP` (R310 to R312): in normal form, all zero
for 0, less than one unit of the last place away, under D29's default at most half a unit and then away from zero, and `y`
itself where `p` bits represent it. -/
structure roundedTo (fpOp : Rounding) (p : Nat) (y : ℚ) (ac : Accumulator) : Prop where
  normal : floatNormal p ac
  zero : y = 0 → ac = Accumulator.zero
  near : exponentFits y → y ≠ 0 → |accumulatorRat ac - y| < (2 : ℚ) ^ (ac.exp.toInt - p)
  nearest : exponentFits y → y ≠ 0 → fpOp = .nearestAway →
    2 * |accumulatorRat ac - y| ≤ (2 : ℚ) ^ (ac.exp.toInt - p) ∧
    (2 * |accumulatorRat ac - y| = (2 : ℚ) ^ (ac.exp.toInt - p) → |y| < |accumulatorRat ac|)
  exact : exponentFits y → representable p y → accumulatorRat ac = y

theorem accumulatorRat_zero : accumulatorRat Accumulator.zero = 0 := by simp [accumulatorRat, Accumulator.zero]

/-- Zero is all zeros in every precision (R298). -/
theorem roundedTo_zero (fpOp : Rounding) (p : Nat) : roundedTo fpOp p 0 Accumulator.zero :=
  ⟨.inl rfl, fun _ => rfl, fun _ h => absurd rfl h, fun _ h => absurd rfl h, fun _ _ => accumulatorRat_zero⟩

/-- The sign does not matter to what a number of bits represents. -/
theorem representable_of_signed {p : Nat} {z : ℚ} (sign : Bool) (h : representable p (signFactor sign * z)) :
    representable p z := by
  obtain ⟨m, e, hm, hz⟩ := h
  cases sign with
  | false => exact ⟨m, e, hm, by simpa [signFactor] using hz⟩
  | true =>
    refine ⟨-m, e, by rwa [abs_neg], ?_⟩
    have : z = -(m * (2 : ℚ) ^ e) := by rw [← hz]; simp [signFactor]
    rw [this]; push_cast; ring

section
variable {k : FloatKey} {p : Nat} {v x y : Exact} {z : ℚ}

/-- A floating result of exact magnitude `z`, of which `v` has cut less than one unit if at all (R310). -/
theorem floatResult_rounded {cut : Bool} (hp : 2 ≤ p) (hp' : p ≤ 63) (hm : 0 < v.mant)
    (hexact : cut = false → z = (v.mant : ℚ) * (2 : ℚ) ^ v.exp)
    (hcut : cut = true →
      p < Nat.log2 v.mant + 1 ∧ (v.mant : ℚ) * (2 : ℚ) ^ v.exp < z ∧ z < ((v.mant : ℚ) + 1) * (2 : ℚ) ^ v.exp) :
    roundedTo k.fpOp p (signFactor v.sign * z) (floatResult k p v cut) := by
  obtain ⟨hnormal, hvalue⟩ := floatResult_spec (k := k) hp hp' hm hexact hcut
  have hpos : 0 < z := by
    have : (0 : ℚ) < v.mant * (2 : ℚ) ^ v.exp := mul_pos (by exact_mod_cast hm) (two_zpow_pos _)
    cases cut with
    | false => rwa [hexact rfl]
    | true => exact this.trans (hcut rfl).2.1
  have habs : |signFactor v.sign * z| = z := by rw [abs_mul, signFactor_abs, one_mul, abs_of_pos hpos]
  have hne : signFactor v.sign * z ≠ 0 := abs_pos.1 (hpos.trans_eq habs.symm)
  have hfits : exponentFits (signFactor v.sign * z) → (2 : ℚ) ^ (-32000 : ℤ) < z ∧ z < (2 : ℚ) ^ (32000 : ℤ) :=
    fun h => habs ▸ h hne
  refine ⟨hnormal, fun h0 => absurd h0 hne, fun hf _ => ?_, fun hf _ hop => ?_, fun hf hr => ?_⟩ <;>
    obtain ⟨hnear, hrep, hnearest⟩ := hvalue (hfits hf).1 (hfits hf).2
  · exact hnear
  · rw [habs]; exact hnearest hop
  · exact hrep (representable_of_signed _ hr)

/-- A floating result of an exact number (R310). -/
theorem floatResult_exact (hp : 2 ≤ p) (hp' : p ≤ 63) :
    roundedTo k.fpOp p (exactRational v) (floatResult k p v false) := by
  rcases Nat.eq_zero_or_pos v.mant with h0 | hm
  · rw [floatResult, if_pos h0, exactRational, h0, Nat.cast_zero, mul_zero, zero_mul]
    exact roundedTo_zero ..
  · have := floatResult_rounded (k := k) (cut := false) hp hp' hm (fun _ => rfl) nofun
    rwa [← mul_assoc] at this

/-- The quotient of two numbers by their signs, mantissas and exponents. -/
theorem exactRational_div : exactRational x / exactRational y =
    signFactor (x.sign ^^ y.sign) * ((x.mant : ℚ) / y.mant * (2 : ℚ) ^ (x.exp - y.exp)) := by
  have hsign : ∀ s t : Bool, signFactor (s ^^ t) = signFactor s * signFactor t ∧ (signFactor t)⁻¹ = signFactor t := by
    intro s t
    cases s <;> cases t <;> norm_num [signFactor]
  show signFactor x.sign * _ * _ / (signFactor y.sign * _ * _) = _
  rw [(hsign x.sign y.sign).1, zpow_sub₀ (by norm_num), div_eq_mul_inv, mul_inv, mul_inv, (hsign true y.sign).2]
  ring

/-- A floating result of a quotient (R310): at least 65 bits of it are left where it is cut. -/
theorem floatResult_quotient (hp : 2 ≤ p) (hp' : p ≤ 63) (hy : y.mant ≠ 0) (hy64 : y.mant < 2 ^ 64) :
    roundedTo k.fpOp p (exactRational x / exactRational y) (floatResult k p (quotient x y) (quotientCut x y)) := by
  have hypos := Nat.pos_of_ne_zero hy
  rcases Nat.eq_zero_or_pos x.mant with h0 | hx
  · have hq : (quotient x y).mant = 0 := by simp [quotient, h0]
    rw [floatResult, if_pos hq, exactRational, h0, Nat.cast_zero, mul_zero, zero_mul, zero_div]
    exact roundedTo_zero ..
  · obtain ⟨hexact, hcut⟩ := quotient_spec (x := x) hypos
    have hlong : 2 ^ 64 ≤ (quotient x y).mant := by
      rw [quotient, Nat.le_div_iff_mul_le hypos]
      calc 2 ^ 64 * y.mant ≤ 2 ^ 64 * 2 ^ 64 := Nat.mul_le_mul_left _ hy64.le
        _ ≤ x.mant * 2 ^ 128 := by rw [← pow_add]; exact Nat.le_mul_of_pos_left _ hx
    have hlen : 64 ≤ Nat.log2 (quotient x y).mant := (Nat.le_log2 (by omega)).2 hlong
    rw [exactRational_div]
    exact floatResult_rounded hp hp' (by omega) hexact fun hc => ⟨by omega, hcut hc⟩

/-- Floating arithmetic rounds the exact result of its function (R310). -/
theorem floatArith_rounded (fn : ArithFn) (m : FloatFormat) (hv : v.mant < 2 ^ 64) (hx : x.mant < 2 ^ 64)
    (hdivide : fn = .divide → x.mant ≠ 0) (hrdivide : fn = .rdivide → v.mant ≠ 0) :
    roundedTo k.fpOp m.precision (exactRat fn (exactRational v) (exactRational x)) (floatArith k fn m v x) := by
  have hp : 2 ≤ m.precision ∧ m.precision ≤ 63 := by cases m <;> decide
  cases fn with
  | add => rw [exactRat, ← exactAdd_rational]; exact floatResult_exact hp.1 hp.2
  | subtract =>
    rw [exactRat, sub_eq_add_neg, ← exactNeg_rational, ← exactAdd_rational]; exact floatResult_exact hp.1 hp.2
  | rsubtract =>
    rw [exactRat, sub_eq_add_neg, ← exactNeg_rational, ← exactAdd_rational]; exact floatResult_exact hp.1 hp.2
  | multiply => rw [exactRat, ← exactMul_rational]; exact floatResult_exact hp.1 hp.2
  | divide => exact floatResult_quotient hp.1 hp.2 (hdivide rfl) hx
  | rdivide => exact floatResult_quotient hp.1 hp.2 (hrdivide rfl) hv

end

/-- A fixed-point number's value: the pair as a signed number, its binary point between the words (R314). -/
theorem fixedPoint_rational (x : Dword) : exactRational (fixedPoint x) = (x.toInt : ℚ) / 2 ^ 32 := by
  have hscale : (2 : ℚ) ^ (-32 : ℤ) = 1 / 2 ^ 32 := by norm_num
  unfold exactRational fixedPoint
  rw [hscale, BitVec.msb_eq_toInt, Nat.cast_natAbs]
  by_cases h : x.toInt < 0
  · simp [h, abs_of_neg]; ring
  · simp [h, abs_of_nonneg (not_lt.1 h)]; ring

/-- The number of bits of an operand's mantissa: 24 for F, 53 for G (R297). -/
theorem floatOperand_mant_lt (m : FloatFormat) (a b : Word) :
    (floatOperand m a b).mant < 2 ^ (if m.inputG then 53 else 24) := by
  have hF := (a.extractLsb' 0 23).isLt
  have hG := ((pair a b).extractLsb' 0 52).isLt
  unfold floatOperand operandF operandG
  cases m.inputG with
  | true => simp only [if_true]; split <;> simp only <;> omega
  | false => simp only [Bool.false_eq_true, if_false]; split <;> simp only <;> omega

theorem floatOperand_mant_lt_64 (m : FloatFormat) (a b : Word) : (floatOperand m a b).mant < 2 ^ 64 :=
  (floatOperand_mant_lt m a b).trans_le (Nat.pow_le_pow_right (by norm_num) (by split <;> norm_num))

/-- An operand's exponent has at most 11 bits and a bias (R297). -/
theorem floatOperand_exp_abs (m : FloatFormat) (a b : Word) :
    -2000 ≤ (floatOperand m a b).exp ∧ (floatOperand m a b).exp ≤ 2000 := by
  have hF := (a.extractLsb' 23 8).isLt
  have hG := ((pair a b).extractLsb' 52 11).isLt
  unfold floatOperand operandF operandG
  split <;> split <;> simp only <;> omega

section
variable {x : Exact}

theorem abs_exactRational : |exactRational x| = (x.mant : ℚ) * (2 : ℚ) ^ x.exp := by
  show |signFactor x.sign * _ * _| = _
  rw [abs_mul, abs_mul, signFactor_abs, one_mul, abs_of_pos (two_zpow_pos _), Nat.abs_cast]

/-- A mantissa and an exponent of moderate size are far within the range of exponents. -/
theorem exponentFits_of_exact (hm : x.mant < 2 ^ 64) (hlow : -2000 ≤ x.exp) (hhigh : x.exp ≤ 2000) :
    exponentFits (exactRational x) := by
  intro hne
  rw [abs_exactRational]
  have hpos := two_zpow_pos x.exp
  have hmant : (1 : ℚ) ≤ x.mant := by
    have : x.mant ≠ 0 := fun h0 => hne (by simp [exactRational, h0])
    exact_mod_cast Nat.one_le_iff_ne_zero.2 this
  have hmant' : (x.mant : ℚ) < (2 : ℚ) ^ (64 : ℤ) := by
    exact_mod_cast hm
  constructor
  · calc (2 : ℚ) ^ (-32000 : ℤ) < (2 : ℚ) ^ x.exp := zpow_lt_zpow_right₀ (by norm_num) (by omega)
      _ ≤ x.mant * (2 : ℚ) ^ x.exp := le_mul_of_one_le_left hpos.le hmant
  · calc x.mant * (2 : ℚ) ^ x.exp < (2 : ℚ) ^ (64 : ℤ) * (2 : ℚ) ^ x.exp := mul_lt_mul_of_pos_right hmant' hpos
      _ = (2 : ℚ) ^ (64 + x.exp) := (two_zpow_add _ _).symm
      _ ≤ (2 : ℚ) ^ (32000 : ℤ) := zpow_le_zpow_right₀ (by norm_num) (by omega)

/-- A number is represented by as many bits as its mantissa has. -/
theorem representable_of_exact {p : Nat} (hm : x.mant < 2 ^ p) : representable p (exactRational x) := by
  have hm' : (x.mant : ℤ) < 2 ^ p := by exact_mod_cast hm
  refine ⟨if x.sign then -x.mant else x.mant, x.exp, ?_, ?_⟩
  · cases x.sign <;> simpa using hm'
  · unfold exactRational
    cases x.sign <;> simp

end

/-! ### What the operations leave in the accumulator -/

section
variable (fpOp : Rounding) (cp : Coprocessor) (a b : Word) (krn : Bool) (fresh : Nat)

/-- A floating load rounds its operand (R299). -/
theorem copOperate_loadFloat (m : FloatFormat) : roundedTo fpOp m.precision
    (if m.inputG then gRat (a ++ b) else fRat a) (copOperate fpOp (.loadFloat m) cp a b krn fresh).ac := by
  have hp : 2 ≤ m.precision ∧ m.precision ≤ 63 := by cases m <;> decide
  rw [← floatOperand_rational]
  exact floatResult_exact (k := ⟨fpOp, _, _, _⟩) hp.1 hp.2

/-- A load whose precision is that of its operand is exact (R299). -/
theorem copOperate_loadFloat_exact {m : FloatFormat} (hm : m.precision = if m.inputG then 53 else 24) :
    accumulatorRat (copOperate fpOp (.loadFloat m) cp a b krn fresh).ac =
      if m.inputG then gRat (a ++ b) else fRat a := by
  obtain ⟨hlow, hhigh⟩ := floatOperand_exp_abs m a b
  refine (copOperate_loadFloat ..).exact ?_ ?_ <;> rw [← floatOperand_rational]
  · exact exponentFits_of_exact (floatOperand_mant_lt_64 m a b) hlow hhigh
  · exact representable_of_exact (hm ▸ floatOperand_mant_lt m a b)

/-- Floating arithmetic that does not trap rounds the exact result (R310). -/
theorem copOperate_float {fn : ArithFn} {m : FloatFormat} {r : CopResult}
    (h : copTraps (.float fn m) r cp a b = false) : roundedTo fpOp m.precision
      (exactRat fn (accumulatorRat cp.ac) (if m.inputG then gRat (a ++ b) else fRat a))
      (copOperate fpOp (.float fn m) cp a b krn fresh).ac := by
  obtain ⟨hreserved, hnoDiv⟩ : reservedOperand m a = false ∧ copDivideByZero (.float fn m) cp.ac a b = false := by
    simp only [copTraps, Bool.or_eq_false_iff] at h
    exact ⟨h.1.2, h.2⟩
  rw [← floatOperand_rational, ← accumulatorValue_rational]
  refine floatArith_rounded (k := ⟨fpOp, _, _, _⟩) fn m cp.ac.frac.isLt (floatOperand_mant_lt_64 m a b)
    ?divide ?rdivide
  case divide =>
    rintro rfl
    simpa [copDivideByZero, hreserved] using hnoDiv
  case rdivide =>
    rintro rfl hzero
    simp [copDivideByZero, BitVec.eq_of_toNat_eq (y := 0#64) hzero] at hnoDiv

/-- floatf and floatg round a fixed-point number (R314). -/
theorem copOperate_floatf : roundedTo fpOp 24 (((a ++ b).toInt : ℚ) / 2 ^ 32)
    (copOperate fpOp .floatf cp a b krn fresh).ac :=
  fixedPoint_rational (a ++ b) ▸ floatResult_exact (k := ⟨fpOp, _, _, _⟩) (by norm_num) (by norm_num)

theorem copOperate_floatg : roundedTo fpOp 53 (((a ++ b).toInt : ℚ) / 2 ^ 32)
    (copOperate fpOp .floatg cp a b krn fresh).ac :=
  fixedPoint_rational (a ++ b) ▸ floatResult_exact (k := ⟨fpOp, _, _, _⟩) (by norm_num) (by norm_num)

end

/-- Settles O55: every floating operation leaves a rounded value, and f and g loads an exact one. -/
theorem copFloatNormal : Obligations.CopFloatNormal := by
  intro i o r ra rb rc s a b hi hd hbusy hab htraps
  refine ⟨_, copYields_of hi hd hbusy hab htraps, ?f, ?g, ?gf, ?arithmetic, ?floatf, ?floatg⟩
  case f => rintro rfl; exact ⟨(copOperate_loadFloat ..).normal, copOperate_loadFloat_exact _ _ _ _ _ _ rfl⟩
  case g => rintro rfl; exact ⟨(copOperate_loadFloat ..).normal, copOperate_loadFloat_exact _ _ _ _ _ _ rfl⟩
  case gf => rintro rfl; exact (copOperate_loadFloat ..).normal
  case arithmetic => rintro fn m rfl; exact (copOperate_float _ { s.cp with abort := false } _ _ _ _ htraps).normal
  case floatf => rintro rfl; exact (copOperate_floatf ..).normal
  case floatg => rintro rfl; exact (copOperate_floatg ..).normal

/-- Settles O56: each of the operations rounds its exact value. -/
theorem floatRounding : Obligations.FloatRounding := by
  intro i o r ra rb rc s a b p y hi hd hbusy hab htraps hvalue hfits
  have hrounded : roundedTo s.lay.fpOp p y
      (copOperate s.lay.fpOp o { s.cp with abort := false } a b s.eff.krn s.fresh).ac := by
    rcases hvalue with ⟨fn, m, rfl, rfl, rfl⟩ | ⟨rfl, rfl, rfl⟩ | ⟨⟨rfl, rfl⟩ | ⟨rfl, rfl⟩, rfl⟩
    · exact copOperate_float _ { s.cp with abort := false } _ _ _ _ htraps
    · exact copOperate_loadFloat _ _ _ _ _ _ .gf
    · exact copOperate_floatf ..
    · exact copOperate_floatg ..
  exact ⟨_, copYields_of hi hd hbusy hab htraps, hrounded.zero, hrounded.near hfits, hrounded.nearest hfits,
    hrounded.exact hfits⟩

end Sys2Proof.Machine
end

section
/-!
The clock and the interval timer (O58): what one advance does, and a run of single cycles by induction.
-/
namespace Sys2Proof.Machine

/-! ## The clock (R325, R327) -/

section
variable (cp : Coprocessor) (n fresh : Nat)

/-- A request that is pending stays, and ages with the cycles (R325). -/
theorem copClock_pending (h : cp.intPending = true) :
    (copClock cp n fresh).intPending = true ∧ (copClock cp n fresh).intAge = cp.intAge + n := by
  simp [copClock, waitedFor, h]

/-- A request that rises within `n` cycles has not waited longer (R325). -/
theorem risenFor_le : risenFor cp n ≤ n := by
  unfold risenFor
  split <;> omega

/-- The time of day runs on while no request has waited 2^19 cycles (R325, R327). -/
theorem todAfter_of (hn : n < 2 ^ 19) (hage : cp.intPending = true → cp.intAge + n < 2 ^ 19) :
    todAfter cp n fresh = cp.tod + BitVec.ofNat 64 n := by
  have hwaited : waitedFor cp n fresh < 2 ^ 19 := by
    have := risenFor_le cp n
    unfold waitedFor
    split
    · exact hage ‹_›
    · split <;> omega
  rw [todAfter, if_neg (by omega)]

end

/-- What the clock has come to `n` cycles after an armed timer's start, `due` cycles before its time: the time of day
has run on, and the request has come with the due cycle, as old as the cycles since; before that the timer is as it was. -/
structure clockRun (cp late : Coprocessor) (due n : Nat) : Prop where
  tod : late.tod = cp.tod + BitVec.ofNat 64 n
  before : n < due → late.timer = .armed ∧ late.itime = cp.itime ∧ late.intPending = false
  after : due ≤ n → late.intPending = true ∧ late.intAge = n - due

/-- The request comes with the due cycle, and not before (R325). -/
theorem clockRun.pending_iff {cp late : Coprocessor} {due n : Nat} (h : clockRun cp late due n) :
    late.intPending = true ↔ due ≤ n := by
  refine ⟨fun hp => ?_, fun hle => (h.after hle).1⟩
  by_contra hlt
  obtain ⟨-, -, hnot⟩ := h.before (by omega)
  exact absurd hp (by simp [hnot])

/-- One more cycle (R325). -/
theorem clockRun_succ {cp late : Coprocessor} {due n : Nat} (fresh : Nat) (hdue : due = (cp.itime - cp.tod).toNat)
    (hn : n + 1 < 2 ^ 19) (h : clockRun cp late due n) : clockRun cp (copClock late 1 fresh) due (n + 1) := by
  have hage : late.intPending = true → late.intAge + 1 < 2 ^ 19 := by
    intro hp
    have := (h.after (h.pending_iff.1 hp)).2
    omega
  have htod : (copClock late 1 fresh).tod = cp.tod + BitVec.ofNat 64 (n + 1) := by
    rw [copClock, todAfter_of _ _ _ (by norm_num) hage, h.tod, BitVec.add_assoc, ← BitVec.ofNat_add]
  by_cases hd : due ≤ n
  · obtain ⟨hp, ha⟩ := h.after hd
    obtain ⟨hp', ha'⟩ := copClock_pending late 1 fresh hp
    exact ⟨htod, fun _ => by omega, fun _ => ⟨hp', by omega⟩⟩
  · obtain ⟨hphase, hitime, hp⟩ := h.before (by omega)
    have hleft : (late.itime - late.tod).toNat = due - n := by
      rw [hitime, h.tod]
      bv_omega
    have hrises : timerRises late 1 fresh = decide (due = n + 1) := by
      simp only [timerRises, hphase, hleft, decide_eq_decide]
      omega
    have hrisen : risenFor late 1 = 0 ∨ due ≠ n + 1 := by
      simp only [risenFor, hphase, hleft]
      omega
    refine ⟨htod, fun hlt => ?early, fun hle => ?due⟩
    case early => simp [copClock, hrises, hp, hphase, hitime]; omega
    case due =>
      have heq : due = n + 1 := by omega
      simp [copClock, waitedFor, hrises, hp, heq, hrisen.resolve_right (not_not.2 heq)]

/-- The clock after a run of single cycles (R325, R327), by induction on their number. -/
theorem clockRun_foldl {cp : Coprocessor} {due : Nat} (f : Nat → Nat) (hdue : due = (cp.itime - cp.tod).toNat)
    (harmed : cp.timer = .armed) (hp : cp.intPending = false) (hpos : 1 ≤ due) (n : Nat) (hn : n < 2 ^ 19) :
    clockRun cp ((List.range n).foldl (fun c k => copClock c 1 (f k)) cp) due n := by
  induction n with
  | zero => exact ⟨by simp, fun _ => ⟨harmed, rfl, hp⟩, fun h => by omega⟩
  | succ n ih =>
    rw [List.range_succ, List.foldl_append]
    exact clockRun_succ (f n) hdue hn (ih (by omega))

/-- Where no input is listed the environment's share is one cycle (log 48). -/
theorem environment_of_nil {s : State} (h : s.inputs = []) : environment s = .next (s.newStep.tick 1) := by
  rw [environment, h]

/-- With its refresh running main memory keeps what it holds (R439). -/
theorem newStep_memoryAfter {s : State} {n : Nat} (h : s.csm.nsStopped = none) :
    s.newStep.memoryAfter n = s.mem := by
  have hnew : s.newStep.csm.nsStopped = none := h
  rw [State.memoryAfter, hnew]
  rfl

/-- Settles O58: the environment's share, one advance of the clock, and a run of single cycles. -/
theorem clockAndInterval : Obligations.ClockAndInterval := by
  refine ⟨fun s hin hns => ?environment, fun cp n f => ⟨rfl, rfl, copClock_pending cp n f, todAfter_of cp n f⟩, ?run⟩
  case environment => rw [environment_of_nil hin, State.tick, newStep_memoryAfter hns]; rfl
  case run =>
    rintro cp n f harmed hp hlow - hn late rfl
    have h := clockRun_foldl f rfl harmed hp hlow n hn
    exact ⟨h.tod, h.pending_iff, fun hl => (h.after (h.pending_iff.1 hl)).2⟩

end Sys2Proof.Machine
end

section
/-!
What user mode's traps are taken for (O12, O13, O31, O34): by the instruction itself, by its data reference, by a
request, by a fault of its successor's fetch; in kernel mode the processor halts.
-/
namespace Sys2Proof.Machine

/-- In user mode with nothing in flight the trap is taken (R345); the coprocessor is as before. -/
theorem enterTrap_user {s : State} (h : s.userReady) (c : TrapInfo) :
    ∃ t, enterTrap c s = .next t ∧ trapped s t c ∧ t.cp = s.cp := by
  obtain ⟨-, hflight, hspecial⟩ := h
  obtain ⟨t, ht, htrapped⟩ := enterTrap_spec s c hflight hspecial
  obtain ⟨-, rfl⟩ := enterTrap_next ht
  exact ⟨_, ht, htrapped, trapState_cp s c⟩

/-! ## Privileged instructions (R362) -/

/-- User mode without prv is unprivileged (R37). -/
theorem unprivileged_of {s : State} (hkrn : s.eff.krn = false) (hprv : s.eff.prv = false) :
    s.eff.unprivileged = true := by
  rw [Psw.unprivileged, hkrn, hprv]
  rfl

/-- Settles O34: every privileged instruction goes through `privileged`, which takes the trap. -/
theorem privilegedTraps : Obligations.PrivilegedTraps := by
  intro i s hclass hready hprv
  obtain ⟨r, hexec⟩ := exec_of_trapClass_privileged hclass s
  obtain ⟨t, ht, htrapped, hcp⟩ := enterTrap_user hready illegalTrap
  rw [← privileged_trap r (unprivileged_of hready.1 hprv), ← hexec] at ht
  exact ⟨t, illegalTrap, ht, htrapped, hcp, rfl, rfl, rfl, rfl, rfl, rfl⟩

/-! ## Faults of a data reference (R348, R349) -/

/-- A load or store whose reference faults traps or halts, with the page of its effective address. -/
theorem exec_dataFault {s : State} {ra rb : RegField} {disp : BitVec 16} {p : Instr × Bool}
    (hp : p ∈ [(Instr.load ra rb disp, false), (.store ra rb disp, true)]) :
    (dataReference s.dtlb s.eff (s.ea rb disp) p.2 = .noTranslation →
      exec p.1 s = trapOrHalt s (dataTranslationTrap (s.ea rb disp)) .dtf ra rb) ∧
    (dataReference s.dtlb s.eff (s.ea rb disp) p.2 = .readOnly →
      exec p.1 s = trapOrHalt s (writeProtectionTrap (s.ea rb disp)) .wpv ra rb) := by
  simp only [List.mem_cons, List.not_mem_nil, or_false] at hp
  rcases hp with rfl | rfl
  case inl =>
    have hexec : exec (.load ra rb disp) s = execLoad ra rb disp s := rfl
    exact ⟨fun href => by rw [hexec, execLoad, href], fun href => by rw [hexec, execLoad, href]⟩
  case inr =>
    have hexec : exec (.store ra rb disp) s = execStore ra rb disp s := rfl
    exact ⟨fun href => by rw [hexec, execStore, href], fun href => by rw [hexec, execStore, href]⟩

/-- The trap of a data fault leaves its page in DTFR (R46, R345). -/
theorem trapOrHalt_dataFault {s : State} (h : s.userReady) {c : TrapInfo} (hc : (c.dtf || c.wpv) = true)
    (cause : HaltCause) (ra rb : RegField) :
    ∃ t, trapOrHalt s c cause ra rb = .next t ∧ trapped s t c ∧ t.cp = s.cp ∧ t.dtfr = c.dataPage := by
  obtain ⟨t, ht, htrapped, hcp⟩ := trapOrHalt_user h c cause ra rb
  exact ⟨t, ht, htrapped, hcp, htrapped.dtfr hc⟩

/-- Settles O31: each of the two faults is one `trapOrHalt`, with its own bit of the PSW. -/
theorem dataFaults : Obligations.DataFaults := by
  rintro ra rb disp s _ rfl p hp
  obtain ⟨hmissing, hreadOnly⟩ := exec_dataFault (s := s) hp
  refine ⟨fun href => ?dtf, fun href => ?wpv⟩
  case dtf =>
    rw [hmissing href]
    refine ⟨fun hready => ?_, fun hkernel => trapOrHalt_kernel hkernel ..⟩
    obtain ⟨t, ht, htrapped, hcp, hdtfr⟩ :=
      trapOrHalt_dataFault hready (c := dataTranslationTrap (s.ea rb disp)) rfl .dtf ra rb
    exact ⟨_, t, ht, htrapped, hcp, rfl, rfl, rfl, rfl, rfl, rfl, hdtfr⟩
  case wpv =>
    rw [hreadOnly href]
    refine ⟨fun hready => ?_, fun hkernel => trapOrHalt_kernel hkernel ..⟩
    obtain ⟨t, ht, htrapped, hcp, hdtfr⟩ :=
      trapOrHalt_dataFault hready (c := writeProtectionTrap (s.ea rb disp)) rfl .wpv ra rb
    exact ⟨_, t, ht, htrapped, hcp, rfl, rfl, rfl, rfl, rfl, rfl, hdtfr⟩

/-! ## Requests and the successor's fetch (R347, R357, R358) -/

section
variable {s t : State}

/-- With nothing in flight no ICAR idiom is under way, and every word is admitted (R183). -/
theorem icarAdmits_of_userReady (h : s.userReady) (d : Decoded) : icarAdmits s.icar d = true := by
  obtain ⟨-, hflight, -⟩ := h
  have hidle : s.icar = .idle := by
    simp only [State.inFlight, Bool.or_eq_false_iff, bne_eq_false_iff_eq] at hflight
    exact hflight.2
  rw [hidle]
  rfl

/-- An instruction's own conditions hold no fault of its successor's fetch (R347). -/
theorem ownTrap_itf (c : TrapClass) (s : State) : (ownTrap c s).itf = false := by
  have hreference : ∀ r ea, (referenceTrap r ea).itf = false := fun r ea => by cases r <;> rfl
  cases c with
  | load rb disp => exact hreference _ _
  | store rb disp => exact hreference _ _
  | privileged | cop => dsimp only [ownTrap]; split <;> rfl
  | _ => rfl

/-- Without a fault of the successor's fetch the page recorded for it does not matter (R346). -/
theorem trapped_of_instPage {c : TrapInfo} {page : BitVec 22} (hc : c.itf = false)
    (h : trapped s t { c with itf := false, instPage := page }) : trapped s t c :=
  ⟨h.pc, h.npc, h.pc2, h.pc1, h.rr, hc ▸ h.causes, h.ext, h.cop, h.literal, h.kernel, h.kept,
    fun hitf => absurd hitf (ne_true_of_eq_false hc), h.dtfr, h.regs, h.memory, h.translation, h.io, h.run⟩

/-- A trap entered after a suppressed instruction is one from the state before it: what it leaves behind is at most an
abort of the coprocessor's (R330). -/
theorem trapped_of_suppressed {x : TrapInfo} (c : TrapClass) (h : trapped (suppressed c s) t x) : trapped s t x := by
  unfold suppressed at h
  split at h
  · split at h
    · exact trapped_of_copAbort h
    · exact h
  · exact h

/-- In user mode a request, or a fault of the successor's fetch, suppresses the instruction (R351, R357, R358). -/
theorem runMode_traps {itf : Bool} (h : s.userReady) (hrequest : (itf || (s.extReq || s.copReq)) = true) (w : Word)
    (d : Decoded) :
    ∃ t, runMode w d s itf = .next t ∧
      trapped s t { ownTrap (decodedTrapClass d) s with itf := itf, instPage := pageOf (s.npc >>> 2) } := by
  obtain ⟨huser, hflight, hspecial⟩ := h
  obtain ⟨hflightSame, hspecialSame⟩ := suppressed_keeps_inFlight (decodedTrapClass d) s
  obtain ⟨t, ht, htrapped⟩ := enterTrap_spec (suppressed (decodedTrapClass d) s)
    { ownTrap (decodedTrapClass d) s with itf := itf, instPage := pageOf (s.npc >>> 2) }
    (hflightSame.trans hflight) (hspecialSame.trans hspecial)
  refine ⟨t, ?_, trapped_of_suppressed _ htrapped⟩
  rw [runMode, huser, if_neg Bool.false_ne_true, runUser, Bool.or_assoc, hrequest, if_pos rfl, ht]

end

/-- Settles O12: the request is seen when the word runs in user mode, its successor's fetch being no fault. -/
theorem interruptSuppresses : Obligations.InterruptSuppresses := by
  intro w s rwa hready hrequest hparity hsuccessor
  have hruns := (runWord_of (icarAdmits_of_userReady hready _) hparity).2.2 rwa hsuccessor
  obtain ⟨t, ht, htrapped⟩ := runMode_traps (itf := false) hready hrequest w (decodeWord w)
  obtain ⟨-, hitf, -⟩ := htrapped.causes
  exact ⟨t, hruns.trans ht, trapped_of_instPage (ownTrap_itf _ s) htrapped, hitf⟩

section
variable {s t : State}

/-- An instruction that halts the processor by itself keeps its record (R170 to R174). -/
theorem runMode_haltsItself {d : Decoded} (hkernel : s.eff.krn = true) (hexec : execDecoded d s = .next t)
    (hhalted : t.halted ≠ none) (w : Word) : runMode w d s true = .next t := by
  have hself : haltsItself (execDecoded d s) = true := by rw [hexec]; exact Option.isSome_iff_ne_none.2 hhalted
  rw [runMode, hkernel, if_pos rfl, runKernel, hself, hexec]
  rfl

/-- In kernel mode a kernel instruction without a translation halts the processor at its predecessor (R347, R365). -/
theorem runMode_successorHalts {d : Decoded} (hkernel : s.eff.krn = true) (hnext : s.nextPsw.krn = true)
    (hgoes : ∀ t, execDecoded d s = .next t → t.halted = none) (w : Word) :
    runMode w d s true = .next (s.haltFields .itf (raField w) (rbField w)) := by
  have hself : haltsItself (execDecoded d s) = false := by
    cases he : execDecoded d s with
    | next t => exact Option.isSome_eq_false_iff.2 (Option.isNone_iff_eq_none.2 (hgoes t he))
    | fault e => rfl
    | refused e => rfl
  rw [runMode, hkernel, if_pos rfl, runKernel, hself, successorFault, hnext]
  rfl

end

/-- Settles O13: the trap in user mode; in kernel mode the instruction's own halt, or else its successor's. -/
theorem successorFault_spec : Obligations.SuccessorFault := by
  intro w s hsuccessor hparity
  refine ⟨fun hready => ?user, fun hkernel hidle => ?kernel⟩
  case user =>
    have hruns := (runWord_of (icarAdmits_of_userReady hready _) hparity).2.1 hsuccessor
    obtain ⟨t, ht, htrapped⟩ := runMode_traps (itf := true) hready rfl w (decodeWord w)
    obtain ⟨-, hitf, -⟩ := htrapped.causes
    exact ⟨t, hruns.trans ht, htrapped, hitf, htrapped.itfr rfl⟩
  case kernel =>
    have hruns := (runWord_of (by rw [hidle]; rfl) hparity).2.1 hsuccessor
    rw [hruns]
    exact ⟨fun t hexec hhalted => runMode_haltsItself hkernel hexec hhalted w,
      fun hnext hgoes => ⟨_, runMode_successorHalts hkernel hnext hgoes w, halt_spec s .itf _ _⟩⟩

end Sys2Proof.Machine
end

section
/-!
A halted processor (O11): no event but a reset, or a packet with the Boot bit, reaches it, and its step runs nothing.
-/
namespace Sys2Proof.Machine

/-! ## Parts of the state -/

/-- Two records that agree in a part of themselves agree in each field of the part. -/
theorem field_of_part {σ α : Type} {part : σ → σ} {s t : σ} (h : part t = part s) (f : σ → α)
    (hf : ∀ u, f (part u) = f u := by exact fun _ => rfl) : f t = f s := by
  rw [← hf t, h, hf]

/-! ## What stands still -/

/-- The part of the state that a halt holds still (R365), and the layouts, which read the packets: the rest is that of
the reset state. -/
def State.standing (s : State) : State :=
  { State.reset with
    halted := s.halted, pc := s.pc, npc := s.npc, pc1 := s.pc1, pc2 := s.pc2, psw := s.psw, regs := s.regs,
    marks := s.marks, rr := s.rr, itfr := s.itfr, dtfr := s.dtfr, itlb := s.itlb, dtlb := s.dtlb,
    icache := s.icache, dcache := s.dcache, cp := s.cp, lay := s.lay }

/-- A packet that does not boot the processor: it is discarded, or its Boot bit is clear (R438, R440). -/
def csmBootless (l : Layout) (p : CsmPacket) : Prop := csmDiscards p = true ∨ (csmModeB l p.endModeB).boot = false

/-- An event that leaves a halted processor halted (R365, R440, R460). -/
def Event.harmless (l : Layout) (e : Event) : Prop := e ≠ .reset ∧ ∀ p, e = .csm p → csmBootless l p

section
variable {s t : State}

theorem standing_transact (s : State) (d : DmaTransaction) (held : Line) :
    (s.transact d held).2.standing = s.standing := by
  cases d with
  | read a => rw [State.transact, readRealLine_shape]; rfl
  | write a words => rfl

theorem standing_dmaOne {k : Fin 7} {r : DmaRequest} (h : dmaOne s k r = .next t) : t.standing = s.standing := by
  unfold dmaOne at h
  split at h
  · cases h; rfl
  · split at h
    · cases h; rfl
    · split at h
      · cases h; rfl
      · split at h
        · cases h
        · cases h; exact standing_transact s _ _

theorem standing_dmaSlots {requests : Vector (Option DmaRequest) 7} (l : List (Fin 7))
    (h : dmaSlots l requests s = .next t) : t.standing = s.standing := by
  induction l generalizing s with
  | nil => cases h; rfl
  | cons k l ih =>
    unfold dmaSlots at h
    split at h
    · exact ih h
    · obtain ⟨u, hu, h⟩ := andThen_next h
      exact (ih h).trans (standing_dmaOne (t := u) hu)

/-- A packet that does not boot the processor changes the clock/scan module, and whether the processor waits (R438). -/
theorem standing_csmPacket {p : CsmPacket} (hp : csmBootless s.lay p) (h : csmPacket p s = .next t) :
    t.standing = s.standing := by
  unfold csmPacket at h
  split at h
  · cases h; rfl
  · rename_i hdiscards
    have hboot := hp.resolve_left hdiscards
    split at h
    · cases h; rfl
    · split at h
      · cases h
      · rw [if_neg (ne_true_of_eq_false hboot)] at h
        cases h; rfl

theorem standing_adaptorActs (s : State) (n : BitVec 3) (e : Event) : (s.adaptorActs n e).standing = s.standing := by
  unfold State.adaptorActs
  split <;> rfl

theorem standing_setBusy (s : State) (n : BitVec 3) (b : Bool) : (s.setBusy n b).standing = s.standing := by
  unfold State.setBusy
  split <;> rfl

theorem standing_busError (s : State) (k : Nat) : (s.busError k).standing = s.standing := by
  unfold State.busError
  split <;> rfl

/-- A harmless event at a halted processor: nothing is evicted or spoilt, and the rest is outside it (log 51). -/
theorem standing_applyEvent {e : Event} (hf : s.frozen = true) (he : e.harmless s.lay)
    (h : applyEvent e s = .next t) : t.standing = s.standing := by
  obtain ⟨hreset, hpacket⟩ := he
  cases e with
  | evictData l => rw [applyEvent, hf] at h; cases h; rfl
  | evictInst l => rw [applyEvent, hf] at h; cases h; rfl
  | spoil x => rw [applyEvent, hf] at h; cases h; rfl
  | dma requests => exact standing_dmaSlots _ h
  | ioBusParity => cases h; exact standing_busError s 0
  | cpuBusParity => cases h; exact standing_busError s 1
  | busy n b => cases h; exact standing_setBusy s n b
  | tma n r => cases h; exact standing_adaptorActs s n _
  | tda n r => cases h; exact standing_adaptorActs s n _
  | tfa n r => cases h; exact standing_adaptorActs s n _
  | tna n r => cases h; exact standing_adaptorActs s n _
  | otherInterrupt n b => cases h; exact standing_adaptorActs s n _
  | csm p => exact standing_csmPacket (hpacket p rfl) h
  | reset => exact absurd rfl hreset
  | ecc | busInst | busData | takeLock | dropLock => cases h; rfl

/-- A halted processor stands still (R365). -/
theorem frozen_of_halted {r : HaltRecord} (h : s.halted = some r) : s.frozen = true := by
  rw [State.frozen, h]
  rfl

theorem standing_applyEvents {es : List Event} {r : HaltRecord} (hs : s.halted = some r)
    (hes : ∀ e ∈ es, e.harmless s.lay) (h : applyEvents es s = .next t) : t.standing = s.standing := by
  induction es generalizing s with
  | nil => cases h; rfl
  | cons e es ih =>
    obtain ⟨u, hu, h⟩ := andThen_next h
    obtain ⟨he, hes⟩ := List.forall_mem_cons.1 hes
    have hkept := standing_applyEvent (frozen_of_halted hs) he hu
    have hlay : u.lay = s.lay := field_of_part hkept State.lay
    have hhalted : u.halted = s.halted := field_of_part hkept State.halted
    exact (ih (s := { u with fresh := u.fresh + 1 }) (hhalted.trans hs) (by rwa [hlay]) h).trans hkept

/-- The clock of a halted processor's coprocessor stands still too (R365). -/
theorem standing_tick (n : Nat) (hf : s.frozen = true) : (s.tick n).standing = s.standing := by
  unfold State.tick
  rw [hf]
  rfl

/-- The environment's share of a halted processor's step. -/
theorem standing_environment {r : HaltRecord} (hs : s.halted = some r)
    (hi : ∀ i, s.inputs.head? = some i → ∀ e ∈ i.events, e.harmless s.lay) (h : environment s = .next t) :
    t.standing = s.standing := by
  have hf := frozen_of_halted hs
  unfold environment at h
  split at h
  · cases h
    exact standing_tick (s := s.newStep) 1 hf
  · rename_i i l hl
    have hharmless := hi i (by rw [hl]; rfl)
    have htick := standing_tick (s := { s.newStep with inputs := l }) (1 + i.extraCycles) hf
    exact (standing_applyEvents (s := State.tick { s.newStep with inputs := l } _) hs hharmless h).trans htick

end

/-- Settles O11: the environment leaves the halted processor, which then runs nothing. -/
theorem haltedStays : Obligations.HaltedStays := by
  intro s t r hs hi h
  obtain ⟨u, hu, h⟩ := andThen_next h
  have hkept := standing_environment hs hi hu
  have hhalted : u.halted = some r := (field_of_part hkept State.halted).trans hs
  rw [runProcessor, frozen_of_halted hhalted] at h
  cases h
  exact ⟨hhalted, field_of_part hkept State.pc, field_of_part hkept State.npc, field_of_part hkept State.psw,
    regsKept_of (field_of_part hkept State.regs) (field_of_part hkept State.marks), field_of_part hkept State.rr,
    ⟨field_of_part hkept State.itlb, field_of_part hkept State.dtlb⟩, field_of_part hkept State.icache,
    field_of_part hkept State.dcache, field_of_part hkept State.cp, field_of_part hkept State.itfr,
    field_of_part hkept State.dtfr, field_of_part hkept State.pc1, field_of_part hkept State.pc2⟩

end Sys2Proof.Machine
end

section
/-!
What user mode without prv cannot change (O60): whatever word runs, the guarded part of the state stays, and the PSW
stays or a trap is entered.
-/
namespace Sys2Proof.Machine

/-! ## The guarded part -/

/-- The coprocessor's clock and interval timer (R325 to R327). -/
def Coprocessor.clock (c : Coprocessor) : Coprocessor :=
  { Coprocessor.reset with
    tod := c.tod, itime := c.itime, timer := c.timer, intPending := c.intPending, intAge := c.intAge }

/-- The memory controller's registers but its error record (R53 to R59, R63). -/
def MemCtl.control (m : MemCtl) : MemCtl :=
  { MemCtl.reset with
    ioSel := m.ioSel, ioAddress := m.ioAddress, ioReadData := m.ioReadData, ioWriteData := m.ioWriteData,
    slot := m.slot, ack := m.ack, enable := m.enable, lock := m.lock }

/-- The part of the state that user mode without prv cannot change (R360, R362): the rest is that of the reset
state. -/
def State.guarded (s : State) : State :=
  { State.reset with
    itlb := s.itlb, dtlb := s.dtlb, slots := s.slots, mem := s.mem, prom := s.prom, icache := s.icache,
    mc := s.mc.control, cp := s.cp.clock, pend1 := s.pend1, pend2 := s.pend2, pend3 := s.pend3, halted := s.halted }

/-- A trap has set kernel mode and sent control to real address 0 (R345). -/
def trapEntered (s t : State) : Prop :=
  t.pc = 0x00000000#32 ∧ t.npc = 0x00000004#32 ∧ t.psw.krn = true ∧ t.psw.pre = true ∧ t.psw.imp = true ∧
    t.psw.dmp = true ∧ t.psw.prv = s.psw.prv ∧ t.psw.pid = s.psw.pid

/-- What user mode without prv leaves. -/
structure isolated (s t : State) : Prop where
  guarded : t.guarded = s.guarded
  psw : t.psw = s.psw ∨ trapEntered s t

/-- User mode without prv, and no PSW write under way. -/
structure State.confined (s : State) : Prop where
  krn : s.eff.krn = false
  prv : s.eff.prv = false
  pend1 : s.pend1 = none
  pend2 : s.pend2 = none
  pend3 : s.pend3 = none

/-! ## Retiring, traps -/

section
variable {s t u : State}

/-- What has changed nothing of the guarded part and the PSW retires. -/
theorem isolated_retireWith (hs : s.confined) (hg : u.guarded = s.guarded) (hp : u.psw = s.psw) (d : Did) (n : Word)
    (p : IcarPhase) : isolated s (u.retireWith d n p none) := by
  have h1 : u.pend1 = none := (field_of_part hg State.pend1).trans hs.pend1
  have h2 : u.pend2 = none := (field_of_part hg State.pend2).trans hs.pend2
  have h3 : u.pend3 = none := (field_of_part hg State.pend3).trans hs.pend3
  refine ⟨?_, .inl ((retireWith_psw d n p none h3).trans hp)⟩
  rw [← hg]
  simp [State.guarded, h1, h2, h3]

/-- A trap is entered from a state that has changed nothing of the guarded part and the PSW. -/
theorem isolated_enterTrap {c : TrapInfo} (hg : u.guarded = s.guarded) (hp : u.psw = s.psw)
    (h : enterTrap c u = .next t) : isolated s t := by
  obtain ⟨-, rfl⟩ := enterTrap_next h
  have hprv : u.psw.prv = s.psw.prv := congrArg Psw.prv hp
  have hpid : u.psw.pid = s.psw.pid := congrArg Psw.pid hp
  exact ⟨hg, .inr ⟨rfl, rfl, rfl, rfl, rfl, rfl, hprv, hpid⟩⟩

theorem isolated_trapOrHalt {c : TrapInfo} {cause : HaltCause} {ra rb : RegField} (hs : s.confined)
    (h : trapOrHalt s c cause ra rb = .next t) : isolated s t := by
  rw [trapOrHalt, hs.krn] at h
  exact isolated_enterTrap rfl rfl h

/-- A privileged instruction only traps (R362). -/
theorem isolated_privileged {r : Result} (hs : s.confined) (h : privileged s r = .next t) : isolated s t := by
  rw [privileged_trap r (unprivileged_of hs.krn hs.prv)] at h
  exact isolated_enterTrap rfl rfl h

/-- Waiting for the memory controller changes nothing of the guarded part. -/
theorem isolated_stalled (s : State) : isolated s { s with stalled := true } := ⟨rfl, .inl rfl⟩

/-- A result is written into no guarded part. -/
theorem guarded_result (s : State) (n : RegField) (v : Word) : (s.result n v).guarded = s.guarded := by
  obtain ⟨r, m, q, h⟩ := result_shape s n v
  rw [h]
  rfl

/-- What has changed nothing of the guarded part and the PSW retires with a result. -/
theorem isolated_result (hs : s.confined) (hg : u.guarded = s.guarded) (hp : u.psw = s.psw) (n : RegField) (v : Word)
    (d : Did) (nnpc : Word) (p : IcarPhase) : isolated s ((u.result n v).retireWith d nnpc p none) :=
  isolated_retireWith hs ((guarded_result u n v).trans hg) ((State_result_psw u n v).trans hp) d nnpc p

theorem isolated_finish {n : RegField} {v : Word} (hs : s.confined) (h : finish s n v = .next t) : isolated s t := by
  cases h
  exact isolated_result hs rfl rfl n v _ _ _

/-! ## Loads and stores -/

/-- A line that is brought in changes the data cache and the error record alone (R112, R121). -/
theorem guarded_fillData {l : LineAddr} (h : s.fillData l = some u) : u.guarded = s.guarded ∧ u.psw = s.psw := by
  obtain ⟨c, m, e, rfl, hsel, haddr, hwrite, hslot, henable, hlock, hread, hack⟩ := fillData_keeps h
  have hcontrol : m.control = s.mc.control := by
    rw [MemCtl.control, hsel, haddr, hwrite, hslot, henable, hlock, hread, hack]
    rfl
  exact ⟨congrArg (fun k : MemCtl => { s.guarded with mc := k }) hcontrol, rfl⟩

theorem isolated_load {ra rb : RegField} {disp : BitVec 16} (hs : s.confined)
    (h : exec (.load ra rb disp) s = .next t) : isolated s t := by
  rcases exec_load_next h with ⟨rwa, -, h⟩ | ⟨-, c, cause, h⟩
  · rcases loadReal_next h with rfl | ⟨u, hu, rfl⟩
    · exact isolated_stalled s
    · obtain ⟨hg, hp⟩ := guarded_fillData hu
      exact isolated_result hs hg hp ra _ _ _ _
  · exact isolated_trapOrHalt hs h

theorem isolated_store {ra rb : RegField} {disp : BitVec 16} (hs : s.confined)
    (h : exec (.store ra rb disp) s = .next t) : isolated s t := by
  rcases exec_store_next h with ⟨rwa, -, h⟩ | ⟨-, c, cause, h⟩
  · rcases storeReal_next h with rfl | ⟨u, hu, rfl⟩
    · exact isolated_stalled s
    · obtain ⟨hg, hp⟩ := guarded_fillData hu
      exact isolated_retireWith (u := { u.putDataWord rwa (s.readA ra) with rr := none }) hs hg hp _ _ _
  · exact isolated_trapOrHalt hs h

/-! ## Coprocessor instructions -/

theorem copNow_clock (s : State) : s.copNow.clock = s.cp.clock := by
  unfold State.copNow
  split <;> rfl

/-- In user mode no operation touches clock and timer: wrInt and wrTod have no effect there (R324, R326). -/
theorem copOperate_clock (fpOp : Rounding) (o : CopOp) (cp : Coprocessor) (a b : Word) (fresh : Nat) :
    (copOperate fpOp o cp a b false fresh).clock = cp.clock := by
  cases o <;> rfl

theorem copAfter_clock (hk : s.eff.krn = false) (o : CopOp) (ra rb : RegField) :
    (s.copAfter o ra rb).clock = s.cp.clock := by
  unfold State.copAfter
  rw [hk]
  split <;> exact (copOperate_clock ..).trans (copNow_clock s)

/-- A new accumulator, or an abort, changes nothing of the guarded part. -/
theorem guarded_cp {c : Coprocessor} (h : c.clock = s.cp.clock) : ({ s with cp := c } : State).guarded = s.guarded :=
  congrArg (fun k : Coprocessor => { s.guarded with cp := k }) h

theorem guarded_copAbort (s : State) (o : CopOp) (ra rb : RegField) : (s.copAbort o ra rb).guarded = s.guarded :=
  guarded_cp (copNow_clock s)

theorem isolated_copInstr {o : CopOp} {r : CopResult} {ra rb rc : RegField} (hs : s.confined)
    (h : copInstr o r ra rb rc s = .next t) : isolated s t := by
  unfold copInstr at h
  split at h
  · rw [hs.krn] at h
    exact isolated_enterTrap (guarded_copAbort s o ra rb) rfl h
  · cases h
    exact isolated_result hs (guarded_cp (copAfter_clock hs.krn o ra rb)) rfl rc _ _ _ _

/-! ## Every word -/

theorem isolated_jump {i : Instr} (hs : s.confined) (hk : kind i = .jump) (h : exec i s = .next t) :
    isolated s t := by
  rcases exec_of_jump hk s with ⟨ra, rb, disp, rfl⟩ | ⟨r, ra, disp, he⟩
  · cases h
    exact isolated_result hs rfl rfl ra _ _ _ _
  · cases he.symm.trans h
    exact isolated_retireWith (u := { s with rr := none }) hs rfl rfl _ _ _

/-- Specials, kernelExit, pseudoCall and flush are privileged (R156). -/
theorem trapClass_of_kind {i : Instr} (h : kind i = .special ∨ kind i = .queue ∨ kind i = .flush) :
    trapClass i = .privileged := by
  cases i <;> first | rfl | simp [kind, profile] at h

/-- Whatever instruction user mode without prv executes. -/
theorem isolated_exec {i : Instr} (hs : s.confined) (h : exec i s = .next t) : isolated s t := by
  have hprivileged : kind i = .special ∨ kind i = .queue ∨ kind i = .flush → isolated s t := fun hk => by
    obtain ⟨r, he⟩ := exec_of_trapClass_privileged (trapClass_of_kind hk) s
    exact isolated_privileged hs (he.symm.trans h)
  cases hk : kind i with
  | trapping =>
    obtain ⟨c, cause, ra, rb, he⟩ := exec_of_trapping hk s
    exact isolated_trapOrHalt hs (he.symm.trans h)
  | special => exact hprivileged (.inl hk)
  | queue => exact hprivileged (.inr (.inl hk))
  | flush => exact hprivileged (.inr (.inr hk))
  | load =>
    obtain ⟨ra, rb, disp, rfl⟩ := eq_of_load hk
    exact isolated_load hs h
  | store =>
    obtain ⟨ra, rb, disp, rfl⟩ := eq_of_store hk
    exact isolated_store hs h
  | jump => exact isolated_jump hs hk h
  | compute =>
    obtain ⟨n, v, -, he⟩ := exec_of_compute hk s
    exact isolated_finish hs (he.symm.trans h)
  | coprocessor =>
    obtain ⟨o, r, ra, rb, rc, -, he⟩ := exec_of_coprocessor hk s
    exact isolated_copInstr hs (he.symm.trans h)

theorem isolated_execDecoded {d : Decoded} (hs : s.confined) (h : execDecoded d s = .next t) : isolated s t := by
  cases d with
  | instr i => exact isolated_exec hs h
  | undescribed x =>
    cases x with
    | special ra rb f => exact isolated_privileged hs h
    | alu lit ra rb rc => exact isolated_finish hs h
    | cop ra rb rc =>
      cases h
      exact isolated_result
        (u := { s with cp := { s.cp with ac := Config.undefinedAccumulator s.fresh, abort := false } })
        hs rfl rfl rc _ _ _ _

/-- A suppressed instruction leaves at most an abort (R330). -/
theorem guarded_suppressed (c : TrapClass) (s : State) :
    (suppressed c s).guarded = s.guarded ∧ (suppressed c s).psw = s.psw := by
  unfold suppressed
  split
  · split
    · exact ⟨guarded_copAbort s _ _ _, rfl⟩
    · exact ⟨rfl, rfl⟩
  · exact ⟨rfl, rfl⟩

theorem isolated_runMode {w : Word} {d : Decoded} {itf : Bool} (hs : s.confined) (h : runMode w d s itf = .next t) :
    isolated s t := by
  rw [runMode, hs.krn, if_neg Bool.false_ne_true, runUser] at h
  split at h
  · obtain ⟨hg, hp⟩ := guarded_suppressed (decodedTrapClass d) s
    exact isolated_enterTrap hg hp h
  · exact isolated_execDecoded hs h

/-- Whatever word runs, no parity error halting the processor. -/
theorem isolated_runWord {w : Word} (hs : s.confined) (hp : parityHalts (decodeWord w) s = false)
    (h : runWord w s = .next t) : isolated s t := by
  unfold runWord at h
  rw [hp] at h
  split at h
  · cases h
  · rw [if_neg Bool.false_ne_true] at h
    split at h
    · cases h
    all_goals exact isolated_runMode hs h

end

/-- Settles O60: the guarded part and the PSW, field by field. -/
theorem userIsolation : Obligations.UserIsolation := by
  intro w s t hkrn hprv h1 h2 h3 hparity h
  obtain ⟨hg, hpsw⟩ := isolated_runWord ⟨hkrn, hprv, h1, h2, h3⟩ hparity h
  have hmc : t.mc.control = s.mc.control := congrArg State.mc hg
  have hcp : t.cp.clock = s.cp.clock := congrArg State.cp hg
  have hmem : t.mem = s.mem := field_of_part hg State.mem
  have hprom : t.prom = s.prom := field_of_part hg State.prom
  exact ⟨⟨field_of_part hg State.itlb, field_of_part hg State.dtlb⟩, field_of_part hg State.slots,
    fun a => by rw [hmem], fun a => by rw [hprom], field_of_part hg State.icache,
    field_of_part hmc MemCtl.ioSel, field_of_part hmc MemCtl.ioAddress, field_of_part hmc MemCtl.ioReadData,
    field_of_part hmc MemCtl.ack, field_of_part hmc MemCtl.ioWriteData, field_of_part hmc MemCtl.slot,
    field_of_part hmc MemCtl.enable, field_of_part hmc MemCtl.lock, field_of_part hcp Coprocessor.tod,
    field_of_part hcp Coprocessor.itime, field_of_part hcp Coprocessor.timer,
    field_of_part hcp Coprocessor.intPending, (field_of_part hg State.pend1).trans h1,
    (field_of_part hg State.pend2).trans h2, (field_of_part hg State.pend3).trans h3, field_of_part hg State.halted,
    hpsw⟩

end Sys2Proof.Machine
end
